-- ==== Sys2Proof/Word.lean ====
section
/-! DEFINITION. The word and byte types of the TMS99000 and their plainest arithmetic (spec/00_scope.md R7, R11). -/

namespace Sys2Proof

/-- An eight-bit byte (R7). -/
abbrev Byte := BitVec 8

/-- A sixteen-bit machine word; arithmetic on it wraps modulo 2^16 (R7, R11). -/
abbrev Word := BitVec 16

/-- A four-bit register, count or displacement field of an opcode word (spec/30_encoding.md R141). -/
abbrev Nibble := BitVec 4

/-- A workspace register number, 0 to 15 (spec/10_state.md R34). -/
abbrev Reg := BitVec 4

/-- Clears TI bit 15, the least significant bit: the word address below a byte address
(spec/20_memory.md R91, spec/10_state.md R31, R33). -/
def Word.even (a : Word) : Word := a &&& 0xFFFE#16

end Sys2Proof
end

