-- ==== Sys2Proof/Syntax.lean ====
section
/-! DEFINITION. The instructions of the TMS99000: one constructor for every row of spec/opcode_table.json, holding the
fields of its opcode words (spec/30_encoding.md R140 to R142). Immediate operands and address words are not fields:
the meaning reads them from the instruction stream in the order the spec gives (R175; log 6). -/

namespace Sys2Proof

/-- A general operand: a T field and its register field (spec/30_encoding.md R143, spec/40_addressing_modes.md
R202 to R206). -/
inductive Operand
  /-- T = 0, `R`: the register is the operand (R202). -/
  | reg (r : Reg)
  /-- T = 1, `*R`: the register holds the address (R203). -/
  | ind (r : Reg)
  /-- T = 2, register field 0, `@LABEL`: the next instruction word is the address (R204). -/
  | sym
  /-- T = 2, register field not 0, `@TABLE(R)`: next instruction word plus the register (R205). -/
  | idx (r : Reg)
  /-- T = 3, `*R+`: as `*R`, the register then incremented (R206). -/
  | inc (r : Reg)
  deriving DecidableEq, Repr

/-- The instructions, by format (spec/30_encoding.md R142, R165, R166). -/
inductive Instr
  -- F1, dual operand
  | szc (src dst : Operand)
  | szcb (src dst : Operand)
  | s (src dst : Operand)
  | sb (src dst : Operand)
  | c (src dst : Operand)
  | cb (src dst : Operand)
  | a (src dst : Operand)
  | ab (src dst : Operand)
  | mov (src dst : Operand)
  | movb (src dst : Operand)
  | soc (src dst : Operand)
  | socb (src dst : Operand)
  -- F2, register destination
  | coc (src : Operand) (d : Reg)
  | czc (src : Operand) (d : Reg)
  | xor (src : Operand) (d : Reg)
  | mpy (src : Operand) (d : Reg)
  | div (src : Operand) (d : Reg)
  -- F3, extended operation; F4, multiple-bit I/O
  | xop (src : Operand) (n : Nibble)
  | ldcr (src : Operand) (cnt : Nibble)
  | stcr (src : Operand) (cnt : Nibble)
  -- F5, single operand
  | mpys (src : Operand)
  | divs (src : Operand)
  | bind (src : Operand)
  | blwp (src : Operand)
  | b (src : Operand)
  | x (src : Operand)
  | clr (src : Operand)
  | neg (src : Operand)
  | inv (src : Operand)
  | inc (src : Operand)
  | inct (src : Operand)
  | dec (src : Operand)
  | dect (src : Operand)
  | bl (src : Operand)
  | swpb (src : Operand)
  | seto (src : Operand)
  | abs (src : Operand)
  -- F6, displacement
  | jmp (disp : Byte)
  | jlt (disp : Byte)
  | jle (disp : Byte)
  | jeq (disp : Byte)
  | jhe (disp : Byte)
  | jgt (disp : Byte)
  | jne (disp : Byte)
  | jnc (disp : Byte)
  | joc (disp : Byte)
  | jno (disp : Byte)
  | jl (disp : Byte)
  | jh (disp : Byte)
  | jop (disp : Byte)
  | sbo (disp : Byte)
  | sbz (disp : Byte)
  | tb (disp : Byte)
  -- F7, shifts
  | sra (w : Reg) (sc : Nibble)
  | srl (w : Reg) (sc : Nibble)
  | sla (w : Reg) (sc : Nibble)
  | src (w : Reg) (sc : Nibble)
  -- F8 and F9, immediate
  | li (w : Reg)
  | ai (w : Reg)
  | andi (w : Reg)
  | ori (w : Reg)
  | ci (w : Reg)
  | blsk (w : Reg)
  | lwpi
  | limi
  -- F10, register only
  | stwp (w : Reg)
  | stst (w : Reg)
  | lst (w : Reg)
  | lwp (w : Reg)
  -- F11, no operand
  | idle
  | rset
  | rtwp
  | ckon
  | ckof
  | lrex
  -- F12 and F13, two-word opcodes
  | tmb (src : Operand) (bd : Nibble)
  | tcmb (src : Operand) (bd : Nibble)
  | tsmb (src : Operand) (bd : Nibble)
  | slam (src : Operand) (sc : Nibble)
  | sram (src : Operand) (sc : Nibble)
  | am (src dst : Operand)
  | sm (src dst : Operand)
  -- defined only while executing from Macrostore
  | evad (src : Operand)
  | rtwpExit
  | rtwpStay
  | rtwpIllop
  | rtwpQuiet
  | jip (disp : Byte)
  | jnep (disp : Byte)
  -- TMS99110A in standard mode
  | lds
  | ldd
  | ar (src : Operand)
  | cir (src : Operand)
  | sr (src : Operand)
  | mr (src : Operand)
  | dr (src : Operand)
  | lr (src : Operand)
  | str (src : Operand)
  | cri
  | negr
  | cre
  | cer
  | cr (src dst : Operand)
  | mm (src dst : Operand)
  deriving DecidableEq, Repr

end Sys2Proof
end

