-- ==== Sys2Proof/WellFormed.lean ====
section
/-! DEFINITION. Which instruction terms are instructions of the machine: an indexed operand does not name WR0, which
means symbolic addressing (spec/30_encoding.md R143), and the bit tests have no autoincrement source (R164). -/

namespace Sys2Proof

/-- WR0 cannot be an index register (spec/40_addressing_modes.md R205). -/
def Operand.wf : Operand → Bool
  | .idx r => r != 0#4
  | _ => true

/-- The operand is not autoincrement, as TMB, TCMB and TSMB require (spec/30_encoding.md R164). -/
def Operand.notInc : Operand → Bool
  | .inc _ => false
  | _ => true

/-- Every operand of the instruction is one its encoding can express. -/
def Instr.wf : Instr → Bool
  | .szc p q | .szcb p q | .s p q | .sb p q | .c p q | .cb p q | .a p q | .ab p q
  | .mov p q | .movb p q | .soc p q | .socb p q | .am p q | .sm p q | .cr p q | .mm p q => p.wf && q.wf
  | .coc p _ | .czc p _ | .xor p _ | .mpy p _ | .div p _ | .xop p _ | .ldcr p _ | .stcr p _
  | .slam p _ | .sram p _ => p.wf
  | .mpys p | .divs p | .bind p | .blwp p | .b p | .x p | .clr p | .neg p | .inv p | .inc p | .inct p
  | .dec p | .dect p | .bl p | .swpb p | .seto p | .abs p | .evad p
  | .ar p | .cir p | .sr p | .mr p | .dr p | .lr p | .str p => p.wf
  | .tmb p _ | .tcmb p _ | .tsmb p _ => p.wf && p.notInc
  | .jmp _ | .jlt _ | .jle _ | .jeq _ | .jhe _ | .jgt _ | .jne _ | .jnc _ | .joc _ | .jno _ | .jl _ | .jh _
  | .jop _ | .sbo _ | .sbz _ | .tb _ | .jip _ | .jnep _ => true
  | .sra _ _ | .srl _ _ | .sla _ _ | .src _ _ => true
  | .li _ | .ai _ | .andi _ | .ori _ | .ci _ | .blsk _ | .lwpi | .limi => true
  | .stwp _ | .stst _ | .lst _ | .lwp _ => true
  | .idle | .rset | .rtwp | .ckon | .ckof | .lrex => true
  | .rtwpExit | .rtwpStay | .rtwpIllop | .rtwpQuiet => true
  | .lds | .ldd | .cri | .negr | .cre | .cer => true

end Sys2Proof
end

