-- ==== Sys2Proof/Decode.lean ====
section
/-! DEFINITION. Decoding instruction words (spec/30_encoding.md R160 to R166), total on any bytes and rejecting by
name, and the encoder written from the same tables (R142, R161, R187).

Field positions are given in least-significant-bit-zero numbering: TI bits a to b of a word are
`w.extractLsb' (15 - b) (b - a + 1)` (spec/00_scope.md R10). -/

namespace Sys2Proof

/-! ### Fields -/

/-- The T field and register field of an operand as an operand (spec/30_encoding.md R143). -/
def Operand.ofFields (t : BitVec 2) (r : Nibble) : Operand :=
  if t = 0#2 then .reg r
  else if t = 1#2 then .ind r
  else if t = 2#2 then (if r = 0#4 then .sym else .idx r)
  else .inc r

/-- The source operand: Ts in TI bits 10 and 11, S in TI bits 12 to 15. -/
def srcField (w : Word) : Operand := Operand.ofFields (w.extractLsb' 4 2) (w.extractLsb' 0 4)

/-- The destination operand: Td in TI bits 4 and 5, D in TI bits 6 to 9. -/
def dstField (w : Word) : Operand := Operand.ofFields (w.extractLsb' 10 2) (w.extractLsb' 6 4)

/-- TI bits 6 to 9: D, CNT, XOP number, SC or BD. -/
def midField (w : Word) : Nibble := w.extractLsb' 6 4

/-- TI bits 8 to 11: the count of a shift. -/
def countField (w : Word) : Nibble := w.extractLsb' 4 4

/-- TI bits 12 to 15: W. -/
def regField (w : Word) : Reg := w.extractLsb' 0 4

/-- TI bits 8 to 15: DISP. -/
def dispField (w : Word) : Byte := w.extractLsb' 0 8

/-! ### Opcode tables (spec/30_encoding.md R161) -/

/-- F1, by TI bits 0 to 3. -/
def dualOp (k : BitVec 4) : Option (Operand → Operand → Instr) :=
  match k.toNat with
  | 0x4 => some .szc | 0x5 => some .szcb | 0x6 => some .s | 0x7 => some .sb
  | 0x8 => some .c | 0x9 => some .cb | 0xA => some .a | 0xB => some .ab
  | 0xC => some .mov | 0xD => some .movb | 0xE => some .soc | 0xF => some .socb
  | _ => none

/-- F2, F3 and F4, by TI bits 0 to 5. -/
def fieldOp (k : BitVec 6) : Option (Operand → Nibble → Instr) :=
  match k.toNat with
  | 0x08 => some .coc | 0x09 => some .czc | 0x0A => some .xor | 0x0B => some .xop
  | 0x0C => some .ldcr | 0x0D => some .stcr | 0x0E => some .mpy | 0x0F => some .div
  | _ => none

/-- F6, by TI bits 0 to 7. -/
def dispOp (k : BitVec 8) : Option (Byte → Instr) :=
  match k.toNat with
  | 0x10 => some .jmp | 0x11 => some .jlt | 0x12 => some .jle | 0x13 => some .jeq
  | 0x14 => some .jhe | 0x15 => some .jgt | 0x16 => some .jne | 0x17 => some .jnc
  | 0x18 => some .joc | 0x19 => some .jno | 0x1A => some .jl | 0x1B => some .jh
  | 0x1C => some .jop | 0x1D => some .sbo | 0x1E => some .sbz | 0x1F => some .tb
  | _ => none

/-- F7, by TI bits 0 to 7. -/
def shiftOp (k : BitVec 8) : Option (Reg → Nibble → Instr) :=
  match k.toNat with
  | 0x08 => some .sra | 0x09 => some .srl | 0x0A => some .sla | 0x0B => some .src
  | _ => none

/-- F5, by TI bits 0 to 9. -/
def singleOp (k : BitVec 10) : Option (Operand → Instr) :=
  match k.toNat with
  | 0x005 => some .bind | 0x006 => some .divs | 0x007 => some .mpys
  | 0x010 => some .blwp | 0x011 => some .b | 0x012 => some .x | 0x013 => some .clr
  | 0x014 => some .neg | 0x015 => some .inv | 0x016 => some .inc | 0x017 => some .inct
  | 0x018 => some .dec | 0x019 => some .dect | 0x01A => some .bl | 0x01B => some .swpb
  | 0x01C => some .seto | 0x01D => some .abs
  | _ => none

/-- F8 and F10, by TI bits 0 to 11. -/
def regOp (k : BitVec 12) : Option (Reg → Instr) :=
  match k.toNat with
  | 0x008 => some .lst | 0x009 => some .lwp | 0x00B => some .blsk
  | 0x020 => some .li | 0x022 => some .ai | 0x024 => some .andi | 0x026 => some .ori
  | 0x028 => some .ci | 0x02A => some .stwp | 0x02C => some .stst
  | _ => none

/-- F9 and F11: the whole word. -/
def fixedOp (w : Word) : Option Instr :=
  match w.toNat with
  | 0x02E0 => some .lwpi | 0x0300 => some .limi | 0x0340 => some .idle | 0x0360 => some .rset
  | 0x0380 => some .rtwp | 0x03A0 => some .ckon | 0x03C0 => some .ckof | 0x03E0 => some .lrex
  | _ => none

/-- The first words of two-word opcodes; CR and MM are two-word opcodes only of the TMS99110A (R166). -/
inductive TwoWord
  | tmb | tcmb | tsmb | slam | sram | am | sm | cr | mm
  deriving DecidableEq, Repr

/-- F12 and F13: the whole first word. -/
def twoWordOp (w : Word) : Option TwoWord :=
  match w.toNat with
  | 0x0C09 => some .tmb | 0x0C0A => some .tcmb | 0x0C0B => some .tsmb
  | 0x001D => some .slam | 0x001C => some .sram | 0x002A => some .am | 0x0029 => some .sm
  | _ => none

/-! ### First words -/

/-- What a first word decodes to. -/
inductive First
  /-- A one-word opcode. -/
  | instr (i : Instr)
  /-- The first word of a two-word opcode. -/
  | two (k : TwoWord)
  /-- A MID opcode (spec/30_encoding.md R163). -/
  | mid
  /-- A word the spec leaves without meaning where it was fetched (spec/93_implementation_defined.md U11, U12). -/
  | undefined
  deriving DecidableEq, Repr

/-- Decode of a first word fetched from main memory (spec/30_encoding.md R160). -/
def decodeMain (w : Word) : First :=
  match dualOp (w.extractLsb' 12 4) with
  | some mk => .instr (mk (srcField w) (dstField w))
  | none =>
  match fieldOp (w.extractLsb' 10 6) with
  | some mk => .instr (mk (srcField w) (midField w))
  | none =>
  match dispOp (w.extractLsb' 8 8) with
  | some mk => .instr (mk (dispField w))
  | none =>
  match shiftOp (w.extractLsb' 8 8) with
  | some mk => .instr (mk (regField w) (countField w))
  | none =>
  match singleOp (w.extractLsb' 6 10) with
  | some mk => .instr (mk (srcField w))
  | none =>
  match regOp (w.extractLsb' 4 12) with
  | some mk => .instr (mk (regField w))
  | none =>
  match fixedOp w with
  | some i => .instr i
  | none =>
  match twoWordOp w with
  | some k => .two k
  | none => .mid

/-- The opcodes that mean something else inside Macrostore, by the whole word (spec/30_encoding.md R165). -/
def macrostoreOp (w : Word) : Option First :=
  match w.toNat with
  | 0x0380 => some (.instr .rtwpExit)
  | 0x0381 => some (.instr .rtwpStay)
  | 0x0382 => some (.instr .rtwpIllop)
  | 0x0384 => some (.instr .rtwpQuiet)
  | _ => none

/-- The displacement opcodes that mean something else inside Macrostore (spec/30_encoding.md R165). -/
def macrostoreDispOp (k : BitVec 8) (d : Byte) : Option First :=
  match k.toNat with
  | 0x1D => some (.instr (.jip d))
  | 0x1E => some (.instr (.jnep d))
  | 0x1F => some .undefined
  | _ => none

/-- Decode of a first word fetched from Macrostore (spec/30_encoding.md R165). A word that is a MID opcode in main
memory and has no Macrostore meaning is undefined there (spec/93_implementation_defined.md U11). -/
def decodeMacrostore (w : Word) : First :=
  match macrostoreOp w with
  | some f => f
  | none =>
  match macrostoreDispOp (w.extractLsb' 8 8) (dispField w) with
  | some f => f
  | none =>
  if w.extractLsb' 6 10 = 0x004#10 then .instr (.evad (srcField w))
  else match decodeMain w with
  | .mid => .undefined
  | f => f

/-- Decode of a first word by the processor, main memory or Macrostore. -/
def decodeFirst (inMs : Bool) (w : Word) : First :=
  if inMs then decodeMacrostore w else decodeMain w

/-! ### TMS99110A additions (spec/30_encoding.md R166) -/

/-- Extension opcodes with a general operand, by TI bits 0 to 9. -/
def romSingleOp (k : BitVec 10) : Option (Operand → Instr) :=
  match k.toNat with
  | 0x031 => some .ar | 0x032 => some .cir | 0x033 => some .sr | 0x034 => some .mr
  | 0x035 => some .dr | 0x036 => some .lr | 0x037 => some .str
  | _ => none

/-- Extension opcodes of one fixed first word. -/
def romFixedOp (w : Word) : Option First :=
  match w.toNat with
  | 0x0780 => some (.instr .lds) | 0x07C0 => some (.instr .ldd)
  | 0x0C00 => some (.instr .cri) | 0x0C02 => some (.instr .negr)
  | 0x0C04 => some (.instr .cre) | 0x0C06 => some (.instr .cer)
  | 0x0301 => some (.two .cr) | 0x0302 => some (.two .mm)
  | _ => none

/-- The MID opcodes whose treatment by the TMS99110A's ROM is not knowable
(spec/93_implementation_defined.md U12). -/
def romUnknown (w : Word) : Bool :=
  let n := w.toNat
  (0x0781 ≤ n && n ≤ 0x07BF) || (0x07C1 ≤ n && n ≤ 0x07FF) || n == 0x0C01 || n == 0x0C03 || n == 0x0C05 ||
  n == 0x0C07 || n == 0x0C08 || (0x0C0C ≤ n && n ≤ 0x0C3F) || (0x0E00 ≤ n && n ≤ 0x0FFF)

/-- What the TMS99110A's on-chip ROM does with a MID opcode, in standard mode: an extension instruction, a word with
no knowable treatment, or `mid` for every other word (spec/48_tms99110a_extensions.md R500). -/
def decodeRom (w : Word) : First :=
  match romSingleOp (w.extractLsb' 6 10) with
  | some mk => .instr (mk (srcField w))
  | none =>
  match romFixedOp w with
  | some f => f
  | none => if romUnknown w then .undefined else .mid

/-! ### Second words -/

/-- The instruction of a two-word opcode, if its second word is legal (spec/30_encoding.md R164; for CR and MM,
spec/48_tms99110a_extensions.md R536). -/
def decodeSecond (k : TwoWord) (w2 : Word) : Option Instr :=
  let testOk := w2.extractLsb' 10 6 = 0#6 ∧ w2.extractLsb' 4 2 ≠ 3#2
  let shiftOk := w2.extractLsb' 10 6 = 0x10#6
  let pairOk := w2.extractLsb' 12 4 = 0x4#4
  let romOk := w2.extractLsb' 12 4 = 0x0#4
  match k with
  | .tmb => if testOk then some (.tmb (srcField w2) (midField w2)) else none
  | .tcmb => if testOk then some (.tcmb (srcField w2) (midField w2)) else none
  | .tsmb => if testOk then some (.tsmb (srcField w2) (midField w2)) else none
  | .slam => if shiftOk then some (.slam (srcField w2) (midField w2)) else none
  | .sram => if shiftOk then some (.sram (srcField w2) (midField w2)) else none
  | .am => if pairOk then some (.am (srcField w2) (dstField w2)) else none
  | .sm => if pairOk then some (.sm (srcField w2) (dstField w2)) else none
  | .cr => if romOk then some (.cr (srcField w2) (dstField w2)) else none
  | .mm => if romOk then some (.mm (srcField w2) (dstField w2)) else none

/-! ### Decoding bytes -/

/-- Where an instruction is read: main memory, Macrostore, or main memory of a TMS99110A in standard mode, whose ROM
gives some MID opcodes a meaning. -/
inductive Context
  | main
  | macrostore
  | rom
  deriving DecidableEq, Repr

/-- Why bytes are not an instruction. -/
inductive DecodeError
  /-- Fewer bytes than the opcode words need. -/
  | truncated
  /-- A MID opcode: it traps (spec/30_encoding.md R163). -/
  | mid
  /-- An illegal second word: it traps (spec/30_encoding.md R164). -/
  | midSecond
  /-- No meaning is given to the word where it stands (spec/93_implementation_defined.md U11, U12). -/
  | undefined
  deriving DecidableEq, Repr

/-- The word of two bytes in memory order: the even-addressed byte is the more significant
(spec/20_memory.md R92). -/
def wordOfBytes (hi lo : Byte) : Word := (hi.setWidth 16 <<< 8) ||| lo.setWidth 16

/-- The left, even-addressed byte of a word (spec/00_scope.md R10). -/
def hi8 (w : Word) : Byte := w.extractLsb' 8 8

/-- The right, odd-addressed byte of a word (spec/00_scope.md R10). -/
def lo8 (w : Word) : Byte := w.extractLsb' 0 8

/-- The first word in a context. -/
def Context.first : Context → Word → First
  | .main, w => decodeMain w
  | .macrostore, w => decodeMacrostore w
  | .rom, w => match decodeMain w with
    | .mid => decodeRom w
    | f => f

/-- Reads one instruction from a list of bytes, answering it and the bytes after its opcode words. -/
def decode (ctx : Context) : List Byte → Except DecodeError (Instr × List Byte)
  | h :: l :: rest =>
    match ctx.first (wordOfBytes h l) with
    | .instr i => .ok (i, rest)
    | .mid => .error .mid
    | .undefined => .error .undefined
    | .two k =>
      match rest with
      | h2 :: l2 :: rest2 =>
        match decodeSecond k (wordOfBytes h2 l2) with
        | some i => .ok (i, rest2)
        | none => .error .midSecond
      | _ => .error .truncated
  | _ => .error .truncated

/-- The bytes of a word in memory order (spec/20_memory.md R92). -/
def bytesOfWord (w : Word) : List Byte := [hi8 w, lo8 w]

/-- The words of a table word: word j is bits 16j+15 to 16j, the first word the least significant. -/
def tableWords (w : Nat) : List Word :=
  [BitVec.ofNat 16 w, BitVec.ofNat 16 (w / 2 ^ 16), BitVec.ofNat 16 (w / 2 ^ 32), BitVec.ofNat 16 (w / 2 ^ 48)]

/-- The instruction the decoder reads from `w`, numbered as spec/opcode_table.json numbers bits, with every bit from
`nbits` up zero. A word is read as main memory has it; if that is a MID opcode, as the TMS99110A's ROM has it; if that
is none, as Macrostore has it (log 36). -/
def decodeTableWord (nbits w : Nat) : Option Instr :=
  let bytes := (tableWords (w % 2 ^ nbits)).flatMap bytesOfWord
  match decode .main bytes with
  | .ok (i, _) => some i
  | .error _ =>
  match decode .rom bytes with
  | .ok (i, _) => some i
  | .error _ =>
  match decode .macrostore bytes with
  | .ok (i, _) => some i
  | .error _ => none

/-! ### The encoder (spec/30_encoding.md R142, R161, R187) -/

/-- The T field of an operand. -/
def Operand.t : Operand → BitVec 2
  | .reg _ => 0#2
  | .ind _ => 1#2
  | .sym => 2#2
  | .idx _ => 2#2
  | .inc _ => 3#2

/-- The register field of an operand. -/
def Operand.r : Operand → Nibble
  | .reg r | .ind r | .idx r | .inc r => r
  | .sym => 0#4

/-- F1 and the second words of F13. -/
def encDual (base : Word) (src dst : Operand) : Word :=
  base ||| (dst.t.setWidth 16 <<< 10) ||| (dst.r.setWidth 16 <<< 6) ||| (src.t.setWidth 16 <<< 4) |||
    src.r.setWidth 16

/-- F2, F3, F4 and the second words of F12. -/
def encField (base : Word) (src : Operand) (d : Nibble) : Word :=
  base ||| (d.setWidth 16 <<< 6) ||| (src.t.setWidth 16 <<< 4) ||| src.r.setWidth 16

/-- F5. -/
def encSingle (base : Word) (src : Operand) : Word :=
  base ||| (src.t.setWidth 16 <<< 4) ||| src.r.setWidth 16

/-- F6. -/
def encDisp (base : Word) (disp : Byte) : Word := base ||| disp.setWidth 16

/-- F7. -/
def encShift (base : Word) (w : Reg) (sc : Nibble) : Word :=
  base ||| (sc.setWidth 16 <<< 4) ||| w.setWidth 16

/-- F8 and F10. -/
def encReg (base : Word) (w : Reg) : Word := base ||| w.setWidth 16

/-- The opcode words of an instruction; address words and immediates follow them in the instruction stream. -/
def encode : Instr → List Word
  | .szc p q => [encDual 0x4000 p q]
  | .szcb p q => [encDual 0x5000 p q]
  | .s p q => [encDual 0x6000 p q]
  | .sb p q => [encDual 0x7000 p q]
  | .c p q => [encDual 0x8000 p q]
  | .cb p q => [encDual 0x9000 p q]
  | .a p q => [encDual 0xA000 p q]
  | .ab p q => [encDual 0xB000 p q]
  | .mov p q => [encDual 0xC000 p q]
  | .movb p q => [encDual 0xD000 p q]
  | .soc p q => [encDual 0xE000 p q]
  | .socb p q => [encDual 0xF000 p q]
  | .coc p d => [encField 0x2000 p d]
  | .czc p d => [encField 0x2400 p d]
  | .xor p d => [encField 0x2800 p d]
  | .xop p n => [encField 0x2C00 p n]
  | .ldcr p n => [encField 0x3000 p n]
  | .stcr p n => [encField 0x3400 p n]
  | .mpy p d => [encField 0x3800 p d]
  | .div p d => [encField 0x3C00 p d]
  | .bind p => [encSingle 0x0140 p]
  | .divs p => [encSingle 0x0180 p]
  | .mpys p => [encSingle 0x01C0 p]
  | .blwp p => [encSingle 0x0400 p]
  | .b p => [encSingle 0x0440 p]
  | .x p => [encSingle 0x0480 p]
  | .clr p => [encSingle 0x04C0 p]
  | .neg p => [encSingle 0x0500 p]
  | .inv p => [encSingle 0x0540 p]
  | .inc p => [encSingle 0x0580 p]
  | .inct p => [encSingle 0x05C0 p]
  | .dec p => [encSingle 0x0600 p]
  | .dect p => [encSingle 0x0640 p]
  | .bl p => [encSingle 0x0680 p]
  | .swpb p => [encSingle 0x06C0 p]
  | .seto p => [encSingle 0x0700 p]
  | .abs p => [encSingle 0x0740 p]
  | .jmp d => [encDisp 0x1000 d]
  | .jlt d => [encDisp 0x1100 d]
  | .jle d => [encDisp 0x1200 d]
  | .jeq d => [encDisp 0x1300 d]
  | .jhe d => [encDisp 0x1400 d]
  | .jgt d => [encDisp 0x1500 d]
  | .jne d => [encDisp 0x1600 d]
  | .jnc d => [encDisp 0x1700 d]
  | .joc d => [encDisp 0x1800 d]
  | .jno d => [encDisp 0x1900 d]
  | .jl d => [encDisp 0x1A00 d]
  | .jh d => [encDisp 0x1B00 d]
  | .jop d => [encDisp 0x1C00 d]
  | .sbo d => [encDisp 0x1D00 d]
  | .sbz d => [encDisp 0x1E00 d]
  | .tb d => [encDisp 0x1F00 d]
  | .sra w n => [encShift 0x0800 w n]
  | .srl w n => [encShift 0x0900 w n]
  | .sla w n => [encShift 0x0A00 w n]
  | .src w n => [encShift 0x0B00 w n]
  | .li w => [encReg 0x0200 w]
  | .ai w => [encReg 0x0220 w]
  | .andi w => [encReg 0x0240 w]
  | .ori w => [encReg 0x0260 w]
  | .ci w => [encReg 0x0280 w]
  | .blsk w => [encReg 0x00B0 w]
  | .lwpi => [0x02E0]
  | .limi => [0x0300]
  | .stwp w => [encReg 0x02A0 w]
  | .stst w => [encReg 0x02C0 w]
  | .lst w => [encReg 0x0080 w]
  | .lwp w => [encReg 0x0090 w]
  | .idle => [0x0340]
  | .rset => [0x0360]
  | .rtwp => [0x0380]
  | .ckon => [0x03A0]
  | .ckof => [0x03C0]
  | .lrex => [0x03E0]
  | .tmb p b => [0x0C09, encField 0x0000 p b]
  | .tcmb p b => [0x0C0A, encField 0x0000 p b]
  | .tsmb p b => [0x0C0B, encField 0x0000 p b]
  | .slam p n => [0x001D, encField 0x4000 p n]
  | .sram p n => [0x001C, encField 0x4000 p n]
  | .am p q => [0x002A, encDual 0x4000 p q]
  | .sm p q => [0x0029, encDual 0x4000 p q]
  | .evad p => [encSingle 0x0100 p]
  | .rtwpExit => [0x0380]
  | .rtwpStay => [0x0381]
  | .rtwpIllop => [0x0382]
  | .rtwpQuiet => [0x0384]
  | .jip d => [encDisp 0x1D00 d]
  | .jnep d => [encDisp 0x1E00 d]
  | .lds => [0x0780]
  | .ldd => [0x07C0]
  | .ar p => [encSingle 0x0C40 p]
  | .cir p => [encSingle 0x0C80 p]
  | .sr p => [encSingle 0x0CC0 p]
  | .mr p => [encSingle 0x0D00 p]
  | .dr p => [encSingle 0x0D40 p]
  | .lr p => [encSingle 0x0D80 p]
  | .str p => [encSingle 0x0DC0 p]
  | .cri => [0x0C00]
  | .negr => [0x0C02]
  | .cre => [0x0C04]
  | .cer => [0x0C06]
  | .cr p q => [0x0301, encDual 0x0000 p q]
  | .mm p q => [0x0302, encDual 0x0000 p q]

/-- The context an instruction belongs to: main memory, Macrostore, or the TMS99110A's ROM. -/
def Instr.context : Instr → Context
  | .evad _ | .rtwpExit | .rtwpStay | .rtwpIllop | .rtwpQuiet | .jip _ | .jnep _ => .macrostore
  | .lds | .ldd | .ar _ | .cir _ | .sr _ | .mr _ | .dr _ | .lr _ | .str _
  | .cri | .negr | .cre | .cer | .cr _ _ | .mm _ _ => .rom
  | _ => .main

/-- The bytes of an instruction's opcode words, as memory holds them. -/
def encodeBytes (i : Instr) : List Byte := (encode i).flatMap bytesOfWord

/-! ### Sign extension (spec/00_scope.md R11, spec/30_encoding.md R180) -/

/-- Twice the signed eight-bit displacement, as a sixteen-bit pattern. -/
def dispBytes (d : Byte) : Word := 2#16 * d.signExtend 16

end Sys2Proof
end

