-- ==== Sys2Proof/Machine/Flags.lean ====
section
/-! DEFINITION. Status bits and the flag computations shared by the instructions (spec/10_state.md R36 to R49, R68). -/

namespace Sys2Proof.Machine

/-- The mask of TI bit `n` of ST (spec/10_state.md R36). -/
def stMask (n : Nat) : Word := 0x8000#16 >>> n

/-- TI bit `n` of a status word. -/
def stBit (st : Word) (n : Nat) : Bool := st.getMsbD n

/-- The status word with TI bit `n` set or cleared. -/
def stSet (st : Word) (n : Nat) (b : Bool) : Word := if b then st ||| stMask n else st &&& ~~~ (stMask n)

/-- ST12 to ST15, the interrupt mask `MASK` (spec/10_state.md R49). -/
def stIntMask (st : Word) : BitVec 4 := st.extractLsb' 0 4

/-- A result of the adder: the narrowed sum, the carry out and the overflow (spec/10_state.md R68). -/
structure Arith (n : Nat) where
  r : BitVec n
  c : Bool
  v : Bool
  deriving DecidableEq, Repr

/-- `Add_n` (spec/10_state.md R68). -/
def addN {n : Nat} (x y : BitVec n) : Arith n :=
  let sum := x.toNat + y.toNat
  let r := BitVec.ofNat n sum
  { r := r, c := decide (2 ^ n ≤ sum), v := x.msb == y.msb && r.msb != x.msb }

/-- `Sub_n`, x - y: the carry is set exactly when there is no borrow (spec/10_state.md R40, R68). -/
def subN {n : Nat} (x y : BitVec n) : Arith n :=
  let sum := x.toNat + (2 ^ n - 1 - y.toNat) + 1
  let r := BitVec.ofNat n sum
  { r := r, c := decide (2 ^ n ≤ sum), v := x.msb != y.msb && r.msb != x.msb }

/-- `SetLAE_n`: ST0, ST1, ST2 from a result compared with 0 (spec/10_state.md R68). -/
def setLae {n : Nat} (r : BitVec n) (st : Word) : Word :=
  stSet (stSet (stSet st 0 (r != 0#n)) 1 (!r.msb && r != 0#n)) 2 (r == 0#n)

/-- `CmpLAE_n`: ST0, ST1, ST2 from the unsigned and signed comparison of x with y (spec/10_state.md R68). -/
def cmpLae {n : Nat} (x y : BitVec n) (st : Word) : Word :=
  stSet (stSet (stSet st 0 (y.ult x)) 1 (y.slt x)) 2 (x == y)

/-- ST3, carry (spec/10_state.md R40). -/
def setCarry (b : Bool) (st : Word) : Word := stSet st 3 b

/-- ST4, arithmetic fault (spec/10_state.md R41). -/
def setOverflow (b : Bool) (st : Word) : Word := stSet st 4 b

/-- Whether a byte has an odd number of one bits (spec/00_scope.md R11). -/
def parityOdd (b : Byte) : Bool :=
  b.getLsbD 0 ^^ b.getLsbD 1 ^^ b.getLsbD 2 ^^ b.getLsbD 3 ^^ b.getLsbD 4 ^^ b.getLsbD 5 ^^ b.getLsbD 6 ^^
    b.getLsbD 7

/-- ST5, parity of a byte (spec/10_state.md R42). -/
def setParity (b : Byte) (st : Word) : Word := stSet st 5 (parityOdd b)

/-- Result flags and the carry and overflow of an addition or subtraction: ST0 to ST4. -/
def setArith {n : Nat} (a : Arith n) (st : Word) : Word := setOverflow a.v (setCarry a.c (setLae a.r st))

/-- The status loaded from a value: all of it in privileged mode; in user mode only ST0 to ST5 and ST10, with ST6
cleared (spec/10_state.md R67). -/
def loadedSt (st v : Word) : Word :=
  if stBit st 7 then (v &&& 0xFC20#16) ||| (st &&& 0x01DF#16) else v

/-- ST7 to ST11 cleared, as XOP and every interrupt do (spec/10_state.md R44 to R48). -/
def clearModes (st : Word) : Word := st &&& 0xFE0F#16

/-- The status with a new interrupt mask (spec/10_state.md R49). -/
def withIntMask (st : Word) (m : BitVec 4) : Word := (st &&& 0xFFF0#16) ||| m.setWidth 16

end Sys2Proof.Machine
end

