-- ==== Sys2Proof/Config.lean ====
section
/-! DEFINITION. What an implementation or its platform fixes (spec/00_scope.md R8), and the free values: opaque
constants with no body, one for every value the spec leaves open (spec/93_implementation_defined.md). -/

namespace Sys2Proof

/-- The two members of the family (spec/00_scope.md R1). -/
inductive Variant
  | tms99105a
  | tms99110a
  deriving DecidableEq, Repr

/-- The Macrostore operating mode (spec/10_state.md R57, spec/60_exceptions.md R600). -/
inductive MsMode
  | standard
  | prototyping
  | baseline
  deriving DecidableEq, Repr

/-- One entry of the parameter `FLAG_SET_ADDRS`: an I/O address at which an output of 1 sets error flags
(spec/10_state.md R52, spec/92_eei_decisions.md D17). -/
structure FlagSetEntry where
  addr : Word
  privop : Bool
  illop : Bool
  af : Bool
  deriving DecidableEq, Repr

/-- What stands at a main-memory address (`MAIN_MEM`: spec/00_scope.md R8, spec/20_memory.md R98). -/
inductive MainKind
  | ram
  | rom
  | device
  | absent
  deriving DecidableEq, Repr

/-- A range of physical byte addresses, both ends included, at which something other than RAM stands. -/
structure MainRange where
  first : Nat
  last : Nat
  kind : MainKind
  deriving DecidableEq, Repr

/-- A range of Macrostore byte addresses, both ends included, at which external Macrostore memory is fitted: "off-chip
ROM or RAM" (spec/47_macrostore.md R461). -/
structure ExtMsRange where
  first : Nat
  last : Nat
  rom : Bool
  deriving DecidableEq, Repr

/-- The parameters of spec/00_scope.md R8 that are not inputs and not memory contents. -/
structure Params where
  /-- `VARIANT`. -/
  variant : Variant
  /-- `MAIN_MEM`: the platform uses PSEL as a seventeenth address bit (spec/20_memory.md R106). -/
  usePsel : Bool
  /-- `MAIN_MEM`: the platform decodes IAQ and IOP as the instruction segment (spec/20_memory.md R110). -/
  useSegment : Bool
  /-- `MAIN_MEM`: where main memory is not RAM; the first range that contains an address decides, and an address in
  none is RAM (spec/20_memory.md R98; log 25). -/
  mainMap : List MainRange
  /-- `EXT_MS`: the external Macrostore memory that is fitted; the first range that contains an address decides, and
  at an address in none nothing is fitted (spec/47_macrostore.md R461; log 46). -/
  extMs : List ExtMsRange
  /-- `MROM`: an image of the on-chip ROM is supplied; its bytes then stand in `State.ms`. -/
  mrom : Bool
  /-- `PAR_BYTE_INC` is 1 instead of 2 (spec/92_eei_decisions.md D7). -/
  parByteIncOne : Bool
  /-- `RSET_CLEARS_ST9_11` (spec/92_eei_decisions.md D8). -/
  rsetClearsHigh : Bool
  /-- `FLAG_SET_ADDRS`: `none` while it is not given. -/
  flagSetAddrs : Option (List FlagSetEntry)
  /-- The target of X comes from the instruction segment, as spec/20_memory.md R110 says, and not from the data segment,
  as spec/42_xop_single_operand.md R310 says; which holds the spec does not settle (the model's own parameter,
  DESIGN CHOICE; log 47). -/
  xFromInstructionSegment : Bool
  /-- TB in user mode at a protected I/O address is a violation, as spec/70_reset_and_hazards.md R651 says, and not free,
  as spec/43_cru_io.md R322 and R343 and spec/60_exceptions.md R610 and R611 say; which holds the spec does not settle
  (the model's own parameter, DESIGN CHOICE; log 51). -/
  tbViolates : Bool
  deriving DecidableEq, Repr

/-- The defaults of spec/00_scope.md R8 for a member of the family: 64K bytes of RAM, PSEL and the status code ignored,
no external Macrostore; and those of the model's own two parameters (logs 47, 51). -/
def Params.defaultFor (v : Variant) : Params :=
  { variant := v, usePsel := false, useSegment := false, mainMap := [], extMs := [], mrom := false,
    parByteIncOne := false, rsetClearsHigh := true, flagSetAddrs := none,
    xFromInstructionSegment := false, tbViolates := false }

/-- The defaults for the default member, the TMS99105A (spec/00_scope.md R8). -/
def Params.default : Params := Params.defaultFor .tms99105a

/-- The default of `MS_MODE` for a member of the family (spec/00_scope.md R8). -/
def MsMode.defaultFor : Variant → MsMode
  | .tms99105a => .baseline
  | .tms99110a => .standard

/-- The floating point operations whose inexact results the spec leaves to `FP_NUMERICS`
(spec/48_tms99110a_extensions.md R522, R532, R534, R535). -/
inductive FpOp
  | add
  | sub
  | mul
  | div
  | toInt
  | toExtended
  | fromExtended
  deriving DecidableEq, Repr

/-- The n-th free bit: nothing in the spec constrains it (log 18, 22). -/
opaque Config.freeBit : Nat → Bool

/-- The n-th free word: nothing in the spec constrains it (logs 14, 15, 19, 20, 22, 23, 24, 25). -/
opaque Config.freeWord : Nat → BitVec 16

/-- `FP_NUMERICS`: whether an inexact result is the neighbour of larger magnitude, for an operation and its
operands (spec/48_tms99110a_extensions.md R522, spec/92_eei_decisions.md D33; log 21). -/
opaque Config.fpAway : FpOp → BitVec 32 → BitVec 32 → Bool

end Sys2Proof
end

