-- ==== Sys2Proof/Machine/State.lean ====
section
/-! DEFINITION. The state of the machine as plain data (spec/10_state.md R30), the reasons a step can stop, and the
state right after reset (spec/10_state.md R70). -/

namespace Sys2Proof.Machine

/-- A byte-addressed memory: strictly rising addresses, no entry equal to what an unlisted address reads as. -/
abbrev Mem := List Host.Cell

/-- What the one-boundary inhibit suppresses (spec/10_state.md R56). -/
inductive Inhibit
  | none
  | maskable
  | all
  deriving DecidableEq, Repr

/-- The RESET input during this step: inactive, low for fewer than three samples, or low long enough and released
(spec/70_reset_and_hazards.md R630). -/
inductive ResetPin
  | inactive
  | short
  | full
  deriving DecidableEq, Repr

/-- The inputs of the processor (spec/10_state.md R30), as active levels; the environment sets them between steps. The
input READY belongs to each bus cycle and stands in `BusEvent`. -/
structure Pins where
  reset : ResetPin
  hold : Bool
  nmi : Bool
  intreq : Bool
  /-- IC0 to IC3, IC0 the most significant bit (spec/60_exceptions.md R542). -/
  ic : BitVec 4
  /-- APP low at the end of an opcode fetch: a breakpoint request (spec/60_exceptions.md R590). -/
  appIaq : Bool
  /-- APP low in the MID cycle: an attached processor takes the opcode (spec/60_exceptions.md R570). -/
  appMid : Bool
  /-- APP high: ends an attached-processor hold and the baseline mode (spec/60_exceptions.md R588, R600). -/
  appHigh : Bool
  /-- The mode that APP selects if a reset happens (spec/60_exceptions.md R600). -/
  modeAtReset : MsMode
  deriving DecidableEq, Repr

/-- One I/O write cycle, at an even sixteen-bit I/O address (spec/20_memory.md R116, R121, R123). -/
inductive IoWrite
  | bit (addr : Word) (value : Bool)
  | byte (addr : Word) (value : Byte)
  | word (addr : Word) (value : Word)
  deriving DecidableEq, Repr

/-- A write of one word to main memory by another master of the bus: a DMA device, an attached processor, or another
processor (spec/00_scope.md R16, spec/20_memory.md R130, R133). -/
structure MasterWrite where
  /-- A byte address; bits 16 and 17 select the page on a platform that has pages (spec/20_memory.md R110). -/
  addr : BitVec 18
  value : Word
  deriving DecidableEq, Repr

/-- What happens on the bus before and in one bus cycle of the processor. -/
structure BusEvent where
  /-- The writes made while HOLD is granted before the cycle (spec/20_memory.md R130). -/
  writes : List MasterWrite
  /-- RESET then cuts the instruction (spec/70_reset_and_hazards.md R631). -/
  reset : Bool
  /-- The input READY in the cycle: raised, at once or after wait states; `false` where it stays low for ever
  (spec/70_reset_and_hazards.md R664; log 13). -/
  ready : Bool
  deriving DecidableEq, Repr

/-- Why a step stops with a fault: never. The spec keeps fault and refusal apart, and gives no behaviour the treatment
"fault" (spec/93_implementation_defined.md, part 1). -/
inductive Fault
  deriving DecidableEq, Repr

/-- Why a step refuses. Every one is safe: the spec tells a model to refuse. -/
inductive Refusal
  /-- An instruction without a meaning yet. Safe. -/
  | notModelled (mnemonic : String)
  /-- An access to a Macrostore address where nothing is implemented or fitted, raised by any Macrostore fetch, read
  or write (spec/93_implementation_defined.md U10, spec/47_macrostore.md R461). Safe. -/
  | macrostoreAbsent (addr : Word)
  /-- A fetch or read of the on-chip Macrostore ROM while no image of it is supplied, raised by any Macrostore fetch or
  read (spec/00_scope.md R8, spec/93_implementation_defined.md U10). Safe. -/
  | mromUnknown (addr : Word)
  /-- A write to the on-chip Macrostore ROM, raised by any Macrostore write
  (spec/93_implementation_defined.md U10). Safe. -/
  | mromWrite (addr : Word)
  /-- X whose target is X, without end, raised by a step that runs X (spec/93_implementation_defined.md U2); `w` is the
  opcode it has come to. Safe. -/
  | endlessX (w : Word)
  /-- LDCR or STCR in the parallel half with a reserved CNT (spec/93_implementation_defined.md U4). Safe. -/
  | reservedCount (cnt : Nibble)
  /-- An output of 1 into >1FC0 to >1FDE while `FLAG_SET_ADDRS` is not given, raised by SBO and serial LDCR
  (spec/93_implementation_defined.md U6). Safe. -/
  | flagSetOutput (addr : Word)
  /-- A word with no meaning inside Macrostore, raised by the Macrostore fetch
  (spec/93_implementation_defined.md U11). Safe. -/
  | undefinedInMacrostore (w : Word)
  /-- IDLE inside Macrostore (spec/93_implementation_defined.md U11). Safe. -/
  | idleInMacrostore
  /-- XOP inside Macrostore (spec/93_implementation_defined.md U11). Safe. -/
  | xopInMacrostore
  /-- EVAD with WP not >0000 (spec/93_implementation_defined.md U11). Safe. -/
  | evadWorkspace
  /-- EVAD applied to register 0 (spec/93_implementation_defined.md U11). Safe. -/
  | evadRegisterZero
  /-- A MID opcode whose treatment by the TMS99110A's ROM is not knowable
  (spec/93_implementation_defined.md U12). Safe. -/
  | romUnknown (w : Word)
  /-- READY stays low for ever in a bus cycle, raised by any bus cycle (spec/70_reset_and_hazards.md R664). Safe. -/
  | neverReady
  /-- RESET low for fewer than three samples (spec/93_implementation_defined.md U14). Safe. -/
  | shortReset
  /-- The term stands for a main-memory instruction whose opcode means something else inside Macrostore
  (spec/30_encoding.md R165); no fetched word decodes to it there. Safe. -/
  | mainMemoryOnly
  /-- The term stands for a Macrostore instruction whose opcode means something else in main memory
  (spec/30_encoding.md R165); no fetched word decodes to it there. Safe. -/
  | macrostoreOnly
  deriving DecidableEq, Repr

/-- The state of one processor, its memories and its inputs (spec/10_state.md R30). -/
structure State where
  /-- PC, the address of the next instruction word; TI bit 15 is always 0 (spec/10_state.md R31, R32). -/
  pc : Word
  /-- WP, the address of workspace register 0; TI bit 15 is always 0 (spec/10_state.md R33). -/
  wp : Word
  /-- ST, the status register, TI bit 0 the most significant (spec/10_state.md R36). -/
  st : Word
  /-- Error flag PRIVOP (spec/10_state.md R50, R52). -/
  privop : Bool
  /-- Error flag ILLOP (spec/10_state.md R50, R52). -/
  illop : Bool
  /-- Error flag AF (spec/10_state.md R50, R51). -/
  af : Bool
  /-- Main memory by physical byte address; the workspace registers are words of it (spec/10_state.md R34,
  spec/20_memory.md R90, R111). -/
  mem : Mem
  /-- Macrostore memory: MRAM, external Macrostore, and the ROM image where one is supplied
  (spec/10_state.md R62, spec/47_macrostore.md R461). -/
  ms : Mem
  /-- The NMI edge latch `NMI_PENDING` (spec/10_state.md R55). -/
  nmiPending : Bool
  /-- Whether NMI was active when last sampled (spec/10_state.md R55). -/
  nmiLast : Bool
  /-- The one-boundary interrupt inhibit `INHIBIT` (spec/10_state.md R56). -/
  inhibit : Inhibit
  /-- The Macrostore operating mode `MS_MODE` (spec/10_state.md R57). -/
  msMode : MsMode
  /-- The executing-from-Macrostore flag `INMS` (spec/10_state.md R58). -/
  inMs : Bool
  /-- The long-distance flags `LDF`, active low; TI bit 0 is the most significant (spec/10_state.md R59). -/
  ldf : BitVec 3
  /-- The idle state `IDLE` (spec/10_state.md R60). -/
  idle : Bool
  /-- The prefetched opcode, read at PC by the last bus cycle of the instruction or trap before
  (spec/10_state.md R61, spec/70_reset_and_hazards.md R645, R646; log 8). -/
  prefetch : Option Word
  /-- EVAD latch: accesses through Macrostore WR7 carry WS instead of DOP (spec/10_state.md R63). -/
  wr7Ws : Bool
  /-- EVAD latch: accesses through Macrostore WR8 carry WS instead of SOP (spec/10_state.md R63). -/
  wr8Ws : Bool
  /-- The I/O write inhibit of the instruction in progress (spec/10_state.md R64). -/
  ioInhibit : Bool
  /-- The processor is in hold for an attached processor or a breakpoint
  (spec/60_exceptions.md R586, R590). -/
  apHold : Bool
  /-- An opcode read by X and not executed yet: the model's own, and never there between steps
  (spec/42_xop_single_operand.md R310, R311; log 7). -/
  xTarget : Option Word
  /-- The reset sequence is due: RESET has cut an instruction at a bus cycle, or has been seen while HOLD is asserted
  (spec/70_reset_and_hazards.md R630, R631, R635; logs 11, 40). -/
  resetDue : Bool
  /-- The inputs of this step (log 9). -/
  pins : Pins
  /-- What happens on the bus before and in each of the coming bus cycles, next first; nothing, with READY raised, in
  those beyond the list (spec/20_memory.md R130, spec/70_reset_and_hazards.md R631, R664; logs 13, 45). -/
  bus : List BusEvent
  /-- Answers of the platform to coming I/O reads, next first (spec/20_memory.md R120, R122; log 14). -/
  ioIn : List Word
  /-- I/O write cycles made, oldest first (spec/20_memory.md R121, R123; log 15). -/
  ioOut : List IoWrite
  /-- Answers of the devices in main memory to coming reads, next first (spec/20_memory.md R96, R98; log 25). -/
  devIn : List Word
  /-- Words written to the devices in main memory with their physical byte addresses, oldest first
  (spec/20_memory.md R98; log 25). -/
  devOut : List (Nat × Word)
  /-- The model's own counter of free values drawn. -/
  draws : Nat
  /-- The implementation parameters (spec/00_scope.md R8). -/
  params : Params
  deriving DecidableEq, Repr

/-- A step's reason to stop before its end: a refusal, or RESET, which leaves the state at the cut
(spec/70_reset_and_hazards.md R631). -/
inductive Stop
  | refused (r : Refusal)
  | cut (s : State)
  deriving DecidableEq, Repr

namespace State

/-! One update for each field. -/

def withPc (s : State) (v : Word) : State := { s with pc := v }
def withWp (s : State) (v : Word) : State := { s with wp := v }
def withSt (s : State) (v : Word) : State := { s with st := v }
def withPrivop (s : State) (v : Bool) : State := { s with privop := v }
def withIllop (s : State) (v : Bool) : State := { s with illop := v }
def withAf (s : State) (v : Bool) : State := { s with af := v }
def withMem (s : State) (v : Mem) : State := { s with mem := v }
def withMs (s : State) (v : Mem) : State := { s with ms := v }
def withNmiPending (s : State) (v : Bool) : State := { s with nmiPending := v }
def withNmiLast (s : State) (v : Bool) : State := { s with nmiLast := v }
def withInhibit (s : State) (v : Inhibit) : State := { s with inhibit := v }
def withMsMode (s : State) (v : MsMode) : State := { s with msMode := v }
def withInMs (s : State) (v : Bool) : State := { s with inMs := v }
def withLdf (s : State) (v : BitVec 3) : State := { s with ldf := v }
def withIdle (s : State) (v : Bool) : State := { s with idle := v }
def withPrefetch (s : State) (v : Option Word) : State := { s with prefetch := v }
def withWr7Ws (s : State) (v : Bool) : State := { s with wr7Ws := v }
def withWr8Ws (s : State) (v : Bool) : State := { s with wr8Ws := v }
def withIoInhibit (s : State) (v : Bool) : State := { s with ioInhibit := v }
def withApHold (s : State) (v : Bool) : State := { s with apHold := v }
def withXTarget (s : State) (v : Option Word) : State := { s with xTarget := v }
def withResetDue (s : State) (v : Bool) : State := { s with resetDue := v }
def withPins (s : State) (v : Pins) : State := { s with pins := v }
def withBus (s : State) (v : List BusEvent) : State := { s with bus := v }
def withIoIn (s : State) (v : List Word) : State := { s with ioIn := v }
def withIoOut (s : State) (v : List IoWrite) : State := { s with ioOut := v }
def withDevIn (s : State) (v : List Word) : State := { s with devIn := v }
def withDevOut (s : State) (v : List (Nat × Word)) : State := { s with devOut := v }
def withDraws (s : State) (v : Nat) : State := { s with draws := v }
def withParams (s : State) (v : Params) : State := { s with params := v }

/-- All inputs inactive; a reset would select the given mode (logs 4, 5). -/
def idlePins (m : MsMode) : Pins :=
  { reset := .inactive, hold := false, nmi := false, intreq := false, ic := 0#4, appIaq := false, appMid := false,
    appHigh := false, modeAtReset := m }

/-- A member of the family right after the reset sequence of spec/70_reset_and_hazards.md R630, before its last bus
cycle, the fetch of the first opcode, with nothing placed in memory (log 8). The values are those of spec/10_state.md
R70; the vector at >0000 and the saved context are zeros because nothing has written them (logs 1, 2, 3), and the
configuration is the spec's default for the member (log 4). -/
def resetFor (v : Variant) : State :=
  { pc := 0x0000#16, wp := 0x0000#16, st := 0x0000#16, privop := false, illop := false, af := false,
    mem := [], ms := [], nmiPending := false, nmiLast := false, inhibit := .maskable,
    msMode := MsMode.defaultFor v, inMs := false, ldf := 0b111#3, idle := false, prefetch := none, wr7Ws := false,
    wr8Ws := false, ioInhibit := false, apHold := false, xTarget := none, resetDue := false,
    pins := idlePins (MsMode.defaultFor v), bus := [], ioIn := [], ioOut := [], devIn := [], devOut := [], draws := 0,
    params := Params.defaultFor v }

/-- The machine right after reset: the default member, the TMS99105A (spec/00_scope.md R8; log 4). -/
def reset : State := resetFor .tms99105a

end State

end Sys2Proof.Machine
end

