-- ==== Sys2Proof/Machine/Memory.lean ====
section
/-! DEFINITION. A memory as a list of cells in one canonical form, and its big-endian words
(spec/20_memory.md R90 to R92). -/

namespace Sys2Proof.Machine

/-- What a byte that nothing has written reads as (spec/10_state.md R78 gives none; DESIGN CHOICE, log 1). -/
def Mem.unlisted : Byte := 0x00#8

/-- One byte. -/
def Mem.read : Mem → Nat → Byte
  | [], _ => Mem.unlisted
  | (a, b) :: rest, k => if k = a then b else Mem.read rest k

/-- The memory without the entries at one address. -/
def Mem.erase : Mem → Nat → Mem
  | [], _ => []
  | (a, b) :: rest, k => if k = a then Mem.erase rest k else (a, b) :: Mem.erase rest k

/-- Writes one byte, keeping the canonical form. -/
def Mem.write : Mem → Nat → Byte → Mem
  | [], k, v => if v = Mem.unlisted then [] else [(k, v)]
  | (a, b) :: rest, k, v =>
    if k < a then
      if v = Mem.unlisted then (a, b) :: Mem.erase rest k else (k, v) :: (a, b) :: rest
    else if k = a then
      if v = Mem.unlisted then Mem.erase rest k else (k, v) :: rest
    else (a, b) :: Mem.write rest k v

/-- The canonical form: strictly rising addresses, no entry equal to what an unlisted address reads as. -/
def Mem.wf : Mem → Bool
  | [] => true
  | (a, b) :: rest => b != Mem.unlisted && rest.all (fun c => decide (a < c.1)) && Mem.wf rest

/-- The word whose more significant byte is at address `a` (spec/20_memory.md R92). -/
def Mem.readWord (m : Mem) (a : Nat) : Word := wordOfBytes (m.read a) (m.read (a + 1))

/-- Writes a word at addresses `a` and `a + 1`, more significant byte first (spec/20_memory.md R92). -/
def Mem.writeWord (m : Mem) (a : Nat) (w : Word) : Mem := (m.write a (hi8 w)).write (a + 1) (lo8 w)

end Sys2Proof.Machine
end

