-- ==== Sys2Proof/Machine/Ops.lean ====
section
/-! DEFINITION. The named operations every meaning is built from: accesses to the three address spaces, registers,
instruction fetch, I/O, free values, taking an exception and returning from one.

A meaning is an `M Unit`: it reads and writes the state, or stops. -/

namespace Sys2Proof.Machine

/-- A computation on the state that may stop. -/
abbrev M := StateT State (Except Stop)

/-- The outcome of a computation from a state. Where RESET cuts it, what it has done until then stays done, and the
reset sequence is due (spec/70_reset_and_hazards.md R631; log 11). -/
def outcome (m : M Unit) (s : State) : Host.Outcome State Fault Refusal :=
  match m s with
  | .ok (_, t) => .next t
  | .error (.refused r) => .refused r
  | .error (.cut t) => .next ((t.withIoInhibit false).withResetDue true)

/-- Stops with a refusal. -/
def refuse {α : Type} (r : Refusal) : M α := fun _ => .error (.refused r)

/-- Reads something of the state. -/
def gets {α : Type} (f : State → α) : M α := fun s => .ok (f s, s)

/-- Changes the state. -/
def update (f : State → State) : M Unit := fun s => .ok ((), f s)

/-! ### Bus cycles and the other masters of the bus -/

/-- What stands at a physical byte address of main memory (spec/20_memory.md R98). -/
def mainKind (p : Params) (n : Nat) : MainKind :=
  match p.mainMap.find? fun r => decide (r.first ≤ n) && decide (n ≤ r.last) with
  | some r => r.kind
  | none => .ram

/-- The physical byte address of another master's word, on the platform of the parameters
(spec/20_memory.md R91, R110; log 45). -/
def masterAddr (p : Params) (a : BitVec 18) : Nat :=
  (Word.even (a.setWidth 16)).toNat + (if p.usePsel && a.getLsbD 16 then 0x10000 else 0)
    + (if p.useSegment && a.getLsbD 17 then 0x20000 else 0)

/-- The state after another master has written a word; only RAM takes it (spec/20_memory.md R130). -/
def State.masterWrite (s : State) (w : MasterWrite) : State :=
  let n := masterAddr s.params w.addr
  match mainKind s.params n with
  | .ram => s.withMem (Mem.writeWord s.mem n w.value)
  | _ => s

/-- One bus cycle: HOLD is served first, RESET cuts here, and a READY that never comes is refused
(spec/20_memory.md R130, spec/70_reset_and_hazards.md R631, R664; logs 11, 13, 45). A cycle of spec/71_bus_sequences.md
without a transfer stands in a meaning where something inside the processor changes in it or before it, so that a cut
finds the state on either side; elsewhere it shows what the next cycle shows (log 11). -/
def busCycle : M Unit := fun s =>
  match s.bus with
  | [] => .ok ((), s)
  | e :: rest =>
    let t := e.writes.foldl State.masterWrite (s.withBus rest)
    if e.reset then .error (.cut t)
    else if e.ready then .ok ((), t)
    else .error (.refused .neverReady)

/-- A fresh free word. -/
def drawWord : M Word := do
  let n ← gets State.draws
  update fun s => s.withDraws (n + 1)
  return Config.freeWord n

/-! ### Address spaces, bus status codes and PSEL (spec/20_memory.md R65, R100, R106 to R111) -/

/-- The two memory spaces (spec/10_state.md R65). -/
inductive Space
  | main
  | macrostore
  deriving DecidableEq, Repr

/-- The bus status codes of memory transfers (spec/20_memory.md R100). SOPL and AUMSL, the MPILCK variants of SOP and
AUMS, select the same memory and are not told apart (log 12). -/
inductive BusCode
  | sop
  | iop
  | iaq
  | dop
  | inta
  | ws
  | gm
  | aums
  deriving DecidableEq, Repr

/-- An operand location: a byte address in a space, with the code of its accesses (spec/40_addressing_modes.md
R201). -/
structure Loc where
  space : Space
  addr : Word
  code : BusCode
  deriving DecidableEq, Repr

/-- The location `k` bytes on (spec/40_addressing_modes.md R208). -/
def Loc.offset (l : Loc) (k : Word) : Loc := { l with addr := l.addr + k }

/-- ST8, map select (spec/10_state.md R45). -/
def State.mapSelect (s : State) : Bool := stBit s.st 8

/-- A source long distance is in effect: LDF bit 2 is 0 (spec/48_tms99110a_extensions.md R508). -/
def State.longSource (s : State) : Bool := !s.ldf.getMsbD 2

/-- A destination long distance is in effect: LDF bit 0 is 0 (spec/48_tms99110a_extensions.md R508). -/
def State.longDest (s : State) : Bool := !s.ldf.getMsbD 0

/-- The level of PSEL, high true, during an access with a code: the complement of ST8, inverted for operand accesses
under long distance (spec/20_memory.md R106, R108, R109; spec/48_tms99110a_extensions.md R509, R511; log 26). -/
def psel (s : State) : BusCode → Bool
  | .sop => if s.longSource then s.mapSelect else !s.mapSelect
  | .dop => if s.longDest then s.mapSelect else !s.mapSelect
  | _ => !s.mapSelect

/-- The code selects the instruction segment: IAQ or IOP (spec/20_memory.md R110). -/
def BusCode.instructionSegment : BusCode → Bool
  | .iaq | .iop => true
  | _ => false

/-- The physical byte address of a main-memory access on the platform of the parameters
(spec/20_memory.md R110, R111; log 25). -/
def physAddr (p : Params) (high : Bool) (code : BusCode) (a : Word) : Nat :=
  a.toNat + (if p.usePsel && !high then 0x10000 else 0)
    + (if p.useSegment && code.instructionSegment then 0x20000 else 0)

/-- The main-memory word at a byte address whose least significant bit is ignored (spec/20_memory.md R91). -/
def State.mainWord (s : State) (high : Bool) (code : BusCode) (a : Word) : Word :=
  Mem.readWord s.mem (physAddr s.params high code a.even)

/-- The state after a word is written to main memory: RAM keeps it, a device is handed it, and where ROM or nothing
stands it is lost (spec/20_memory.md R91, R98, spec/70_reset_and_hazards.md R637; log 25). -/
def State.setMainWord (s : State) (high : Bool) (code : BusCode) (a v : Word) : State :=
  let n := physAddr s.params high code a.even
  match mainKind s.params n with
  | .ram => s.withMem (Mem.writeWord s.mem n v)
  | .device => s.withDevOut (s.devOut ++ [(n, v)])
  | _ => s

/-- The answer of a device in main memory: the next queued one, else a free word (spec/20_memory.md R96; log 25). -/
def deviceAnswer : M Word := do
  match ← gets State.devIn with
  | w :: rest =>
    update fun s => s.withDevIn rest
    return w
  | [] => drawWord

/-- What main memory answers to a read: RAM and ROM their word, a device its answer, and nothing a free word
(spec/20_memory.md R98; log 25). -/
def mainAnswer (high : Bool) (code : BusCode) (a : Word) : M Word := fun s =>
  match mainKind s.params (physAddr s.params high code a.even) with
  | .ram | .rom => .ok (s.mainWord high code a, s)
  | .device => deviceAnswer s
  | .absent => drawWord s

/-- A read cycle in main memory at a given level of PSEL (spec/20_memory.md R111). -/
def mainReadAs (high : Bool) (code : BusCode) (a : Word) : M Word := do
  busCycle
  mainAnswer high code a

/-- `MainRead` (spec/00_scope.md R13). -/
def mainRead (code : BusCode) (a : Word) : M Word := do
  let high ← gets fun s => psel s code
  mainReadAs high code a

/-- `MainWrite` (spec/00_scope.md R13). -/
def mainWrite (code : BusCode) (a v : Word) : M Unit := do
  busCycle
  update fun s => s.setMainWord (psel s code) code a v

/-- What stands at a Macrostore address (spec/47_macrostore.md R461). -/
inductive MsRegion
  | ram
  /-- The on-chip ROM, with an image supplied. -/
  | mrom
  /-- The on-chip ROM, without an image. -/
  | mromUnknown
  /-- External Macrostore memory that is ROM. -/
  | extRom
  | absent
  deriving DecidableEq, Repr

/-- What the platform fits at an address of external Macrostore (spec/47_macrostore.md R461; log 46). -/
def extRegion (p : Params) (n : Nat) : MsRegion :=
  match p.extMs.find? fun r => decide (r.first ≤ n) && decide (n ≤ r.last) with
  | some r => if r.rom then .extRom else .ram
  | none => .absent

/-- The Macrostore map, of the word at an address whose least significant bit is ignored (spec/20_memory.md R91, R99,
spec/47_macrostore.md R460, R461). What the platform fits outside the chip is its own affair: ROM or RAM, anywhere in
the range the mode leaves to it (log 46). -/
def msRegion (s : State) (a : Word) : MsRegion :=
  let n := a.even.toNat
  match s.msMode with
  | .baseline => .absent
  | .standard =>
    if n < 0x20 then .ram
    else if n < 0x800 then .absent
    else if n < 0xC00 then
      if s.params.mrom && s.params.variant == .tms99110a then .mrom else .mromUnknown
    else if n < 0x1000 then .absent
    else extRegion s.params n
  | .prototyping =>
    if n < 0x20 then .ram
    else if n < 0x800 then .absent
    else extRegion s.params n

/-- `MsRead` (spec/00_scope.md R13); refused where nothing stands, and of a ROM whose contents are not known
(spec/93_implementation_defined.md U10). -/
def msRead (a : Word) : M Word := do
  busCycle
  fun s =>
    match msRegion s a with
    | .absent => .error (.refused (.macrostoreAbsent a))
    | .mromUnknown => .error (.refused (.mromUnknown a))
    | _ => .ok (Mem.readWord s.ms a.even.toNat, s)

/-- The state after a word is written to Macrostore: RAM alone keeps it (spec/47_macrostore.md R461; log 46). -/
def State.setMsWord (s : State) (a v : Word) : State :=
  match msRegion s a with
  | .ram => s.withMs (Mem.writeWord s.ms a.even.toNat v)
  | _ => s

/-- `MsWrite` (spec/00_scope.md R13); refused where nothing stands, and to the on-chip ROM
(spec/93_implementation_defined.md U10); external ROM does not take it (log 46). -/
def msWrite (a v : Word) : M Unit := do
  busCycle
  fun s =>
    match msRegion s a with
    | .absent => .error (.refused (.macrostoreAbsent a))
    | .mrom | .mromUnknown => .error (.refused (.mromWrite a))
    | _ => .ok ((), s.setMsWord a v)

/-- `MemRead` of a word (spec/00_scope.md R13). -/
def readLoc (l : Loc) : M Word :=
  match l.space with
  | .main => mainRead l.code l.addr
  | .macrostore => msRead l.addr

/-- `MemWrite` of a word (spec/00_scope.md R13). -/
def writeLoc (l : Loc) (v : Word) : M Unit :=
  match l.space with
  | .main => mainWrite l.code l.addr v
  | .macrostore => msWrite l.addr v

/-- The byte of a word that an address selects (spec/20_memory.md R92). -/
def byteAt (a w : Word) : Byte := if a.getLsbD 0 then lo8 w else hi8 w

/-- The word with the byte an address selects replaced (spec/20_memory.md R95). -/
def mergeByte (a w : Word) (b : Byte) : Word :=
  if a.getLsbD 0 then wordOfBytes (hi8 w) b else wordOfBytes b (lo8 w)

/-! ### Registers (spec/10_state.md R31 to R34) -/

/-- The space of instruction fetches and of the workspace (spec/10_state.md R58). -/
def State.space (s : State) : Space := if s.inMs then .macrostore else .main

/-- Assigns PC; TI bit 15 is hardwired to 0 (spec/10_state.md R31). -/
def setPc (v : Word) : M Unit := update fun s => s.withPc v.even

/-- Assigns WP; TI bit 15 is hardwired to 0 (spec/10_state.md R33). -/
def setWp (v : Word) : M Unit := update fun s => s.withWp v.even

/-- Changes ST. Between which bus cycles a meaning does so, which a RESET cut shows, is the model's choice where
the spec does not place it (DESIGN CHOICE; log 50). -/
def updateSt (f : Word → Word) : M Unit := update fun s => s.withSt (f s.st)

/-- The ST bus cycle, which puts out a new ST (spec/71_bus_sequences.md R680): a RESET cut before it finds the old
one. -/
def stCycle (f : Word → Word) : M Unit := do
  busCycle
  updateSt f

/-- The WP bus cycle, which puts out a new WP (spec/71_bus_sequences.md R680): a RESET cut before it finds the old
one. -/
def wpCycle (v : Word) : M Unit := do
  busCycle
  setWp v

/-- The internal cycle after the prefetch, at whose end the status bits of a result change
(spec/71_bus_sequences.md R690 to R692, R696 to R698; DESIGN CHOICE; log 50). -/
def settle (f : Word → Word) : M Unit := do
  busCycle
  updateSt f

/-- The byte address of workspace register `r` (spec/10_state.md R34). -/
def State.regAddr (s : State) (r : Nibble) : Word := s.wp + 2#16 * r.setWidth 16

/-- The location of workspace register `r` (spec/10_state.md R34). -/
def State.regLoc (s : State) (r : Nibble) : Loc := { space := s.space, addr := s.regAddr r, code := .ws }

/-- `WR[r]` (spec/00_scope.md R12). -/
def readReg (r : Nibble) : M Word := do
  let l ← gets fun s => s.regLoc r
  readLoc l

/-- `WR[r] <- v` (spec/00_scope.md R12). -/
def writeReg (r : Nibble) (v : Word) : M Unit := do
  let l ← gets fun s => s.regLoc r
  writeLoc l v

/-! ### Instruction stream (spec/30_encoding.md R175, spec/70_reset_and_hazards.md R645) -/

/-- `FetchWord` (spec/30_encoding.md R175). -/
def fetchWord (code : BusCode) : M Word := do
  let pc ← gets State.pc
  let space ← gets State.space
  let v ← readLoc { space := space, addr := pc, code := code }
  setPc (pc + 2#16)
  return v

/-- The opcode of the next instruction: the prefetched one where an instruction left one, else the word at PC
(spec/10_state.md R61, spec/30_encoding.md R176). -/
def fetchOpcode : M Word := do
  match ← gets State.prefetch with
  | some w =>
    update fun s => s.withPrefetch none
    let pc ← gets State.pc
    setPc (pc + 2#16)
    return w
  | none => fetchWord .iaq

/-- The IAQ cycle that reads the opcode at an address ahead: a bus cycle of the current instruction, which stops where
nothing can be read (spec/70_reset_and_hazards.md R645, R647; log 8). -/
def prefetchAt (a : Word) : M Unit := do
  let space ← gets State.space
  let w ← readLoc { space := space, addr := a, code := .iaq }
  update fun s => s.withPrefetch (some w)

/-- The prefetch of an instruction that does not branch: "Each instruction is responsible for prefetching the opcode
for the next instruction" (spec/70_reset_and_hazards.md R645). -/
def prefetchNext : M Unit := do
  let pc ← gets State.pc
  prefetchAt pc

/-- The prefetch at a new PC, which PC takes with that cycle: where RESET cuts before it, PC is still the address after
the last instruction word fetched (spec/70_reset_and_hazards.md R631; log 11). -/
def continueAt (a : Word) : M Unit := do
  prefetchAt a.even
  setPc a

/-- Discards the prefetched opcode (spec/10_state.md R61). -/
def discardPrefetch : M Unit := update fun s => s.withPrefetch none

/-! ### Free values -/

/-- A fresh free bit. -/
def drawBit : M Bool := do
  let n ← gets State.draws
  update fun s => s.withDraws (n + 1)
  return Config.freeBit n

/-- ST0, ST1 and ST2 free (spec/93_implementation_defined.md U1, U13). -/
def drawLae : M Unit := do
  let b0 ← drawBit
  let b1 ← drawBit
  let b2 ← drawBit
  updateSt fun st => stSet (stSet (stSet st 0 b0) 1 b1) 2 b2

/-! ### I/O (spec/20_memory.md R115 to R124) -/

/-- The I/O address of PRIVOP (spec/10_state.md R50). -/
def ioPrivop : Word := 0x1FDC#16
/-- The I/O address of ILLOP (spec/10_state.md R50). -/
def ioIllop : Word := 0x1FDA#16
/-- The I/O address of AF (spec/10_state.md R50). -/
def ioAf : Word := 0x1FC8#16

/-- The platform's answer to one I/O read cycle: the next queued answer, else a free word
(spec/92_eei_decisions.md D28; log 14). -/
def ioAnswer : M Word := do
  busCycle
  match ← gets State.ioIn with
  | w :: rest =>
    update fun s => s.withIoIn rest
    return w
  | [] => drawWord

/-- The flag at an I/O address, if it is one of the three flag addresses (spec/10_state.md R54). -/
def State.flagAt (s : State) (ioa : Word) : Option Bool :=
  if ioa = ioPrivop then some s.privop
  else if ioa = ioIllop then some s.illop
  else if ioa = ioAf then some s.af
  else none

/-- `IoIn1`: a flag, or line D0 of the platform's answer (spec/20_memory.md R120, R124). -/
def ioIn1 (ioa : Word) : M Bool := do
  match ← gets fun s => s.flagAt ioa with
  | some b =>
    busCycle
    return b
  | none =>
    let w ← ioAnswer
    return w.msb

/-- `IoInPar` of a word (spec/20_memory.md R122). -/
def ioInWord (_ioa : Word) : M Word := ioAnswer

/-- `IoInPar` of a byte, on D0 to D7 (spec/20_memory.md R122). -/
def ioInByte (_ioa : Word) : M Byte := do
  let w ← ioAnswer
  return hi8 w

/-- Records an I/O write cycle (log 15). -/
def ioWrite (e : IoWrite) : M Unit := update fun s => s.withIoOut (s.ioOut ++ [e])

/-- The flags after an output of 0 to an I/O address (spec/10_state.md R53). -/
def State.clearFlagAt (s : State) (ioa : Word) : State :=
  if ioa = ioPrivop then s.withPrivop false
  else if ioa = ioIllop then s.withIllop false
  else if ioa = ioAf then s.withAf false
  else s

/-- An output of 1 to this address may set error flags (spec/93_implementation_defined.md U6). -/
def flagSetRange (ioa : Word) : Bool := decide (0x1FC0 ≤ ioa.toNat) && decide (ioa.toNat ≤ 0x1FDE)

/-- The flags after an output of 1, as the parameter `FLAG_SET_ADDRS` says (spec/10_state.md R52). -/
def State.setFlagsAt (s : State) (table : List FlagSetEntry) (ioa : Word) : State :=
  table.foldl (fun t e =>
    if e.addr = ioa then
      ((t.withPrivop (t.privop || e.privop)).withIllop (t.illop || e.illop)).withAf (t.af || e.af)
    else t) s

/-- The effect of a one-bit output inside the processor: a 1 sets what `FLAG_SET_ADDRS` lists for its address, wherever
that is, and while the parameter is not given it is refused at >1FC0 to >1FDE (spec/10_state.md R52, R53; log 16). -/
def flagOutput (ioa : Word) (b : Bool) : M Unit := fun s =>
  if b then
    match s.params.flagSetAddrs with
    | none => if flagSetRange ioa then .error (.refused (.flagSetOutput ioa)) else .ok ((), s)
    | some table => .ok ((), s.setFlagsAt table ioa)
  else .ok ((), s.clearFlagAt ioa)

/-- `IoOut1`: one bit out. In the parallel half it is a word whose line D15 is the bit and whose other lines are free
(spec/20_memory.md R121, R124). -/
def ioOut1 (ioa : Word) (b : Bool) : M Unit := do
  if ← gets State.ioInhibit then
    return ()
  else if ioa.msb then
    busCycle
    let w ← drawWord
    ioWrite (.word ioa ((w &&& 0xFFFE#16) ||| if b then 1#16 else 0#16))
  else
    busCycle
    flagOutput ioa b
    ioWrite (.bit ioa b)

/-- `IoOutPar` of a byte (spec/20_memory.md R123). -/
def ioOutByte (ioa : Word) (v : Byte) : M Unit := do
  if ← gets State.ioInhibit then return ()
  else
    busCycle
    ioWrite (.byte ioa v)

/-- `IoOutPar` of a word (spec/20_memory.md R123). -/
def ioOutWord (ioa : Word) (v : Word) : M Unit := do
  if ← gets State.ioInhibit then return ()
  else
    busCycle
    ioWrite (.word ioa v)

/-! ### Privilege (spec/60_exceptions.md R610 to R612) -/

/-- Privileged instructions have no effect here: user mode, outside Macrostore, where privilege is not checked
(spec/60_exceptions.md R610, spec/47_macrostore.md R471). -/
def State.userMode (s : State) : Bool := stBit s.st 7 && !s.inMs

/-- `set PRIVOP`: the flag, and the I/O write inhibit for the rest of the instruction
(spec/60_exceptions.md R612). -/
def setPrivop : M Unit := update fun s => (s.withPrivop true).withIoInhibit true

/-- `PrivIo`: the protected part of each half of the I/O space (spec/60_exceptions.md R611). -/
def privIo (ioa : Word) : Bool :=
  (decide (0x1C00 ≤ ioa.toNat) && decide (ioa.toNat ≤ 0x7FFE)) || decide (0x9C00 ≤ ioa.toNat)

/-- AF is set when ST4 and ST10 are both 1 (spec/10_state.md R51). -/
def evalAf : M Unit := update fun s => if stBit s.st 4 && stBit s.st 10 then s.withAf true else s

/-! ### Taking an exception (spec/60_exceptions.md R548, R559, R586) -/

/-- The context switch of spec/60_exceptions.md R548 with a given PC to save, in the order of
spec/71_bus_sequences.md R700: both vector words are read with PSEL high before anything is stored; the old WP, the PC
and the old ST go to WR13, WR14 and WR15 of the new workspace. -/
def contextSwitchSaving (savedPc vec : Word) (newMask : BitVec 4) : M Unit := do
  let oldWp ← gets State.wp
  let oldSt ← gets State.st
  discardPrefetch
  stCycle fun st => stSet st 8 false
  let newWp ← mainRead .inta vec
  let newPc ← mainRead .inta (vec + 2#16)
  wpCycle newWp
  writeReg 13#4 oldWp
  writeReg 14#4 savedPc
  writeReg 15#4 oldSt
  updateSt fun st => withIntMask (clearModes st) newMask
  update fun s => (s.withInhibit .maskable).withIdle false
  continueAt newPc

/-- `ContextSwitch(vec, newmask)` (spec/60_exceptions.md R548): the PC saved is the old one. -/
def contextSwitch (vec : Word) (newMask : BitVec 4) : M Unit := do
  let pc ← gets State.pc
  contextSwitchSaving pc vec newMask

/-- `NewMask(L)` of an external interrupt of level L (spec/60_exceptions.md R549). -/
def newMask (level : BitVec 4) : BitVec 4 := if level = 0#4 then 0#4 else level - 1#4

/-- `IllopTrap` with the PC to save (spec/60_exceptions.md R559, R570). PC itself stays at the address after the last
instruction word fetched, which a RESET cut saves (spec/92_eei_decisions.md D36). -/
def illopTrap (savedPc : Word) : M Unit := do
  update fun s => s.withIllop true
  contextSwitchSaving savedPc 0x0008#16 1#4

/-- `ApAccept(savedPC)`: transfer to an attached processor (spec/60_exceptions.md R586). -/
def apAccept (savedPc : Word) : M Unit := do
  let oldWp ← gets State.wp
  let oldSt ← gets State.st
  discardPrefetch
  stCycle fun st => stSet st 8 false
  let newWp ← mainRead .inta 0x0008#16
  wpCycle newWp
  writeReg 13#4 oldWp
  writeReg 14#4 savedPc
  writeReg 15#4 oldSt
  update fun s => s.withApHold true

/-- The reset sequence (spec/70_reset_and_hazards.md R630): the vector at >0000 with PSEL high, the old context saved,
ST and the error flags cleared, and the level of NMI latched (R634). -/
def resetSequence : M Unit := do
  let oldWp ← gets State.wp
  let oldPc ← gets State.pc
  let oldSt ← gets State.st
  update fun s => (((s.withInMs false).withIdle false).withApHold false).withMsMode s.pins.modeAtReset
  update fun s => ((s.withXTarget none).withWr7Ws false).withWr8Ws false
  update fun s => (s.withIoInhibit false).withResetDue false
  discardPrefetch
  stCycle fun _ => 0x0000#16
  let newWp ← mainRead .inta 0x0000#16
  let newPc ← mainRead .inta 0x0002#16
  wpCycle newWp
  writeReg 13#4 oldWp
  writeReg 14#4 oldPc
  writeReg 15#4 oldSt
  update fun s => ((s.withPrivop false).withIllop false).withAf false
  update fun s => (s.withLdf 0b111#3).withInhibit .maskable
  update fun s => (s.withNmiPending s.pins.nmi).withNmiLast s.pins.nmi
  continueAt newPc

/-! ### Returning (spec/60_exceptions.md R588, R620; spec/47_macrostore.md R488 to R492) -/

/-- Reads a workspace register for a return: in main memory with PSEL forced high (spec/20_memory.md R107). -/
def readRegHigh (r : Nibble) : M Word := do
  let l ← gets fun s => s.regLoc r
  match l.space with
  | .main => mainReadAs true l.code l.addr
  | .macrostore => msRead l.addr

/-- The saved PC, ST and WP, read from WR14, WR15 and WR13 in this order (spec/45_immediate_and_control.md R410,
spec/47_macrostore.md R488). -/
def readSavedContext : M (Word × Word × Word) := do
  let pc ← readRegHigh 14#4
  let st ← readRegHigh 15#4
  let wp ← readRegHigh 13#4
  return (pc, st, wp)

/-- The return from any handler: ST by `LoadST` in its own cycle, PC with the prefetch, and WP in the cycle after it
(spec/60_exceptions.md R620, spec/10_state.md R67, spec/71_bus_sequences.md R693). -/
def returnContext : M Unit := do
  let (pc, st, wp) ← readSavedContext
  stCycle fun old => loadedSt old st
  continueAt pc
  wpCycle wp

/-- `ApReturn`: all sixteen bits of ST are loaded (spec/60_exceptions.md R588), in the order of
spec/71_bus_sequences.md R703. -/
def apReturn : M Unit := do
  let (pc, st, wp) ← readSavedContext
  stCycle fun _ => st
  continueAt pc
  wpCycle wp
  evalAf
  update fun s => ((s.withInhibit .none).withLdf 0b111#3).withApHold false

/-- The exits from Macrostore common to >0380, >0382 and >0384 (spec/47_macrostore.md R489). INMS, ST and WP change in
one of the internal cycles between the reads and the prefetch (spec/71_bus_sequences.md R693; DESIGN CHOICE; log 11). -/
def macrostoreExit : M Unit := do
  let (pc, st, wp) ← readSavedContext
  busCycle
  update fun s => s.withInMs false
  updateSt fun old => loadedSt old st
  setWp wp
  continueAt pc
  evalAf

/-- The exit by >0382: ILLOP, the exit, and the level-2 trap in the same step (spec/47_macrostore.md R491). -/
def macrostoreExitIllop : M Unit := do
  update fun s => s.withIllop true
  macrostoreExit
  update fun s => (s.withLdf 0b111#3).withInhibit .none
  let pc ← gets State.pc
  illopTrap pc

/-! ### The MID trap (spec/60_exceptions.md R570 to R575) -/

/-- What raised a MID trap (spec/00_scope.md R14). -/
inductive MidKind
  | first
  | second (w1 : Word)
  | xop
  deriving DecidableEq, Repr

/-- `LdfAfter(f, LDS)` (spec/48_tms99110a_extensions.md R508). -/
def ldfAfterLds (f : BitVec 3) : BitVec 3 :=
  BitVec.ofBool (f.getMsbD 0) ++ BitVec.ofBool (f.getMsbD 1 && f.getMsbD 2) ++ 0#1

/-- `LdfAfter(f, LDD)` (spec/48_tms99110a_extensions.md R508). -/
def ldfAfterLdd (f : BitVec 3) : BitVec 3 :=
  0#1 ++ BitVec.ofBool (f.getMsbD 1 && f.getMsbD 2) ++ BitVec.ofBool (f.getMsbD 2)

/-- `EntryVector(w, kind)` (spec/60_exceptions.md R571). -/
def entryVector (w : Word) : MidKind → Word
  | .first => 0x0800#16 + 2#16 * (w.extractLsb' 8 3).setWidth 16
  | .second _ => 0x0810#16
  | .xop => 0x0812#16

/-- `Wr3Value(kind, w1)` (spec/60_exceptions.md R573). -/
def wr3Value (ldf : BitVec 3) (kind : MidKind) : Word :=
  let flags := ldf.setWidth 16 <<< 13
  match kind with
  | .second w1 => flags ||| (w1 &&& 0x0033#16)
  | _ => flags

/-- The PC saved by a MID trap: the word after the MID opcode, or an illegal second word itself
(spec/60_exceptions.md R570). -/
def midSavedPc (pc : Word) : MidKind → Word
  | .second _ => pc - 2#16
  | _ => pc

/-- A first word is LDS or LDD (spec/48_tms99110a_extensions.md R505). -/
def isLongDistance (w : Word) : Bool := w == 0x0780#16 || w == 0x07C0#16

/-- The hardware's part of LDS and LDD, which "precedes the trap on every family member"
(spec/48_tms99110a_extensions.md R506, spec/71_bus_sequences.md R699; log 27). -/
def ldfHardware (w : Word) : M Unit := update fun s =>
  if w = 0x0780#16 then s.withLdf (ldfAfterLds s.ldf)
  else if w = 0x07C0#16 then s.withLdf (ldfAfterLdd s.ldf)
  else s

/-- The early save of PC in WR14 by a trap on a second word (spec/71_bus_sequences.md R701). -/
def saveSecondPc (upc : Word) : MidKind → M Unit
  | .second _ => msWrite 0x001C#16 upc
  | _ => pure ()

/-- The stores of `MacrostoreEntry` and the Macrostore workspace, in the order of spec/71_bus_sequences.md R701: WR5,
for a second word WR14, WR3, the new PC by `vector`, WR13, WR14 and WR15, and the internal cycles after them, in which
WP and the mode change. Answers the new PC (spec/60_exceptions.md R572). -/
def macrostoreSave (w : Word) (kind : MidKind) (upc : Word) (vector : M Word) : M Word := do
  let uwp ← gets State.wp
  let ust ← gets State.st
  let ldf ← gets State.ldf
  msWrite 0x000A#16 w
  saveSecondPc upc kind
  msWrite 0x0006#16 (wr3Value ldf kind)
  let newPc ← vector
  msWrite 0x001A#16 uwp
  msWrite 0x001C#16 upc
  msWrite 0x001E#16 ust
  busCycle
  setWp 0x0000#16
  update fun s => ((s.withInMs true).withWr7Ws false).withWr8Ws false
  if kind = .xop then updateSt clearModes
  discardPrefetch
  return newPc

/-- `MacrostoreEntry`, with the fetch of the first Macrostore instruction, which is "an AUMS cycle among the last" of
the trap's (spec/60_exceptions.md R572, spec/71_bus_sequences.md R701). -/
def macrostoreEntry (w : Word) (kind : MidKind) (upc : Word) (vector : M Word) : M Unit := do
  let newPc ← macrostoreSave w kind upc vector
  continueAt newPc

/-- Where a MID trap goes (spec/60_exceptions.md R570). -/
inductive MidRoute
  | baseline
  | attached
  | rom
  | macrostore
  deriving DecidableEq, Repr

/-- The routing of `raise MID` (spec/60_exceptions.md R570). -/
def State.midRoute (s : State) : MidRoute :=
  if s.msMode = .baseline then .baseline
  else if s.pins.appMid then .attached
  else if s.params.variant = .tms99110a ∧ s.msMode = .standard ∧ s.params.mrom = false then .rom
  else .macrostore

/-- External Macrostore identifies itself by >AAAA at >1000 (spec/47_macrostore.md R495; log 31). -/
def externalPresent : M Bool := do
  if ← gets fun s => decide (msRegion s 0x1000#16 = .absent) then return false
  else
    let v ← msRead 0x1000#16
    return v == 0xAAAA#16

/-- The TMS99110A's on-chip program for a MID opcode it does not implement: external Macrostore at >1002 if present,
else the >0382 exit (spec/48_tms99110a_extensions.md R500, spec/47_macrostore.md R495; log 31). The program is not
published: that all the stores of the entry come before its read of >1000, and nothing but that read between them and
the way out, is the model's order (DESIGN CHOICE; log 31). Nor is a Macrostore PC within it known: where RESET cuts
after the entry the model shows >0800, the first address of the ROM (log 31). -/
def romUnimplemented (w : Word) (kind : MidKind) (upc : Word) : M Unit := do
  if kind = .first ∧ romUnknown w = true then refuse (.romUnknown w)
  let rom ← macrostoreSave w kind upc (pure 0x0800#16)
  setPc rom
  if ← externalPresent then continueAt 0x1002#16 else macrostoreExitIllop

/-- `raise MID(w, kind)` (spec/60_exceptions.md R570), for a MID opcode that no extension instruction of this model
stands for. Inside Macrostore there is no MID trap (spec/93_implementation_defined.md U11). -/
def raiseMid (w : Word) (kind : MidKind) : M Unit := do
  if ← gets State.inMs then refuse (.undefinedInMacrostore w)
  if kind = .first then ldfHardware w
  let upc ← gets fun s => midSavedPc s.pc kind
  match ← gets State.midRoute with
  | .baseline => illopTrap upc
  | .attached => apAccept upc
  | .rom => romUnimplemented w kind upc
  | .macrostore => macrostoreEntry w kind upc (msRead (entryVector w kind))

end Sys2Proof.Machine
end

