-- ==== Sys2Proof/Machine/Operands.lean ====
section
/-! DEFINITION. Operand address derivation in every mode (spec/40_addressing_modes.md R200 to R222), in main memory and
inside Macrostore (spec/47_macrostore.md R466 to R468). -/

namespace Sys2Proof.Machine

/-- The position of a register inside its 32-byte block: TI bits 11 to 14 of its address
(spec/47_macrostore.md R466, R468). -/
def blockIndex (regAddr : Word) : BitVec 4 := regAddr.extractLsb' 1 4

/-- Tables 9 and 10: the code of a main-memory access through a Macrostore register, or `none` where the access stays
in Macrostore (spec/47_macrostore.md R467, R468, R481). -/
def macrostoreBase (s : State) (k : BitVec 4) : Option BusCode :=
  match k.toNat with
  | 2 => some .iaq
  | 3 => some .gm
  | 6 => some .sop
  | 7 => some (if s.wr7Ws then .ws else .dop)
  | 8 => some (if s.wr8Ws then .ws else .sop)
  | 9 => some .ws
  | 10 => some .ws
  | 12 => some .dop
  | 13 => some .ws
  | 14 => some .iop
  | _ => none

/-- The location of an operand addressed through register `r`: with the code of its role in main memory; inside
Macrostore in the space the register selects (spec/47_macrostore.md R466). -/
def State.baseLoc (s : State) (r : Nibble) (addr : Word) (role : BusCode) : Loc :=
  if s.inMs then
    match macrostoreBase s (blockIndex (s.regAddr r)) with
    | some code => { space := .main, addr := addr, code := code }
    | none => { space := .macrostore, addr := addr, code := .aums }
  else { space := .main, addr := addr, code := role }

/-- `Addr(T, R, n, role)`: the operand location; `n` is the autoincrement and `role` SOP or DOP
(spec/40_addressing_modes.md R201 to R207). -/
def operandLoc (op : Operand) (n : Word) (role : BusCode) : M Loc :=
  match op with
  | .reg r => gets fun s => s.regLoc r
  | .ind r => do
    let a ← readReg r
    gets fun s => s.baseLoc r a role
  | .sym => do
    let a ← fetchWord .iop
    gets fun s => { space := s.space, addr := a, code := role }
  | .idx r => do
    let x ← readReg r
    let t ← fetchWord .iop
    gets fun s => s.baseLoc r (t + x) role
  | .inc r => do
    let a ← readReg r
    writeReg r (a + n)
    gets fun s => s.baseLoc r a role

/-- A source operand location of operand size `n` (spec/40_addressing_modes.md R209). -/
def srcLoc (op : Operand) (n : Word) : M Loc := operandLoc op n .sop

/-- A destination operand location of operand size `n` (spec/40_addressing_modes.md R209). -/
def dstLoc (op : Operand) (n : Word) : M Loc := operandLoc op n .dop

/-- The autoincrement of a byte instruction (spec/40_addressing_modes.md R207). -/
def byteStep : Word := 1#16
/-- The autoincrement of a word instruction (spec/40_addressing_modes.md R207). -/
def wordStep : Word := 2#16
/-- The autoincrement of a double-word operand (spec/40_addressing_modes.md R207). -/
def longStep : Word := 4#16
/-- The autoincrement of MM's destination (spec/40_addressing_modes.md R207). -/
def quadStep : Word := 8#16

/-- The immediate operand (spec/40_addressing_modes.md R220). -/
def immediate : M Word := fetchWord .iop

/-- Two words as a double word, the first the more significant (spec/00_scope.md R10). -/
def longOf (hi lo : Word) : BitVec 32 := (hi.setWidth 32 <<< 16) ||| lo.setWidth 32

/-- The two words at a location, the more significant first (spec/20_memory.md R92). -/
def readLong (l : Loc) : M (BitVec 32) := do
  let hi ← readLoc l
  let lo ← readLoc (l.offset 2#16)
  return longOf hi lo

/-- The more significant word of a double word. -/
def hiWord (v : BitVec 32) : Word := v.extractLsb' 16 16

/-- The less significant word of a double word. -/
def loWord (v : BitVec 32) : Word := v.extractLsb' 0 16

end Sys2Proof.Machine
end

