-- ==== Sys2Proof/Machine/JumpShift.lean ====
section
/-! DEFINITION. Jumps and single-word shifts (spec/44_jump_shift.md R350 to R374). -/

namespace Sys2Proof.Machine

/-- A jump: PC, already past the jump word, plus twice the signed displacement if the condition on ST holds
(spec/44_jump_shift.md R350). -/
def jumpIf (cond : Word → Bool) (disp : Byte) : M Unit := do
  let pc ← gets State.pc
  if ← gets fun s => cond s.st then continueAt (pc + dispBytes disp)
  else prefetchNext

/-- JMP (spec/44_jump_shift.md R351). -/
def execJmp (disp : Byte) (s : State) : Host.Outcome State Fault Refusal :=
  outcome (jumpIf (fun _ => true) disp) s

/-- JLT (spec/44_jump_shift.md R352). -/
def execJlt (disp : Byte) (s : State) : Host.Outcome State Fault Refusal :=
  outcome (jumpIf (fun st => !stBit st 1 && !stBit st 2) disp) s

/-- JLE (spec/44_jump_shift.md R353). -/
def execJle (disp : Byte) (s : State) : Host.Outcome State Fault Refusal :=
  outcome (jumpIf (fun st => !stBit st 0 || stBit st 2) disp) s

/-- JEQ (spec/44_jump_shift.md R354). -/
def execJeq (disp : Byte) (s : State) : Host.Outcome State Fault Refusal :=
  outcome (jumpIf (fun st => stBit st 2) disp) s

/-- JHE (spec/44_jump_shift.md R355). -/
def execJhe (disp : Byte) (s : State) : Host.Outcome State Fault Refusal :=
  outcome (jumpIf (fun st => stBit st 0 || stBit st 2) disp) s

/-- JGT (spec/44_jump_shift.md R356). -/
def execJgt (disp : Byte) (s : State) : Host.Outcome State Fault Refusal :=
  outcome (jumpIf (fun st => stBit st 1) disp) s

/-- JNE (spec/44_jump_shift.md R357). -/
def execJne (disp : Byte) (s : State) : Host.Outcome State Fault Refusal :=
  outcome (jumpIf (fun st => !stBit st 2) disp) s

/-- JNC (spec/44_jump_shift.md R358). -/
def execJnc (disp : Byte) (s : State) : Host.Outcome State Fault Refusal :=
  outcome (jumpIf (fun st => !stBit st 3) disp) s

/-- JOC (spec/44_jump_shift.md R359). -/
def execJoc (disp : Byte) (s : State) : Host.Outcome State Fault Refusal :=
  outcome (jumpIf (fun st => stBit st 3) disp) s

/-- JNO (spec/44_jump_shift.md R360). -/
def execJno (disp : Byte) (s : State) : Host.Outcome State Fault Refusal :=
  outcome (jumpIf (fun st => !stBit st 4) disp) s

/-- JL (spec/44_jump_shift.md R361). -/
def execJl (disp : Byte) (s : State) : Host.Outcome State Fault Refusal :=
  outcome (jumpIf (fun st => !stBit st 0 && !stBit st 2) disp) s

/-- JH (spec/44_jump_shift.md R362). -/
def execJh (disp : Byte) (s : State) : Host.Outcome State Fault Refusal :=
  outcome (jumpIf (fun st => stBit st 0 && !stBit st 2) disp) s

/-- JOP (spec/44_jump_shift.md R363). -/
def execJop (disp : Byte) (s : State) : Host.Outcome State Fault Refusal :=
  outcome (jumpIf (fun st => stBit st 5) disp) s

/-! ### Shifts, one bit at a time -/

/-- A value being shifted: the last bit shifted out, and whether the sign bit has changed. -/
structure Shift (n : Nat) where
  x : BitVec n
  out : Bool
  changed : Bool
  deriving DecidableEq, Repr

/-- Before the first step. -/
def Shift.start {n : Nat} (x : BitVec n) : Shift n := { x := x, out := false, changed := false }

/-- One step of an arithmetic left shift (spec/44_jump_shift.md R371). -/
def slaStep {n : Nat} (v : Shift n) : Shift n :=
  { x := v.x <<< 1, out := v.x.msb, changed := v.changed || (v.x <<< 1).msb != v.x.msb }

/-- One step of an arithmetic right shift (spec/44_jump_shift.md R372). -/
def sraStep {n : Nat} (v : Shift n) : Shift n := { v with x := v.x.sshiftRight 1, out := v.x.getLsbD 0 }

/-- One step of a logical right shift (spec/44_jump_shift.md R373). -/
def srlStep {n : Nat} (v : Shift n) : Shift n := { v with x := v.x >>> 1, out := v.x.getLsbD 0 }

/-- One step of a circular right shift (spec/44_jump_shift.md R374). -/
def srcStep {n : Nat} (v : Shift n) : Shift n := { v with x := v.x.rotateRight 1, out := v.x.getLsbD 0 }

/-- `k` steps. -/
def shiftBy {n : Nat} (step : Shift n → Shift n) : Nat → Shift n → Shift n
  | 0, v => v
  | k + 1, v => shiftBy step k (step v)

/-- The count of a single-word shift: SC, or TI bits 12 to 15 of WR0 with 0 meaning 16
(spec/44_jump_shift.md R370). -/
def shiftCount (sc : Nibble) : M Nat := do
  if sc = 0#4 then
    let w0 ← readReg 0#4
    let t := (w0.extractLsb' 0 4).toNat
    return if t = 0 then 16 else t
  else return sc.toNat

/-- The frame of the single-word shifts (spec/44_jump_shift.md R370; spec/71_bus_sequences.md R695). -/
def shiftReg (step : Shift 16 → Shift 16) (flags : Shift 16 → Word → Word) (w : Reg) (sc : Nibble) : M Unit := do
  let x ← readReg w
  let c ← shiftCount sc
  let r := shiftBy step c (Shift.start x)
  prefetchNext
  writeReg w r.x
  updateSt (flags r)

/-- ST0 to ST3 of a shift. -/
def shiftFlags {n : Nat} (r : Shift n) (st : Word) : Word := setCarry r.out (setLae r.x st)

/-- ST0 to ST4 of an arithmetic left shift. -/
def shiftLeftFlags {n : Nat} (r : Shift n) (st : Word) : Word := setOverflow r.changed (shiftFlags r st)

/-- SLA (spec/44_jump_shift.md R371). -/
def execSla (w : Reg) (sc : Nibble) (s : State) : Host.Outcome State Fault Refusal :=
  outcome (shiftReg slaStep shiftLeftFlags w sc) s

/-- SRA (spec/44_jump_shift.md R372). -/
def execSra (w : Reg) (sc : Nibble) (s : State) : Host.Outcome State Fault Refusal :=
  outcome (shiftReg sraStep shiftFlags w sc) s

/-- SRL (spec/44_jump_shift.md R373). -/
def execSrl (w : Reg) (sc : Nibble) (s : State) : Host.Outcome State Fault Refusal :=
  outcome (shiftReg srlStep shiftFlags w sc) s

/-- SRC (spec/44_jump_shift.md R374). -/
def execSrc (w : Reg) (sc : Nibble) (s : State) : Host.Outcome State Fault Refusal :=
  outcome (shiftReg srcStep shiftFlags w sc) s

end Sys2Proof.Machine
end

