-- ==== Sys2Proof/Machine/BitDouble.lean ====
section
/-! DEFINITION. Bit-manipulation and double-precision instructions (spec/46_bit_and_double.md R430 to R447), in the
access order of spec/71_bus_sequences.md R695, R696 and R698. The second opcode word has been fetched and checked before
the meaning runs (spec/30_encoding.md R164). -/

namespace Sys2Proof.Machine

/-- The frame of TMB, TCMB and TSMB: ST2 takes bit BD of the operand word, and the word may be written back. An
autoincrement source is an illegal second word and traps (spec/46_bit_and_double.md R430). With the second opcode word,
which `runOpcode` fetches, the accesses are those of R435 in its order: IOP read, operand read, operand write, IAQ
read. -/
def testBit (w1 : Word) (store : Option (Word → Word → Word)) (src : Operand) (bd : Nibble) : M Unit := do
  if src.notInc then
    let sl ← srcLoc src wordStep
    let x ← readLoc sl
    match store with
    | some f => writeLoc sl (f x (0x8000#16 >>> bd.toNat))
    | none => pure ()
    prefetchNext
    settle fun st => stSet st 2 (x.getMsbD bd.toNat)
  else raiseMid (encField 0x0000#16 src bd) (.second w1)

/-- TMB (spec/46_bit_and_double.md R431). -/
def execTmb (src : Operand) (bd : Nibble) (s : State) : Host.Outcome State Fault Refusal :=
  outcome (testBit 0x0C09#16 none src bd) s

/-- TCMB (spec/46_bit_and_double.md R432). -/
def execTcmb (src : Operand) (bd : Nibble) (s : State) : Host.Outcome State Fault Refusal :=
  outcome (testBit 0x0C0A#16 (some fun x m => x &&& ~~~ m) src bd) s

/-- TSMB (spec/46_bit_and_double.md R433). -/
def execTsmb (src : Operand) (bd : Nibble) (s : State) : Host.Outcome State Fault Refusal :=
  outcome (testBit 0x0C0B#16 (some fun x m => x ||| m) src bd) s

/-- The frame of AM and SM: the low word of the result is written before the high word of the destination is read, and
the high word after the prefetch (spec/46_bit_and_double.md R440). -/
def dualLong (op : BitVec 32 → BitVec 32 → Arith 32) (src dst : Operand) : M Unit := do
  let sl ← srcLoc src longStep
  let sh ← readLoc sl
  let dl ← dstLoc dst longStep
  let slo ← readLoc (sl.offset 2#16)
  let dlo ← readLoc (dl.offset 2#16)
  writeLoc (dl.offset 2#16) (loWord (op (longOf 0#16 dlo) (longOf 0#16 slo)).r)
  let dh ← readLoc dl
  let a := op (longOf dh dlo) (longOf sh slo)
  prefetchNext
  writeLoc dl (hiWord a.r)
  updateSt (setArith a)

/-- AM (spec/46_bit_and_double.md R441). -/
def execAm (src dst : Operand) (s : State) : Host.Outcome State Fault Refusal :=
  outcome (dualLong addN src dst) s

/-- SM, destination minus source (spec/46_bit_and_double.md R442). -/
def execSm (src dst : Operand) (s : State) : Host.Outcome State Fault Refusal :=
  outcome (dualLong subN src dst) s

/-- The count of SLAM and SRAM: SC, or TI bits 4 to 7 of WR0 (spec/46_bit_and_double.md R445). -/
def longShiftCount (sc : Nibble) : M Nat := do
  if sc = 0#4 then
    let w0 ← readReg 0#4
    return (w0.extractLsb' 8 4).toNat
  else return sc.toNat

/-- The frame of SLAM and SRAM: the low word of the result is written before the prefetch, the high word after
(spec/46_bit_and_double.md R444). -/
def shiftLong (step : Shift 32 → Shift 32) (flags : Shift 32 → Word → Word) (src : Operand) (sc : Nibble) :
    M Unit := do
  let sl ← srcLoc src longStep
  let hi ← readLoc sl
  let c ← longShiftCount sc
  let lo ← readLoc (sl.offset 2#16)
  let r := shiftBy step c (Shift.start (longOf hi lo))
  writeLoc (sl.offset 2#16) (loWord r.x)
  prefetchNext
  writeLoc sl (hiWord r.x)
  updateSt (flags r)

/-- SLAM (spec/46_bit_and_double.md R446). -/
def execSlam (src : Operand) (sc : Nibble) (s : State) : Host.Outcome State Fault Refusal :=
  outcome (shiftLong slaStep shiftLeftFlags src sc) s

/-- SRAM (spec/46_bit_and_double.md R447). -/
def execSram (src : Operand) (sc : Nibble) (s : State) : Host.Outcome State Fault Refusal :=
  outcome (shiftLong sraStep shiftFlags src sc) s

end Sys2Proof.Machine
end

