-- ==== Sys2Proof/Machine/InputOutput.lean ====
section
/-! DEFINITION. The I/O instructions (spec/43_cru_io.md R320 to R345), in the access order of
spec/71_bus_sequences.md R697. -/

namespace Sys2Proof.Machine

/-- The user-mode restriction on one output cycle (spec/43_cru_io.md R322). -/
def guardOutput (ioa : Word) : M Unit := do
  if ← gets fun s => s.userMode && privIo ioa then setPrivop

/-- The number of bits of a serial transfer: CNT, 0 meaning 16 (spec/43_cru_io.md R325). -/
def bitCount (cnt : Nibble) : Nat := if cnt = 0#4 then 16 else cnt.toNat

/-- The operand is a byte: CNT is 1 to 8 (spec/43_cru_io.md R325). -/
def byteCount (cnt : Nibble) : Bool := decide (1 ≤ cnt.toNat) && decide (cnt.toNat ≤ 8)

/-- The operand size in bytes (spec/43_cru_io.md R325). -/
def countStep (cnt : Nibble) : Word := if byteCount cnt then byteStep else wordStep

/-- The I/O address of bit `i` of a serial transfer (spec/43_cru_io.md R326). -/
def serialAddr (base : Word) (i : Nat) : Word := (base + BitVec.ofNat 16 (2 * i)).even

/-- Outputs bits `i`, `i + 1`, ... of a value, `n` of them (spec/43_cru_io.md R326). -/
def outBits (v base : Word) : Nat → Nat → M Unit
  | _, 0 => pure ()
  | i, n + 1 => do
    guardOutput (serialAddr base i)
    ioOut1 (serialAddr base i) (v.getLsbD i)
    outBits v base (i + 1) n

/-- Inputs bits `i`, `i + 1`, ..., `n` of them, into a value (spec/43_cru_io.md R330). -/
def inBits (base : Word) : Nat → Nat → M Word
  | _, 0 => pure 0#16
  | i, n + 1 => do
    let b ← ioIn1 (serialAddr base i)
    let rest ← inBits base (i + 1) n
    return rest ||| (if b then 1#16 <<< i else 0#16)

/-- The status of LDCR and STCR: the byte or word operand compared with 0, and the parity of a byte
(spec/43_cru_io.md R326, R330). -/
def transferFlags (cnt : Nibble) (v : Word) (st : Word) : Word :=
  if byteCount cnt then setParity (lo8 v) (setLae (lo8 v) st) else setLae v st

/-- The CNT codes a parallel transfer may have: byte, byte with increment, word, word with increment
(spec/43_cru_io.md R327). -/
def parallelCount (cnt : Nibble) : Bool := cnt == 0x2#4 || cnt == 0x3#4 || cnt == 0xA#4 || cnt == 0xB#4

/-- The increment of WR12 after a parallel transfer, if there is one (spec/43_cru_io.md R327; log 17). -/
def parallelIncrement (p : Params) (cnt : Nibble) : Option Word :=
  if cnt = 0x3#4 then some (if p.parByteIncOne then 1#16 else 2#16)
  else if cnt = 0xB#4 then some 2#16
  else none

/-- The prefetch of a parallel transfer, and after it the increment of WR12, or an internal cycle in its place
(spec/70_reset_and_hazards.md R645, spec/71_bus_sequences.md R697). -/
def bumpBase (base : Word) (cnt : Nibble) : M Unit := do
  prefetchNext
  match ← gets fun s => parallelIncrement s.params cnt with
  | some k => writeReg 12#4 (base + k)
  | none => busCycle

/-- LDCR (spec/43_cru_io.md R325 to R327). -/
def execLdcr (src : Operand) (cnt : Nibble) (s : State) : Host.Outcome State Fault Refusal :=
  outcome (do
    let sl ← srcLoc src (countStep cnt)
    let w ← readLoc sl
    let v := if byteCount cnt then (byteAt sl.addr w).setWidth 16 else w
    let base ← readReg 12#4
    if base.msb then
      if parallelCount cnt then
        guardOutput base.even
        if byteCount cnt then ioOutByte base.even (lo8 v) else ioOutWord base.even v
        bumpBase base cnt
        updateSt (transferFlags cnt v)
      else refuse (.reservedCount cnt)
    else
      outBits v base 0 (bitCount cnt)
      prefetchNext
      settle (transferFlags cnt v)) s

/-- The user-mode violation of STCR, which comes after the instruction's effects (spec/43_cru_io.md R334). -/
def stcrViolation (used : List Word) : M Unit := do
  if ← gets fun s => s.userMode && used.any privIo then setPrivop

/-- The user-mode violation of TB where the parameter has one: by spec/70_reset_and_hazards.md R651 it depends on the
I/O address, by spec/43_cru_io.md R322 and R343 and spec/60_exceptions.md R610 and R611 there is none, and no ruling
decides. Without it, the default, TB is free. That it comes after the instruction's effects, so that TB reads the old
PRIVOP, is taken from STCR (DESIGN CHOICE; log 51). -/
def tbViolation (ioa : Word) : M Unit := do
  if ← gets fun s => s.params.tbViolates && s.userMode && privIo ioa then setPrivop

/-- The word STCR writes: the value, or the word read with one byte replaced (spec/43_cru_io.md R330). -/
def stcrMerge (cnt : Nibble) (addr old v : Word) : Word :=
  if byteCount cnt then mergeByte addr old (lo8 v) else v

/-- STCR: a byte operand is read for the merge, a word operand is not read (spec/43_cru_io.md R330, R331, R334). -/
def execStcr (src : Operand) (cnt : Nibble) (s : State) : Host.Outcome State Fault Refusal :=
  outcome (do
    let sl ← srcLoc src (countStep cnt)
    let old ← if byteCount cnt then readLoc sl else pure 0#16
    let base ← readReg 12#4
    if base.msb then
      if parallelCount cnt then
        let v ← if byteCount cnt then (do let b ← ioInByte base.even; pure (b.setWidth 16)) else ioInWord base.even
        writeLoc sl (stcrMerge cnt sl.addr old v)
        bumpBase base cnt
        updateSt (transferFlags cnt v)
        stcrViolation [base.even]
      else refuse (.reservedCount cnt)
    else
      let v ← inBits base 0 (bitCount cnt)
      prefetchNext
      writeLoc sl (stcrMerge cnt sl.addr old v)
      updateSt (transferFlags cnt v)
      stcrViolation ((List.range (bitCount cnt)).map (serialAddr base))) s

/-- The address of a single-bit I/O instruction (spec/43_cru_io.md R340). -/
def bitAddr (disp : Byte) : M Word := do
  let base ← readReg 12#4
  return (base + dispBytes disp).even

/-- One output bit, with the user-mode restriction (spec/43_cru_io.md R341, R342). -/
def outputBit (disp : Byte) (b : Bool) : M Unit := do
  let ioa ← bitAddr disp
  guardOutput ioa
  ioOut1 ioa b
  prefetchNext

/-- Runs a main-memory instruction whose opcode means something else inside Macrostore
(spec/30_encoding.md R165, spec/43_cru_io.md R345). -/
def inMainOnly (m : M Unit) : M Unit := do
  if ← gets State.inMs then refuse .mainMemoryOnly else m

/-- SBO (spec/43_cru_io.md R341). -/
def execSbo (disp : Byte) (s : State) : Host.Outcome State Fault Refusal :=
  outcome (inMainOnly (outputBit disp true)) s

/-- SBZ (spec/43_cru_io.md R342). -/
def execSbz (disp : Byte) (s : State) : Host.Outcome State Fault Refusal :=
  outcome (inMainOnly (outputBit disp false)) s

/-- TB: ST2 takes the input bit (spec/43_cru_io.md R343). Whether user mode restricts it at a protected address is the
model's choice, a parameter (DESIGN CHOICE; log 51). -/
def execTb (disp : Byte) (s : State) : Host.Outcome State Fault Refusal :=
  outcome (inMainOnly (do
    let ioa ← bitAddr disp
    let b ← ioIn1 ioa
    prefetchNext
    settle fun st => stSet st 2 b
    tbViolation ioa)) s

end Sys2Proof.Machine
end

