-- ==== Sys2Proof/Machine/Control.lean ====
section
/-! DEFINITION. RTWP in main memory and the external instructions (spec/45_immediate_and_control.md R410 to R421). -/

namespace Sys2Proof.Machine

/-- RTWP executed from main memory (spec/45_immediate_and_control.md R410). -/
def execRtwp (s : State) : Host.Outcome State Fault Refusal := outcome (inMainOnly returnContext) s

/-- An external instruction: in user mode a violation and nothing else, otherwise a 0 written to its I/O address and
then its own effect, before the prefetch (spec/71_bus_sequences.md R697; spec/45_immediate_and_control.md R415). -/
def external (ioa : Word) (effect : M Unit) : M Unit := do
  if ← gets State.userMode then setPrivop
  else
    ioOut1 ioa false
    effect
  prefetchNext

/-- CKON (spec/45_immediate_and_control.md R416). -/
def execCkon (s : State) : Host.Outcome State Fault Refusal := outcome (external 0x1ECA#16 (stCycle id)) s

/-- CKOF (spec/45_immediate_and_control.md R417). -/
def execCkof (s : State) : Host.Outcome State Fault Refusal := outcome (external 0x1ECC#16 (stCycle id)) s

/-- LREX (spec/45_immediate_and_control.md R418). -/
def execLrex (s : State) : Host.Outcome State Fault Refusal := outcome (external 0x1ECE#16 (stCycle id)) s

/-- IDLE: enters the idle state after the first of its I/O writes; the repetitions are steps of their own
(spec/45_immediate_and_control.md R420); refused inside Macrostore (spec/93_implementation_defined.md U11). -/
def execIdle (s : State) : Host.Outcome State Fault Refusal :=
  outcome (do
    if ← gets State.inMs then refuse .idleInMacrostore
    else external 0x1EC4#16 (update fun t => t.withIdle true)) s

/-- The status after RSET: ST9 to ST15 cleared, or only the mask by the parameter
(spec/45_immediate_and_control.md R421, spec/92_eei_decisions.md D8). -/
def rsetSt (p : Params) (st : Word) : Word := if p.rsetClearsHigh then st &&& 0xFF80#16 else st &&& 0xFFF0#16

/-- RSET: ST and the error flags change in the ST cycle (spec/45_immediate_and_control.md R421,
spec/71_bus_sequences.md R697). -/
def execRset (s : State) : Host.Outcome State Fault Refusal :=
  outcome (external 0x1EC6#16 (do
    let p ← gets State.params
    stCycle (rsetSt p)
    update fun t => ((t.withAf false).withIllop false).withPrivop false)) s

end Sys2Proof.Machine
end

