-- ==== Sys2Proof/Machine/DualOperand.lean ====
section
/-! DEFINITION. The dual-operand instructions and the logical instructions with a register destination
(spec/41_dual_operand.md R230 to R253), in the access order of spec/71_bus_sequences.md R690. -/

namespace Sys2Proof.Machine

/-- The frame of a word instruction that stores a result: source read, destination read, prefetch, write, status
(spec/41_dual_operand.md R230). -/
def dualWord (result : Word → Word → Word) (flags : Word → Word → Word → Word) (src dst : Operand) : M Unit := do
  let sl ← srcLoc src wordStep
  let x ← readLoc sl
  let dl ← dstLoc dst wordStep
  let y ← readLoc dl
  prefetchNext
  writeLoc dl (result x y)
  updateSt (flags x y)

/-- The frame of a byte instruction that stores a result: the destination word is read, merged and written
(spec/41_dual_operand.md R230, spec/20_memory.md R95). -/
def dualByte (result : Byte → Byte → Byte) (flags : Byte → Byte → Word → Word) (src dst : Operand) : M Unit := do
  let sl ← srcLoc src byteStep
  let xw ← readLoc sl
  let dl ← dstLoc dst byteStep
  let yw ← readLoc dl
  let x := byteAt sl.addr xw
  let y := byteAt dl.addr yw
  prefetchNext
  writeLoc dl (mergeByte dl.addr yw (result x y))
  updateSt (flags x y)

/-- Result flags and parity of a byte result. -/
def setByteLogic (r : Byte) (st : Word) : Word := setParity r (setLae r st)

/-- A (spec/41_dual_operand.md R232). -/
def execA (src dst : Operand) (s : State) : Host.Outcome State Fault Refusal :=
  outcome (dualWord (fun x y => (addN y x).r) (fun x y => setArith (addN y x)) src dst) s

/-- AB (spec/41_dual_operand.md R233). -/
def execAb (src dst : Operand) (s : State) : Host.Outcome State Fault Refusal :=
  outcome (dualByte (fun x y => (addN y x).r)
    (fun x y st => setParity (addN y x).r (setArith (addN y x) st)) src dst) s

/-- C: the source compared with the destination; nothing written (spec/41_dual_operand.md R234). -/
def execC (src dst : Operand) (s : State) : Host.Outcome State Fault Refusal :=
  outcome (do
    let sl ← srcLoc src wordStep
    let x ← readLoc sl
    let dl ← dstLoc dst wordStep
    let y ← readLoc dl
    prefetchNext
    settle (cmpLae x y)) s

/-- CB: ST5 is the parity of the source byte (spec/41_dual_operand.md R235). -/
def execCb (src dst : Operand) (s : State) : Host.Outcome State Fault Refusal :=
  outcome (do
    let sl ← srcLoc src byteStep
    let xw ← readLoc sl
    let dl ← dstLoc dst byteStep
    let yw ← readLoc dl
    prefetchNext
    settle fun st => setParity (byteAt sl.addr xw) (cmpLae (byteAt sl.addr xw) (byteAt dl.addr yw) st)) s

/-- S, destination minus source (spec/41_dual_operand.md R236). -/
def execS (src dst : Operand) (s : State) : Host.Outcome State Fault Refusal :=
  outcome (dualWord (fun x y => (subN y x).r) (fun x y => setArith (subN y x)) src dst) s

/-- SB (spec/41_dual_operand.md R237). -/
def execSb (src dst : Operand) (s : State) : Host.Outcome State Fault Refusal :=
  outcome (dualByte (fun x y => (subN y x).r)
    (fun x y st => setParity (subN y x).r (setArith (subN y x) st)) src dst) s

/-- SOC (spec/41_dual_operand.md R238). -/
def execSoc (src dst : Operand) (s : State) : Host.Outcome State Fault Refusal :=
  outcome (dualWord (fun x y => y ||| x) (fun x y => setLae (y ||| x)) src dst) s

/-- SOCB (spec/41_dual_operand.md R239). -/
def execSocb (src dst : Operand) (s : State) : Host.Outcome State Fault Refusal :=
  outcome (dualByte (fun x y => y ||| x) (fun x y => setByteLogic (y ||| x)) src dst) s

/-- SZC (spec/41_dual_operand.md R240). -/
def execSzc (src dst : Operand) (s : State) : Host.Outcome State Fault Refusal :=
  outcome (dualWord (fun x y => y &&& ~~~ x) (fun x y => setLae (y &&& ~~~ x)) src dst) s

/-- SZCB (spec/41_dual_operand.md R241). -/
def execSzcb (src dst : Operand) (s : State) : Host.Outcome State Fault Refusal :=
  outcome (dualByte (fun x y => y &&& ~~~ x) (fun x y => setByteLogic (y &&& ~~~ x)) src dst) s

/-- MOV: the destination is not read (spec/41_dual_operand.md R242). -/
def execMov (src dst : Operand) (s : State) : Host.Outcome State Fault Refusal :=
  outcome (do
    let sl ← srcLoc src wordStep
    let x ← readLoc sl
    let dl ← dstLoc dst wordStep
    prefetchNext
    writeLoc dl x
    updateSt (setLae x)) s

/-- MOVB: the destination word is read for the merge (spec/41_dual_operand.md R243). -/
def execMovb (src dst : Operand) (s : State) : Host.Outcome State Fault Refusal :=
  outcome (dualByte (fun x _ => x) (fun x _ => setByteLogic x) src dst) s

/-! ### Register destination (spec/41_dual_operand.md R250) -/

/-- COC (spec/41_dual_operand.md R251). -/
def execCoc (src : Operand) (d : Reg) (s : State) : Host.Outcome State Fault Refusal :=
  outcome (do
    let sl ← srcLoc src wordStep
    let x ← readLoc sl
    let y ← readReg d
    prefetchNext
    settle fun st => stSet st 2 ((x &&& ~~~ y) == 0#16)) s

/-- CZC (spec/41_dual_operand.md R252). -/
def execCzc (src : Operand) (d : Reg) (s : State) : Host.Outcome State Fault Refusal :=
  outcome (do
    let sl ← srcLoc src wordStep
    let x ← readLoc sl
    let y ← readReg d
    prefetchNext
    settle fun st => stSet st 2 ((x &&& y) == 0#16)) s

/-- XOR (spec/41_dual_operand.md R253). -/
def execXor (src : Operand) (d : Reg) (s : State) : Host.Outcome State Fault Refusal :=
  outcome (do
    let sl ← srcLoc src wordStep
    let x ← readLoc sl
    let y ← readReg d
    prefetchNext
    writeReg d (y ^^^ x)
    updateSt (setLae (y ^^^ x))) s

end Sys2Proof.Machine
end

