-- ==== Sys2Proof/Machine/Float.lean ====
section
/-! DEFINITION. The radix-16 floating point numbers of the TMS99110A and their arithmetic
(spec/48_tms99110a_extensions.md R520 to R522): computed exactly on integers, then rounded once. -/

namespace Sys2Proof.Machine

/-- The exponent field: excess 64, radix 16 (spec/48_tms99110a_extensions.md R521). -/
def fpExp (x : BitVec 32) : Nat := (x.extractLsb' 24 7).toNat

/-- The mantissa: six hexadecimal digits, the point before the first (spec/48_tms99110a_extensions.md R521). -/
def fpMant (x : BitVec 32) : Nat := (x.extractLsb' 0 24).toNat

/-- Zero, or a first digit that is not zero; what the instructions do with any other pattern is not stated
(spec/48_tms99110a_extensions.md R521, spec/93_implementation_defined.md U13). -/
def fpValid (x : BitVec 32) : Bool := x == 0#32 || x.extractLsb' 20 4 != 0#4

/-- The mantissa with its sign. -/
def fpSigned (x : BitVec 32) : Int := if x.msb then -(fpMant x : Int) else (fpMant x : Int)

/-- The value of a number as an integer multiple of 16^(-70), the weight of the last digit at exponent field 0
(spec/48_tms99110a_extensions.md R521). -/
def fpInt (x : BitVec 32) : Int := fpSigned x * 16 ^ fpExp x

/-- The number of hexadecimal digits, by fuel. -/
def hexDigits : Nat → Nat → Nat
  | 0, _ => 0
  | fuel + 1, n => if n = 0 then 0 else hexDigits fuel (n / 16) + 1

/-- More hexadecimal digits than any exact result below has. -/
def hexFuel : Nat := 160

/-- A result of floating point arithmetic. -/
inductive FpResult
  /-- A representable value. -/
  | value (x : BitVec 32)
  /-- Exponential overflow (spec/48_tms99110a_extensions.md R531). -/
  | overflow
  /-- Exponential underflow (spec/48_tms99110a_extensions.md R531). -/
  | underflow
  deriving DecidableEq, Repr

/-- Sign, exponent field and mantissa as a number. -/
def fpPack (neg : Bool) (e m : Nat) : BitVec 32 :=
  BitVec.ofNat 32 ((if neg then 2 ^ 31 else 0) + e * 2 ^ 24 + m)

/-- The exact magnitude `n * 16^(k - 70)`, with `sticky` if a further fraction of the last unit of `n` was dropped, as
a number: exactly representable results exactly, the others one of the two neighbours as `away` says
(spec/48_tms99110a_extensions.md R522; log 21). Overflow and underflow are a normalised exponent field above 127 or
below 0 (R531). -/
def fpRound (neg : Bool) (n : Nat) (k : Int) (sticky away : Bool) : FpResult :=
  if n = 0 then .value 0#32
  else
    let len := hexDigits hexFuel n
    let e : Int := k + len - 6
    let m := if 6 ≤ len then n / 16 ^ (len - 6) else n * 16 ^ (6 - len)
    let inexact := sticky || (decide (6 ≤ len) && decide (n % 16 ^ (len - 6) ≠ 0))
    if e < 0 then .underflow
    else
      let m1 := if inexact && away then m + 1 else m
      let e1 := if m1 = 16 ^ 6 then e + 1 else e
      let m2 := if m1 = 16 ^ 6 then 16 ^ 5 else m1
      if 127 < e1 then .overflow else .value (fpPack neg e1.toNat m2)

/-- An exact signed integer `v * 16^(k - 70)` as a number. -/
def fpOfInt (v : Int) (k : Int) (away : Bool) : FpResult := fpRound (decide (v < 0)) v.natAbs k false away

/-- The sum of two valid numbers (spec/48_tms99110a_extensions.md R524). -/
def fpAdd (x y : BitVec 32) : FpResult :=
  let k := min (fpExp x) (fpExp y)
  fpOfInt (fpSigned x * 16 ^ (fpExp x - k) + fpSigned y * 16 ^ (fpExp y - k)) k (Config.fpAway .add x y)

/-- The difference of two valid numbers (spec/48_tms99110a_extensions.md R525). -/
def fpSub (x y : BitVec 32) : FpResult :=
  let k := min (fpExp x) (fpExp y)
  fpOfInt (fpSigned x * 16 ^ (fpExp x - k) - fpSigned y * 16 ^ (fpExp y - k)) k (Config.fpAway .sub x y)

/-- The product of two valid numbers (spec/48_tms99110a_extensions.md R526). -/
def fpMul (x y : BitVec 32) : FpResult :=
  fpOfInt (fpSigned x * fpSigned y) ((fpExp x : Int) + fpExp y - 70) (Config.fpAway .mul x y)

/-- The quotient of two valid numbers, the second not zero (spec/48_tms99110a_extensions.md R519): twelve hexadecimal
places are exact, the rest is sticky. -/
def fpDiv (x y : BitVec 32) : FpResult :=
  let n := fpMant x * 16 ^ 12
  fpRound (x.msb != y.msb) (n / fpMant y) ((fpExp x : Int) - fpExp y + 58)
    (decide (n % fpMant y ≠ 0)) (Config.fpAway .div x y)

/-- A real as an integer: the value if it is one, else one of the two neighbours as `away` says
(spec/48_tms99110a_extensions.md R532, R534; log 24). -/
def fpToInt (x : BitVec 32) (away : Bool) : Int :=
  let mag :=
    if 70 ≤ fpExp x then fpMant x * 16 ^ (fpExp x - 70)
    else
      let d := 16 ^ (70 - fpExp x)
      if fpMant x % d ≠ 0 ∧ away = true then fpMant x / d + 1 else fpMant x / d
  if x.msb then -(mag : Int) else (mag : Int)

/-- Whether an integer fits `w` bits in two's complement. -/
def fitsSigned (w : Nat) (v : Int) : Bool := decide (-(2 ^ (w - 1) : Int) ≤ v) && decide (v < 2 ^ (w - 1))

end Sys2Proof.Machine
end

