-- ==== Sys2Proof/Machine/Extension.lean ====
section
/-! DEFINITION. The TMS99110A's extension instructions (spec/48_tms99110a_extensions.md R500 to R538). Each is a MID
opcode to the hardware; on a TMS99110A in standard mode with no attached processor taking it, its effect is one atomic
step in place of the unpublished ROM routine (R500, R501). -/

namespace Sys2Proof.Machine

/-- The Macrostore words the ROM routines leave unspecified: all of MRAM but >0004
(spec/48_tms99110a_extensions.md R501). -/
def scratchWords : List Nat :=
  [0x00, 0x02, 0x06, 0x08, 0x0A, 0x0C, 0x0E, 0x10, 0x12, 0x14, 0x16, 0x18, 0x1A, 0x1C, 0x1E]

/-- A free value in each of the given Macrostore words (log 20). -/
def scrambleWords : List Nat → M Unit
  | [] => pure ()
  | a :: rest => do
    let w ← drawWord
    update fun s => s.withMs (Mem.writeWord s.ms a w)
    scrambleWords rest

/-- What the ROM routine's use of MRAM leaves (spec/48_tms99110a_extensions.md R501 b). -/
def scrambleMram : M Unit := scrambleWords scratchWords

/-- The exit of a ROM routine by >0380, with its prefetch (spec/48_tms99110a_extensions.md R501 d, e;
spec/47_macrostore.md R489, spec/70_reset_and_hazards.md R645). -/
def romExit : M Unit := do
  scrambleMram
  prefetchNext
  evalAf
  update fun s => (s.withLdf 0b111#3).withInhibit .none

/-- Runs an extension instruction where the ROM implements it; elsewhere its first word is a MID opcode, trapped with
PC after that word (spec/48_tms99110a_extensions.md R500). `extra` is the length of its second opcode word. -/
def extension (w : Word) (extra : Word) (body : M Unit) : M Unit := do
  if ← gets State.inMs then refuse (.undefinedInMacrostore w)
  else if ← gets fun s => decide (s.midRoute = .rom) then body
  else
    let pc ← gets State.pc
    setPc (pc - extra)
    raiseMid w .first

/-- LDS and LDD: a violation in user mode; else >0004 takes PC at the start of a sequence, the flags advance, and no
interrupt is taken before the next instruction (spec/48_tms99110a_extensions.md R506, R507). -/
def longDistance (after : BitVec 3 → BitVec 3) : M Unit := do
  if ← gets State.userMode then
    setPrivop
    romExit
  else
    scrambleMram
    let ldf ← gets State.ldf
    let pc ← gets State.pc
    if ldf = 0b111#3 then update fun s => s.withMs (Mem.writeWord s.ms 0x04 pc)
    prefetchNext
    update fun s => (s.withLdf (after ldf)).withInhibit .all

/-- LDS (spec/48_tms99110a_extensions.md R506). -/
def execLds (s : State) : Host.Outcome State Fault Refusal :=
  outcome (extension 0x0780#16 0#16 (longDistance ldfAfterLds)) s

/-- LDD (spec/48_tms99110a_extensions.md R507). -/
def execLdd (s : State) : Host.Outcome State Fault Refusal :=
  outcome (extension 0x07C0#16 0#16 (longDistance ldfAfterLdd)) s

/-! ### The accumulator (spec/48_tms99110a_extensions.md R520) -/

/-- FPAC: WR0 and WR1. -/
def readFpac : M (BitVec 32) := do
  let hi ← readReg 0#4
  let lo ← readReg 1#4
  return longOf hi lo

/-- Writes FPAC. -/
def writeFpac (v : BitVec 32) : M Unit := do
  writeReg 0#4 (hiWord v)
  writeReg 1#4 (loWord v)

/-- A free value in FPAC. -/
def drawFpac : M Unit := do
  let hi ← drawWord
  let lo ← drawWord
  writeFpac (longOf hi lo)

/-- ST3 and ST4. -/
def setFault (carry overflow : Bool) : M Unit := updateSt fun st => setOverflow overflow (setCarry carry st)

/-- ST0 to ST4 free (spec/93_implementation_defined.md U13; logs 22, 23). -/
def drawStatus : M Unit := do
  drawLae
  let c ← drawBit
  let v ← drawBit
  setFault c v

/-- Leaves a result in FPAC with the status of Table B.3: on overflow and underflow the value and ST0 to ST2 are free
(spec/48_tms99110a_extensions.md R522, R531). -/
def deliver : FpResult → M Unit
  | .value r => do
    writeFpac r
    updateSt (setLae r)
    setFault false false
  | .overflow => do
    drawFpac
    drawLae
    setFault true true
  | .underflow => do
    drawFpac
    drawLae
    setFault false true

/-- FPAC and ST0 to ST4 free. -/
def deliverAny : M Unit := do
  drawFpac
  drawStatus

/-- The frame of AR, SR, MR and DR: operands outside the format, and a division by zero, leave everything free
(spec/48_tms99110a_extensions.md R521 to R523). -/
def realOp (op : BitVec 32 → BitVec 32 → FpResult) (divides : Bool) (src : Operand) : M Unit := do
  let sl ← srcLoc src longStep
  let y ← readLong sl
  let a ← readFpac
  if fpValid a && fpValid y && !(divides && y == 0#32) then deliver (op a y) else deliverAny
  romExit

/-- AR (spec/48_tms99110a_extensions.md R524). -/
def execAr (src : Operand) (s : State) : Host.Outcome State Fault Refusal :=
  outcome (extension (encSingle 0x0C40#16 src) 0#16 (realOp fpAdd false src)) s

/-- SR (spec/48_tms99110a_extensions.md R525). -/
def execSr (src : Operand) (s : State) : Host.Outcome State Fault Refusal :=
  outcome (extension (encSingle 0x0CC0#16 src) 0#16 (realOp fpSub false src)) s

/-- MR (spec/48_tms99110a_extensions.md R526). -/
def execMr (src : Operand) (s : State) : Host.Outcome State Fault Refusal :=
  outcome (extension (encSingle 0x0D00#16 src) 0#16 (realOp fpMul false src)) s

/-- DR (spec/48_tms99110a_extensions.md R519). -/
def execDr (src : Operand) (s : State) : Host.Outcome State Fault Refusal :=
  outcome (extension (encSingle 0x0D40#16 src) 0#16 (realOp fpDiv true src)) s

/-- CIR: one signed word, the autoincrement still 4; ST3 set, ST4 cleared (spec/48_tms99110a_extensions.md R527,
R531). -/
def execCir (src : Operand) (s : State) : Host.Outcome State Fault Refusal :=
  outcome (extension (encSingle 0x0C80#16 src) 0#16 (do
    let sl ← srcLoc src longStep
    let x ← readLoc sl
    deliver (fpOfInt x.toInt 70 false)
    setFault true false
    romExit)) s

/-- LR: a copy; ST3 and ST4 unaffected (spec/48_tms99110a_extensions.md R528). -/
def execLr (src : Operand) (s : State) : Host.Outcome State Fault Refusal :=
  outcome (extension (encSingle 0x0D80#16 src) 0#16 (do
    let sl ← srcLoc src longStep
    let y ← readLong sl
    writeFpac y
    updateSt (setLae y)
    romExit)) s

/-- STR: a copy, one word after the other; ST3 and ST4 unaffected (spec/48_tms99110a_extensions.md R529). -/
def execStr (src : Operand) (s : State) : Host.Outcome State Fault Refusal :=
  outcome (extension (encSingle 0x0DC0#16 src) 0#16 (do
    let sl ← srcLoc src longStep
    let hi ← readReg 0#4
    writeLoc sl hi
    let lo ← readReg 1#4
    writeLoc (sl.offset 2#16) lo
    updateSt (setLae (longOf hi lo))
    romExit)) s

/-! ### On FPAC alone -/

/-- CRI: the integer in WR0, WR1 free; unrepresentable sets ST3 and ST4 and leaves WR0 and ST0 to ST2 free
(spec/48_tms99110a_extensions.md R532; log 24). -/
def convertToInt : M Unit := do
  let a ← readFpac
  let low ← drawWord
  if fpValid a then
    let v := fpToInt a (Config.fpAway .toInt a 0#32)
    if fitsSigned 16 v then
      let w := BitVec.ofInt 16 v
      writeReg 0#4 w
      writeReg 1#4 low
      updateSt (setLae w)
      setFault false false
    else
      drawFpac
      drawLae
      setFault true true
  else deliverAny
  romExit

/-- CRI (spec/48_tms99110a_extensions.md R532). -/
def execCri (s : State) : Host.Outcome State Fault Refusal :=
  outcome (extension 0x0C00#16 0#16 convertToInt) s

/-- NEGR: the sign inverted unless FPAC is zero; ST3 and ST4 unaffected (spec/48_tms99110a_extensions.md R533). -/
def execNegr (s : State) : Host.Outcome State Fault Refusal :=
  outcome (extension 0x0C02#16 0#16 (do
    let a ← readFpac
    if fpValid a then
      let r := if a = 0#32 then a else a ^^^ 0x80000000#32
      writeReg 0#4 (hiWord r)
      updateSt (setLae r)
    else
      drawFpac
      drawLae
    romExit)) s

/-- CRE: the 32-bit integer in WR0 and WR1 (spec/48_tms99110a_extensions.md R534). -/
def execCre (s : State) : Host.Outcome State Fault Refusal :=
  outcome (extension 0x0C04#16 0#16 (do
    let a ← readFpac
    if fpValid a then
      let v := fpToInt a (Config.fpAway .toExtended a 0#32)
      if fitsSigned 32 v then
        let w := BitVec.ofInt 32 v
        writeFpac w
        updateSt (setLae w)
        setFault false false
      else
        drawFpac
        drawLae
        setFault true true
    else deliverAny
    romExit)) s

/-- CER: the 32-bit integer of WR0 and WR1 as a real; ST3 set, ST4 cleared (spec/48_tms99110a_extensions.md R535). -/
def execCer (s : State) : Host.Outcome State Fault Refusal :=
  outcome (extension 0x0C06#16 0#16 (do
    let a ← readFpac
    deliver (fpOfInt a.toInt 70 (Config.fpAway .fromExtended a 0#32))
    setFault true false
    romExit)) s

/-! ### Two operands -/

/-- CR: the real values compared; both autoincrements are 4 (spec/48_tms99110a_extensions.md R537). Operands outside
the format leave ST0 to ST2 free (log 23). -/
def execCr (src dst : Operand) (s : State) : Host.Outcome State Fault Refusal :=
  outcome (extension 0x0301#16 2#16 (do
    let sl ← srcLoc src longStep
    let x ← readLong sl
    let dl ← dstLoc dst longStep
    let y ← readLong dl
    if fpValid x && fpValid y then
      updateSt fun st =>
        stSet (stSet (stSet st 0 (fpInt x != fpInt y)) 1 (decide (fpInt y < fpInt x))) 2 (fpInt x == fpInt y)
    else drawLae
    setFault false false
    romExit)) s

/-- MM: the unsigned 64-bit product in the four words at the destination; the destination register advances by 8
(spec/48_tms99110a_extensions.md R536, R538). -/
def execMm (src dst : Operand) (s : State) : Host.Outcome State Fault Refusal :=
  outcome (extension 0x0302#16 2#16 (do
    let sl ← srcLoc src longStep
    let x ← readLong sl
    let dl ← dstLoc dst quadStep
    let y ← readLong dl
    let p := BitVec.ofNat 64 (x.toNat * y.toNat)
    writeLoc dl (p.extractLsb' 48 16)
    writeLoc (dl.offset 2#16) (p.extractLsb' 32 16)
    writeLoc (dl.offset 4#16) (p.extractLsb' 16 16)
    writeLoc (dl.offset 6#16) (p.extractLsb' 0 16)
    updateSt fun st => stSet (stSet (stSet st 0 false) 1 false) 2 (p == 0#64)
    setFault false false
    romExit)) s

end Sys2Proof.Machine
end

