-- ==== Sys2Proof/Machine/Immediate.lean ====
section
/-! DEFINITION. Immediate instructions and the loads and stores of WP and ST
(spec/45_immediate_and_control.md R390 to R405), in the access order of spec/71_bus_sequences.md R691 and R693. -/

namespace Sys2Proof.Machine

/-- The frame of AI, ANDI and ORI: the register is read before the immediate word
(spec/45_immediate_and_control.md R390). -/
def immediateReg (result : Word → Word → Word) (flags : Word → Word → Word → Word) (w : Reg) : M Unit := do
  let x ← readReg w
  let iop ← immediate
  prefetchNext
  writeReg w (result x iop)
  updateSt (flags x iop)

/-- LI (spec/45_immediate_and_control.md R391). -/
def execLi (w : Reg) (s : State) : Host.Outcome State Fault Refusal :=
  outcome (do
    let iop ← immediate
    prefetchNext
    writeReg w iop
    updateSt (setLae iop)) s

/-- AI (spec/45_immediate_and_control.md R392). -/
def execAi (w : Reg) (s : State) : Host.Outcome State Fault Refusal :=
  outcome (immediateReg (fun x iop => (addN x iop).r) (fun x iop => setArith (addN x iop)) w) s

/-- ANDI (spec/45_immediate_and_control.md R393). -/
def execAndi (w : Reg) (s : State) : Host.Outcome State Fault Refusal :=
  outcome (immediateReg (fun x iop => x &&& iop) (fun x iop => setLae (x &&& iop)) w) s

/-- ORI (spec/45_immediate_and_control.md R394). -/
def execOri (w : Reg) (s : State) : Host.Outcome State Fault Refusal :=
  outcome (immediateReg (fun x iop => x ||| iop) (fun x iop => setLae (x ||| iop)) w) s

/-- CI: nothing written (spec/45_immediate_and_control.md R395). -/
def execCi (w : Reg) (s : State) : Host.Outcome State Fault Refusal :=
  outcome (do
    let x ← readReg w
    let iop ← immediate
    prefetchNext
    settle (cmpLae x iop)) s

/-- BLSK: the register is decremented before the immediate is fetched, and the return address is pushed through it
(spec/45_immediate_and_control.md R396). -/
def execBlsk (w : Reg) (s : State) : Host.Outcome State Fault Refusal :=
  outcome (do
    let x ← readReg w
    let sp := x - 2#16
    writeReg w sp
    let iop ← immediate
    let pc ← gets State.pc
    let l ← gets fun t => t.baseLoc w sp .sop
    writeLoc l pc
    continueAt iop) s

/-- LWPI: WP takes its value in the cycle after the prefetch (spec/71_bus_sequences.md R691;
spec/45_immediate_and_control.md R400). -/
def execLwpi (s : State) : Host.Outcome State Fault Refusal :=
  outcome (do
    let iop ← immediate
    prefetchNext
    wpCycle iop) s

/-- LIMI: in user mode a violation, the immediate word still consumed (spec/45_immediate_and_control.md R401). The mask
changes in an internal cycle between the two words (spec/71_bus_sequences.md R691, spec/70_reset_and_hazards.md
R652). -/
def execLimi (s : State) : Host.Outcome State Fault Refusal :=
  outcome (do
    let iop ← immediate
    busCycle
    if ← gets State.userMode then setPrivop
    else updateSt fun st => withIntMask st (stIntMask iop)
    prefetchNext) s

/-- STST (spec/45_immediate_and_control.md R402). -/
def execStst (w : Reg) (s : State) : Host.Outcome State Fault Refusal :=
  outcome (do
    let st ← gets State.st
    prefetchNext
    writeReg w st) s

/-- LST: all sixteen bits inside Macrostore, `LoadST` outside; the ST cycle comes before the prefetch
(spec/71_bus_sequences.md R691; spec/45_immediate_and_control.md R403, spec/10_state.md R67). -/
def execLst (w : Reg) (s : State) : Host.Outcome State Fault Refusal :=
  outcome (do
    let v ← readReg w
    let inMs ← gets State.inMs
    stCycle fun st => if inMs then v else loadedSt st v
    prefetchNext) s

/-- STWP (spec/45_immediate_and_control.md R404). -/
def execStwp (w : Reg) (s : State) : Host.Outcome State Fault Refusal :=
  outcome (do
    let wp ← gets State.wp
    prefetchNext
    writeReg w wp) s

/-- LWP: WP takes its value in the cycle after the prefetch (spec/71_bus_sequences.md R691;
spec/45_immediate_and_control.md R405). -/
def execLwp (w : Reg) (s : State) : Host.Outcome State Fault Refusal :=
  outcome (do
    let v ← readReg w
    prefetchNext
    wpCycle v) s

end Sys2Proof.Machine
end

