-- ==== Sys2Proof/Machine/Macrostore.lean ====
section
/-! DEFINITION. The instructions that exist only inside Macrostore: EVAD, the RTWP forms and the jumps on a pending
interrupt (spec/47_macrostore.md R478 to R492). -/

namespace Sys2Proof.Machine

/-- One field of EVAD's target word: its address in the user's context and the user's PC after it; for autoincrement
the address of the user's register goes to a Macrostore register (spec/47_macrostore.md R478, R479). -/
def evalField (t : BitVec 2) (r park : Nibble) (uwp upc : Word) : M (Word × Word) := do
  let ra := uwp + 2#16 * r.setWidth 16
  if t = 0#2 then return (ra, upc)
  else if t = 1#2 then
    let a ← mainRead .ws ra
    return (a, upc)
  else if t = 2#2 then
    if r = 0#4 then
      let a ← mainRead .iop upc
      return (a, upc + 2#16)
    else
      let x ← mainRead .ws ra
      let b ← mainRead .iop upc
      return (b + x, upc + 2#16)
  else
    let a ← mainRead .ws ra
    writeReg park ra
    return (a, upc)

/-- EVAD inside Macrostore (spec/47_macrostore.md R478 to R481): source field first, then destination; WR4 is left with
a free value (log 19); WR8 is written after the prefetch (spec/70_reset_and_hazards.md R645). -/
def evaluateAddress (src : Operand) : M Unit := do
  let sl ← srcLoc src wordStep
  let t ← readLoc sl
  let scratch ← drawWord
  writeReg 4#4 scratch
  let upc ← readReg 14#4
  let uwp ← readReg 13#4
  let (sa, upc1) ← evalField (t.extractLsb' 4 2) (t.extractLsb' 0 4) 10#4 uwp upc
  let (da, upc2) ← evalField (t.extractLsb' 10 2) (t.extractLsb' 6 4) 9#4 uwp upc1
  writeReg 14#4 upc2
  writeReg 7#4 da
  updateSt fun st =>
    stSet (stSet st 2 (t.extractLsb' 4 2 == 3#2)) 0 (t.extractLsb' 10 2 != 3#2)
  update fun s =>
    (s.withWr7Ws (t.extractLsb' 10 2 == 0#2)).withWr8Ws (t.extractLsb' 4 2 == 0#2)
  prefetchNext
  writeReg 8#4 sa

/-- EVAD: a MID opcode in main memory (spec/30_encoding.md R165); refused with WP not >0000 or for register 0
(spec/47_macrostore.md R483, spec/93_implementation_defined.md U11). -/
def execEvad (src : Operand) (s : State) : Host.Outcome State Fault Refusal :=
  outcome (do
    if ← gets State.inMs then
      if ← gets fun t => t.wp != 0#16 then refuse .evadWorkspace
      else if src = .reg 0#4 then refuse .evadRegisterZero
      else evaluateAddress src
    else raiseMid (encSingle 0x0100#16 src) .first) s

/-- RTWP >0380 inside Macrostore: exit, interrupts sampled (spec/47_macrostore.md R489). -/
def execRtwpExit (s : State) : Host.Outcome State Fault Refusal :=
  outcome (do
    if ← gets State.inMs then
      macrostoreExit
      update fun t => (t.withLdf 0b111#3).withInhibit .none
    else refuse .macrostoreOnly) s

/-- RTWP >0381: return inside Macrostore, all sixteen bits of ST, which changes with WP in an internal cycle as in the
other forms (log 11); a MID opcode in main memory (spec/47_macrostore.md R492). -/
def execRtwpStay (s : State) : Host.Outcome State Fault Refusal :=
  outcome (do
    if ← gets State.inMs then
      let (pc, st, wp) ← readSavedContext
      busCycle
      updateSt fun _ => st
      setWp wp
      continueAt pc
    else raiseMid 0x0381#16 .first) s

/-- RTWP >0382: exit to the illegal-opcode trap; a MID opcode in main memory (spec/47_macrostore.md R491). -/
def execRtwpIllop (s : State) : Host.Outcome State Fault Refusal :=
  outcome (do
    if ← gets State.inMs then macrostoreExitIllop else raiseMid 0x0382#16 .first) s

/-- RTWP >0384: exit without an interrupt test before the next instruction; a MID opcode in main memory
(spec/47_macrostore.md R490). -/
def execRtwpQuiet (s : State) : Host.Outcome State Fault Refusal :=
  outcome (do
    if ← gets State.inMs then
      macrostoreExit
      update fun t => t.withInhibit .all
    else raiseMid 0x0384#16 .first) s

/-- An unmasked external interrupt or an NMI is pending (spec/47_macrostore.md R486). -/
def State.pending (s : State) : Bool :=
  s.nmiPending || (s.pins.intreq && decide (s.pins.ic.toNat ≤ (stIntMask s.st).toNat))

/-- The frame of the Macrostore jumps (spec/47_macrostore.md R486). -/
def macrostoreJump (cond : State → Bool) (disp : Byte) : M Unit := do
  if ← gets State.inMs then
    let pc ← gets State.pc
    if ← gets cond then continueAt (pc + dispBytes disp)
    else prefetchNext
  else refuse .macrostoreOnly

/-- >1Dxx: jump if an interrupt is pending (spec/47_macrostore.md R484). -/
def execJip (disp : Byte) (s : State) : Host.Outcome State Fault Refusal :=
  outcome (macrostoreJump State.pending disp) s

/-- >1Exx: jump if ST2 = 0 and no interrupt is pending (spec/47_macrostore.md R485). -/
def execJnep (disp : Byte) (s : State) : Host.Outcome State Fault Refusal :=
  outcome (macrostoreJump (fun t => !stBit t.st 2 && !t.pending) disp) s

end Sys2Proof.Machine
end

