-- ==== Sys2Proof/Machine/MulDiv.lean ====
section
/-! DEFINITION. Multiply and divide (spec/41_dual_operand.md R254, R255, R260 to R262), in the access order of
spec/71_bus_sequences.md R696. -/

namespace Sys2Proof.Machine

/-- The location of the word after workspace register `d`: WR[d + 1], or the word after the workspace
(spec/41_dual_operand.md R254, spec/92_eei_decisions.md D5). -/
def State.nextRegLoc (s : State) (d : Nibble) : Loc := (s.regLoc d).offset 2#16

/-- MPY: the high word of the product is written before the prefetch, the low word after
(spec/41_dual_operand.md R254). -/
def execMpy (src : Operand) (d : Reg) (s : State) : Host.Outcome State Fault Refusal :=
  outcome (do
    let sl ← srcLoc src wordStep
    let x ← readLoc sl
    let y ← readReg d
    let p := BitVec.ofNat 32 (y.toNat * x.toNat)
    writeReg d (hiWord p)
    prefetchNext
    let nl ← gets fun t => t.nextRegLoc d
    writeLoc nl (loWord p)) s

/-- DIV: with a source not greater than the high word nothing happens but ST4 (spec/41_dual_operand.md R255). A divisor
of zero leaves by the late exit of spec/71_bus_sequences.md R696, after the check for it and the read of the low word;
every other overflow by the early one (DEDUCED; log 49). -/
def execDiv (src : Operand) (d : Reg) (s : State) : Host.Outcome State Fault Refusal :=
  outcome (do
    let sl ← srcLoc src wordStep
    let x ← readLoc sl
    let y ← readReg d
    if 0 < x.toNat ∧ x.toNat ≤ y.toNat then
      prefetchNext
      settle (setOverflow true)
    else
      let nl ← gets fun t => t.nextRegLoc d
      let lo ← readLoc nl
      if x = 0#16 then
        prefetchNext
        settle (setOverflow true)
      else
        let n := y.toNat * 65536 + lo.toNat
        writeReg d (BitVec.ofNat 16 (n / x.toNat))
        prefetchNext
        writeLoc nl (BitVec.ofNat 16 (n % x.toNat))
        updateSt (setOverflow false)) s

/-- MPYS: the flags are judged on the 32-bit product (spec/41_dual_operand.md R261). -/
def execMpys (src : Operand) (s : State) : Host.Outcome State Fault Refusal :=
  outcome (do
    let sl ← srcLoc src wordStep
    let x ← readLoc sl
    let y ← readReg 0#4
    let p := BitVec.ofInt 32 (y.toInt * x.toInt)
    writeReg 0#4 (hiWord p)
    prefetchNext
    writeReg 1#4 (loWord p)
    updateSt (setLae p)) s

/-- Whether an integer is a signed sixteen-bit quantity. -/
def fitsWord (q : Int) : Bool := decide (-32768 ≤ q) && decide (q ≤ 32767)

/-- DIVS: on overflow ST4 is set, ST0 to ST2 are free, and nothing else changes; else the quotient and the remainder,
the flags judged on the quotient (spec/41_dual_operand.md R262, spec/93_implementation_defined.md U1; log 18). -/
def execDivs (src : Operand) (s : State) : Host.Outcome State Fault Refusal :=
  outcome (do
    let sl ← srcLoc src wordStep
    let x ← readLoc sl
    let lo ← readReg 1#4
    let hi ← readReg 0#4
    let d := x.toInt
    let n := (longOf hi lo).toInt
    if d = 0 ∨ fitsWord (n.tdiv d) = false then
      prefetchNext
      settle (setOverflow true)
      drawLae
    else
      let q := BitVec.ofInt 16 (n.tdiv d)
      writeReg 0#4 q
      prefetchNext
      writeReg 1#4 (BitVec.ofInt 16 (n.tmod d))
      updateSt fun st => setLae q (setOverflow false st)) s

end Sys2Proof.Machine
end

