-- ==== Sys2Proof/Machine/SingleOperand.lean ====
section
/-! DEFINITION. XOP, the single-operand instructions, X and BIND (spec/42_xop_single_operand.md R280 to R315), in the
access order of spec/71_bus_sequences.md R692 to R694. -/

namespace Sys2Proof.Machine

/-- XOP with ST11 = 0: the operand address is derived, then the XOP vector is taken with the address in WR11 of the new
workspace (spec/42_xop_single_operand.md R281), in the order of spec/71_bus_sequences.md R694. -/
def xopTrap (src : Operand) (n : Nibble) : M Unit := do
  let sl ← srcLoc src wordStep
  let oldWp ← gets State.wp
  let oldPc ← gets State.pc
  let oldSt ← gets State.st
  stCycle fun st => stSet st 8 false
  let v := 0x0040#16 + 4#16 * n.setWidth 16
  let newWp ← mainRead .inta v
  wpCycle newWp
  writeReg 11#4 sl.addr
  let newPc ← mainRead .inta (v + 2#16)
  writeReg 13#4 oldWp
  writeReg 14#4 oldPc
  writeReg 15#4 oldSt
  updateSt fun st => stSet (clearModes st) 6 true
  update fun s => s.withInhibit .maskable
  continueAt newPc

/-- XOP: a MID opcode when ST11 = 1 (spec/42_xop_single_operand.md R280 to R283); refused inside Macrostore
(spec/93_implementation_defined.md U11). -/
def execXop (src : Operand) (n : Nibble) (s : State) : Host.Outcome State Fault Refusal :=
  outcome (do
    if ← gets State.inMs then refuse .xopInMacrostore
    else if ← gets fun t => stBit t.st 11 then raiseMid (encField 0x2C00#16 src n) .xop
    else xopTrap src n) s

/-- The frame of a read-modify-write instruction whose write comes after the prefetch
(spec/42_xop_single_operand.md R290). -/
def modifyWord (result : Word → Word) (flags : Word → Word → Word) (src : Operand) : M Unit := do
  let sl ← srcLoc src wordStep
  let x ← readLoc sl
  prefetchNext
  writeLoc sl (result x)
  updateSt (flags x)

/-- The frame of CLR and SETO: the operand is not read (spec/42_xop_single_operand.md R290). -/
def storeWord (v : Word) (src : Operand) : M Unit := do
  let sl ← srcLoc src wordStep
  prefetchNext
  writeLoc sl v

/-- B (spec/42_xop_single_operand.md R291). -/
def execB (src : Operand) (s : State) : Host.Outcome State Fault Refusal :=
  outcome (do
    let sl ← srcLoc src wordStep
    continueAt sl.addr) s

/-- BL: the operand is read and not used; WR11 is written after the prefetch at the target
(spec/42_xop_single_operand.md R292). -/
def execBl (src : Operand) (s : State) : Host.Outcome State Fault Refusal :=
  outcome (do
    let sl ← srcLoc src wordStep
    let _ ← readLoc sl
    let oldPc ← gets State.pc
    continueAt sl.addr
    writeReg 11#4 oldPc) s

/-- BLWP (spec/42_xop_single_operand.md R293), in the order of spec/71_bus_sequences.md R693. -/
def execBlwp (src : Operand) (s : State) : Host.Outcome State Fault Refusal :=
  outcome (do
    let sl ← srcLoc src wordStep
    let newWp ← readLoc sl
    let newPc ← readLoc (sl.offset 2#16)
    let oldWp ← gets State.wp
    let oldPc ← gets State.pc
    let oldSt ← gets State.st
    wpCycle newWp
    writeReg 13#4 oldWp
    writeReg 14#4 oldPc
    writeReg 15#4 oldSt
    update fun t => t.withInhibit .maskable
    continueAt newPc) s

/-- CLR (spec/42_xop_single_operand.md R294). -/
def execClr (src : Operand) (s : State) : Host.Outcome State Fault Refusal := outcome (storeWord 0x0000#16 src) s

/-- SETO (spec/42_xop_single_operand.md R295). -/
def execSeto (src : Operand) (s : State) : Host.Outcome State Fault Refusal := outcome (storeWord 0xFFFF#16 src) s

/-- INV (spec/42_xop_single_operand.md R296). -/
def execInv (src : Operand) (s : State) : Host.Outcome State Fault Refusal :=
  outcome (modifyWord (fun x => ~~~ x) (fun x => setLae (~~~ x)) src) s

/-- NEG (spec/42_xop_single_operand.md R297). -/
def execNeg (src : Operand) (s : State) : Host.Outcome State Fault Refusal :=
  outcome (modifyWord (fun x => (subN 0#16 x).r)
    (fun x st => setOverflow (x == 0x8000#16) (setCarry (subN 0#16 x).c (setLae (subN 0#16 x).r st))) src) s

/-- ABS: the flags are judged on the operand, ST3 is cleared, and the write comes before the prefetch
(spec/42_xop_single_operand.md R298, spec/70_reset_and_hazards.md R645). That ST0 to ST4 change after both of these
cycles, so that a RESET cut shows the old ones, is the model's choice: R298 lists them before the write, and
spec/71_bus_sequences.md R692 does not place them (DESIGN CHOICE; log 50). -/
def execAbs (src : Operand) (s : State) : Host.Outcome State Fault Refusal :=
  outcome (do
    let sl ← srcLoc src wordStep
    let x ← readLoc sl
    writeLoc sl (if x.msb then (subN 0#16 x).r else x)
    prefetchNext
    settle fun st => setOverflow (x == 0x8000#16) (setCarry false (setLae x st))) s

/-- SWPB (spec/42_xop_single_operand.md R299). -/
def execSwpb (src : Operand) (s : State) : Host.Outcome State Fault Refusal :=
  outcome (modifyWord (fun x => wordOfBytes (lo8 x) (hi8 x)) (fun _ st => st) src) s

/-- INC (spec/42_xop_single_operand.md R300). -/
def execInc (src : Operand) (s : State) : Host.Outcome State Fault Refusal :=
  outcome (modifyWord (fun x => (addN x 1#16).r) (fun x => setArith (addN x 1#16)) src) s

/-- INCT (spec/42_xop_single_operand.md R301). -/
def execInct (src : Operand) (s : State) : Host.Outcome State Fault Refusal :=
  outcome (modifyWord (fun x => (addN x 2#16).r) (fun x => setArith (addN x 2#16)) src) s

/-- DEC (spec/42_xop_single_operand.md R302). -/
def execDec (src : Operand) (s : State) : Host.Outcome State Fault Refusal :=
  outcome (modifyWord (fun x => (subN x 1#16).r) (fun x => setArith (subN x 1#16)) src) s

/-- DECT (spec/42_xop_single_operand.md R303). -/
def execDect (src : Operand) (s : State) : Host.Outcome State Fault Refusal :=
  outcome (modifyWord (fun x => (subN x 2#16).r) (fun x => setArith (subN x 2#16)) src) s

/-- The word at X's source address, read with the code of the operand. In which segment it lies, on a platform that
decodes them, two rules say differently: the data segment by spec/42_xop_single_operand.md R310, the instruction segment
by spec/20_memory.md R110; a parameter says which (DESIGN CHOICE; log 47). -/
def readTarget (l : Loc) : M Word := do
  if ← gets fun s => s.params.xFromInstructionSegment && l.space == .main then
    let high ← gets fun s => psel s l.code
    mainReadAs high .iop l.addr
  else readLoc l

/-- X: reads the word at the source address as the opcode to execute next, with PC unchanged; the step that runs X runs
it too (spec/42_xop_single_operand.md R310, R311; log 7). -/
def execX (src : Operand) (s : State) : Host.Outcome State Fault Refusal :=
  outcome (do
    let sl ← srcLoc src wordStep
    let t ← readTarget sl
    update fun u => u.withXTarget (some t)) s

/-- BIND (spec/42_xop_single_operand.md R315). -/
def execBind (src : Operand) (s : State) : Host.Outcome State Fault Refusal :=
  outcome (do
    let sl ← srcLoc src wordStep
    let t ← readLoc sl
    continueAt t) s

end Sys2Proof.Machine
end

