-- ==== Sys2Proof/Machine/Dispatch.lean ====
section
/-! DEFINITION. The meaning of every instruction, one arm per row of spec/opcode_table.json. -/

namespace Sys2Proof.Machine

def exec (i : Instr) (s : State) : Host.Outcome State Fault Refusal :=
  match i with
  | .szc src dst => Sys2Proof.Machine.execSzc src dst s
  | .szcb src dst => Sys2Proof.Machine.execSzcb src dst s
  | .s src dst => Sys2Proof.Machine.execS src dst s
  | .sb src dst => Sys2Proof.Machine.execSb src dst s
  | .c src dst => Sys2Proof.Machine.execC src dst s
  | .cb src dst => Sys2Proof.Machine.execCb src dst s
  | .a src dst => Sys2Proof.Machine.execA src dst s
  | .ab src dst => Sys2Proof.Machine.execAb src dst s
  | .mov src dst => Sys2Proof.Machine.execMov src dst s
  | .movb src dst => Sys2Proof.Machine.execMovb src dst s
  | .soc src dst => Sys2Proof.Machine.execSoc src dst s
  | .socb src dst => Sys2Proof.Machine.execSocb src dst s
  | .coc src d => Sys2Proof.Machine.execCoc src d s
  | .czc src d => Sys2Proof.Machine.execCzc src d s
  | .xor src d => Sys2Proof.Machine.execXor src d s
  | .mpy src d => Sys2Proof.Machine.execMpy src d s
  | .div src d => Sys2Proof.Machine.execDiv src d s
  | .xop src n => Sys2Proof.Machine.execXop src n s
  | .ldcr src cnt => Sys2Proof.Machine.execLdcr src cnt s
  | .stcr src cnt => Sys2Proof.Machine.execStcr src cnt s
  | .mpys src => Sys2Proof.Machine.execMpys src s
  | .divs src => Sys2Proof.Machine.execDivs src s
  | .bind src => Sys2Proof.Machine.execBind src s
  | .blwp src => Sys2Proof.Machine.execBlwp src s
  | .b src => Sys2Proof.Machine.execB src s
  | .x src => Sys2Proof.Machine.execX src s
  | .clr src => Sys2Proof.Machine.execClr src s
  | .neg src => Sys2Proof.Machine.execNeg src s
  | .inv src => Sys2Proof.Machine.execInv src s
  | .inc src => Sys2Proof.Machine.execInc src s
  | .inct src => Sys2Proof.Machine.execInct src s
  | .dec src => Sys2Proof.Machine.execDec src s
  | .dect src => Sys2Proof.Machine.execDect src s
  | .bl src => Sys2Proof.Machine.execBl src s
  | .swpb src => Sys2Proof.Machine.execSwpb src s
  | .seto src => Sys2Proof.Machine.execSeto src s
  | .abs src => Sys2Proof.Machine.execAbs src s
  | .jmp disp => Sys2Proof.Machine.execJmp disp s
  | .jlt disp => Sys2Proof.Machine.execJlt disp s
  | .jle disp => Sys2Proof.Machine.execJle disp s
  | .jeq disp => Sys2Proof.Machine.execJeq disp s
  | .jhe disp => Sys2Proof.Machine.execJhe disp s
  | .jgt disp => Sys2Proof.Machine.execJgt disp s
  | .jne disp => Sys2Proof.Machine.execJne disp s
  | .jnc disp => Sys2Proof.Machine.execJnc disp s
  | .joc disp => Sys2Proof.Machine.execJoc disp s
  | .jno disp => Sys2Proof.Machine.execJno disp s
  | .jl disp => Sys2Proof.Machine.execJl disp s
  | .jh disp => Sys2Proof.Machine.execJh disp s
  | .jop disp => Sys2Proof.Machine.execJop disp s
  | .sbo disp => Sys2Proof.Machine.execSbo disp s
  | .sbz disp => Sys2Proof.Machine.execSbz disp s
  | .tb disp => Sys2Proof.Machine.execTb disp s
  | .sra w sc => Sys2Proof.Machine.execSra w sc s
  | .srl w sc => Sys2Proof.Machine.execSrl w sc s
  | .sla w sc => Sys2Proof.Machine.execSla w sc s
  | .src w sc => Sys2Proof.Machine.execSrc w sc s
  | .li w => Sys2Proof.Machine.execLi w s
  | .ai w => Sys2Proof.Machine.execAi w s
  | .andi w => Sys2Proof.Machine.execAndi w s
  | .ori w => Sys2Proof.Machine.execOri w s
  | .ci w => Sys2Proof.Machine.execCi w s
  | .blsk w => Sys2Proof.Machine.execBlsk w s
  | .lwpi => Sys2Proof.Machine.execLwpi s
  | .limi => Sys2Proof.Machine.execLimi s
  | .stwp w => Sys2Proof.Machine.execStwp w s
  | .stst w => Sys2Proof.Machine.execStst w s
  | .lst w => Sys2Proof.Machine.execLst w s
  | .lwp w => Sys2Proof.Machine.execLwp w s
  | .idle => Sys2Proof.Machine.execIdle s
  | .rset => Sys2Proof.Machine.execRset s
  | .rtwp => Sys2Proof.Machine.execRtwp s
  | .ckon => Sys2Proof.Machine.execCkon s
  | .ckof => Sys2Proof.Machine.execCkof s
  | .lrex => Sys2Proof.Machine.execLrex s
  | .tmb src bd => Sys2Proof.Machine.execTmb src bd s
  | .tcmb src bd => Sys2Proof.Machine.execTcmb src bd s
  | .tsmb src bd => Sys2Proof.Machine.execTsmb src bd s
  | .slam src sc => Sys2Proof.Machine.execSlam src sc s
  | .sram src sc => Sys2Proof.Machine.execSram src sc s
  | .am src dst => Sys2Proof.Machine.execAm src dst s
  | .sm src dst => Sys2Proof.Machine.execSm src dst s
  | .evad src => Sys2Proof.Machine.execEvad src s
  | .rtwpExit => Sys2Proof.Machine.execRtwpExit s
  | .rtwpStay => Sys2Proof.Machine.execRtwpStay s
  | .rtwpIllop => Sys2Proof.Machine.execRtwpIllop s
  | .rtwpQuiet => Sys2Proof.Machine.execRtwpQuiet s
  | .jip disp => Sys2Proof.Machine.execJip disp s
  | .jnep disp => Sys2Proof.Machine.execJnep disp s
  | .lds => Sys2Proof.Machine.execLds s
  | .ldd => Sys2Proof.Machine.execLdd s
  | .ar src => Sys2Proof.Machine.execAr src s
  | .cir src => Sys2Proof.Machine.execCir src s
  | .sr src => Sys2Proof.Machine.execSr src s
  | .mr src => Sys2Proof.Machine.execMr src s
  | .dr src => Sys2Proof.Machine.execDr src s
  | .lr src => Sys2Proof.Machine.execLr src s
  | .str src => Sys2Proof.Machine.execStr src s
  | .cri => Sys2Proof.Machine.execCri s
  | .negr => Sys2Proof.Machine.execNegr s
  | .cre => Sys2Proof.Machine.execCre s
  | .cer => Sys2Proof.Machine.execCer s
  | .cr src dst => Sys2Proof.Machine.execCr src dst s
  | .mm src dst => Sys2Proof.Machine.execMm src dst s

end Sys2Proof.Machine
end

