-- ==== Sys2Proof/Machine/Cycle.lean ====
section
/-! DEFINITION. One step of the processor (spec/60_exceptions.md R542): reset, hold, the attached-processor hold, a
Macrostore instruction, the interrupt test, or a main-memory instruction; and where the host's probe places a word. -/

namespace Sys2Proof.Machine

/-- The inputs sampled at the start of a step: an NMI edge is latched (spec/10_state.md R55), and APP high ends the
baseline mode (spec/60_exceptions.md R600). -/
def sampleInputs (s : State) : State :=
  let latched := (s.withNmiPending (s.nmiPending || (s.pins.nmi && !s.nmiLast))).withNmiLast s.pins.nmi
  if latched.msMode = .baseline ∧ latched.pins.appHigh = true then latched.withMsMode .prototyping else latched

/-- The meaning of an instruction as a computation, cut where RESET has cut it (spec/70_reset_and_hazards.md R631). -/
def runInstr (i : Instr) : M Unit := fun s =>
  match exec i s with
  | .next t => if t.resetDue then .error (.cut t) else .ok ((), t)
  | .fault f => nomatch f
  | .refused r => .error (.refused r)

/-- The instruction leaves the long-distance flags for the next one (spec/48_tms99110a_extensions.md R510). -/
def keepsLdf : Instr → Bool
  | .lds => true
  | .ldd => true
  | _ => false

/-- A MID opcode fetched from main memory: an extension instruction where the TMS99110A's ROM is asked, else the trap
(spec/60_exceptions.md R570, spec/48_tms99110a_extensions.md R500). Answers whether LDF is kept: LDS and LDD leave it
to the instruction after them (spec/48_tms99110a_extensions.md R510; log 27). -/
def runMid (w : Word) : M Bool := do
  match ← gets State.midRoute with
  | .rom =>
    match decodeRom w with
    | .instr i =>
      runInstr i
      return keepsLdf i
    | .two k =>
      let w2 ← fetchWord .iop
      match decodeSecond k w2 with
      | some i =>
        runInstr i
        return false
      | none => refuse (.romUnknown w2)
    | .undefined => refuse (.romUnknown w)
    | .mid =>
      raiseMid w .first
      return false
  | _ =>
    raiseMid w .first
    return isLongDistance w

/-- Decodes and runs an opcode word with PC past it (spec/30_encoding.md R160 to R165). Answers whether LDF is
kept. -/
def runOpcode (w : Word) : M Bool := do
  let inMs ← gets State.inMs
  match decodeFirst inMs w with
  | .instr i =>
    runInstr i
    return false
  | .two k =>
    let w2 ← fetchWord .iop
    match decodeSecond k w2 with
    | some i =>
      runInstr i
      return false
    | none =>
      raiseMid w2 (.second w)
      return false
  | .mid => runMid w
  | .undefined => refuse (.undefinedInMacrostore w)

/-- The completion of a main-memory instruction: the I/O write inhibit ends; unless the processor is now in Macrostore
or in hold, AF is evaluated and LDF cleared (spec/10_state.md R51, R64;
spec/48_tms99110a_extensions.md R510; spec/60_exceptions.md R542). -/
def finish (keepLdf : Bool) : M Unit := update fun s =>
  let t := s.withIoInhibit false
  if t.inMs || t.apHold then t
  else
    let u := if stBit t.st 4 && stBit t.st 10 then t.withAf true else t
    if keepLdf then u else u.withLdf 0b111#3

/-- Runs an opcode and, after X, its target, which is part of the same instruction; a chain of X that outlasts the fuel
is refused (spec/42_xop_single_operand.md R310, R311, spec/93_implementation_defined.md U2; log 7). -/
def runChain : Nat → Word → M Bool
  | 0, w => refuse (.endlessX w)
  | n + 1, w => do
    let keep ← runOpcode w
    match ← gets State.xTarget with
    | some t =>
      update fun s => s.withXTarget none
      runChain n t
    | none => return keep

/-- A chain of X this long never ends. X changes only PC and, by autoincrement, registers: a chain on memory is in one
of less than 2 ^ 290 states, by the sixteen registers, PC and the opcode, so a longer one comes back to a state it has
been in (log 7). -/
def chainLimit : Nat := 2 ^ 150 * 2 ^ 150

/-- Runs an opcode and completes it: inside Macrostore only the I/O write inhibit ends
(spec/60_exceptions.md R542). -/
def runAndFinish (w : Word) : M Unit := do
  let inMs ← gets State.inMs
  let keep ← runChain chainLimit w
  if inMs then update fun s => s.withIoInhibit false else finish keep

/-- APP asks for a breakpoint at an opcode fetch (spec/60_exceptions.md R590). -/
def State.breakpoint (s : State) : Bool := s.pins.appIaq && decide (s.msMode ≠ .baseline)

/-- An internal level-2 request that the mask enables (spec/60_exceptions.md R556). -/
def State.internalRequest (s : State) : Bool := decide (2 ≤ (stIntMask s.st).toNat) && (s.af || s.privop)

/-- An external request that the mask enables (spec/60_exceptions.md R552). -/
def State.externalRequest (s : State) : Bool :=
  s.pins.intreq && decide (s.pins.ic.toNat ≤ (stIntMask s.st).toNat)

/-- Fetches and runs the next main-memory instruction, or takes a breakpoint in its place
(spec/60_exceptions.md R542, R590). -/
def fetchAndRun : M Unit := do
  let a ← gets State.pc
  let w ← fetchOpcode
  if ← gets State.breakpoint then
    setPc a
    apAccept a
  else runAndFinish w

/-- One repetition of the idle state, or the breakpoint that ends it (spec/10_state.md R60,
spec/45_immediate_and_control.md R420). That APP is looked at before every repetition is the model's choice: R420 has it
low at IDLE's prefetch, and R658 and R697 make that one cycle (DESIGN CHOICE; log 48). -/
def idleStep : M Unit := do
  if ← gets State.breakpoint then
    update fun s => s.withIdle false
    let pc ← gets State.pc
    apAccept pc
  else ioOut1 0x1EC4#16 false

/-- An instruction boundary in main memory: the interrupt test, then the idle state or the next instruction
(spec/60_exceptions.md R542, R543). -/
def boundary : M Unit := do
  let inh ← gets State.inhibit
  update fun s => s.withInhibit .none
  if ← gets fun s => decide (inh ≠ .all) && s.nmiPending then
    update fun s => (s.withNmiPending false).withIdle false
    contextSwitch 0xFFFC#16 0#4
  else if ← gets fun s => decide (inh = .none) && s.internalRequest then
    contextSwitch 0x0008#16 1#4
  else if ← gets fun s => decide (inh = .none) && s.externalRequest then
    let ic ← gets fun s => s.pins.ic
    contextSwitch (4#16 * ic.setWidth 16) (newMask ic)
  else if ← gets State.idle then idleStep
  else fetchAndRun

/-- What the processor does in a step without reset or hold: wait for or return from an attached processor
(spec/60_exceptions.md R587, R588), run a target of X that a state holds (log 7), execute from Macrostore, or take an
instruction boundary. -/
def proceed : M Unit := do
  if ← gets State.apHold then
    if ← gets fun s => s.pins.appHigh then apReturn else busCycle
  else
    match ← gets State.xTarget with
    | some w =>
      update fun s => s.withXTarget none
      runAndFinish w
    | none =>
      if ← gets State.inMs then
        let w ← fetchOpcode
        runAndFinish w
      else boundary

/-- The reset function: the sequence, after a HOLD that is asserted at its beginning; the wait leaves the reset due, so
that RESET may be released before HOLD is (spec/70_reset_and_hazards.md R630, R635; log 40). -/
def resetStep : M Unit := do
  if ← gets fun s => s.pins.hold then
    update fun s => s.withResetDue true
    busCycle
  else resetSequence

/-- One step (spec/60_exceptions.md R542): the reset function where the environment presents RESET or a reset is due
from a step before; one cycle of waiting while HOLD is asserted (spec/20_memory.md R130; log 10); else the processor
proceeds. A RESET pulse that is too short is refused (spec/70_reset_and_hazards.md R630). -/
def cycle : M Unit := do
  match ← gets fun s => s.pins.reset with
  | .short => refuse .shortReset
  | .full => resetStep
  | .inactive =>
    if ← gets State.resetDue then resetStep
    else
      update sampleInputs
      if ← gets fun s => s.pins.hold then busCycle else proceed

/-! ### Placing a word for the next fetch (log 36) -/

/-- Stores words at PC and after it in main memory, where instruction fetches read them. -/
def placeMain (s : State) : Word → List Word → State
  | _, [] => s
  | a, w :: rest =>
    placeMain (s.withMem (Mem.writeWord s.mem (physAddr s.params (psel s .iaq) .iaq a.even) w)) (a + 2#16) rest

/-- Stores words at PC and after it in Macrostore. -/
def placeMacrostore (s : State) : Word → List Word → State
  | _, [] => s
  | a, w :: rest => placeMacrostore (s.withMs (Mem.writeWord s.ms a.even.toNat w)) (a + 2#16) rest

/-- The context in which a table word is an instruction; main memory if in none. -/
def wordContext (words : List Word) : Context :=
  let bytes := words.flatMap bytesOfWord
  match decode .main bytes, decode .rom bytes, decode .macrostore bytes with
  | .ok _, _, _ => .main
  | _, .ok _, _ => .rom
  | _, _, .ok _ => .macrostore
  | _, _, _ => .main

/-- The state with an instruction where the next step fetches. An extension instruction also needs the TMS99110A in
standard mode; a Macrostore instruction needs the processor to execute from Macrostore, with MRAM enabled. -/
def placeFetch (s : State) (words : List Word) : State :=
  let t := (s.withPrefetch none).withXTarget none
  if t.inMs then placeMacrostore t t.pc words
  else
    match wordContext words with
    | .main => placeMain t t.pc words
    | .rom =>
      placeMain ((t.withMsMode .standard).withParams { t.params with variant := .tms99110a, mrom := false })
        t.pc words
    | .macrostore =>
      let u := if t.msMode = .baseline then t.withMsMode .prototyping else t
      placeMacrostore (u.withInMs true) t.pc words

end Sys2Proof.Machine
end

