-- ==== Sys2Proof/Machine/Step.lean ====
section
/-! DEFINITION. The step function of the machine, and the placing of an instruction where it fetches next. -/

namespace Sys2Proof.Machine

/-- One step of the processor (spec/60_exceptions.md R542). -/
def step (s : State) : Host.Outcome State Fault Refusal := outcome cycle s

/-- `s` with the instruction `w`, of `nbits` bits and zeros above them, where `step` fetches its next instruction
(log 36). -/
def State.withFetchWord (s : State) (nbits w : Nat) : State := placeFetch s (tableWords (w % 2 ^ nbits))

end Sys2Proof.Machine
end

