-- ==== Sys2Proof/Safety.lean ====
section
/-! DEFINITION. The terms in which claims about the machine are stated: its invariant, what two states share, which
bytes a word covers, and where an operand lies, in main memory and inside Macrostore. -/

namespace Sys2Proof.Machine

/-! ### The invariant -/

/-- What every step keeps: PC and WP are even (spec/10_state.md R31, R33), both memories have their canonical form,
the long-distance flags never hold 101 or 001 (R59), Macrostore executes only where it is enabled
(spec/60_exceptions.md R575), the processor holds for an attached processor or idles only in main memory (R586, R542),
no target of X is left to run (spec/42_xop_single_operand.md R310), and the I/O write inhibit has ended with its
instruction (spec/10_state.md R64). -/
def State.Inv (s : State) : Prop :=
  s.pc.getLsbD 0 = false ∧ s.wp.getLsbD 0 = false ∧ Mem.wf s.mem = true ∧ Mem.wf s.ms = true ∧
  s.ldf ≠ 0b101#3 ∧ s.ldf ≠ 0b001#3 ∧
  (s.inMs = true → s.msMode ≠ .baseline) ∧
  (s.apHold = true → s.inMs = false ∧ s.idle = false) ∧ (s.idle = true → s.inMs = false) ∧
  s.xTarget = none ∧ s.ioInhibit = false

/-! ### Words at locations -/

/-- Main memory is RAM or ROM everywhere: no device, and no address where nothing stands (spec/20_memory.md R98). -/
def State.memoryOnly (s : State) : Prop := (s.params.mainMap.all fun r => r.kind == .rom) = true

/-- Nothing disturbs the bus: no other master writes, RESET cuts nothing, READY is raised in every cycle, and every
access reads or writes memory (spec/20_memory.md R130, spec/70_reset_and_hazards.md R631, R664). -/
def State.calm (s : State) : Prop := s.bus = [] ∧ s.memoryOnly

/-- A word can be read at a location: always in main memory; inside Macrostore where a memory stands
(spec/47_macrostore.md R461). -/
def State.reads (s : State) (l : Loc) : Prop :=
  l.space = .macrostore → msRegion s l.addr ≠ .absent ∧ msRegion s l.addr ≠ .mromUnknown

/-- A word can be written at a location: always in main memory; inside Macrostore where RAM or external ROM stands
(spec/47_macrostore.md R461). -/
def State.writes (s : State) (l : Loc) : Prop :=
  l.space = .macrostore → msRegion s l.addr = .ram ∨ msRegion s l.addr = .extRom

/-- The word at an operand location (spec/00_scope.md R13). -/
def State.wordAt (s : State) (l : Loc) : Word :=
  match l.space with
  | .main => s.mainWord (psel s l.code) l.code l.addr
  | .macrostore => Mem.readWord s.ms l.addr.even.toNat

/-- The word that X reads at an operand location: the one there, or, where the parameter has X read from the instruction
segment, that segment's (spec/42_xop_single_operand.md R310, spec/20_memory.md R110; log 47). -/
def State.targetAt (s : State) (l : Loc) : Word :=
  if s.params.xFromInstructionSegment && l.space == .main then s.mainWord (psel s l.code) .iop l.addr else s.wordAt l

/-- The state with the word at an operand location replaced, where RAM stands (spec/00_scope.md R13). -/
def State.putWord (s : State) (l : Loc) (v : Word) : State :=
  match l.space with
  | .main => s.setMainWord (psel s l.code) l.code l.addr v
  | .macrostore => s.setMsWord l.addr v

/-- Workspace register `r` (spec/10_state.md R34). -/
def State.wr (s : State) (r : Nibble) : Word := s.wordAt (s.regLoc r)

/-- The state with workspace register `r` replaced (spec/10_state.md R34). -/
def State.putWr (s : State) (r : Nibble) (v : Word) : State := s.putWord (s.regLoc r) v

/-- Where an opcode fetch at PC reads (spec/30_encoding.md R175). -/
def State.opcodeLoc (s : State) : Loc := { space := s.space, addr := s.pc, code := .iaq }

/-- The word that an opcode fetch at PC reads (spec/30_encoding.md R175). -/
def State.opcodeWord (s : State) : Word := s.wordAt s.opcodeLoc

/-- Where an immediate or address-word fetch at PC reads (spec/30_encoding.md R175). -/
def State.streamLoc (s : State) : Loc := { space := s.space, addr := s.pc, code := .iop }

/-- The word that an immediate or address-word fetch at PC reads (spec/30_encoding.md R175). -/
def State.streamWord (s : State) : Word := s.wordAt s.streamLoc

/-- PC past one word of the instruction stream (spec/10_state.md R32). -/
def State.skipWord (s : State) : State := s.withPc (s.pc + 2#16).even

/-- The opcode the next instruction starts with: the one read ahead, else the word at PC
(spec/10_state.md R61). -/
def State.nextOpcode (s : State) : Word := s.prefetch.getD s.opcodeWord

/-- The next opcode and the word after it, as bytes. -/
def State.codeBytes (s : State) : List Byte := bytesOfWord s.nextOpcode ++ bytesOfWord s.skipWord.streamWord

/-- The opcode at PC has been read ahead (spec/10_state.md R61). -/
def State.latched (s : State) : State := s.withPrefetch (some s.opcodeWord)

/-- Why a Macrostore location cannot be read (spec/93_implementation_defined.md U10). -/
def State.unread (s : State) (l : Loc) : Refusal :=
  if msRegion s l.addr = .mromUnknown then .mromUnknown l.addr else .macrostoreAbsent l.addr

/-- What is done comes to the read of the opcode at the PC of `v`: a next state as `done` says, and, inside Macrostore
where that opcode cannot be read, the refusal of the read (spec/70_reset_and_hazards.md R645, R647,
spec/93_implementation_defined.md U10). -/
def Reaches (o : Host.Outcome State Fault Refusal) (v : State) (done : State → Prop) : Prop :=
  (v.reads v.opcodeLoc → ∃ t, o = .next t ∧ done t) ∧
  (¬ v.reads v.opcodeLoc → o = .refused (v.unread v.opcodeLoc))

/-! ### Operands -/

/-- The location of an operand of autoincrement `n`, and the state after its derivation
(spec/40_addressing_modes.md R202 to R207). -/
def State.operand (s : State) (op : Operand) (n : Word) (role : BusCode) : Loc × State :=
  match op with
  | .reg r => (s.regLoc r, s)
  | .ind r => (s.baseLoc r (s.wr r) role, s)
  | .sym => ({ space := s.space, addr := s.streamWord, code := role }, s.skipWord)
  | .idx r => (s.baseLoc r (s.streamWord + s.wr r) role, s.skipWord)
  | .inc r => (s.baseLoc r (s.wr r) role, s.putWr r (s.wr r + n))

/-- The accesses that derive an operand succeed: always in main memory; inside Macrostore where the register and the
address word can be read, and an autoincremented register written (spec/47_macrostore.md R461). -/
def State.derives (s : State) : Operand → Prop
  | .reg _ => True
  | .ind r => s.reads (s.regLoc r)
  | .sym => s.reads s.streamLoc
  | .idx r => s.reads (s.regLoc r) ∧ s.reads s.streamLoc
  | .inc r => s.reads (s.regLoc r) ∧ s.writes (s.regLoc r)

/-- An operand can be derived and the word at it read: always in main memory. -/
def State.readable (s : State) (op : Operand) (n : Word) (role : BusCode) : Prop :=
  s.derives op ∧ s.reads (s.operand op n role).1

/-- An operand can be derived, and the word at it read and written: always in main memory. -/
def State.writable (s : State) (op : Operand) (n : Word) (role : BusCode) : Prop :=
  s.derives op ∧ s.writes (s.operand op n role).1

/-- The registers an operand's derivation writes: the one of an autoincrement (spec/40_addressing_modes.md R206). -/
def State.stepped (s : State) : Operand → List Loc
  | .inc r => [s.regLoc r]
  | _ => []

/-! ### What changed and what did not -/

/-- The status bits listed have the values listed, and every other status bit is unchanged. -/
def StatusIs (old new : Word) (bits : List (Nat × Bool)) : Prop :=
  ∀ n, n < 16 → stBit new n = (bits.lookup n).getD (stBit old n)

/-- Every register and latch of the processor but PC, WP, ST, the prefetched opcode and the memories is unchanged. -/
def SameControl (s t : State) : Prop :=
  t.privop = s.privop ∧ t.illop = s.illop ∧ t.af = s.af ∧ t.nmiPending = s.nmiPending ∧ t.nmiLast = s.nmiLast ∧
  t.inhibit = s.inhibit ∧ t.msMode = s.msMode ∧ t.inMs = s.inMs ∧ t.ldf = s.ldf ∧ t.idle = s.idle ∧
  t.wr7Ws = s.wr7Ws ∧ t.wr8Ws = s.wr8Ws ∧ t.ioInhibit = s.ioInhibit ∧ t.apHold = s.apHold ∧
  t.xTarget = s.xTarget ∧ t.resetDue = s.resetDue ∧ t.pins = s.pins ∧ t.bus = s.bus ∧ t.ioIn = s.ioIn ∧
  t.ioOut = s.ioOut ∧ t.devIn = s.devIn ∧ t.devOut = s.devOut ∧ t.draws = s.draws ∧ t.params = s.params

/-- The byte at an address of a space. -/
def State.byteOf (s : State) (sp : Space) (a : Nat) : Byte :=
  match sp with
  | .main => Mem.read s.mem a
  | .macrostore => Mem.read s.ms a

/-- The physical address of the first byte of the word at a location. -/
def State.wordBase (s : State) (l : Loc) : Nat :=
  match l.space with
  | .main => physAddr s.params (psel s l.code) l.code l.addr.even
  | .macrostore => l.addr.even.toNat

/-- RAM stands at a location, so that it keeps what is stored (spec/20_memory.md R98, spec/47_macrostore.md R461). -/
def State.ramAt (s : State) (l : Loc) : Bool :=
  match l.space with
  | .main => mainKind s.params (s.wordBase l) == .ram
  | .macrostore => msRegion s l.addr == .ram

/-- Byte `a` of space `sp` belongs to the word at a location. -/
def State.covers (s : State) (l : Loc) (sp : Space) (a : Nat) : Prop :=
  l.space = sp ∧ (a = s.wordBase l ∨ a = s.wordBase l + 1)

/-- From `s` to `t`, every byte of both memories outside the words at the listed locations, as state `v` maps them, is
unchanged. -/
def SameBytesExcept (v s t : State) (ls : List Loc) : Prop :=
  ∀ sp a, (∀ l ∈ ls, ¬ v.covers l sp a) → t.byteOf sp a = s.byteOf sp a

/-- The instruction completes with an effect on PC, the status bits listed, the prefetched opcode and the memories
alone: the memories and PC are those of `u`, and the opcode read ahead is the one that `v` has at its PC. -/
def Completes (i : Instr) (s u v : State) (bits : List (Nat × Bool)) : Prop :=
  Reaches (exec i s) v fun t =>
    t.mem = u.mem ∧ t.ms = u.ms ∧ t.pc = u.pc ∧ t.wp = s.wp ∧ t.prefetch = some v.opcodeWord ∧
    StatusIs s.st t.st bits ∧ SameControl s t

/-- ST0, ST1 and ST2 of a result compared with zero, as an integer (spec/10_state.md R37 to R39). -/
def resultBits {n : Nat} (r : BitVec n) : List (Nat × Bool) :=
  [(0, decide (r.toInt ≠ 0)), (1, decide (0 < r.toInt)), (2, decide (r.toInt = 0))]

/-- ST0, ST1 and ST2 of a comparison, unsigned, signed and equal (spec/10_state.md R37 to R39). -/
def compareBits {n : Nat} (x y : BitVec n) : List (Nat × Bool) :=
  [(0, decide (y.toNat < x.toNat)), (1, decide (y.toInt < x.toInt)), (2, decide (x.toNat = y.toNat))]

/-- An integer lies outside the signed range of `n` bits. -/
def outside (n : Nat) (v : Int) : Bool := decide (v < -(2 ^ (n - 1) : Int)) || decide ((2 ^ (n - 1) : Int) ≤ v)

/-- ST3 and ST4 of a sum (spec/10_state.md R40, R41). -/
def sumBits {n : Nat} (x y : BitVec n) : List (Nat × Bool) :=
  [(3, decide (2 ^ n ≤ x.toNat + y.toNat)), (4, outside n (x.toInt + y.toInt))]

/-- ST3 and ST4 of a difference (spec/10_state.md R40, R41). -/
def diffBits {n : Nat} (x y : BitVec n) : List (Nat × Bool) :=
  [(3, decide (y.toNat ≤ x.toNat)), (4, outside n (x.toInt - y.toInt))]

/-- The number of one bits of a byte is odd (spec/00_scope.md R11). -/
def oddOnes (b : Byte) : Bool := decide (((List.range 8).filter fun k => b.getLsbD k).length % 2 = 1)

/-- ST5 of a byte (spec/10_state.md R42). -/
def parityBit (b : Byte) : List (Nat × Bool) := [(5, oddOnes b)]

/-! ### Taking and leaving a context -/

/-- The context saved in the workspace at the new WP: the old WP, PC and ST in registers 13, 14 and 15
(spec/60_exceptions.md R548). -/
def SavedContext (t : State) (wp pc st : Word) : Prop := t.wr 13#4 = wp ∧ t.wr 14#4 = pc ∧ t.wr 15#4 = st

/-- The state with a context stored in registers 13, 14 and 15, in this order (spec/60_exceptions.md R548). -/
def State.saving (s : State) (wp pc st : Word) : State := ((s.putWr 13#4 wp).putWr 14#4 pc).putWr 15#4 st

/-- Registers 13 to 15 of the workspace at WP. -/
def State.savedLocs (s : State) : List Loc := [s.regLoc 13#4, s.regLoc 14#4, s.regLoc 15#4]

/-- Registers 13 to 15 lie in RAM, so that a context saved there is kept (spec/70_reset_and_hazards.md R637). -/
def State.savedInRam (s : State) : Prop := ∀ l ∈ s.savedLocs, s.ramAt l = true

/-- ST12 to ST15 of an interrupt mask (spec/10_state.md R49). -/
def maskBits (m : BitVec 4) : List (Nat × Bool) :=
  [(12, m.getMsbD 0), (13, m.getMsbD 1), (14, m.getMsbD 2), (15, m.getMsbD 3)]

/-- ST7 to ST11 at zero. -/
def modeBitsClear : List (Nat × Bool) := [(7, false), (8, false), (9, false), (10, false), (11, false)]

/-- `t` is `s` after the context switch through the vector at `vec` with a new interrupt mask, in main memory: WP and
PC from the vector read with PSEL high, the old context stored in the new workspace, ST7 to ST11 cleared and the mask
set, the opcode at the new PC read ahead, every other byte and register as before (spec/60_exceptions.md R548,
spec/71_bus_sequences.md R700). -/
def Switched (s t : State) (vec : Word) (mask : BitVec 4) : Prop :=
  let n := (s.withSt (stSet s.st 8 false)).withWp (s.mainWord true .inta vec).even
  t.wp = n.wp ∧ t.pc = (s.mainWord true .inta (vec + 2#16)).even ∧
  t.mem = (n.saving s.wp s.pc s.st).mem ∧ t.ms = s.ms ∧ (t.savedInRam → SavedContext t s.wp s.pc s.st) ∧
  SameBytesExcept t s t t.savedLocs ∧ StatusIs s.st t.st (modeBitsClear ++ maskBits mask) ∧
  t.prefetch = some t.opcodeWord ∧ SameControl ((s.withInhibit .maskable).withIdle false) t

/-- A step in which the processor looks at its inputs with nothing to do first: no reset, hold, attached processor or
target of X (spec/60_exceptions.md R542). -/
def State.unhindered (s : State) : Prop :=
  s.pins.reset = .inactive ∧ s.resetDue = false ∧ s.pins.hold = false ∧ s.apHold = false ∧ s.xTarget = none

/-- Such a step on a calm bus. -/
def State.ready (s : State) : Prop := s.unhindered ∧ s.calm

/-- No interrupt is taken at the boundary (spec/60_exceptions.md R542). -/
def State.uninterrupted (s : State) : Prop :=
  (s.inhibit = .all ∨ s.nmiPending = false) ∧
  (s.inhibit ≠ .none ∨ (s.internalRequest = false ∧ s.externalRequest = false))

/-- No interrupt, idle state or breakpoint stands before the next main-memory instruction
(spec/60_exceptions.md R542, R590). -/
def State.quiet (s : State) : Prop := s.uninterrupted ∧ s.idle = false ∧ s.breakpoint = false

/-- Execution of a main-memory instruction has ended: the I/O write inhibit is off; unless Macrostore or an attached
processor goes on, AF is set if ST4 and ST10 are both set, and the long-distance flags return to 111 unless the
instruction was LDS or LDD (spec/10_state.md R51, R64, spec/48_tms99110a_extensions.md R510). -/
def State.finished (t : State) (keepLdf : Bool) : State :=
  let u := t.withIoInhibit false
  if t.inMs || t.apHold then u
  else (u.withAf (t.af || (stBit t.st 4 && stBit t.st 10))).withLdf (if keepLdf then t.ldf else 0b111#3)

/-- What is left of an instruction that RESET has cut: what it has done until then, and the reset sequence due
(spec/70_reset_and_hazards.md R631; log 11). -/
def State.cutShort (s : State) : State := (s.withIoInhibit false).withResetDue true

/-- The state after the other masters of the bus have written what one cycle's HOLD lets them
(spec/20_memory.md R130; log 45). -/
def State.served (s : State) (e : BusEvent) : State := e.writes.foldl State.masterWrite s

/-- What one bus cycle comes to in which the processor itself does nothing: what the other masters write, then the cut
where RESET comes, and the refusal where READY never does. -/
def State.waited (s : State) : Host.Outcome State Fault Refusal :=
  match s.bus with
  | [] => .next s
  | e :: rest =>
    let u := (s.withBus rest).served e
    if e.reset then .next u.cutShort else if e.ready then .next u else .refused .neverReady

/-- A step from `s` ends as an instruction's outcome says: where it answers a state with no target of X to run, in that
state completed by `done`; where RESET has cut it, in that state; where it stops, with the same stop. -/
def StepIs (s : State) (done : State → State) : Host.Outcome State Fault Refusal → Prop
  | .next t =>
    if t.resetDue then step s = .next t.cutShort
    else t.xTarget = none → step s = .next (done t)
  | .fault f => step s = .fault f
  | .refused r => step s = .refused r

/-- An instruction begins: the inputs sampled, in main memory the boundary passed and the inhibit consumed, and the
opcode read ahead used up (spec/60_exceptions.md R542). -/
def State.begun (s : State) : State :=
  let u := (sampleInputs s).withPrefetch none
  if s.inMs then u else u.withInhibit .none

/-- A step from `s` comes to run opcode `w` at `u`, with PC past it: a target of X that the state holds, or the next
opcode, read ahead, or at PC on a calm bus (spec/10_state.md R61, spec/60_exceptions.md R542). -/
def State.comesToRun (s u : State) (w : Word) : Prop :=
  s.pins.reset = .inactive ∧ s.resetDue = false ∧ s.pins.hold = false ∧ s.apHold = false ∧
  ((s.xTarget = some w ∧ u = (sampleInputs s).withXTarget none) ∨
   (s.xTarget = none ∧ (s.inMs = false → (sampleInputs s).quiet) ∧ u = s.begun.skipWord ∧
    (s.prefetch = some w ∨
     (s.prefetch = none ∧ s.calm ∧ (sampleInputs s).reads s.opcodeLoc ∧ w = (sampleInputs s).opcodeWord))))

/-- From opcode `w` run at `s`, `n` opcodes X come one after the other, each the target of the one before, and the last
leaves `v` to run at `t` (spec/42_xop_single_operand.md R310, R311). -/
def State.chased : Nat → State → Word → State → Word → Prop
  | 0, s, w, t, v => t = s ∧ v = w
  | n + 1, s, w, t, v => ∃ src u x, decodeFirst s.inMs w = .instr (.x src) ∧ exec (.x src) s = .next u ∧
      u.resetDue = false ∧ u.xTarget = some x ∧ State.chased n (u.withXTarget none) x t v

/-- PC past `n` words of the instruction stream. -/
def State.skipWords (s : State) : Nat → State
  | 0 => s
  | n + 1 => s.skipWord.skipWords n

/-- The status loaded from a value: privileged, all of it; in user mode bits 0 to 5 and 10, ST6 cleared
(spec/10_state.md R67). -/
def statusFrom (st v : Word) : Word := if stBit st 7 then (v &&& 0xFC20#16) ||| (st &&& 0x01DF#16) else v

/-- The user context restored by an exit from Macrostore, with the opcode at the user's PC read ahead
(spec/47_macrostore.md R489, spec/71_bus_sequences.md R693). -/
def State.left (s : State) : State :=
  let st := statusFrom s.st (s.wr 15#4)
  (((((s.withInMs false).withSt st).withWp (s.wr 13#4).even).withPc (s.wr 14#4).even).withAf
    (s.af || (stBit st 4 && stBit st 10))).latched

/-- `t` is `s` after the accept by an attached processor with a saved PC (spec/60_exceptions.md R586). -/
def Accepted (s t : State) (savedPc : Word) : Prop :=
  let n := (s.withSt (stSet s.st 8 false)).withWp (s.mainWord true .inta 0x0008#16).even
  t.wp = n.wp ∧ t.pc = s.pc ∧ t.mem = (n.saving s.wp savedPc s.st).mem ∧ t.ms = s.ms ∧
  (t.savedInRam → SavedContext t s.wp savedPc s.st) ∧
  SameBytesExcept t s t t.savedLocs ∧ StatusIs s.st t.st [(8, false)] ∧ t.prefetch = none ∧
  SameControl (s.withApHold true) t

/-- The long-distance flags after the hardware's part of LDS or LDD, from those before (spec/48_tms99110a_extensions.md
R508): b0, b1 and b2, 0 after LDS and 0, b1 and b2, b2 after LDD; unchanged by any other word. -/
def ldfAfter (w : Word) (f : BitVec 3) : BitVec 3 :=
  if w = 0x0780#16 then BitVec.ofBool f[2] ++ BitVec.ofBool (f[1] && f[0]) ++ 0#1
  else if w = 0x07C0#16 then 0#1 ++ BitVec.ofBool (f[1] && f[0]) ++ BitVec.ofBool f[0]
  else f

/-- `t` is `s` after an entry to Macrostore by a MID trap, at a given PC: the word that trapped in Macrostore register
5, the long-distance flags and the bits of a first word in register 3, the user's WP, PC and ST in registers 13 to 15,
WP at >0000; ST kept but for XOP, which clears ST7 to ST11; main memory untouched
(spec/60_exceptions.md R572, R573). -/
def Entered (s t : State) (w : Word) (kind : MidKind) (pc : Word) : Prop :=
  let ldf := if kind = .first then ldfAfter w s.ldf else s.ldf
  let flags := ldf.setWidth 16 <<< 13
  let upc := match kind with
    | .second _ => s.pc - 2#16
    | _ => s.pc
  t.inMs = true ∧ t.wp = 0x0000#16 ∧ t.pc = pc ∧ t.wr 5#4 = w ∧
  t.wr 3#4 = (match kind with
    | .second w1 => flags ||| (w1 &&& 0x0033#16)
    | _ => flags) ∧
  SavedContext t s.wp upc s.st ∧
  (∀ a, a ∉ [6, 7, 10, 11, 26, 27, 28, 29, 30, 31] → Mem.read t.ms a = Mem.read s.ms a) ∧ t.mem = s.mem ∧
  StatusIs s.st t.st (if kind = .xop then modeBitsClear else []) ∧
  SameControl ((((s.withInMs true).withWr7Ws false).withWr8Ws false).withLdf ldf) t

/-- A MID trap from `s` enters Macrostore at a given PC, where the opcode can be read ahead
(spec/60_exceptions.md R572, spec/71_bus_sequences.md R701). -/
def Enters (o : Host.Outcome State Fault Refusal) (s : State) (w : Word) (kind : MidKind) (pc : Word) : Prop :=
  Reaches o ((s.withInMs true).withPc pc) fun t => Entered s t w kind pc ∧ t.prefetch = some t.opcodeWord

/-- One field of EVAD's target word, by the context saved in Macrostore registers 13 and 14: the address it stands for
and the user's PC after it (spec/47_macrostore.md R478). -/
def State.evadField (s : State) (t : BitVec 2) (r : Nibble) (upc : Word) : Word × Word :=
  let ra := s.wr 13#4 + 2#16 * r.setWidth 16
  let reg := s.mainWord (psel s .ws) .ws ra
  let imm := s.mainWord (psel s .iop) .iop upc
  if t = 0#2 then (ra, upc)
  else if t = 2#2 then (if r = 0#4 then (imm, upc + 2#16) else (imm + reg, upc + 2#16))
  else (reg, upc)

/-- ST0 to ST2 and ST5 of LDCR and STCR, on the byte or word transferred (spec/43_cru_io.md R326, R330). -/
def transferBits (cnt : Nibble) (v : Word) : List (Nat × Bool) :=
  if byteCount cnt then resultBits (lo8 v) ++ parityBit (lo8 v) else resultBits v

/-- The operand of LDCR: a byte or a word (spec/43_cru_io.md R325). -/
def transferValue (cnt : Nibble) (addr w : Word) : Word :=
  if byteCount cnt then (byteAt addr w).setWidth 16 else w

/-! ### The TMS99110A's extensions -/

/-- The floating point accumulator: registers 0 and 1 (spec/48_tms99110a_extensions.md R520). -/
def State.fpac (s : State) : BitVec 32 := longOf (s.wr 0#4) (s.wr 1#4)

/-- The double word at a location (spec/20_memory.md R92). -/
def State.longAt (s : State) (l : Loc) : BitVec 32 := longOf (s.wordAt l) (s.wordAt (l.offset 2#16))

/-- Registers 0 and 1 lie in RAM, so that the accumulator keeps what is stored. -/
def State.fpacInRam (s : State) : Prop := s.ramAt (s.regLoc 0#4) = true ∧ s.ramAt (s.regLoc 1#4) = true

/-- External Macrostore stands at >1000 and identifies itself (spec/47_macrostore.md R495; log 31). -/
def State.externalAnswers (s : State) : Prop :=
  msRegion s 0x1000#16 ≠ .absent ∧ Mem.readWord s.ms 0x1000 = 0xAAAA#16

/-- What the TMS99110A's ROM makes of a MID opcode it does not implement: entry to external Macrostore at >1002 where
that identifies itself, else the exit by >0382 with its level-2 trap (spec/48_tms99110a_extensions.md R500,
spec/47_macrostore.md R491, R495). -/
def RomPassesOn (o : Host.Outcome State Fault Refusal) (s : State) (w : Word) (kind : MidKind) : Prop :=
  (s.externalAnswers → Enters o s w kind 0x1002#16) ∧
  (¬ s.externalAnswers → ∃ t m, o = .next t ∧ Entered s m w kind 0x0800#16 ∧
    Switched (((m.left.withIllop true).withLdf 0b111#3).withInhibit .none) t 0x0008#16 1#4)

/-- The on-chip ROM of a TMS99110A in standard mode answers MID opcodes, on a calm bus (spec/60_exceptions.md R570). -/
def State.romAnswers (s : State) : Prop := s.inMs = false ∧ s.midRoute = .rom ∧ s.calm

/-- `t` is what an extension instruction leaves of `s` beside its results: PC as in `u`, the long-distance flags and the
inhibit cleared, AF evaluated, the opcode at PC read ahead, Macrostore word >0004 and everything outside MRAM kept
(spec/48_tms99110a_extensions.md R501). -/
def RomLeaves (s u t : State) : Prop :=
  t.pc = u.pc ∧ t.wp = s.wp ∧ t.prefetch = some t.opcodeWord ∧
  Mem.readWord t.ms 0x04 = Mem.readWord s.ms 0x04 ∧ (∀ a, 0x20 ≤ a → Mem.read t.ms a = Mem.read s.ms a) ∧
  t.af = (s.af || (stBit t.st 4 && stBit t.st 10)) ∧
  SameControl ((((s.withAf t.af).withLdf 0b111#3).withInhibit .none).withDraws t.draws) t

end Sys2Proof.Machine
end

