-- ==== Sys2Proof/Certificates/Slice0/Obligations.lean ====
section
/-! DEFINITION. The statements about the model. Those about one instruction say what it leaves in every register and
every byte, in main memory and inside Macrostore, for every operand: `Completes` (Sys2Proof/Safety.lean) fixes PC, WP,
both memories, each status bit, the prefetched opcode and every other register. Their premises are that the bus is calm
and that the accesses the instruction makes reach memory; the second holds of every operand in main memory. Where it is
the read of the next opcode, made inside Macrostore, that reaches nothing, they say that the instruction is refused
(`Reaches`). That every instruction reads the next opcode ahead rests on log 8. -/

open Sys2Proof Sys2Proof.Machine

namespace Sys2Proof.Claims

/-! ### Shapes of instruction statements -/

/-- A word instruction on two general operands that stores at the destination: source derived and read, destination
derived and read, result stored after the prefetch (spec/41_dual_operand.md R230). -/
def DualWord (mk : Operand → Operand → Instr) (base : Word) (result : Word → Word → Word)
    (bits : Word → Word → List (Nat × Bool)) : Prop :=
  ∀ (src dst : Operand) (s : State), s.calm → s.readable src 2#16 .sop →
    let a := s.operand src 2#16 .sop
    let x := a.2.wordAt a.1
    let b := a.2.operand dst 2#16 .dop
    let y := b.2.wordAt b.1
    a.2.writable dst 2#16 .dop →
    encode (mk src dst) = [encDual base src dst] ∧
    Completes (mk src dst) s (b.2.putWord b.1 (result x y)) b.2 (bits x y)

/-- The byte counterpart of `DualWord`: the byte the address selects is replaced, the other byte of the word kept. -/
def DualByte (mk : Operand → Operand → Instr) (base : Word) (result : Byte → Byte → Byte)
    (bits : Byte → Byte → List (Nat × Bool)) : Prop :=
  ∀ (src dst : Operand) (s : State), s.calm → s.readable src 1#16 .sop →
    let a := s.operand src 1#16 .sop
    let x := byteAt a.1.addr (a.2.wordAt a.1)
    let b := a.2.operand dst 1#16 .dop
    let w := b.2.wordAt b.1
    let y := byteAt b.1.addr w
    a.2.writable dst 1#16 .dop →
    encode (mk src dst) = [encDual base src dst] ∧
    Completes (mk src dst) s (b.2.putWord b.1 (mergeByte b.1.addr w (result x y))) b.2 (bits x y)

/-- A single-operand instruction that stores at its operand, after the prefetch (spec/42_xop_single_operand.md R290,
spec/70_reset_and_hazards.md R645). -/
def SingleStore (mk : Operand → Instr) (base : Word) (result : Word → Word) (bits : Word → List (Nat × Bool)) : Prop :=
  ∀ (src : Operand) (s : State), s.calm → s.writable src 2#16 .sop →
    let a := s.operand src 2#16 .sop
    let x := a.2.wordAt a.1
    encode (mk src) = [encSingle base src] ∧
    Completes (mk src) s (a.2.putWord a.1 (result x)) a.2 (bits x)

/-- A conditional jump (spec/44_jump_shift.md R350): PC by twice the signed displacement, from the word after the jump;
no status bit, no memory. -/
def Jump (mk : Byte → Instr) (base : Word) (cond : Word → Bool) : Prop :=
  ∀ (disp : Byte) (s : State), s.calm →
    let u := if cond s.st then s.withPc (Word.even (BitVec.ofInt 16 (s.pc.toNat + 2 * disp.toInt))) else s
    encode (mk disp) = [encDisp base disp] ∧ Completes (mk disp) s u u []

/-- The count of a single-word shift (spec/44_jump_shift.md R370). -/
def wordShiftCount (s : State) (sc : Nibble) : Nat :=
  if sc.toNat ≠ 0 then sc.toNat
  else if (s.wr 0#4).toNat % 16 = 0 then 16 else (s.wr 0#4).toNat % 16

/-- A shift of a workspace register by a count of 1 to 16 (spec/44_jump_shift.md R370). -/
def WordShift (mk : Reg → Nibble → Instr) (base : Word) (result : Nat → Word → Word)
    (bits : Nat → Word → List (Nat × Bool)) : Prop :=
  ∀ (w : Reg) (sc : Nibble) (s : State), s.calm → s.writes (s.regLoc w) → (sc = 0#4 → s.reads (s.regLoc 0#4)) →
    let c := wordShiftCount s sc
    encode (mk w sc) = [encShift base w sc] ∧
    Completes (mk w sc) s (s.putWr w (result c (s.wr w))) s
      (resultBits (result c (s.wr w)) ++ bits c (s.wr w))

/-- The count of a double-word shift: zero means zero (spec/46_bit_and_double.md R445). -/
def longShiftBy (s : State) (sc : Nibble) : Nat :=
  if sc.toNat ≠ 0 then sc.toNat else (s.wr 0#4).toNat / 256 % 16

/-- A shift of a double word in memory: the low word stored before the prefetch, the high word after
(spec/46_bit_and_double.md R444). -/
def LongShift (mk : Operand → Nibble → Instr) (first : Word) (result : Nat → BitVec 32 → BitVec 32)
    (bits : Nat → BitVec 32 → List (Nat × Bool)) : Prop :=
  ∀ (src : Operand) (sc : Nibble) (s : State), s.calm → s.writable src 4#16 .sop →
    let a := s.operand src 4#16 .sop
    let c := longShiftBy a.2 sc
    let x := a.2.longAt a.1
    let r := result c x
    let u := a.2.putWord (a.1.offset 2#16) (loWord r)
    s.writes (a.1.offset 2#16) → (sc = 0#4 → s.reads (s.regLoc 0#4)) →
    encode (mk src sc) = [first, encField 0x4000#16 src sc] ∧
    Completes (mk src sc) s (u.putWord a.1 (hiWord r)) u (resultBits r ++ bits c x)

/-- A double-word addition or subtraction: the low word of the result is stored before the high word of the
destination is read (spec/46_bit_and_double.md R440). -/
def DualLong (mk : Operand → Operand → Instr) (first : Word) (op : BitVec 32 → BitVec 32 → BitVec 32)
    (bits : BitVec 32 → BitVec 32 → List (Nat × Bool)) : Prop :=
  ∀ (src dst : Operand) (s : State), s.calm → s.readable src 4#16 .sop →
    let a := s.operand src 4#16 .sop
    let b := a.2.operand dst 4#16 .dop
    let x := longOf (a.2.wordAt a.1) (b.2.wordAt (a.1.offset 2#16))
    let lo := b.2.wordAt (b.1.offset 2#16)
    let u := b.2.putWord (b.1.offset 2#16) (loWord (op (longOf 0#16 lo) x))
    let y := longOf (u.wordAt b.1) lo
    s.reads (a.1.offset 2#16) → a.2.writable dst 4#16 .dop → s.writes (b.1.offset 2#16) →
    encode (mk src dst) = [first, encDual 0x4000#16 src dst] ∧
    Completes (mk src dst) s (u.putWord b.1 (hiWord (op y x))) u (resultBits (op y x) ++ bits y x)

/-- A test of memory bit BD, numbered from the most significant bit, and the store after it, before the prefetch
(spec/46_bit_and_double.md R430). -/
def BitTest (mk : Operand → Nibble → Instr) (first : Word) (store : Option (Word → Word → Word)) : Prop :=
  ∀ (src : Operand) (bd : Nibble) (s : State), s.calm → src.notInc = true → s.readable src 2#16 .sop →
    let a := s.operand src 2#16 .sop
    let x := a.2.wordAt a.1
    let m := BitVec.ofNat 16 (2 ^ (15 - bd.toNat))
    let u := match store with
      | some f => a.2.putWord a.1 (f x m)
      | none => a.2
    (store ≠ none → s.writes a.1) →
    encode (mk src bd) = [first, encField 0x0000#16 src bd] ∧
    Completes (mk src bd) s u u [(2, decide (x &&& m ≠ 0#16))]

/-- An instruction on a register and an immediate word that stores in the register
(spec/45_immediate_and_control.md R390). -/
def ImmediateStore (mk : Reg → Instr) (base : Word) (result : Word → Word → Word)
    (bits : Word → Word → List (Nat × Bool)) : Prop :=
  ∀ (w : Reg) (s : State), s.calm → s.writes (s.regLoc w) → s.reads s.streamLoc →
    encode (mk w) = [encReg base w] ∧
    Completes (mk w) s (s.skipWord.putWr w (result (s.wr w) s.streamWord)) s.skipWord
      (bits (s.wr w) s.streamWord)

/-- A four-function instruction of the TMS99110A: `num a y / den a y` in units of 16^(-70) is the exact result
(spec/48_tms99110a_extensions.md R522 to R526, R519, R531). An exactly representable result is delivered; a magnitude
of 16^63 or more sets ST3 and ST4, a magnitude below 16^(-65) but not zero sets ST4; registers 0 and 1 are the only
memory written beside an autoincrement. -/
def RealOp (mk : Operand → Instr) (defined : BitVec 32 → Prop) (num den : Int → Int → Int) : Prop :=
  ∀ (src : Operand) (s : State), s.romAnswers →
    let p := s.operand src 4#16 .sop
    let y := p.2.longAt p.1
    let a := p.2.fpac
    let n := num (fpInt a) (fpInt y)
    let d := den (fpInt a) (fpInt y)
    ∃ t, exec (mk src) s = .next t ∧ RomLeaves s p.2 t ∧
      (∀ k, 5 ≤ k → k < 16 → stBit t.st k = stBit s.st k) ∧
      (∀ b, (∀ l ∈ [p.2.regLoc 0#4, p.2.regLoc 1#4], ¬ s.covers l .main b) → Mem.read t.mem b = Mem.read p.2.mem b) ∧
      (fpValid a = true → fpValid y = true → defined y →
        (∀ z, fpValid z = true → fpInt z * d = n →
          (s.fpacInRam → t.fpac = z) ∧ StatusIs s.st t.st (resultBits z ++ [(3, false), (4, false)])) ∧
        (16 ^ 133 * d.natAbs ≤ n.natAbs → stBit t.st 3 = true ∧ stBit t.st 4 = true) ∧
        (n ≠ 0 → n.natAbs < 16 ^ 5 * d.natAbs → stBit t.st 3 = false ∧ stBit t.st 4 = true))

end Sys2Proof.Claims

open Sys2Proof.Claims

/-! ### Reset and the invariant -/

/-- The state after reset of either family member has the values of spec/10_state.md R70: ST zero, the error flags off,
main memory executing, not idle, nothing prefetched, the mode that APP selected, WP and PC the words of the vector at
>0000 and >0002. That those words are zero is the model's choice (logs 1, 2), as are the configuration and the default
for each member (log 4); long-distance flags of 111 are decision D18 of the spec (log 32); the latches of EVAD are not
stated by the source. -/
def Obligations.ResetLeavesStatedValues : Prop :=
  State.reset = State.resetFor .tms99105a ∧ ∀ v : Variant,
  let s := State.resetFor v
  s.st = 0x0000#16 ∧ s.privop = false ∧ s.illop = false ∧ s.af = false ∧
  s.inMs = false ∧ s.ldf = 0b111#3 ∧ s.idle = false ∧ s.prefetch = none ∧
  s.wr7Ws = false ∧ s.wr8Ws = false ∧ s.inhibit = .maskable ∧ s.resetDue = false ∧
  s.msMode = s.pins.modeAtReset ∧ s.nmiPending = s.pins.nmi ∧
  s.wp = (Mem.readWord s.mem 0).even ∧ s.pc = (Mem.readWord s.mem 2).even ∧
  s.mem = [] ∧ s.ms = [] ∧ s.params = Params.defaultFor v

/-- The invariant holds right after reset, of either family member. -/
def Obligations.ResetMeetsMachineInvariant : Prop := State.reset.Inv ∧ ∀ v : Variant, (State.resetFor v).Inv

/-- Every step keeps the invariant, from every state that meets it, whatever the other masters of the bus write and
wherever RESET cuts (spec/10_state.md R31, R33, R59, R64; spec/60_exceptions.md R575, R586). -/
def Obligations.EveryStepKeepsMachineInvariant : Prop := ∀ s t : State, s.Inv → step s = .next t → t.Inv

/-- A step that sees a full RESET, or that follows an instruction RESET has cut, with HOLD released and a calm bus, runs
the reset sequence from any state: WP and PC from the vector at >0000 read with PSEL high, the old context saved in the
new workspace where that is RAM, ST and the error flags cleared, main memory executing in the mode APP selects, the
level of NMI latched, and the first opcode read ahead (spec/70_reset_and_hazards.md R630, R631, R634; spec/10_state.md
R70). A RESET pulse that is too short is refused in every state (spec/93_implementation_defined.md U14). The flags of
long distance after reset are decision D18, and that the hold for an attached processor ends (R632 c) is decision D37
(log 32); the latches of EVAD after reset are not stated by the source; that a cut instruction is followed by the
sequence as a step of its own is log 11. -/
def Obligations.ResetSequenceSavesAndClears : Prop :=
  (∀ s : State, s.pins.reset = .short → step s = .refused .shortReset) ∧
  ∀ s : State, (s.pins.reset = .full ∨ (s.pins.reset = .inactive ∧ s.resetDue = true)) → s.pins.hold = false → s.calm →
    ∃ t, step s = .next t ∧
      t.wp = (s.mainWord true .inta 0x0000#16).even ∧ t.pc = (s.mainWord true .inta 0x0002#16).even ∧
      (t.savedInRam → SavedContext t s.wp s.pc s.st) ∧ SameBytesExcept t s t t.savedLocs ∧ t.st = 0x0000#16 ∧
      t.privop = false ∧ t.illop = false ∧ t.af = false ∧ t.inMs = false ∧ t.idle = false ∧ t.apHold = false ∧
      t.xTarget = none ∧ t.prefetch = some t.opcodeWord ∧ t.ldf = 0b111#3 ∧ t.wr7Ws = false ∧ t.wr8Ws = false ∧
      t.ioInhibit = false ∧ t.resetDue = false ∧ t.inhibit = .maskable ∧ t.msMode = s.pins.modeAtReset ∧
      t.nmiPending = s.pins.nmi ∧ t.nmiLast = s.pins.nmi ∧ t.pins = s.pins ∧ t.bus = s.bus ∧ t.ioIn = s.ioIn ∧
      t.ioOut = s.ioOut ∧ t.devIn = s.devIn ∧ t.devOut = s.devOut ∧ t.draws = s.draws ∧ t.params = s.params

/-! ### Encoding -/

/-- Decoding an encoded instruction gives it back, with every operand the encoding admits, in the place the instruction
belongs to: main memory, Macrostore, or the TMS99110A's ROM. -/
def Obligations.DecodeInvertsEncode : Prop :=
  ∀ (i : Instr) (rest : List Byte), i.wf = true → decode i.context (encodeBytes i ++ rest) = .ok (i, rest)

/-- Whatever decodes is well formed and is the encoding of what it decodes to, in every place: no bit of an opcode word
is dropped (spec/30_encoding.md R162). -/
def Obligations.DecodedBytesAreTheEncoding : Prop :=
  ∀ (c : Context) (bytes rest : List Byte) (i : Instr), decode c bytes = .ok (i, rest) →
    i.wf = true ∧ bytes = encodeBytes i ++ rest

/-- Decoding inside Macrostore differs from main memory in the opcodes of R165 and in no other: >0100 to >013F are EVAD
with its operand field, >0380, >0381, >0382 and >0384 the exits and the return that stays, >1Dxx and >1Exx the two
jumps, >1Fxx undefined. Every other word that has a meaning in main memory has the same one there, as a word and, with
the words after it, as an instruction (spec/30_encoding.md R165). -/
def Obligations.MacrostoreDecodesAsMainMemory : Prop :=
  (∀ w : Word, decodeMain w ≠ .mid → w ≠ 0x0380#16 → ¬ (0x1D00 ≤ w.toNat ∧ w.toNat ≤ 0x1FFF) →
    decodeMacrostore w = decodeMain w) ∧
  (∀ src : Operand, (Instr.evad src).wf = true →
    decodeMacrostore (encSingle 0x0100#16 src) = .instr (.evad src)) ∧
  (∀ w : Word, 0x0100 ≤ w.toNat → w.toNat ≤ 0x013F → ∃ src, decodeMacrostore w = .instr (.evad src)) ∧
  decodeMacrostore 0x0380#16 = .instr .rtwpExit ∧ decodeMacrostore 0x0381#16 = .instr .rtwpStay ∧
  decodeMacrostore 0x0382#16 = .instr .rtwpIllop ∧ decodeMacrostore 0x0384#16 = .instr .rtwpQuiet ∧
  (∀ (i : Instr) (rest : List Byte), i.wf = true → i.context = .main → i ≠ .rtwp → (∀ d, i ≠ .sbo d) →
    (∀ d, i ≠ .sbz d) → (∀ d, i ≠ .tb d) → decode .macrostore (encodeBytes i ++ rest) = .ok (i, rest)) ∧
  (∀ (d : Byte) (rest : List Byte),
    decode .macrostore (encodeBytes .rtwp ++ rest) = .ok (.rtwpExit, rest) ∧
    decode .macrostore (encodeBytes (.sbo d) ++ rest) = .ok (.jip d, rest) ∧
    decode .macrostore (encodeBytes (.sbz d) ++ rest) = .ok (.jnep d, rest) ∧
    decode .macrostore (encodeBytes (.tb d) ++ rest) = .error .undefined)

/-- Words written out from the encoding tables, one or more of each format, decode to the instruction they stand for
(spec/30_encoding.md R142, R161). -/
def Obligations.WrittenOutWordsDecode : Prop :=
  decodeMain 0xA081#16 = .instr (.a (.reg 1#4) (.reg 2#4)) ∧
  decodeMain 0xC4F2#16 = .instr (.mov (.inc 2#4) (.ind 3#4)) ∧
  decodeMain 0xD8A3#16 = .instr (.movb (.idx 3#4) (.idx 2#4)) ∧
  decodeMain 0x3881#16 = .instr (.mpy (.reg 1#4) 2#4) ∧
  decodeMain 0x2C83#16 = .instr (.xop (.reg 3#4) 2#4) ∧
  decodeMain 0x32E0#16 = .instr (.ldcr .sym 11#4) ∧
  decodeMain 0x0460#16 = .instr (.b .sym) ∧
  decodeMain 0x05DA#16 = .instr (.inct (.ind 10#4)) ∧
  decodeMain 0x10FF#16 = .instr (.jmp 0xFF#8) ∧
  decodeMain 0x0A41#16 = .instr (.sla 1#4 4#4) ∧
  decodeMain 0x0245#16 = .instr (.andi 5#4) ∧
  decodeMain 0x02E0#16 = .instr .lwpi ∧
  decodeMain 0x02A2#16 = .instr (.stwp 2#4) ∧
  decodeMain 0x0380#16 = .instr .rtwp ∧
  decodeMain 0x002A#16 = .two .am ∧ decodeSecond .am 0x4102#16 = some (.am (.reg 2#4) (.reg 4#4)) ∧
  decodeMain 0x0C0A#16 = .two .tcmb ∧ decodeSecond .tcmb 0x03C2#16 = some (.tcmb (.reg 2#4) 15#4) ∧
  decodeMacrostore 0x0105#16 = .instr (.evad (.reg 5#4)) ∧
  decodeMacrostore 0x1EFD#16 = .instr (.jnep 0xFD#8) ∧
  decodeRom 0x0C52#16 = .instr (.ar (.ind 2#4)) ∧
  decodeRom 0x0C00#16 = .instr .cri ∧ decodeRom 0x0C02#16 = .instr .negr ∧
  decodeRom 0x0C04#16 = .instr .cre ∧ decodeRom 0x0C06#16 = .instr .cer ∧
  decodeRom 0x0301#16 = .two .cr ∧ decodeSecond .cr 0x0800#16 = some (.cr (.reg 0#4) .sym)

/-- The first words that raise a MID trap in main memory are exactly the listed ranges, 1809 words with >0000 among
them, while >FFFF is SOCB *R15+,*R15+. An XOP under emulation is a MID opcode, and so is an illegal second word of a
two-word opcode: one of TMB, TCMB or TSMB outside >0000 to >03FF or with Ts 3, of AM or SM outside >4000 to >4FFF, of
SLAM or SRAM outside >4000 to >43FF. A MID opcode is offered to an attached processor first, then to Macrostore, and is
an illegal instruction where baseline mode takes both away (spec/30_encoding.md R163, R164). -/
def Obligations.MidOpcodesAreTheListedRanges : Prop :=
  let ranges : List (Nat × Nat) :=
    [(0x0000, 0x001B), (0x001E, 0x0028), (0x002B, 0x007F), (0x00A0, 0x00AF), (0x00C0, 0x013F), (0x0210, 0x021F),
      (0x0230, 0x023F), (0x0250, 0x025F), (0x0270, 0x027F), (0x0290, 0x029F), (0x02B0, 0x02BF), (0x02D0, 0x02DF),
      (0x02E1, 0x02FF), (0x0301, 0x033F), (0x0341, 0x035F), (0x0361, 0x037F), (0x0381, 0x039F), (0x03A1, 0x03BF),
      (0x03C1, 0x03DF), (0x03E1, 0x03FF), (0x0780, 0x07FF), (0x0C00, 0x0C08), (0x0C0C, 0x0FFF)]
  (∀ w : Word, decodeMain w = .mid ↔ ∃ r ∈ ranges, r.1 ≤ w.toNat ∧ w.toNat ≤ r.2) ∧
  (ranges.Pairwise fun r q => r.2 < q.1) ∧ (ranges.map fun r => r.2 + 1 - r.1).sum = 1809 ∧
  decodeMain 0x0000#16 = .mid ∧ decodeMain 0xFFFF#16 = .instr (.socb (.inc 15#4) (.inc 15#4)) ∧
  (∀ (src : Operand) (n : Nibble) (s : State), s.inMs = false → stBit s.st 11 = true →
    exec (.xop src n) s = outcome (raiseMid (encField 0x2C00#16 src n) .xop) s) ∧
  (∀ w1 w2 : Word, decode .main (bytesOfWord w1 ++ bytesOfWord w2) = .error .midSecond ↔
    (w1 ∈ [0x0C09#16, 0x0C0A#16, 0x0C0B#16] ∧ (0x0400 ≤ w2.toNat ∨ w2.toNat / 16 % 4 = 3)) ∨
    (w1 ∈ [0x002A#16, 0x0029#16] ∧ (w2.toNat < 0x4000 ∨ 0x5000 ≤ w2.toNat)) ∨
    (w1 ∈ [0x001D#16, 0x001C#16] ∧ (w2.toNat < 0x4000 ∨ 0x4400 ≤ w2.toNat))) ∧
  ∀ s : State, (s.midRoute = .baseline ↔ s.msMode = .baseline) ∧
    (s.midRoute = .attached ↔ s.msMode ≠ .baseline ∧ s.pins.appMid = true)

/-! ### Memory and operands -/

/-- Where RAM stands, a word stored at a location is read back there, the least significant address bit ignored. Every
byte outside it keeps its value and the memories keep their canonical form; where ROM or nothing stands the store is
lost, and a device is handed the word. On a bus without masters a device answers a read with its next word or a free
one, and where nothing stands a read is free (spec/20_memory.md R91, R92, R98). What the platform fits rests on logs 25
and 46. -/
def Obligations.StoredWordIsReadBack : Prop :=
  ∀ (s : State) (l : Loc) (v : Word),
    (s.ramAt l = true →
      (s.putWord l v).wordAt l = v ∧
      (s.putWord l v).wordAt { l with addr := l.addr.even } = v ∧
      (s.putWord l v).wordAt { l with addr := l.addr ||| 1#16 } = v ∧ (s.putWord l v).devOut = s.devOut) ∧
    (s.ramAt l = false → (s.putWord l v).mem = s.mem ∧ (s.putWord l v).ms = s.ms) ∧
    SameBytesExcept s s (s.putWord l v) [l] ∧
    (Mem.wf s.mem = true → Mem.wf s.ms = true →
      Mem.wf (s.putWord l v).mem = true ∧ Mem.wf (s.putWord l v).ms = true) ∧
    (s.bus = [] → l.space = .main →
      writeLoc l v s = .ok ((), s.putWord l v) ∧
      (mainKind s.params (s.wordBase l) = .ram ∨ mainKind s.params (s.wordBase l) = .rom →
        readLoc l s = .ok (s.wordAt l, s)) ∧
      (mainKind s.params (s.wordBase l) = .device →
        s.putWord l v = s.withDevOut (s.devOut ++ [(s.wordBase l, v)]) ∧
        (∀ w rest, s.devIn = w :: rest → readLoc l s = .ok (w, s.withDevIn rest)) ∧
        (s.devIn = [] → ∃ w, readLoc l s = .ok (w, s.withDraws (s.draws + 1)))) ∧
      (mainKind s.params (s.wordBase l) = .absent → ∃ w, readLoc l s = .ok (w, s.withDraws (s.draws + 1))))

/-- An operand is derived as its mode says, in both spaces. Inside Macrostore an operand addressed through a register
goes to main memory or to Macrostore by the position of the register in its 32-byte block, with the bus status code of
Tables 9 and 10; register and symbolic operands stay in Macrostore (spec/47_macrostore.md R466, R467, R468, R481). -/
def Obligations.MacrostoreOperandsByRegister : Prop :=
  (∀ (s : State) (op : Operand) (n : Word) (role : BusCode), s.calm → s.derives op →
    operandLoc op n role s = .ok (s.operand op n role)) ∧
  ∀ (s : State) (r : Nibble) (a n : Word) (role : BusCode), s.inMs = true →
    let k := (s.regAddr r).toNat / 2 % 16
    s.regLoc r = { space := .macrostore, addr := s.regAddr r, code := .ws } ∧
    operandLoc (.reg r) n role s = .ok ({ space := .macrostore, addr := s.regAddr r, code := .ws }, s) ∧
    (s.calm → s.reads s.streamLoc →
      let l : Loc := { space := .macrostore, addr := s.streamWord, code := role }
      s.streamWord = Mem.readWord s.ms s.pc.even.toNat ∧ operandLoc .sym n role s = .ok (l, s.skipWord)) ∧
    (k ∈ [0, 1, 4, 5, 11, 15] → (s.baseLoc r a role).space = .macrostore) ∧
    (k = 2 → s.baseLoc r a role = { space := .main, addr := a, code := .iaq }) ∧
    (k = 3 → s.baseLoc r a role = { space := .main, addr := a, code := .gm }) ∧
    (k = 6 → s.baseLoc r a role = { space := .main, addr := a, code := .sop }) ∧
    (k = 7 → s.baseLoc r a role = { space := .main, addr := a, code := if s.wr7Ws then .ws else .dop }) ∧
    (k = 8 → s.baseLoc r a role = { space := .main, addr := a, code := if s.wr8Ws then .ws else .sop }) ∧
    (k ∈ [9, 10, 13] → s.baseLoc r a role = { space := .main, addr := a, code := .ws }) ∧
    (k = 12 → s.baseLoc r a role = { space := .main, addr := a, code := .dop }) ∧
    (k = 14 → s.baseLoc r a role = { space := .main, addr := a, code := .iop }) ∧
    (s.baseLoc r a role).addr = a

/-! ### Steps -/

/-- When nothing stands before the next instruction and the next opcode, read ahead or at PC, and the word after it
decode to it, a main-memory step is that instruction, run with PC past its opcode words, and then completed
(spec/60_exceptions.md R542, spec/10_state.md R61). Inputs as in log 9; the target of X is another statement. -/
def Obligations.StepRunsMainInstruction : Prop :=
  ∀ (s : State) (i : Instr) (rest : List Byte), s.ready → s.inMs = false → (sampleInputs s).quiet →
    decode .main (sampleInputs s).codeBytes = .ok (i, rest) →
    StepIs s (fun t => t.finished false) (exec i (s.begun.skipWords (encode i).length))

/-- While executing from Macrostore a step is the instruction that the next opcode, read ahead or at PC, and the word
after it decode to there (spec/60_exceptions.md R542, spec/47_macrostore.md R464, R472). Inputs as in log 9. -/
def Obligations.StepRunsMacrostoreInstruction : Prop :=
  ∀ (s : State) (i : Instr) (rest : List Byte), s.ready → s.inMs = true →
    (s.prefetch = none → (sampleInputs s).reads s.opcodeLoc) →
    ((encode i).length = 2 → (sampleInputs s).reads s.skipWord.streamLoc) →
    decode .macrostore (sampleInputs s).codeBytes = .ok (i, rest) →
    StepIs s (fun t => t.withIoInhibit false) (exec i (s.begun.skipWords (encode i).length))

/-- Where the TMS99110A's ROM answers MID opcodes, a step on the bytes of an extension instruction is that
instruction, completed with the long-distance flags kept by LDS and LDD alone (spec/48_tms99110a_extensions.md R500,
R510). That the instruction is one atomic step in place of the ROM routine is decision D25 of the spec (log 32); inputs
as in log 9. -/
def Obligations.StepRunsExtensionInstruction : Prop :=
  ∀ (s : State) (i : Instr) (rest : List Byte), s.ready → (sampleInputs s).romAnswers → (sampleInputs s).quiet →
    decode .main (sampleInputs s).codeBytes = .error .mid →
    decode .rom (sampleInputs s).codeBytes = .ok (i, rest) →
    StepIs s (fun t => t.finished (decide (i = .lds ∨ i = .ldd))) (exec i (s.begun.skipWords (encode i).length))

/-- An opcode read ahead by the instruction before is the one that runs, in both spaces, whatever memory now holds and
whatever happens on the bus. A target of X, or the last of a chain of them, runs in the step of X exactly as a first
word would that had been fetched with PC where X has left it, with no look at the interrupts: in main memory and inside
Macrostore as an instruction of one word or two, and as an undefined word there; in main memory as a MID opcode on every
route, a first word or an illegal second word, with what the TMS99110A's ROM makes of it. A chain of X without end is
refused (spec/10_state.md R61, spec/42_xop_single_operand.md R310, R311, spec/93_implementation_defined.md U2). The
latch rests on log 8; that R310 holds literally of targets that are X or MID opcodes is decision D19 of the spec (log
32); how long a chain must be to have no end, and a state that holds a target, are log 7. -/
def Obligations.LatchedOpcodesRun : Prop :=
  ∀ (s u t : State) (w v : Word) (n : Nat), s.comesToRun u w →
    (u.chased chainLimit w t v → step s = .refused (.endlessX v)) ∧
    (n < chainLimit → u.chased n w t v →
      let ends := fun (keep : Bool) (x : State) => if s.inMs then x.withIoInhibit false else x.finished keep
      let second := t.streamWord
      t.inMs = s.inMs ∧
      (∀ i, decodeFirst s.inMs v = .instr i → StepIs s (ends false) (exec i t)) ∧
      (∀ k, decodeFirst s.inMs v = .two k → t.calm → t.reads t.streamLoc →
        (∀ i, decodeSecond k second = some i → StepIs s (ends false) (exec i t.skipWord)) ∧
        (decodeSecond k second = none →
          (s.inMs = true → step s = .refused (.undefinedInMacrostore second)) ∧
          (s.inMs = false →
            step s = outcome (do raiseMid second (.second v); finish false) t.skipWord))) ∧
      (s.inMs = true → decodeFirst s.inMs v = .undefined → step s = .refused (.undefinedInMacrostore v)) ∧
      (s.inMs = false → decodeFirst s.inMs v = .mid →
        (t.midRoute ≠ .rom → step s = outcome (do raiseMid v .first; finish (isLongDistance v)) t) ∧
        (t.midRoute = .rom →
          (decodeRom v = .mid → step s = outcome (do raiseMid v .first; finish false) t) ∧
          (decodeRom v = .undefined → step s = .refused (.romUnknown v)) ∧
          (∀ i, decodeRom v = .instr i → StepIs s (ends (decide (i = .lds ∨ i = .ldd))) (exec i t)) ∧
          (∀ k, decodeRom v = .two k → t.calm →
            (∀ i, decodeSecond k second = some i → StepIs s (ends false) (exec i t.skipWord)) ∧
            (decodeSecond k second = none → step s = .refused (.romUnknown second))))))

/-- While the processor idles with nothing to wake it, each step writes 0 at I/O address >1EC4 and nothing else. While
HOLD is asserted a step samples the inputs and lets the other masters of the bus have one cycle, in which RESET may cut
it, and a READY that never comes is refused; a reset that finds HOLD asserted waits in the same way and is due from then
on, so that it comes even where RESET is released before HOLD is (spec/45_immediate_and_control.md R420,
spec/20_memory.md R130, spec/70_reset_and_hazards.md R635, R664). HOLD rests on logs 10 and 45, the reset that is due on
log 40, READY in such a cycle on log 13, that APP is looked at before each of the writes on log 48. -/
def Obligations.IdleAndHoldWait : Prop :=
  (∀ s : State, s.ready → s.inMs = false → s.idle = true → s.ioInhibit = false →
    (sampleInputs s).uninterrupted → (sampleInputs s).breakpoint = false →
    step s = .next (((sampleInputs s).withInhibit .none).withIoOut (s.ioOut ++ [.bit 0x1EC4#16 false]))) ∧
  (∀ s : State, s.pins.reset = .inactive → s.resetDue = false → s.pins.hold = true →
    step s = (sampleInputs s).waited) ∧
  (∀ s : State, (s.pins.reset = .full ∨ (s.pins.reset = .inactive ∧ s.resetDue = true)) → s.pins.hold = true →
    step s = (s.withResetDue true).waited ∧ ∀ t, (s.withResetDue true).waited = .next t → t.resetDue = true)

/-- RESET cuts an instruction only where the environment presents it before one of its bus cycles; CLR with
autoincrement, cut before each of its four transfers, has done what came before, with PC past its opcode. Cut before the
cycle in which an internal register changes, an instruction shows the old one, and after it the new one: ST8, then WP,
of XOP with an autoincremented operand, and the mask of LIMI in privileged mode. The words other masters write before a
cycle are those it sees, so that MOV between registers stores what a master put in its source, and keeps a next opcode
read before a master changed it. A cycle in which READY never comes is refused (spec/70_reset_and_hazards.md R631, R652,
R664, spec/71_bus_sequences.md R691, R694, spec/20_memory.md R130). The queue of events and which cycles have an entry
in it rest on logs 11 and 45, PC at a cut on log 11, READY as an input of each cycle on log 13, the latch on log 8. -/
def Obligations.ResetAndMastersActBetweenCycles : Prop :=
  (∀ (i : Instr) (s t : State), s.resetDue = false → exec i s = .next t → t.resetDue = true →
    ∃ e ∈ s.bus, e.reset = true) ∧
  (∀ (r : Reg) (n : Nibble) (s : State) (k : Nat) (e : BusEvent) (rest : List BusEvent), s.inMs = false →
    s.memoryOnly → s.bus = List.replicate k { writes := [], reset := false, ready := true } ++ e :: rest →
    e.writes = [] → e.reset = true →
    let u := s.withBus rest
    let v := u.putWr r (s.wr r + 2#16)
    let c := v.withSt (stSet s.st 8 false)
    let l := u.withPc (s.pc + 2#16).even
    (k < 4 → exec (.clr (.inc r)) s = .next (if k < 2 then u else if k = 2 then v else v.latched).cutShort) ∧
    (k < 6 → stBit s.st 11 = false → exec (.xop (.inc r) n) s = .next
      (if k < 2 then u else if k = 2 then v else if k < 5 then c
       else c.withWp (c.mainWord true .inta (BitVec.ofNat 16 (0x40 + 4 * n.toNat))).even).cutShort) ∧
    (k < 3 → stBit s.st 7 = false → exec .limi s = .next
      (if k = 0 then u else if k = 1 then l
       else l.withSt ((s.st &&& 0xFFF0#16) ||| (s.streamWord &&& 0x000F#16))).cutShort)) ∧
  (∀ (r : Reg) (s : State) (k : Nat) (e : BusEvent) (rest : List BusEvent), s.inMs = false → s.memoryOnly → k < 4 →
    s.bus = List.replicate k { writes := [], reset := false, ready := true } ++ e :: rest → e.reset = false →
    e.ready = false → exec (.clr (.inc r)) s = .refused .neverReady) ∧
  (∀ (r q : Reg) (s : State) (e0 e1 e2 : BusEvent) (rest : List BusEvent), s.inMs = false → s.memoryOnly →
    s.bus = e0 :: e1 :: e2 :: rest → (∀ e ∈ [e0, e1, e2], e.reset = false ∧ e.ready = true) →
    let s0 := (s.withBus rest).served e0
    let s1 := s0.served e1
    let s2 := s1.served e2
    ∃ t, exec (.mov (.reg r) (.reg q)) s = .next t ∧ t.mem = (s2.putWr q (s0.wr r)).mem ∧
      t.prefetch = some s1.opcodeWord ∧ t.pc = s.pc ∧ t.bus = rest ∧ t.resetDue = s.resetDue ∧
      StatusIs s.st t.st (resultBits (s0.wr r)))

/-! ### Dual-operand instructions -/

/-- A and S: sum and difference, with carry as the unsigned and overflow as the signed result leaves the range. The
carry of a difference rests on log 41. -/
def Obligations.AddAndSubtractWords : Prop :=
  DualWord .a 0xA000#16 (fun x y => y + x) (fun x y => resultBits (y + x) ++ sumBits y x) ∧
  DualWord .s 0x6000#16 (fun x y => y - x) (fun x y => resultBits (y - x) ++ diffBits y x)

/-- SOC, SZC and MOV on words, and XOR with a register destination. SZC rests on log 43. -/
def Obligations.LogicAndMoveWords : Prop :=
  DualWord .soc 0xE000#16 (fun x y => y ||| x) (fun x y => resultBits (y ||| x)) ∧
  DualWord .szc 0x4000#16 (fun x y => y &&& ~~~ x) (fun x y => resultBits (y &&& ~~~ x)) ∧
  DualWord .mov 0xC000#16 (fun x _ => x) (fun x _ => resultBits x) ∧
  (∀ (src : Operand) (d : Reg) (s : State), s.calm → s.readable src 2#16 .sop → s.writes (s.regLoc d) →
    let a := s.operand src 2#16 .sop
    let r := a.2.wr d ^^^ a.2.wordAt a.1
    encode (.xor src d) = [encField 0x2800#16 src d] ∧
    Completes (.xor src d) s (a.2.putWr d r) a.2 (resultBits r))

/-- AB, SB, SOCB, SZCB and MOVB: the byte counterparts, with the parity of the result byte. The carry of SB rests on
log 41, SZCB on log 43. -/
def Obligations.ByteInstructions : Prop :=
  DualByte .ab 0xB000#16 (fun x y => y + x) (fun x y => resultBits (y + x) ++ sumBits y x ++ parityBit (y + x)) ∧
  DualByte .sb 0x7000#16 (fun x y => y - x) (fun x y => resultBits (y - x) ++ diffBits y x ++ parityBit (y - x)) ∧
  DualByte .socb 0xF000#16 (fun x y => y ||| x) (fun x y => resultBits (y ||| x) ++ parityBit (y ||| x)) ∧
  DualByte .szcb 0x5000#16 (fun x y => y &&& (x ^^^ 0xFF#8))
    (fun x y => resultBits (y &&& (x ^^^ 0xFF#8)) ++ parityBit (y &&& (x ^^^ 0xFF#8))) ∧
  DualByte .movb 0xD000#16 (fun x _ => x) (fun x _ => resultBits x ++ parityBit x)

/-- C and CB compare source with destination, CB with the parity of the source byte; COC and CZC test the register
against the source's one bits; none of them stores anything. -/
def Obligations.CompareInstructions : Prop :=
  (∀ (src dst : Operand) (s : State), s.calm → s.readable src 2#16 .sop →
    let a := s.operand src 2#16 .sop
    let b := a.2.operand dst 2#16 .dop
    a.2.readable dst 2#16 .dop →
    encode (.c src dst) = [encDual 0x8000#16 src dst] ∧
    Completes (.c src dst) s b.2 b.2 (compareBits (a.2.wordAt a.1) (b.2.wordAt b.1))) ∧
  (∀ (src dst : Operand) (s : State), s.calm → s.readable src 1#16 .sop →
    let a := s.operand src 1#16 .sop
    let x := byteAt a.1.addr (a.2.wordAt a.1)
    let b := a.2.operand dst 1#16 .dop
    a.2.readable dst 1#16 .dop →
    encode (.cb src dst) = [encDual 0x9000#16 src dst] ∧
    Completes (.cb src dst) s b.2 b.2
      (compareBits x (byteAt b.1.addr (b.2.wordAt b.1)) ++ parityBit x)) ∧
  (∀ (src : Operand) (d : Reg) (s : State), s.calm → s.readable src 2#16 .sop → s.reads (s.regLoc d) →
    let a := s.operand src 2#16 .sop
    let x := a.2.wordAt a.1
    encode (.coc src d) = [encField 0x2000#16 src d] ∧
    Completes (.coc src d) s a.2 a.2 [(2, decide (x &&& ~~~ (a.2.wr d) = 0#16))] ∧
    encode (.czc src d) = [encField 0x2400#16 src d] ∧
    Completes (.czc src d) s a.2 a.2 [(2, decide (x &&& a.2.wr d = 0#16))])

/-- MPY: the unsigned product in the register and the next word, no status bit. DIV: with a source not above the high
word only ST4 is set; otherwise quotient and remainder, ST4 cleared. That a divisor of zero is found after the low word
has been read is log 49. -/
def Obligations.UnsignedMultiplyAndDivide : Prop :=
  ∀ (src : Operand) (d : Reg) (s : State), s.calm → s.readable src 2#16 .sop →
    let a := s.operand src 2#16 .sop
    let x := (a.2.wordAt a.1).toNat
    let y := (a.2.wr d).toNat
    let next : Loc := { space := s.space, addr := s.wp + 2#16 * d.setWidth 16 + 2#16, code := .ws }
    encode (.mpy src d) = [encField 0x3800#16 src d] ∧ encode (.div src d) = [encField 0x3C00#16 src d] ∧
    (s.writes (s.regLoc d) → s.writes next →
      let u := a.2.putWr d (BitVec.ofNat 16 (y * x / 65536))
      Completes (.mpy src d) s (u.putWord next (BitVec.ofNat 16 (y * x % 65536))) u []) ∧
    (x ≤ y → s.reads (s.regLoc d) → (x = 0 → s.reads next) → Completes (.div src d) s a.2 a.2 [(4, true)]) ∧
    (y < x → s.writes (s.regLoc d) → s.writes next →
      let n := y * 65536 + (a.2.wordAt next).toNat
      let u := a.2.putWr d (BitVec.ofNat 16 (n / x))
      n / x < 65536 ∧ n % x < 65536 ∧
      Completes (.div src d) s (u.putWord next (BitVec.ofNat 16 (n % x))) u [(4, false)])

/-- MPYS: the signed product in registers 0 and 1, the flags on all 32 bits. DIVS: quotient and remainder toward zero,
the flags on the quotient; where the quotient does not fit, ST4 is set, ST0 to ST2 may be anything, and nothing else
changes. That the flags of DIVS are judged on the 16-bit quotient is decision D4 of the spec (log 32); the free bits
rest on log 18. -/
def Obligations.SignedMultiplyAndDivide : Prop :=
  ∀ (src : Operand) (s : State), s.calm → s.readable src 2#16 .sop →
    let a := s.operand src 2#16 .sop
    let x := (a.2.wordAt a.1).toInt
    let p := (a.2.wr 0#4).toInt * x
    let n := (longOf (a.2.wr 0#4) (a.2.wr 1#4)).toInt
    let q := n.tdiv x
    let stores := s.writes (s.regLoc 0#4) ∧ s.writes (s.regLoc 1#4)
    encode (.mpys src) = [encSingle 0x01C0#16 src] ∧ encode (.divs src) = [encSingle 0x0180#16 src] ∧
    (stores →
      let u := a.2.putWr 0#4 (BitVec.ofInt 16 (p / 65536))
      Completes (.mpys src) s (u.putWr 1#4 (BitVec.ofInt 16 p)) u
        [(0, decide (p ≠ 0)), (1, decide (0 < p)), (2, decide (p = 0))]) ∧
    (x ≠ 0 → -32768 ≤ q → q ≤ 32767 → stores →
      let u := a.2.putWr 0#4 (BitVec.ofInt 16 q)
      Completes (.divs src) s (u.putWr 1#4 (BitVec.ofInt 16 (n.tmod x))) u
        [(0, decide (q ≠ 0)), (1, decide (0 < q)), (2, decide (q = 0)), (4, false)]) ∧
    ((x = 0 ∨ q < -32768 ∨ 32767 < q) → s.reads (s.regLoc 0#4) → s.reads (s.regLoc 1#4) →
      Reaches (exec (.divs src) s) a.2 fun t =>
        t.mem = a.2.mem ∧ t.ms = a.2.ms ∧ t.pc = a.2.pc ∧ t.wp = s.wp ∧
        t.prefetch = some a.2.opcodeWord ∧ stBit t.st 4 = true ∧
        (∀ k, 3 ≤ k → k < 16 → k ≠ 4 → stBit t.st k = stBit s.st k) ∧ SameControl (s.withDraws t.draws) t)

/-! ### Single-operand instructions, branches and traps by instruction -/

/-- CLR, SETO, INV, NEG, SWPB, INC, INCT, DEC and DECT; and ABS, whose store comes before the prefetch. The carry of
NEG, DEC and DECT rests on log 41, ST3 of ABS on log 32. -/
def Obligations.SingleOperandStores : Prop :=
  SingleStore .clr 0x04C0#16 (fun _ => 0x0000#16) (fun _ => []) ∧
  SingleStore .seto 0x0700#16 (fun _ => 0xFFFF#16) (fun _ => []) ∧
  SingleStore .inv 0x0540#16 (fun x => ~~~ x) (fun x => resultBits (~~~ x)) ∧
  SingleStore .neg 0x0500#16 (fun x => -x)
    (fun x => resultBits (-x) ++ [(3, decide (x = 0x0000#16)), (4, decide (x = 0x8000#16))]) ∧
  SingleStore .swpb 0x06C0#16 (fun x => x.rotateLeft 8) (fun _ => []) ∧
  SingleStore .inc 0x0580#16 (fun x => x + 1#16) (fun x => resultBits (x + 1#16) ++ sumBits x 1#16) ∧
  SingleStore .inct 0x05C0#16 (fun x => x + 2#16) (fun x => resultBits (x + 2#16) ++ sumBits x 2#16) ∧
  SingleStore .dec 0x0600#16 (fun x => x - 1#16) (fun x => resultBits (x - 1#16) ++ diffBits x 1#16) ∧
  SingleStore .dect 0x0640#16 (fun x => x - 2#16) (fun x => resultBits (x - 2#16) ++ diffBits x 2#16) ∧
  ∀ (src : Operand) (s : State), s.calm → s.writable src 2#16 .sop →
    let a := s.operand src 2#16 .sop
    let x := a.2.wordAt a.1
    let u := a.2.putWord a.1 (BitVec.ofInt 16 (Int.natAbs x.toInt))
    encode (.abs src) = [encSingle 0x0740#16 src] ∧
    Completes (.abs src) s u u (resultBits x ++ [(3, false), (4, decide (x = 0x8000#16))])

/-- B goes to the source address, BIND to the word there; BL also leaves the return address in register 11, after the
opcode at the target has been read ahead; X takes the word at the source address as the next opcode, PC unchanged, from
the segment that the parameter says where segments are decoded. BLSK lowers its register by 2 before it fetches the
immediate, pushes the address after it through the register, and goes to the immediate. How X goes on rests on log 7,
the segment of its target, of which R110 and R310 say different things, on log 47, the value BLSK pushes on log 32; that
its push inside Macrostore goes where an access through the register goes is the model's choice (log 26). -/
def Obligations.BranchInstructions : Prop :=
  (∀ (w : Reg) (s : State), s.calm → s.writes (s.regLoc w) → s.reads s.streamLoc →
    let sp := s.wr w - 2#16
    let u := s.putWr w sp
    let l := s.baseLoc w sp .sop
    let v := (u.skipWord.putWord l u.skipWord.pc).withPc u.streamWord.even
    s.writes l →
    encode (.blsk w) = [encReg 0x00B0#16 w] ∧ (s.inMs = false → l = { space := .main, addr := sp, code := .sop }) ∧
    Completes (.blsk w) s v v []) ∧
  ∀ (src : Operand) (s : State), s.calm → s.derives src →
    let a := s.operand src 2#16 .sop
    let u := a.2.withPc a.1.addr.even
    let v := a.2.withPc (a.2.wordAt a.1).even
    encode (.b src) = [encSingle 0x0440#16 src] ∧ Completes (.b src) s u u [] ∧
    encode (.bl src) = [encSingle 0x0680#16 src] ∧
    (s.reads a.1 → s.writes (s.regLoc 11#4) → Completes (.bl src) s (u.putWr 11#4 a.2.pc) u []) ∧
    encode (.bind src) = [encSingle 0x0140#16 src] ∧
    (s.reads a.1 → Completes (.bind src) s v v []) ∧
    encode (.x src) = [encSingle 0x0480#16 src] ∧
    (s.reads a.1 → exec (.x src) s = .next (a.2.withXTarget (some (
      if s.params.xFromInstructionSegment = true ∧ a.1.space = .main then
        a.2.mainWord (psel a.2 a.1.code) .iop a.1.addr
      else a.2.wordAt a.1))))

/-- BLWP: WP and PC from the two words at the source address, the old WP, PC and ST in registers 13, 14 and 15 of the
new workspace in this order, the status unchanged, and the next interrupt test inhibited for maskable requests. -/
def Obligations.BlwpSwitchesWorkspace : Prop :=
  ∀ (src : Operand) (s : State), s.calm → s.readable src 2#16 .sop →
    let a := s.operand src 2#16 .sop
    let n := a.2.withWp (a.2.wordAt a.1).even
    s.reads (a.1.offset 2#16) → (∀ l ∈ n.savedLocs, n.writes l) →
    encode (.blwp src) = [encSingle 0x0400#16 src] ∧
    let u := ((n.saving s.wp a.2.pc s.st).withInhibit .maskable).withPc (a.2.wordAt (a.1.offset 2#16)).even
    Reaches (exec (.blwp src) s) u fun t => t = u.latched

/-- XOP with ST11 = 0 takes the trap through its vector with PSEL high: the operand's address in register 11 of the
new workspace before the new PC is read, the old context in registers 13 to 15, ST6 set and ST7 to ST11 cleared. With
ST11 = 1 it is a MID opcode: in baseline mode ILLOP and the level-2 trap, with PC after the XOP word and no operand
derived. Inside Macrostore the model refuses it. The refusal rests on log 29. -/
def Obligations.XopTrapsThroughItsVector : Prop :=
  (∀ (src : Operand) (n : Nibble) (s : State), s.inMs = true → exec (.xop src n) s = .refused .xopInMacrostore) ∧
  (∀ (src : Operand) (n : Nibble) (s : State), s.calm → s.inMs = false → stBit s.st 11 = true →
    s.msMode = .baseline →
    ∃ t, exec (.xop src n) s = .next t ∧ Switched (s.withIllop true) t 0x0008#16 1#4) ∧
  ∀ (src : Operand) (n : Nibble) (s : State), s.calm → s.inMs = false → stBit s.st 11 = false →
    let a := s.operand src 2#16 .sop
    let v := BitVec.ofNat 16 (0x40 + 4 * n.toNat)
    let c := (a.2.withSt (stSet s.st 8 false)).withWp (a.2.mainWord true .inta v).even
    let m := c.putWr 11#4 a.1.addr
    ∃ t, exec (.xop src n) s = .next t ∧ t.wp = c.wp ∧ t.pc = (m.mainWord true .inta (v + 2#16)).even ∧
      t.mem = (m.saving s.wp a.2.pc s.st).mem ∧ t.ms = s.ms ∧
      (t.savedInRam → SavedContext t s.wp a.2.pc s.st) ∧
      (t.ramAt (t.regLoc 11#4) = true → t.wr 11#4 = a.1.addr) ∧ t.prefetch = some t.opcodeWord ∧
      StatusIs s.st t.st ((6, true) :: modeBitsClear) ∧ SameControl (s.withInhibit .maskable) t

/-! ### Jumps and shifts -/

/-- JMP, the jumps on ST0, ST1 and ST2, and those on carry, overflow and parity (spec/44_jump_shift.md R350 to R363).
The opcode read ahead at the place the jump goes on with is log 8. -/
def Obligations.JumpsOnStatus : Prop :=
  Jump .jmp 0x1000#16 (fun _ => true) ∧
  Jump .jlt 0x1100#16 (fun st => !stBit st 1 && !stBit st 2) ∧
  Jump .jle 0x1200#16 (fun st => !stBit st 0 || stBit st 2) ∧
  Jump .jeq 0x1300#16 (fun st => stBit st 2) ∧
  Jump .jhe 0x1400#16 (fun st => stBit st 0 || stBit st 2) ∧
  Jump .jgt 0x1500#16 (fun st => stBit st 1) ∧
  Jump .jne 0x1600#16 (fun st => !stBit st 2) ∧
  Jump .jnc 0x1700#16 (fun st => !stBit st 3) ∧
  Jump .joc 0x1800#16 (fun st => stBit st 3) ∧
  Jump .jno 0x1900#16 (fun st => !stBit st 4) ∧
  Jump .jl 0x1A00#16 (fun st => !stBit st 0 && !stBit st 2) ∧
  Jump .jh 0x1B00#16 (fun st => stBit st 0 && !stBit st 2) ∧
  Jump .jop 0x1C00#16 (fun st => stBit st 5)

/-- SLA, SRA, SRL and SRC in closed form for every count from 1 to 16: the last bit out is ST3, and SLA sets ST4
exactly when the value times 2^c leaves the signed range. The places of the count and the register rest on log 42. -/
def Obligations.SingleWordShifts : Prop :=
  WordShift .sla 0x0A00#16 (fun c x => BitVec.ofNat 16 (x.toNat * 2 ^ c))
    (fun c x => [(3, x.getLsbD (16 - c)), (4, outside 16 (x.toInt * 2 ^ c))]) ∧
  WordShift .sra 0x0800#16 (fun c x => BitVec.ofInt 16 (x.toInt / 2 ^ c)) (fun c x => [(3, x.getLsbD (c - 1))]) ∧
  WordShift .srl 0x0900#16 (fun c x => BitVec.ofNat 16 (x.toNat / 2 ^ c)) (fun c x => [(3, x.getLsbD (c - 1))]) ∧
  WordShift .src 0x0B00#16 (fun c x => x.rotateRight c) (fun c x => [(3, x.getLsbD (c - 1))])

/-- AM and SM on 32 bits, with the carry and overflow of the 32-bit operation; SLAM and SRAM in closed form for every
count from 0 to 15, a count of 0 clearing ST3 and still storing the operand. The carry of SM rests on log 41. -/
def Obligations.DoubleWordInstructions : Prop :=
  DualLong .am 0x002A#16 (fun y x => y + x) (fun y x => sumBits y x) ∧
  DualLong .sm 0x0029#16 (fun y x => y - x) (fun y x => diffBits y x) ∧
  LongShift .slam 0x001D#16 (fun c x => BitVec.ofNat 32 (x.toNat * 2 ^ c))
    (fun c x => [(3, decide (c ≠ 0) && x.getLsbD (32 - c)), (4, outside 32 (x.toInt * 2 ^ c))]) ∧
  LongShift .sram 0x001C#16 (fun c x => BitVec.ofInt 32 (x.toInt / 2 ^ c))
    (fun c x => [(3, decide (c ≠ 0) && x.getLsbD (c - 1))])

/-- TMB, TCMB and TSMB: ST2 takes the addressed bit; TCMB clears it in memory, TSMB sets it, TMB stores nothing. The
numbering of the bits rests on log 44. -/
def Obligations.MemoryBitTests : Prop :=
  BitTest .tmb 0x0C09#16 none ∧
  BitTest .tcmb 0x0C0A#16 (some fun x m => x &&& ~~~ m) ∧
  BitTest .tsmb 0x0C0B#16 (some fun x m => x ||| m)

/-! ### Immediate and control instructions -/

/-- LI, AI, ANDI, ORI and CI. -/
def Obligations.ImmediateInstructions : Prop :=
  ImmediateStore .li 0x0200#16 (fun _ v => v) (fun _ v => resultBits v) ∧
  ImmediateStore .ai 0x0220#16 (fun x v => x + v) (fun x v => resultBits (x + v) ++ sumBits x v) ∧
  ImmediateStore .andi 0x0240#16 (fun x v => x &&& v) (fun x v => resultBits (x &&& v)) ∧
  ImmediateStore .ori 0x0260#16 (fun x v => x ||| v) (fun x v => resultBits (x ||| v)) ∧
  (∀ (w : Reg) (s : State), s.calm → s.reads (s.regLoc w) → s.reads s.streamLoc →
    encode (.ci w) = [encReg 0x0280#16 w] ∧
    Completes (.ci w) s s.skipWord s.skipWord (compareBits (s.wr w) s.streamWord))

/-- LWPI and LWP load WP, STWP and STST store WP and ST, LST loads ST: all of it in privileged mode and inside
Macrostore, bits 0 to 5 and 10 in user mode with ST6 cleared. -/
def Obligations.InternalRegisterLoadsAndStores : Prop :=
  ∀ (w : Reg) (s : State), s.calm →
    encode .lwpi = [0x02E0#16] ∧
    (s.reads s.streamLoc →
      Reaches (exec .lwpi s) s.skipWord fun t => t = s.skipWord.latched.withWp s.streamWord.even) ∧
    encode (.lwp w) = [encReg 0x0090#16 w] ∧
    (s.reads (s.regLoc w) → Reaches (exec (.lwp w) s) s fun t => t = s.latched.withWp (s.wr w).even) ∧
    encode (.stwp w) = [encReg 0x02A0#16 w] ∧
    (s.writes (s.regLoc w) → Completes (.stwp w) s (s.putWr w s.wp) s []) ∧
    encode (.stst w) = [encReg 0x02C0#16 w] ∧
    (s.writes (s.regLoc w) → Completes (.stst w) s (s.putWr w s.st) s []) ∧
    encode (.lst w) = [encReg 0x0080#16 w] ∧
    (s.reads (s.regLoc w) →
      let u := s.withSt
        (if stBit s.st 7 && !s.inMs then (s.wr w &&& 0xFC20#16) ||| (s.st &&& 0x01DF#16) else s.wr w)
      Reaches (exec (.lst w) s) u fun t => t = u.latched)

/-- LIMI: the mask from the immediate in privileged mode and inside Macrostore; in user mode PRIVOP is set, the mask
kept, and the immediate consumed all the same. The inhibit rests on log 38. -/
def Obligations.LimiIsPrivileged : Prop :=
  ∀ s : State, s.calm → s.reads s.streamLoc →
    ((stBit s.st 7 = false ∨ s.inMs = true) →
      Completes .limi s s.skipWord s.skipWord (maskBits (s.streamWord.extractLsb' 0 4))) ∧
    (stBit s.st 7 = true → s.inMs = false →
      exec .limi s = .next ((s.skipWord.withPrivop true).withIoInhibit true).latched)

/-- RTWP in main memory: PC, ST and WP from registers 14, 15 and 13, read with PSEL high, ST by the rule of LST. PSEL
high rests on log 32. -/
def Obligations.RtwpRestoresContext : Prop :=
  ∀ s : State, s.calm → s.inMs = false →
    let word := fun r : Nibble => s.mainWord true .ws (s.regAddr r)
    encode .rtwp = [0x0380#16] ∧
    exec .rtwp s = .next
      ((((s.withSt (if stBit s.st 7 then (word 15#4 &&& 0xFC20#16) ||| (s.st &&& 0x01DF#16) else word 15#4)).withPc
        (word 14#4).even).latched).withWp (word 13#4).even)

/-- CKON, CKOF, LREX, IDLE and RSET write a 0 to their I/O address in privileged mode and inside Macrostore, IDLE then
idles, RSET then clears ST9 to ST15 (or the mask alone, by parameter) and the error flags; in user mode each sets PRIVOP
and does nothing else. IDLE inside Macrostore is refused. The parameter rests on log 17, IDLE in user mode on log 32,
the refusal on log 29, the inhibit on log 38. -/
def Obligations.ExternalInstructions : Prop :=
  (∀ s : State, s.inMs = true → exec .idle s = .refused .idleInMacrostore) ∧
  ∀ s : State, s.calm → s.ioInhibit = false →
    let wrote := fun a : Word => s.withIoOut (s.ioOut ++ [.bit a false])
    let refusedUser := ((s.withPrivop true).withIoInhibit true).latched
    ((stBit s.st 7 = false ∨ s.inMs = true) →
      Reaches (exec .ckon s) s (fun t => t = (wrote 0x1ECA#16).latched) ∧
      Reaches (exec .ckof s) s (fun t => t = (wrote 0x1ECC#16).latched) ∧
      Reaches (exec .lrex s) s (fun t => t = (wrote 0x1ECE#16).latched) ∧
      (s.inMs = false → exec .idle s = .next ((wrote 0x1EC4#16).withIdle true).latched) ∧
      Reaches (exec .rset s) s fun t => t = (((((wrote 0x1EC6#16).withSt
        (if s.params.rsetClearsHigh then s.st &&& 0xFF80#16 else s.st &&& 0xFFF0#16)).withAf false).withIllop
        false).withPrivop false).latched) ∧
    (stBit s.st 7 = true → s.inMs = false →
      exec .ckon s = .next refusedUser ∧ exec .ckof s = .next refusedUser ∧ exec .lrex s = .next refusedUser ∧
      exec .idle s = .next refusedUser ∧ exec .rset s = .next refusedUser)

/-! ### I/O -/

/-- SBO and SBZ. A protected address in user mode sets PRIVOP and writes nothing. Otherwise, in the bit-serial half,
one bit is written; a 0 clears the error flag at its address, and a 1 sets the flags that the parameter lists for its
address, wherever that is; while the parameter is not given a 1 at >1FC0 to >1FDE is refused. In the parallel half a
word is written whose line D15 is the bit, the other lines free. The free lines rest on log 15, the parameter on log 16,
the inhibit on log 38. -/
def Obligations.SingleBitOutput : Prop :=
  ∀ (d : Byte) (s : State), s.calm → s.inMs = false → s.ioInhibit = false →
    let ioa := (s.wr 12#4 + BitVec.ofInt 16 (2 * d.toInt)).even
    let guarded := (0x1C00 ≤ ioa.toNat ∧ ioa.toNat ≤ 0x7FFE) ∨ 0x9C00 ≤ ioa.toNat
    let flagRange := 0x1FC0 ≤ ioa.toNat ∧ ioa.toNat ≤ 0x1FDE
    let violation := ((s.withPrivop true).withIoInhibit true).latched
    (stBit s.st 7 = true → guarded → exec (.sbo d) s = .next violation ∧ exec (.sbz d) s = .next violation) ∧
    (¬ (stBit s.st 7 = true ∧ guarded) →
      (ioa.toNat < 0x8000 →
        exec (.sbz d) s = .next
          (((((s.withPrivop (s.privop && decide (ioa ≠ 0x1FDC#16))).withIllop
            (s.illop && decide (ioa ≠ 0x1FDA#16))).withAf
            (s.af && decide (ioa ≠ 0x1FC8#16))).withIoOut (s.ioOut ++ [.bit ioa false])).latched)) ∧
      (ioa.toNat < 0x8000 → s.params.flagSetAddrs = none → ¬ flagRange →
        exec (.sbo d) s = .next (s.withIoOut (s.ioOut ++ [.bit ioa true])).latched) ∧
      (flagRange → s.params.flagSetAddrs = none → exec (.sbo d) s = .refused (.flagSetOutput ioa)) ∧
      (∀ table, ioa.toNat < 0x8000 → s.params.flagSetAddrs = some table →
        exec (.sbo d) s = .next
          (((((s.withPrivop (s.privop || table.any fun e => decide (e.addr = ioa) && e.privop)).withIllop
            (s.illop || table.any fun e => decide (e.addr = ioa) && e.illop)).withAf
            (s.af || table.any fun e => decide (e.addr = ioa) && e.af)).withIoOut
            (s.ioOut ++ [.bit ioa true])).latched)) ∧
      (0x8000 ≤ ioa.toNat →
        ∃ w v : Word, w.getLsbD 0 = true ∧ v.getLsbD 0 = false ∧
          exec (.sbo d) s = .next ((s.withDraws (s.draws + 1)).withIoOut (s.ioOut ++ [.word ioa w])).latched ∧
          exec (.sbz d) s = .next ((s.withDraws (s.draws + 1)).withIoOut (s.ioOut ++ [.word ioa v])).latched))

/-- TB: ST2 takes the error flag at a flag address; elsewhere line D0 of the platform's next answer, or a free value
where none is queued; nothing else changes. Where the parameter says that TB is restricted, user mode at a protected
address also sets PRIVOP afterwards; by default it is free (spec/43_cru_io.md R343 against spec/70_reset_and_hazards.md
R651). The queue of answers rests on log 14, the parameter and that PRIVOP comes after the read on log 51, the inhibit
that goes with PRIVOP on log 38. -/
def Obligations.TestBitReadsInput : Prop :=
  ∀ (d : Byte) (s : State), s.calm → s.inMs = false →
    let ioa := (s.wr 12#4 + BitVec.ofInt 16 (2 * d.toInt)).even
    let breaks := s.params.tbViolates = true ∧ stBit s.st 7 = true ∧
      ((0x1C00 ≤ ioa.toNat ∧ ioa.toNat ≤ 0x7FFE) ∨ 0x9C00 ≤ ioa.toNat)
    let ends := fun (u : State) (b : Bool) =>
      let t := u.latched.withSt (stSet s.st 2 b)
      exec (.tb d) s = .next (if breaks then (t.withPrivop true).withIoInhibit true else t)
    encode (.tb d) = [encDisp 0x1F00#16 d] ∧
    (ioa = 0x1FDC#16 → ends s s.privop) ∧ (ioa = 0x1FDA#16 → ends s s.illop) ∧ (ioa = 0x1FC8#16 → ends s s.af) ∧
    (ioa ≠ 0x1FDC#16 → ioa ≠ 0x1FDA#16 → ioa ≠ 0x1FC8#16 →
      (∀ w rest, s.ioIn = w :: rest → ends (s.withIoIn rest) w.msb) ∧
      (s.ioIn = [] → ∃ b, ends (s.withDraws (s.draws + 1)) b))

/-- LDCR in the bit-serial half: the bits go out from the least significant to rising addresses until, in user mode, a
protected address is reached; a bit whose address has left the half goes out as line D15 of a word, the other lines
free. Each 0 clears the error flag at its address and each 1 sets the flags that `FLAG_SET_ADDRS` lists for its
address; while that is not given the first 1 sent to >1FC0 to >1FDE is refused. The status is judged on the operand.
That the check is made bit by bit, so that the bits before the first protected address go out, is decision D21 of the
spec (R322, R651; log 32). The parameter and its refusal rest on log 16, the free lines on log 15, the inhibit on log
38. -/
def Obligations.LdcrSerialOutput : Prop :=
  ∀ (src : Operand) (cnt : Nibble) (s : State), s.calm → s.ioInhibit = false →
    let size := if 1 ≤ cnt.toNat ∧ cnt.toNat ≤ 8 then 1#16 else 2#16
    s.readable src size .sop → s.reads (s.regLoc 12#4) →
    let k := if cnt.toNat = 0 then 16 else cnt.toNat
    let a := s.operand src size .sop
    let v := transferValue cnt a.1.addr (a.2.wordAt a.1)
    let base := a.2.wr 12#4
    let ioa := fun i : Nat => (base + BitVec.ofNat 16 (2 * i)).even
    let breaks := fun i : Nat => stBit s.st 7 && !s.inMs &&
      (decide (0x1C00 ≤ (ioa i).toNat ∧ (ioa i).toNat ≤ 0x7FFE) || decide (0x9C00 ≤ (ioa i).toNat))
    let sent := (List.range k).takeWhile fun i => !breaks i
    let unknown := fun i : Nat => v.getLsbD i && decide (0x1FC0 ≤ (ioa i).toNat ∧ (ioa i).toNat ≤ 0x1FDE)
    let flag := fun (address : Word) (lists : FlagSetEntry → Bool) (old : Bool) => sent.foldl (fun b i =>
      if 0x8000 ≤ (ioa i).toNat then b
      else if v.getLsbD i then
        b || (s.params.flagSetAddrs.getD []).any fun e => decide (e.addr = ioa i) && lists e
      else b && decide (ioa i ≠ address)) old
    base.msb = false →
    encode (.ldcr src cnt) = [encField 0x3000#16 src cnt] ∧
    (s.params.flagSetAddrs = none → ∀ i, sent.find? unknown = some i →
      exec (.ldcr src cnt) s = .refused (.flagSetOutput (ioa i))) ∧
    ((s.params.flagSetAddrs ≠ none ∨ sent.find? unknown = none) →
      Reaches (exec (.ldcr src cnt) s) a.2 fun t => ∃ free : Nat → Word, t.mem = a.2.mem ∧ t.ms = a.2.ms ∧
        t.pc = a.2.pc ∧ t.wp = s.wp ∧ t.prefetch = some a.2.opcodeWord ∧ StatusIs s.st t.st (transferBits cnt v) ∧
        t.ioOut = s.ioOut ++ sent.map (fun i =>
          if 0x8000 ≤ (ioa i).toNat then IoWrite.word (ioa i) ((free i &&& 0xFFFE#16) ||| if v.getLsbD i then 1 else 0)
          else IoWrite.bit (ioa i) (v.getLsbD i)) ∧
        t.privop = (flag 0x1FDC#16 FlagSetEntry.privop s.privop || (List.range k).any breaks) ∧
        t.illop = flag 0x1FDA#16 FlagSetEntry.illop s.illop ∧ t.af = flag 0x1FC8#16 FlagSetEntry.af s.af ∧
        SameControl ((((((s.withPrivop t.privop).withIllop t.illop).withAf t.af).withIoInhibit
          ((List.range k).any breaks)).withIoOut t.ioOut).withDraws t.draws) t)

/-- LDCR in the parallel half: one byte or word goes out at once, unless user mode and a protected address forbid it;
the codes with increment leave register 12 raised even then; the reserved codes are refused. The increment of a byte
rests on log 17, the inhibit on log 38, the refusals are those of the spec. -/
def Obligations.LdcrParallelOutput : Prop :=
  ∀ (src : Operand) (cnt : Nibble) (s : State), s.calm → s.ioInhibit = false →
    let byte := 1 ≤ cnt.toNat ∧ cnt.toNat ≤ 8
    let size := if byte then 1#16 else 2#16
    s.readable src size .sop → s.reads (s.regLoc 12#4) →
    let a := s.operand src size .sop
    let v := transferValue cnt a.1.addr (a.2.wordAt a.1)
    let base := a.2.wr 12#4
    let ioa := base.even
    let breaks := stBit s.st 7 && !s.inMs && decide (0x9C00 ≤ ioa.toNat)
    let inc := if cnt = 3#4 then (if s.params.parByteIncOne then 1#16 else 2#16) else 2#16
    let bumps := cnt = 3#4 ∨ cnt = 11#4
    let u := if bumps then a.2.putWr 12#4 (base + inc) else a.2
    base.msb = true →
    (cnt ∉ [2#4, 3#4, 10#4, 11#4] → exec (.ldcr src cnt) s = .refused (.reservedCount cnt)) ∧
    (cnt ∈ [2#4, 3#4, 10#4, 11#4] → (bumps → s.writes (s.regLoc 12#4)) →
      Reaches (exec (.ldcr src cnt) s) a.2 fun t =>
        t.mem = u.mem ∧ t.ms = u.ms ∧ t.pc = a.2.pc ∧ t.wp = s.wp ∧
        t.prefetch = some a.2.opcodeWord ∧ StatusIs s.st t.st (transferBits cnt v) ∧
        t.ioOut = s.ioOut ++
          (if breaks then [] else if byte then [IoWrite.byte ioa (lo8 v)] else [IoWrite.word ioa v]) ∧
        t.privop = (s.privop || breaks) ∧
        SameControl (((s.withPrivop t.privop).withIoInhibit breaks).withIoOut t.ioOut) t)

/-- STCR in the bit-serial half: the bits come in from rising addresses to the least significant bit up, the leading
bits are zero, a byte is merged into its word, and the flags are judged on the value; each bit is the error flag at a
flag address, and, where enough answers are queued and no flag is read, the answers in order. In user mode a protected
address sets PRIVOP afterwards (spec/43_cru_io.md R334). The queue of answers rests on log 14, the inhibit that goes
with PRIVOP on log 38. -/
def Obligations.StcrSerialInput : Prop :=
  ∀ (src : Operand) (cnt : Nibble) (s : State), s.calm →
    let k := if cnt.toNat = 0 then 16 else cnt.toNat
    let byte := 1 ≤ cnt.toNat ∧ cnt.toNat ≤ 8
    let size := if byte then 1#16 else 2#16
    s.writable src size .sop → s.reads (s.regLoc 12#4) →
    let a := s.operand src size .sop
    let old := a.2.wordAt a.1
    let base := a.2.wr 12#4
    let ioa := fun i : Nat => (base + BitVec.ofNat 16 (2 * i)).even
    let isFlag := fun i : Nat => ioa i = 0x1FDC#16 ∨ ioa i = 0x1FDA#16 ∨ ioa i = 0x1FC8#16
    let breaks := stBit s.st 7 && !s.inMs && (List.range k).any fun i =>
      decide (0x1C00 ≤ (ioa i).toNat ∧ (ioa i).toNat ≤ 0x7FFE) || decide (0x9C00 ≤ (ioa i).toNat)
    base.msb = false →
    encode (.stcr src cnt) = [encField 0x3400#16 src cnt] ∧
    Reaches (exec (.stcr src cnt) s) a.2 fun t => ∃ v : Word, v.toNat < 2 ^ k ∧
      (let u := a.2.putWord a.1 (if byte then mergeByte a.1.addr old (lo8 v) else v)
       t.mem = u.mem ∧ t.ms = u.ms) ∧
      t.pc = a.2.pc ∧ t.wp = s.wp ∧ t.prefetch = some a.2.opcodeWord ∧
      StatusIs s.st t.st (transferBits cnt v) ∧ t.privop = (s.privop || breaks) ∧
      (∀ i, i < k → (ioa i = 0x1FDC#16 → v.getLsbD i = s.privop) ∧ (ioa i = 0x1FDA#16 → v.getLsbD i = s.illop) ∧
        (ioa i = 0x1FC8#16 → v.getLsbD i = s.af)) ∧
      ((∀ i, i < k → ¬ isFlag i) → k ≤ s.ioIn.length →
        t.ioIn = s.ioIn.drop k ∧ ∀ i, i < k → v.getLsbD i = (s.ioIn.getD i 0#16).msb) ∧
      SameControl ((((s.withPrivop t.privop).withIoInhibit (s.ioInhibit || breaks)).withIoIn t.ioIn).withDraws
        t.draws) t

/-- STCR in the parallel half: one byte, on lines D0 to D7, or one word of the platform's next answer, with the same
codes, increments and refusals as LDCR; in user mode a protected address sets PRIVOP afterwards (spec/43_cru_io.md
R334). The queue of answers rests on log 14, the increment of a byte on log 17, the inhibit that goes with PRIVOP on log
38. -/
def Obligations.StcrParallelInput : Prop :=
  ∀ (src : Operand) (cnt : Nibble) (s : State), s.calm →
    let byte := 1 ≤ cnt.toNat ∧ cnt.toNat ≤ 8
    let size := if byte then 1#16 else 2#16
    s.writable src size .sop → s.reads (s.regLoc 12#4) →
    let a := s.operand src size .sop
    let old := a.2.wordAt a.1
    let base := a.2.wr 12#4
    let breaks := stBit s.st 7 && !s.inMs && decide (0x9C00 ≤ base.even.toNat)
    let inc := if cnt = 3#4 then (if s.params.parByteIncOne then 1#16 else 2#16) else 2#16
    let bumps := cnt = 3#4 ∨ cnt = 11#4
    base.msb = true →
    (cnt ∉ [2#4, 3#4, 10#4, 11#4] → exec (.stcr src cnt) s = .refused (.reservedCount cnt)) ∧
    (cnt ∈ [2#4, 3#4, 10#4, 11#4] → (bumps → s.writes (s.regLoc 12#4)) →
      Reaches (exec (.stcr src cnt) s) a.2 fun t => ∃ answer : Word,
        (∀ w rest, s.ioIn = w :: rest → answer = w ∧ t.ioIn = rest) ∧
        (let v := if byte then (hi8 answer).setWidth 16 else answer
         let u := a.2.putWord a.1 (if byte then mergeByte a.1.addr old (hi8 answer) else answer)
         let n := if bumps then u.putWr 12#4 (base + inc) else u
         t.mem = n.mem ∧ t.ms = n.ms ∧ t.prefetch = some u.opcodeWord ∧ StatusIs s.st t.st (transferBits cnt v)) ∧
        t.pc = a.2.pc ∧ t.wp = s.wp ∧ t.privop = (s.privop || breaks) ∧
        SameControl ((((s.withPrivop t.privop).withIoInhibit (s.ioInhibit || breaks)).withIoIn t.ioIn).withDraws
          t.draws) t)

/-! ### Inside Macrostore -/

/-- EVAD with WP at >0000 and a target word other than register 0: the source address of the target word goes to
register 8, the destination address to register 7, the user's PC past the words used to register 14, an autoincrement
register's address to register 10 or 9; ST2 and ST0 say which fields are autoincrement; register 4 is free; main
memory is only read. With another WP, and of register 0, it is refused. The free register rests on log 19, the
refusals on log 29. -/
def Obligations.EvadEvaluatesAddresses : Prop :=
  (∀ (src : Operand) (s : State), s.inMs = true → s.wp ≠ 0#16 → exec (.evad src) s = .refused .evadWorkspace) ∧
  (∀ s : State, s.inMs = true → s.wp = 0#16 → exec (.evad (.reg 0#4)) s = .refused .evadRegisterZero) ∧
  ∀ (src : Operand) (s u : State) (l : Loc) (w : Word), s.calm → s.inMs = true → s.msMode ≠ .baseline →
    s.wp = 0#16 → src ≠ .reg 0#4 → srcLoc src 2#16 s = .ok (l, u) → readLoc l u = .ok (w, u) →
    let ts := w.extractLsb' 4 2
    let td := w.extractLsb' 10 2
    let rs := w.extractLsb' 0 4
    let rd := w.extractLsb' 6 4
    let sa := u.evadField ts rs (u.wr 14#4)
    let da := u.evadField td rd sa.2
    Reaches (exec (.evad src) s) u fun t => t.wr 8#4 = sa.1 ∧ t.wr 7#4 = da.1 ∧ t.wr 14#4 = da.2 ∧
      t.wr 10#4 = (if ts = 3#2 then u.wr 13#4 + 2#16 * rs.setWidth 16 else u.wr 10#4) ∧
      t.wr 9#4 = (if td = 3#2 then u.wr 13#4 + 2#16 * rd.setWidth 16 else u.wr 9#4) ∧
      (∀ a, a ∉ [8, 9, 14, 15, 16, 17, 18, 19, 20, 21, 28, 29] → Mem.read t.ms a = Mem.read u.ms a) ∧
      t.mem = u.mem ∧ t.pc = u.pc ∧ t.wp = 0#16 ∧ (0x20 ≤ u.pc.toNat → t.prefetch = some u.opcodeWord) ∧
      StatusIs s.st t.st [(2, decide (ts = 3#2)), (0, decide (td ≠ 3#2))] ∧
      t.wr7Ws = decide (td = 0#2) ∧ t.wr8Ws = decide (ts = 0#2) ∧
      SameControl (((s.withWr7Ws t.wr7Ws).withWr8Ws t.wr8Ws).withDraws t.draws) t

/-- The Macrostore jumps: >1Dxx when an NMI or an external request within the mask is pending, >1Exx when ST2 = 0 and
none is (spec/47_macrostore.md R484, R485, R486). The sampling of the request rests on log 37, the opcode read ahead on
log 8. -/
def Obligations.MacrostoreJumps : Prop :=
  ∀ (d : Byte) (s : State), s.calm → s.inMs = true →
    let pending := s.nmiPending || (s.pins.intreq && decide (s.pins.ic.toNat ≤ s.st.toNat % 16))
    let target := s.withPc (Word.even (BitVec.ofInt 16 (s.pc.toNat + 2 * d.toInt)))
    let u := if pending then target else s
    let v := if !stBit s.st 2 && !pending then target else s
    encode (.jip d) = [encDisp 0x1D00#16 d] ∧ Reaches (exec (.jip d) s) u (fun t => t = u.latched) ∧
    encode (.jnep d) = [encDisp 0x1E00#16 d] ∧ Reaches (exec (.jnep d) s) v fun t => t = v.latched

/-- The four RTWP opcodes inside Macrostore, where registers 13 to 15 can be read: >0380 and >0384 restore the user's
context, the one clearing the long-distance flags and testing interrupts next, the other neither; >0381 restores a
Macrostore context with all of ST; >0382 sets ILLOP, exits, and takes the level-2 trap in the same step. ST at an exit
with ST7 set rests on log 32. -/
def Obligations.MacrostoreReturns : Prop :=
  ∀ s : State, s.calm → s.inMs = true → (∀ r, 13#4 ≤ r → s.reads (s.regLoc r)) →
    encode .rtwpExit = [0x0380#16] ∧ exec .rtwpExit s = .next ((s.left.withLdf 0b111#3).withInhibit .none) ∧
    encode .rtwpQuiet = [0x0384#16] ∧ exec .rtwpQuiet s = .next (s.left.withInhibit .all) ∧
    encode .rtwpStay = [0x0381#16] ∧
    (let u := ((s.withSt (s.wr 15#4)).withWp (s.wr 13#4).even).withPc (s.wr 14#4).even
     Reaches (exec .rtwpStay s) u fun t => t = u.latched) ∧
    encode .rtwpIllop = [0x0382#16] ∧
    ∃ t, exec .rtwpIllop s = .next t ∧
      Switched (((s.left.withIllop true).withLdf 0b111#3).withInhibit .none) t 0x0008#16 1#4

/-- No instruction leaves Macrostore but the exits >0380, >0382 and >0384. -/
def Obligations.OnlyExitsLeaveMacrostore : Prop :=
  ∀ (i : Instr) (s t : State), s.inMs = true → exec i s = .next t → t.inMs = false →
    i = .rtwpExit ∨ i = .rtwpIllop ∨ i = .rtwpQuiet

/-! ### The TMS99110A's extensions -/

/-- LDS and LDD where the ROM answers: in privileged mode they advance the long-distance flags b0, b1 and b2, record the
address after the first of a sequence in Macrostore word >0004 and inhibit every interrupt test before the next
instruction; in user mode they set PRIVOP and end with no long distancing in effect. The transition of the flags is
decision D32 of the spec (log 32); what else of MRAM holds afterwards is free (log 20); the I/O inhibit of a violation
rests on log 38. -/
def Obligations.LongDistancePrefixes : Prop :=
  ∀ s : State, s.romAnswers →
    let b0 := s.ldf.getMsbD 0
    let b1 := s.ldf.getMsbD 1
    let b2 := s.ldf.getMsbD 2
    let same := fun t : State => t.mem = s.mem ∧ t.pc = s.pc ∧ t.wp = s.wp ∧ t.st = s.st ∧
      t.prefetch = some s.opcodeWord ∧ ∀ a, 0x20 ≤ a → Mem.read t.ms a = Mem.read s.ms a
    let prefixed := fun t : State => same t ∧ t.inhibit = .all ∧
      Mem.readWord t.ms 0x04 = (if s.ldf = 0b111#3 then s.pc else Mem.readWord s.ms 0x04) ∧
      SameControl (((s.withLdf t.ldf).withInhibit .all).withDraws t.draws) t
    let violation := fun t : State => same t ∧ Mem.readWord t.ms 0x04 = Mem.readWord s.ms 0x04 ∧
      SameControl ((((((s.withPrivop true).withIoInhibit true).withLdf 0b111#3).withInhibit .none).withAf
        (s.af || (stBit s.st 4 && stBit s.st 10))).withDraws t.draws) t
    encode .lds = [0x0780#16] ∧ encode .ldd = [0x07C0#16] ∧
    (stBit s.st 7 = false →
      (∃ t, exec .lds s = .next t ∧ prefixed t ∧
        t.ldf.getMsbD 0 = b0 ∧ t.ldf.getMsbD 1 = (b1 && b2) ∧ t.ldf.getMsbD 2 = false) ∧
      (∃ t, exec .ldd s = .next t ∧ prefixed t ∧
        t.ldf.getMsbD 0 = false ∧ t.ldf.getMsbD 1 = (b1 && b2) ∧ t.ldf.getMsbD 2 = b2)) ∧
    (stBit s.st 7 = true →
      (∃ t, exec .lds s = .next t ∧ violation t) ∧ (∃ t, exec .ldd s = .next t ∧ violation t))

/-- AR, SR, MR and DR complete on every operand; on valid operands an exactly representable result is delivered with its
status, to registers 0 and 1 where they are RAM, and exponent overflow and underflow are reported in ST3 and ST4.
That an exactly representable result is delivered exactly, and zero as >0000 >0000, is decision D33 of the spec ("This
spec:" in R522; log 32). Nothing is said of the value of any other result, nor of division by zero (logs 21, 22, 23). -/
def Obligations.RealArithmetic : Prop :=
  RealOp .ar (fun _ => True) (fun a y => a + y) (fun _ _ => 1) ∧
  RealOp .sr (fun _ => True) (fun a y => a - y) (fun _ _ => 1) ∧
  RealOp .mr (fun _ => True) (fun a y => a * y) (fun _ _ => 16 ^ 70) ∧
  RealOp .dr (fun y => y ≠ 0#32) (fun a _ => a * 16 ^ 70) (fun _ y => y)

/-- LR and STR copy two words between the operand and registers 0 and 1; NEGR inverts the sign of a valid number that is
not zero; ST0 to ST2 are those of the value, ST3 and ST4 stay. That NEGR of zero gives zero is decision D33 of the spec
(log 32). -/
def Obligations.RealMoves : Prop :=
  ∀ (src : Operand) (s : State), s.romAnswers →
    let p := s.operand src 4#16 .sop
    let y := p.2.longAt p.1
    let u := p.2.putWord p.1 (p.2.wr 0#4)
    (∃ t, exec (.lr src) s = .next t ∧ RomLeaves s p.2 t ∧
      t.mem = ((p.2.putWr 0#4 (hiWord y)).putWr 1#4 (loWord y)).mem ∧ StatusIs s.st t.st (resultBits y)) ∧
    (∃ t, exec (.str src) s = .next t ∧ RomLeaves s p.2 t ∧
      t.mem = (u.putWord (p.1.offset 2#16) (u.wr 1#4)).mem ∧
      StatusIs s.st t.st (resultBits (longOf (p.2.wr 0#4) (u.wr 1#4)))) ∧
    (∃ t, exec .negr s = .next t ∧ RomLeaves s s t ∧
      (∀ k, 3 ≤ k → k < 16 → stBit t.st k = stBit s.st k) ∧
      (∀ b, (∀ l ∈ [s.regLoc 0#4, s.regLoc 1#4], ¬ s.covers l .main b) → Mem.read t.mem b = Mem.read s.mem b) ∧
      (fpValid s.fpac = true →
        let r := if s.fpac = 0#32 then 0#32 else s.fpac ^^^ 0x80000000#32
        (s.fpacInRam → t.fpac = r) ∧ StatusIs s.st t.st (resultBits r)))

/-- CIR, CER, CRI and CRE: a number equal to the integer, or, for an extended integer of more than six hexadecimal
digits, one less than a unit of its last digit away; an integer equal to the real where the real is one that fits; ST3
and ST4 where it cannot fit. Results stand in registers 0 and 1 where they are RAM. That CIR reads a signed word and
that CRI leaves its integer in register 0 are decision D33 of the spec (log 32); which neighbour CER takes is log 21;
nothing is said of how a fraction is dropped (log 24). -/
def Obligations.RealConversions : Prop :=
  ∀ (src : Operand) (s : State), s.romAnswers →
    let p := s.operand src 4#16 .sop
    let x := (p.2.wordAt p.1).toInt
    let v := s.fpac.toInt
    let sign := fun n : Int => [(0, decide (n ≠ 0)), (1, decide (0 < n)), (2, decide (n = 0))]
    let keeps := fun u t : State =>
      (∀ k, 5 ≤ k → k < 16 → stBit t.st k = stBit s.st k) ∧
      ∀ b, (∀ l ∈ [u.regLoc 0#4, u.regLoc 1#4], ¬ s.covers l .main b) → Mem.read t.mem b = Mem.read u.mem b
    (∃ t, exec (.cir src) s = .next t ∧ RomLeaves s p.2 t ∧ keeps p.2 t ∧
      (s.fpacInRam → fpValid t.fpac = true ∧ fpInt t.fpac = x * 16 ^ 70) ∧
      StatusIs s.st t.st (sign x ++ [(3, true), (4, false)])) ∧
    (∃ t, exec .cer s = .next t ∧ RomLeaves s s t ∧ keeps s t ∧
      (s.fpacInRam → fpValid t.fpac = true ∧ (v.natAbs ≤ 2 ^ 24 → fpInt t.fpac = v * 16 ^ 70) ∧
        (fpInt t.fpac - v * 16 ^ 70).natAbs < 16 ^ fpExp t.fpac) ∧
      StatusIs s.st t.st (sign v ++ [(3, true), (4, false)])) ∧
    (∃ t, exec .cri s = .next t ∧ RomLeaves s s t ∧ keeps s t ∧
      (fpValid s.fpac = true →
        (∀ n : Int, fpInt s.fpac = n * 16 ^ 70 → -32768 ≤ n → n ≤ 32767 →
          (s.fpacInRam → t.wr 0#4 = BitVec.ofInt 16 n) ∧ StatusIs s.st t.st (sign n ++ [(3, false), (4, false)])) ∧
        (fpInt s.fpac ≤ -32769 * 16 ^ 70 ∨ 32768 * 16 ^ 70 ≤ fpInt s.fpac →
          stBit t.st 3 = true ∧ stBit t.st 4 = true))) ∧
    (∃ t, exec .cre s = .next t ∧ RomLeaves s s t ∧ keeps s t ∧
      (fpValid s.fpac = true →
        (∀ n : Int, fpInt s.fpac = n * 16 ^ 70 → -2147483648 ≤ n → n ≤ 2147483647 →
          (s.fpacInRam → t.fpac = BitVec.ofInt 32 n) ∧ StatusIs s.st t.st (sign n ++ [(3, false), (4, false)])) ∧
        (fpInt s.fpac ≤ -2147483649 * 16 ^ 70 ∨ 2147483648 * 16 ^ 70 ≤ fpInt s.fpac →
          stBit t.st 3 = true ∧ stBit t.st 4 = true)))

/-- CR compares two reals by value and stores nothing; MM stores the unsigned 64-bit product of two double words in
the four words at the destination, whose register an autoincrement raises by 8. That MM is unsigned and that its words
are those at the destination address to that address plus 6 are decision D24 of the spec over a conflict of the source
(C16; log 32); the order of the operands rests on log 35, CR on other patterns on log 23. -/
def Obligations.RealCompareAndLongMultiply : Prop :=
  ∀ (src dst : Operand) (s : State), s.romAnswers →
    let a := s.operand src 4#16 .sop
    let x := a.2.longAt a.1
    (let b := a.2.operand dst 4#16 .dop
     let y := b.2.longAt b.1
     ∃ t, exec (.cr src dst) s = .next t ∧ RomLeaves s b.2 t ∧ t.mem = b.2.mem ∧ stBit t.st 3 = false ∧
       stBit t.st 4 = false ∧ (∀ k, 5 ≤ k → k < 16 → stBit t.st k = stBit s.st k) ∧
       (fpValid x = true → fpValid y = true →
         stBit t.st 0 = decide (fpInt x ≠ fpInt y) ∧ stBit t.st 1 = decide (fpInt y < fpInt x) ∧
         stBit t.st 2 = decide (fpInt x = fpInt y))) ∧
    (let b := a.2.operand dst 8#16 .dop
     let n := x.toNat * (b.2.longAt b.1).toNat
     let u := ((b.2.putWord b.1 (BitVec.ofNat 16 (n / 2 ^ 48))).putWord (b.1.offset 2#16)
       (BitVec.ofNat 16 (n / 2 ^ 32))).putWord (b.1.offset 4#16) (BitVec.ofNat 16 (n / 2 ^ 16))
     ∃ t, exec (.mm src dst) s = .next t ∧ RomLeaves s b.2 t ∧
       t.mem = (u.putWord (b.1.offset 6#16) (BitVec.ofNat 16 n)).mem ∧
       StatusIs s.st t.st [(0, false), (1, false), (2, decide (n = 0)), (3, false), (4, false)])

/-! ### Exceptions -/

/-- The context switch shared by all interrupts and traps, from any state that executes from main memory; and RTWP
undoes it: run with the switched context still in place, in RAM, it gives back PC, WP and all of ST. That RTWP reads
with PSEL high rests on log 32. -/
def Obligations.ContextSwitchAndItsReturn : Prop :=
  (∀ (s : State) (vec : Word) (mask : BitVec 4), s.calm → s.inMs = false →
    ∃ t, contextSwitch vec mask s = .ok ((), t) ∧ Switched s t vec mask) ∧
  ∀ (s t : State) (vec : Word) (mask : BitVec 4), s.calm → s.inMs = false → s.pc.getLsbD 0 = false →
    s.wp.getLsbD 0 = false → contextSwitch vec mask s = .ok ((), t) → t.savedInRam →
    ∃ u, exec .rtwp t = .next u ∧ u.pc = s.pc ∧ u.wp = s.wp ∧ u.st = s.st ∧ u.mem = t.mem ∧
      u.prefetch = some u.opcodeWord

/-- A step first samples its inputs: an inactive-to-active change of NMI is latched, and APP high ends the baseline
mode. At an instruction boundary a pending NMI is then taken through >FFFC with mask 0, else an internal request through
>0008 with mask 1, else an external request within the mask through its level's vector with the level less one. An
inhibit of `all` holds off all three and `maskable` all but NMI; where none is admitted the step idles or goes on with
the next instruction, with the requests left as they were and the inhibit used up. That `maskable` lets NMI pass is
decision D10 of the spec; it and the order rest on log 32, the sampling on logs 34 and 37. -/
def Obligations.InterruptsAreTakenByPriority : Prop :=
  (∀ s : State, sampleInputs s =
    ((s.withNmiPending (s.nmiPending || (s.pins.nmi && !s.nmiLast))).withNmiLast s.pins.nmi).withMsMode
      (if s.msMode = .baseline ∧ s.pins.appHigh = true then .prototyping else s.msMode)) ∧
  ∀ s : State, s.ready → s.inMs = false →
    let u := sampleInputs s
    let v := u.withInhibit .none
    let nmi := u.inhibit ≠ .all ∧ u.nmiPending = true
    let enabled := u.inhibit = .none ∧ 2 ≤ u.st.toNat % 16
    let internal := enabled ∧ (u.af = true ∨ u.privop = true)
    let external := u.inhibit = .none ∧ u.pins.intreq = true ∧ u.pins.ic.toNat ≤ u.st.toNat % 16
    (nmi → ∃ t, step s = .next t ∧ Switched (v.withNmiPending false) t 0xFFFC#16 0#4) ∧
    (¬ nmi → internal → ∃ t, step s = .next t ∧ Switched v t 0x0008#16 1#4) ∧
    (¬ nmi → ¬ internal → external → ∃ t, step s = .next t ∧
      Switched v t (BitVec.ofNat 16 (4 * u.pins.ic.toNat)) (BitVec.ofNat 4 (u.pins.ic.toNat - 1))) ∧
    (¬ nmi → ¬ internal → ¬ external → step s = outcome (if u.idle then idleStep else fetchAndRun) v) ∧
    (u.inhibit = .all → step s = outcome (if u.idle then idleStep else fetchAndRun) v) ∧
    (u.inhibit = .maskable → u.nmiPending = false → step s = outcome (if u.idle then idleStep else fetchAndRun) v)

/-- In baseline mode a MID opcode, or an illegal second word, sets ILLOP and takes the level-2 trap in the same step,
saving the address after the first word; a first word of LDS or LDD advances the long-distance flags before and leaves
them to the next instruction, any other instruction ends with them at 111 (spec/48_tms99110a_extensions.md R506). The PC
saved for a second word rests on log 32, the flags on log 27. -/
def Obligations.BaselineMidTrapsToLevelTwo : Prop :=
  ∀ s : State, s.ready → s.inMs = false → (sampleInputs s).quiet → (sampleInputs s).msMode = .baseline →
    (decode .main (sampleInputs s).codeBytes = .error .mid ∨
      decode .main (sampleInputs s).codeBytes = .error .midSecond) →
    let w := (sampleInputs s).nextOpcode
    let ldf := if w = 0x0780#16 ∨ w = 0x07C0#16 then ldfAfter w s.ldf else 0b111#3
    ∃ t, step s = .next t ∧
      Switched (((s.begun.skipWord.withIllop true).withLdf ldf).withIoInhibit false) t 0x0008#16 1#4

/-- Entry to Macrostore by a MID trap of any kind, through the vector that TI bits 5 to 7 of a first word select, or the
one of second words, or that of XOP: the opcode in Macrostore register 5, the long-distance flags and the bits of the
first word in register 3, the user's WP, PC and ST in registers 13 to 15, WP at >0000, PC from the entry vector, the
first Macrostore instruction read ahead; ST kept but for an XOP, which clears ST7 to ST11; main memory untouched. A
first word of LDS or LDD advances the long-distance flags before; others keep them. A vector or a first instruction that
cannot be read is refused. So ends a step on a MID first word or an illegal second word where this is the route, and so
ends an XOP under emulation. That advance on every route is log 27; the bits of ST that XOP clears are decision D14 of
the spec, the contents of register 3 decision D15, the refusals decision D22 (log 32). -/
def Obligations.MidTrapEntersMacrostore : Prop :=
  let vector := fun (w : Word) (kind : MidKind) =>
    match kind with
    | .first => BitVec.ofNat 16 (0x0800 + 2 * (w.toNat / 256 % 8))
    | .second _ => 0x0810#16
    | .xop => 0x0812#16
  let enters := fun (o : Host.Outcome State Fault Refusal) (s : State) (w : Word) (kind : MidKind) =>
    let l : Loc := { space := .macrostore, addr := vector w kind, code := .aums }
    (s.reads l → Enters o s w kind (Mem.readWord s.ms (vector w kind).toNat).even) ∧
    (¬ s.reads l → o = .refused (s.unread l))
  (∀ (w : Word) (kind : MidKind) (s : State), s.calm → s.inMs = false → s.midRoute = .macrostore →
    enters (outcome (raiseMid w kind) s) s w kind) ∧
  (∀ s : State, s.ready → s.inMs = false → (sampleInputs s).quiet → (sampleInputs s).midRoute = .macrostore →
    let w1 := (sampleInputs s).nextOpcode
    let w2 := s.skipWord.streamWord
    let u := s.begun.skipWord.withIoInhibit false
    (decode .main (sampleInputs s).codeBytes = .error .mid → enters (step s) u w1 .first) ∧
    (decode .main (sampleInputs s).codeBytes = .error .midSecond → enters (step s) u.skipWord w2 (.second w1))) ∧
  ∀ (src : Operand) (n : Nibble) (s : State), s.calm → s.inMs = false → stBit s.st 11 = true →
    s.midRoute = .macrostore → enters (exec (.xop src n) s) s (encField 0x2C00#16 src n) .xop

/-- A MID opcode, an illegal second word or an emulated XOP that the TMS99110A's ROM does not implement goes to external
Macrostore at >1002 where the word at >1000 is >AAAA, and otherwise leaves by the >0382 exit for the level-2 trap,
whatever raised it; and so ends a step on such a first or second word, and an XOP under emulation. Where nothing is
fitted at >1002 beside a >1000 that answers, the read there is refused. A word of which the spec does not say whether
the ROM implements it is refused. The probe, the address and the order rest on log 31, ST at the exit and the refusal of
a read on log 32. -/
def Obligations.UnimplementedMidOpcodes : Prop :=
  (∀ (w : Word) (kind : MidKind) (s : State), s.romAnswers → ¬ (kind = .first ∧ romUnknown w = true) →
    RomPassesOn (outcome (raiseMid w kind) s) s w kind) ∧
  (∀ (src : Operand) (n : Nibble) (s : State), s.romAnswers → stBit s.st 11 = true →
    RomPassesOn (exec (.xop src n) s) s (encField 0x2C00#16 src n) .xop) ∧
  ∀ s : State, s.ready → (sampleInputs s).romAnswers → (sampleInputs s).quiet →
    let w1 := (sampleInputs s).nextOpcode
    let w2 := s.skipWord.streamWord
    let u := s.begun.skipWord.withIoInhibit false
    (decode .main (sampleInputs s).codeBytes = .error .mid →
      (decodeRom w1 = .mid → RomPassesOn (step s) u w1 .first) ∧
      (decodeRom w1 = .undefined → step s = .refused (.romUnknown w1)) ∧
      (∀ k, decodeRom w1 = .two k → decodeSecond k w2 = none → step s = .refused (.romUnknown w2))) ∧
    (decode .main (sampleInputs s).codeBytes = .error .midSecond → RomPassesOn (step s) u.skipWord w2 (.second w1))

/-- An attached processor takes over where it answers a MID opcode, of any kind and in a step, or by a breakpoint at an
opcode fetch, which also ends the idle state: the level-2 workspace holds the old WP, the saved PC and ST, only ST8 is
cleared, and the processor holds. The PC saved is the address after a first word or an XOP opcode, whose operand is not
derived, the address of an illegal second word, or that of the opcode at the breakpoint; a first word of LDS or LDD
advances the long-distance flags before (log 27). Until APP goes high a step waits, and then PC, ST and WP come back
from that workspace with PSEL high, all sixteen bits of ST, AF is evaluated and the next opcode read ahead. The order of
breakpoint and interrupts and the full load of ST rest on log 32, the waiting on log 33, that APP ends the idle state at
any repetition on log 48. -/
def Obligations.AttachedProcessorTakesOverAndReturns : Prop :=
  (∀ (s : State) (pc : Word), s.calm → s.inMs = false → ∃ t, apAccept pc s = .ok ((), t) ∧ Accepted s t pc) ∧
  (∀ (w : Word) (kind : MidKind) (s : State), s.calm → s.inMs = false → s.midRoute = .attached →
    let u := if kind = .first then s.withLdf (ldfAfter w s.ldf) else s
    ∃ t, raiseMid w kind s = .ok ((), t) ∧ Accepted u t (match kind with
      | .second _ => s.pc - 2#16
      | _ => s.pc)) ∧
  (∀ (src : Operand) (n : Nibble) (s : State), s.calm → s.inMs = false → stBit s.st 11 = true →
    s.midRoute = .attached → ∃ t, exec (.xop src n) s = .next t ∧ Accepted s t s.pc) ∧
  (∀ s : State, s.ready → s.inMs = false → (sampleInputs s).quiet → (sampleInputs s).midRoute = .attached →
    let u := s.begun.skipWord.withIoInhibit false
    (decode .main (sampleInputs s).codeBytes = .error .mid →
      ∃ t, step s = .next t ∧ Accepted (u.withLdf (ldfAfter (sampleInputs s).nextOpcode s.ldf)) t u.pc) ∧
    (decode .main (sampleInputs s).codeBytes = .error .midSecond →
      ∃ t, step s = .next t ∧ Accepted u.skipWord t u.pc)) ∧
  (∀ s : State, s.ready → s.inMs = false → (sampleInputs s).breakpoint = true → (sampleInputs s).uninterrupted →
    let u := (sampleInputs s).withInhibit .none
    (s.idle = false → ∃ t, step s = .next t ∧ Accepted (u.withPc s.pc.even) t s.pc) ∧
    (s.idle = true → ∃ t, step s = .next t ∧ Accepted (u.withIdle false) t s.pc)) ∧
  (∀ s : State, s.pins.reset = .inactive → s.resetDue = false → s.pins.hold = false → s.apHold = true →
    s.pins.appHigh = false → step s = (sampleInputs s).waited) ∧
  (∀ s : State, s.pins.reset = .inactive → s.resetDue = false → s.pins.hold = false → s.apHold = true →
    s.inMs = false → s.pins.appHigh = true → s.calm →
    let word := fun r : Nibble => s.mainWord true .ws (s.regAddr r)
    let u := (((sampleInputs s).withSt (word 15#4)).withPc (word 14#4).even).latched
    step s = .next (((((u.withWp (word 13#4).even).withAf
      (s.af || (stBit (word 15#4) 4 && stBit (word 15#4) 10))).withInhibit .none).withLdf 0b111#3).withApHold false))

/-- In user mode no instruction of main memory but XOP changes ST7, ST8, ST9, ST11 or the interrupt mask. -/
def Obligations.UserModeKeepsPrivilegedStatus : Prop :=
  ∀ (i : Instr) (s t : State), i.wf = true → i.context = .main → (∀ src n, i ≠ .xop src n) → s.inMs = false →
    stBit s.st 7 = true → exec i s = .next t → ∀ n ∈ [7, 8, 9, 11, 12, 13, 14, 15], stBit t.st n = stBit s.st n

/-- No instruction of main memory but BLWP, XOP, LWPI, LWP and RTWP changes WP, and none but XOP under emulation enters
Macrostore. -/
def Obligations.FewInstructionsMoveTheWorkspace : Prop :=
  ∀ (i : Instr) (s t : State), i.wf = true → i.context = .main → s.inMs = false → exec i s = .next t →
    (t.wp = s.wp ∨ (∃ p, i = .blwp p) ∨ (∃ p n, i = .xop p n) ∨ i = .lwpi ∨ (∃ w, i = .lwp w) ∨ i = .rtwp) ∧
    (t.inMs = false ∨ ∃ p n, i = .xop p n ∧ stBit s.st 11 = true)

/-! ### Frames, in main memory and inside Macrostore -/

/-- What these instructions on general operands leave alone, in main memory and inside Macrostore: A, S, SOC, SZC, MOV
and C and their byte forms; CLR, SETO, SWPB, INV, NEG, ABS, INC, INCT, DEC and DECT; COC, CZC, XOR, MPY, DIV, MPYS and
DIVS; AM, SM, SLAM and SRAM; TMB, TCMB and TSMB; B, BL and BIND. Every byte but those of an autoincremented register, of
a register they write, and, for the storing ones, of the word or double word at the address that the derivation of the
operand stored to gives; every register but PC and ST; and every status bit but those listed for each. -/
def Obligations.OperandInstructionFrames : Prop :=
  ∀ (src dst : Operand) (d : Reg) (k : Nibble) (s t s1 s2 : State) (sl dl : Loc), s.calm →
    let keeps := fun (locs : List Loc) (bits : List Nat) =>
      SameBytesExcept s s t (locs ++ s.stepped src) ∧ t.wp = s.wp ∧ SameControl s t ∧
      ∀ n, n < 16 → n ∉ bits → stBit t.st n = stBit s.st n
    let keepsTwo := fun (locs : List Loc) (bits : List Nat) => keeps (locs ++ s.stepped dst) bits
    let next : Loc := (s.regLoc d).offset 2#16
    (∀ p ∈ [(Instr.a src dst, [0, 1, 2, 3, 4]), (.s src dst, [0, 1, 2, 3, 4]), (.soc src dst, [0, 1, 2]),
        (.szc src dst, [0, 1, 2]), (.mov src dst, [0, 1, 2])],
      srcLoc src 2#16 s = .ok (sl, s1) → dstLoc dst 2#16 s1 = .ok (dl, s2) → exec p.1 s = .next t →
      keepsTwo [dl] p.2) ∧
    (exec (.c src dst) s = .next t → keepsTwo [] [0, 1, 2]) ∧
    (∀ p ∈ [(Instr.ab src dst, [0, 1, 2, 3, 4, 5]), (.sb src dst, [0, 1, 2, 3, 4, 5]), (.socb src dst, [0, 1, 2, 5]),
        (.szcb src dst, [0, 1, 2, 5]), (.movb src dst, [0, 1, 2, 5])],
      srcLoc src 1#16 s = .ok (sl, s1) → dstLoc dst 1#16 s1 = .ok (dl, s2) → exec p.1 s = .next t →
      keepsTwo [dl] p.2) ∧
    (exec (.cb src dst) s = .next t → keepsTwo [] [0, 1, 2, 5]) ∧
    (∀ p ∈ [(Instr.clr src, []), (.seto src, []), (.swpb src, []), (.inv src, [0, 1, 2]), (.neg src, [0, 1, 2, 3, 4]),
        (.abs src, [0, 1, 2, 3, 4]), (.inc src, [0, 1, 2, 3, 4]), (.inct src, [0, 1, 2, 3, 4]),
        (.dec src, [0, 1, 2, 3, 4]), (.dect src, [0, 1, 2, 3, 4])],
      srcLoc src 2#16 s = .ok (sl, s1) → exec p.1 s = .next t → keeps [sl] p.2) ∧
    (∀ p ∈ [(Instr.coc src d, [], [2]), (.czc src d, [], [2]), (.xor src d, [s.regLoc d], [0, 1, 2]),
        (.mpy src d, [s.regLoc d, next], []), (.div src d, [s.regLoc d, next], [4]),
        (.mpys src, [s.regLoc 0#4, s.regLoc 1#4], [0, 1, 2]), (.tmb src k, [], [2]), (.b src, [], []),
        (.bl src, [s.regLoc 11#4], []), (.bind src, [], [])],
      src.notInc = true ∨ p.1 ≠ .tmb src k → exec p.1 s = .next t → keeps p.2.1 p.2.2) ∧
    (exec (.divs src) s = .next t →
      SameBytesExcept s s t ([s.regLoc 0#4, s.regLoc 1#4] ++ s.stepped src) ∧ t.wp = s.wp ∧
      SameControl (s.withDraws t.draws) t ∧ ∀ n, n < 16 → n ∉ [0, 1, 2, 4] → stBit t.st n = stBit s.st n) ∧
    (∀ i ∈ [Instr.tcmb src k, .tsmb src k], src.notInc = true → srcLoc src 2#16 s = .ok (sl, s1) →
      exec i s = .next t → keeps [sl] [2]) ∧
    (∀ i ∈ [Instr.am src dst, .sm src dst], srcLoc src 4#16 s = .ok (sl, s1) → dstLoc dst 4#16 s1 = .ok (dl, s2) →
      exec i s = .next t → keepsTwo [dl, dl.offset 2#16] [0, 1, 2, 3, 4]) ∧
    (∀ p ∈ [(Instr.slam src k, [0, 1, 2, 3, 4]), (.sram src k, [0, 1, 2, 3])], srcLoc src 4#16 s = .ok (sl, s1) →
      exec p.1 s = .next t → keeps [sl, sl.offset 2#16] p.2)
end

