-- ==== Sys2Proof/Laws/Memory.lean ====
section
/-! SUPPORT. The laws of a memory: a read after a write, and the canonical form kept by every memory operation. -/

namespace Sys2Proof.Machine

@[simp] theorem Mem.read_nil (k : Nat) : Mem.read [] k = Mem.unlisted := rfl

theorem Mem.read_erase_same (m : Mem) (k : Nat) : (m.erase k).read k = Mem.unlisted := by
  induction m with
  | nil => rfl
  | cons c rest ih =>
    obtain ⟨a, b⟩ := c
    by_cases h : k = a <;> simp [Mem.erase, Mem.read, h] <;> simpa [h] using ih

theorem Mem.read_erase_ne (m : Mem) {k j : Nat} (h : j ≠ k) : (m.erase k).read j = m.read j := by
  induction m with
  | nil => rfl
  | cons c rest ih =>
    obtain ⟨a, b⟩ := c
    by_cases hk : k = a
    · subst hk; simp [Mem.erase, Mem.read, h, ih]
    · simp [Mem.erase, Mem.read, hk, ih]

/-- A read after a write to the same address gives the value written. -/
@[simp] theorem Mem.read_write_same (m : Mem) (k : Nat) (v : Byte) : (m.write k v).read k = v := by
  induction m with
  | nil => by_cases h : v = Mem.unlisted <;> simp [Mem.write, Mem.read, h]
  | cons c rest ih =>
    obtain ⟨a, b⟩ := c
    by_cases h1 : k < a
    · have hne : k ≠ a := by omega
      by_cases h2 : v = Mem.unlisted <;> simp [Mem.write, Mem.read, h1, h2, hne, Mem.read_erase_same]
    · by_cases h2 : k = a
      · subst h2
        by_cases h3 : v = Mem.unlisted <;> simp [Mem.write, Mem.read, h3, Mem.read_erase_same]
      · simp [Mem.write, Mem.read, h1, h2, ih]

/-- A write leaves every other address alone. -/
theorem Mem.read_write_ne (m : Mem) {k j : Nat} (v : Byte) (h : j ≠ k) : (m.write k v).read j = m.read j := by
  induction m with
  | nil => by_cases h2 : v = Mem.unlisted <;> simp [Mem.write, Mem.read, h2, h]
  | cons c rest ih =>
    obtain ⟨a, b⟩ := c
    by_cases h1 : k < a
    · by_cases h2 : v = Mem.unlisted <;> simp [Mem.write, Mem.read, h1, h2, h, Mem.read_erase_ne]
    · by_cases h2 : k = a
      · subst h2
        by_cases h3 : v = Mem.unlisted <;> simp [Mem.write, Mem.read, h3, h, Mem.read_erase_ne]
      · simp [Mem.write, Mem.read, h1, h2, ih]

theorem Mem.mem_erase {m : Mem} {k : Nat} {c : Host.Cell} (h : c ∈ m.erase k) : c ∈ m := by
  induction m with
  | nil => simp [Mem.erase] at h
  | cons d rest ih =>
    obtain ⟨a, b⟩ := d
    by_cases hk : k = a
    · simp [Mem.erase, hk] at h; exact List.mem_cons_of_mem _ (ih (by simpa [hk] using h))
    · simp [Mem.erase, hk] at h
      rcases h with rfl | h
      · simp
      · exact List.mem_cons_of_mem _ (ih h)

theorem Mem.mem_write {m : Mem} {k : Nat} {v : Byte} {c : Host.Cell} (h : c ∈ m.write k v) :
    c = (k, v) ∨ c ∈ m := by
  induction m with
  | nil => by_cases h2 : v = Mem.unlisted <;> simp [Mem.write, h2] at h; exact .inl h
  | cons d rest ih =>
    obtain ⟨a, b⟩ := d
    simp only [Mem.write] at h
    split at h
    · split at h
      · rcases List.mem_cons.1 h with rfl | h
        · simp
        · exact .inr (List.mem_cons_of_mem _ (Mem.mem_erase h))
      · rcases List.mem_cons.1 h with rfl | h
        · simp
        · exact .inr h
    · split at h
      · split at h
        · exact .inr (List.mem_cons_of_mem _ (Mem.mem_erase h))
        · rcases List.mem_cons.1 h with rfl | h
          · simp
          · exact .inr (List.mem_cons_of_mem _ h)
      · rcases List.mem_cons.1 h with rfl | h
        · simp
        · rcases ih h with h | h
          · exact .inl h
          · exact .inr (List.mem_cons_of_mem _ h)

theorem Mem.wf_cons (a : Nat) (b : Byte) (rest : Mem) :
    Mem.wf ((a, b) :: rest) = true ↔ b ≠ Mem.unlisted ∧ (∀ c ∈ rest, a < c.1) ∧ Mem.wf rest = true := by
  simp [Mem.wf, and_assoc]

theorem Mem.wf_erase {m : Mem} (k : Nat) (h : m.wf = true) : (m.erase k).wf = true := by
  induction m with
  | nil => rfl
  | cons c rest ih =>
    obtain ⟨a, b⟩ := c
    obtain ⟨hb, ha, hr⟩ := (Mem.wf_cons a b rest).1 h
    by_cases hk : k = a
    · subst hk; simpa [Mem.erase] using ih hr
    · simp only [Mem.erase, hk, if_false]
      exact (Mem.wf_cons _ _ _).2 ⟨hb, fun c hc => ha c (Mem.mem_erase hc), ih hr⟩

/-- Writing a byte keeps the canonical form. -/
theorem Mem.wf_write {m : Mem} (k : Nat) (v : Byte) (h : m.wf = true) : (m.write k v).wf = true := by
  induction m with
  | nil => by_cases h2 : v = Mem.unlisted <;> simp [Mem.write, Mem.wf, h2]
  | cons c rest ih =>
    obtain ⟨a, b⟩ := c
    obtain ⟨hb, ha, hr⟩ := (Mem.wf_cons a b rest).1 h
    simp only [Mem.write]
    split
    · split
      · exact (Mem.wf_cons _ _ _).2 ⟨hb, fun c hc => ha c (Mem.mem_erase hc), Mem.wf_erase k hr⟩
      · next hlt hv =>
        refine (Mem.wf_cons _ _ _).2 ⟨hv, fun c hc => ?_, h⟩
        rcases List.mem_cons.1 hc with rfl | hc
        · exact hlt
        · exact lt_trans hlt (ha c hc)
    · split
      · next hge heq =>
        subst heq
        split
        · exact Mem.wf_erase k hr
        · next hv => exact (Mem.wf_cons _ _ _).2 ⟨hv, ha, hr⟩
      · next hge hne =>
        refine (Mem.wf_cons _ _ _).2 ⟨hb, fun c hc => ?_, ih hr⟩
        rcases Mem.mem_write hc with rfl | hc
        · show a < k; omega
        · exact ha c hc

@[simp] theorem wordOfBytes_hi8_lo8 (w : Word) : wordOfBytes (hi8 w) (lo8 w) = w := by
  apply BitVec.eq_of_getLsbD_eq
  intro i hi
  simp only [wordOfBytes, hi8, lo8, BitVec.getLsbD_or, BitVec.getLsbD_shiftLeft, BitVec.getLsbD_setWidth,
    BitVec.getLsbD_extractLsb']
  interval_cases i <;> simp

@[simp] theorem hi8_wordOfBytes (h l : Byte) : hi8 (wordOfBytes h l) = h := by
  apply BitVec.eq_of_getLsbD_eq
  intro i hi
  simp only [wordOfBytes, hi8, BitVec.getLsbD_or, BitVec.getLsbD_shiftLeft, BitVec.getLsbD_setWidth,
    BitVec.getLsbD_extractLsb']
  interval_cases i <;> simp

@[simp] theorem lo8_wordOfBytes (h l : Byte) : lo8 (wordOfBytes h l) = l := by
  apply BitVec.eq_of_getLsbD_eq
  intro i hi
  simp only [wordOfBytes, lo8, BitVec.getLsbD_or, BitVec.getLsbD_shiftLeft, BitVec.getLsbD_setWidth,
    BitVec.getLsbD_extractLsb']
  interval_cases i <;> simp

/-- A word read after a word write to the same address gives the word written. -/
@[simp] theorem Mem.readWord_writeWord_same (m : Mem) (a : Nat) (w : Word) :
    (m.writeWord a w).readWord a = w := by
  simp [Mem.readWord, Mem.writeWord, Mem.read_write_ne _ _ (show a ≠ a + 1 by omega)]

/-- A byte outside a written word reads as before. -/
theorem Mem.read_writeWord_ne (m : Mem) {a j : Nat} (w : Word) (h1 : j ≠ a) (h2 : j ≠ a + 1) :
    (m.writeWord a w).read j = m.read j := by
  simp [Mem.writeWord, Mem.read_write_ne _ _ h2, Mem.read_write_ne _ _ h1]

/-- A word that shares no byte with a written word reads as before. -/
theorem Mem.readWord_writeWord_ne (m : Mem) {a j : Nat} (w : Word) (h : j + 1 < a ∨ a + 1 < j) :
    (m.writeWord a w).readWord j = m.readWord j := by
  simp only [Mem.readWord]
  rw [Mem.read_writeWord_ne m w (by omega) (by omega), Mem.read_writeWord_ne m w (by omega) (by omega)]

/-- Writing a word keeps the canonical form. -/
theorem Mem.wf_writeWord {m : Mem} (a : Nat) (w : Word) (h : m.wf = true) : (m.writeWord a w).wf = true :=
  Mem.wf_write _ _ (Mem.wf_write _ _ h)

/-- The memory after reset has the canonical form. -/
theorem reset_mem_wf : Mem.wf State.reset.mem = true ∧ Mem.wf State.reset.ms = true := ⟨rfl, rfl⟩

end Sys2Proof.Machine
end

