-- ==== Sys2Proof/Laws/State.lean ====
section
/-! SUPPORT. For every update of the state, what it makes of every field: all true by definition, all simp lemmas, so
that no later proof unfolds a record update. -/

namespace Sys2Proof.Machine.State

@[simp] theorem withPc_pc (s : State) (v : Word) : (s.withPc v).pc = v := rfl
@[simp] theorem withPc_wp (s : State) (v : Word) : (s.withPc v).wp = s.wp := rfl
@[simp] theorem withPc_st (s : State) (v : Word) : (s.withPc v).st = s.st := rfl
@[simp] theorem withPc_privop (s : State) (v : Word) : (s.withPc v).privop = s.privop := rfl
@[simp] theorem withPc_illop (s : State) (v : Word) : (s.withPc v).illop = s.illop := rfl
@[simp] theorem withPc_af (s : State) (v : Word) : (s.withPc v).af = s.af := rfl
@[simp] theorem withPc_mem (s : State) (v : Word) : (s.withPc v).mem = s.mem := rfl
@[simp] theorem withPc_ms (s : State) (v : Word) : (s.withPc v).ms = s.ms := rfl
@[simp] theorem withPc_nmiPending (s : State) (v : Word) : (s.withPc v).nmiPending = s.nmiPending := rfl
@[simp] theorem withPc_nmiLast (s : State) (v : Word) : (s.withPc v).nmiLast = s.nmiLast := rfl
@[simp] theorem withPc_inhibit (s : State) (v : Word) : (s.withPc v).inhibit = s.inhibit := rfl
@[simp] theorem withPc_msMode (s : State) (v : Word) : (s.withPc v).msMode = s.msMode := rfl
@[simp] theorem withPc_inMs (s : State) (v : Word) : (s.withPc v).inMs = s.inMs := rfl
@[simp] theorem withPc_ldf (s : State) (v : Word) : (s.withPc v).ldf = s.ldf := rfl
@[simp] theorem withPc_idle (s : State) (v : Word) : (s.withPc v).idle = s.idle := rfl
@[simp] theorem withPc_prefetch (s : State) (v : Word) : (s.withPc v).prefetch = s.prefetch := rfl
@[simp] theorem withPc_wr7Ws (s : State) (v : Word) : (s.withPc v).wr7Ws = s.wr7Ws := rfl
@[simp] theorem withPc_wr8Ws (s : State) (v : Word) : (s.withPc v).wr8Ws = s.wr8Ws := rfl
@[simp] theorem withPc_ioInhibit (s : State) (v : Word) : (s.withPc v).ioInhibit = s.ioInhibit := rfl
@[simp] theorem withPc_apHold (s : State) (v : Word) : (s.withPc v).apHold = s.apHold := rfl
@[simp] theorem withPc_xTarget (s : State) (v : Word) : (s.withPc v).xTarget = s.xTarget := rfl
@[simp] theorem withPc_resetDue (s : State) (v : Word) : (s.withPc v).resetDue = s.resetDue := rfl
@[simp] theorem withPc_pins (s : State) (v : Word) : (s.withPc v).pins = s.pins := rfl
@[simp] theorem withPc_bus (s : State) (v : Word) : (s.withPc v).bus = s.bus := rfl
@[simp] theorem withPc_ioIn (s : State) (v : Word) : (s.withPc v).ioIn = s.ioIn := rfl
@[simp] theorem withPc_ioOut (s : State) (v : Word) : (s.withPc v).ioOut = s.ioOut := rfl
@[simp] theorem withPc_devIn (s : State) (v : Word) : (s.withPc v).devIn = s.devIn := rfl
@[simp] theorem withPc_devOut (s : State) (v : Word) : (s.withPc v).devOut = s.devOut := rfl
@[simp] theorem withPc_draws (s : State) (v : Word) : (s.withPc v).draws = s.draws := rfl
@[simp] theorem withPc_params (s : State) (v : Word) : (s.withPc v).params = s.params := rfl

@[simp] theorem withWp_pc (s : State) (v : Word) : (s.withWp v).pc = s.pc := rfl
@[simp] theorem withWp_wp (s : State) (v : Word) : (s.withWp v).wp = v := rfl
@[simp] theorem withWp_st (s : State) (v : Word) : (s.withWp v).st = s.st := rfl
@[simp] theorem withWp_privop (s : State) (v : Word) : (s.withWp v).privop = s.privop := rfl
@[simp] theorem withWp_illop (s : State) (v : Word) : (s.withWp v).illop = s.illop := rfl
@[simp] theorem withWp_af (s : State) (v : Word) : (s.withWp v).af = s.af := rfl
@[simp] theorem withWp_mem (s : State) (v : Word) : (s.withWp v).mem = s.mem := rfl
@[simp] theorem withWp_ms (s : State) (v : Word) : (s.withWp v).ms = s.ms := rfl
@[simp] theorem withWp_nmiPending (s : State) (v : Word) : (s.withWp v).nmiPending = s.nmiPending := rfl
@[simp] theorem withWp_nmiLast (s : State) (v : Word) : (s.withWp v).nmiLast = s.nmiLast := rfl
@[simp] theorem withWp_inhibit (s : State) (v : Word) : (s.withWp v).inhibit = s.inhibit := rfl
@[simp] theorem withWp_msMode (s : State) (v : Word) : (s.withWp v).msMode = s.msMode := rfl
@[simp] theorem withWp_inMs (s : State) (v : Word) : (s.withWp v).inMs = s.inMs := rfl
@[simp] theorem withWp_ldf (s : State) (v : Word) : (s.withWp v).ldf = s.ldf := rfl
@[simp] theorem withWp_idle (s : State) (v : Word) : (s.withWp v).idle = s.idle := rfl
@[simp] theorem withWp_prefetch (s : State) (v : Word) : (s.withWp v).prefetch = s.prefetch := rfl
@[simp] theorem withWp_wr7Ws (s : State) (v : Word) : (s.withWp v).wr7Ws = s.wr7Ws := rfl
@[simp] theorem withWp_wr8Ws (s : State) (v : Word) : (s.withWp v).wr8Ws = s.wr8Ws := rfl
@[simp] theorem withWp_ioInhibit (s : State) (v : Word) : (s.withWp v).ioInhibit = s.ioInhibit := rfl
@[simp] theorem withWp_apHold (s : State) (v : Word) : (s.withWp v).apHold = s.apHold := rfl
@[simp] theorem withWp_xTarget (s : State) (v : Word) : (s.withWp v).xTarget = s.xTarget := rfl
@[simp] theorem withWp_resetDue (s : State) (v : Word) : (s.withWp v).resetDue = s.resetDue := rfl
@[simp] theorem withWp_pins (s : State) (v : Word) : (s.withWp v).pins = s.pins := rfl
@[simp] theorem withWp_bus (s : State) (v : Word) : (s.withWp v).bus = s.bus := rfl
@[simp] theorem withWp_ioIn (s : State) (v : Word) : (s.withWp v).ioIn = s.ioIn := rfl
@[simp] theorem withWp_ioOut (s : State) (v : Word) : (s.withWp v).ioOut = s.ioOut := rfl
@[simp] theorem withWp_devIn (s : State) (v : Word) : (s.withWp v).devIn = s.devIn := rfl
@[simp] theorem withWp_devOut (s : State) (v : Word) : (s.withWp v).devOut = s.devOut := rfl
@[simp] theorem withWp_draws (s : State) (v : Word) : (s.withWp v).draws = s.draws := rfl
@[simp] theorem withWp_params (s : State) (v : Word) : (s.withWp v).params = s.params := rfl

@[simp] theorem withSt_pc (s : State) (v : Word) : (s.withSt v).pc = s.pc := rfl
@[simp] theorem withSt_wp (s : State) (v : Word) : (s.withSt v).wp = s.wp := rfl
@[simp] theorem withSt_st (s : State) (v : Word) : (s.withSt v).st = v := rfl
@[simp] theorem withSt_privop (s : State) (v : Word) : (s.withSt v).privop = s.privop := rfl
@[simp] theorem withSt_illop (s : State) (v : Word) : (s.withSt v).illop = s.illop := rfl
@[simp] theorem withSt_af (s : State) (v : Word) : (s.withSt v).af = s.af := rfl
@[simp] theorem withSt_mem (s : State) (v : Word) : (s.withSt v).mem = s.mem := rfl
@[simp] theorem withSt_ms (s : State) (v : Word) : (s.withSt v).ms = s.ms := rfl
@[simp] theorem withSt_nmiPending (s : State) (v : Word) : (s.withSt v).nmiPending = s.nmiPending := rfl
@[simp] theorem withSt_nmiLast (s : State) (v : Word) : (s.withSt v).nmiLast = s.nmiLast := rfl
@[simp] theorem withSt_inhibit (s : State) (v : Word) : (s.withSt v).inhibit = s.inhibit := rfl
@[simp] theorem withSt_msMode (s : State) (v : Word) : (s.withSt v).msMode = s.msMode := rfl
@[simp] theorem withSt_inMs (s : State) (v : Word) : (s.withSt v).inMs = s.inMs := rfl
@[simp] theorem withSt_ldf (s : State) (v : Word) : (s.withSt v).ldf = s.ldf := rfl
@[simp] theorem withSt_idle (s : State) (v : Word) : (s.withSt v).idle = s.idle := rfl
@[simp] theorem withSt_prefetch (s : State) (v : Word) : (s.withSt v).prefetch = s.prefetch := rfl
@[simp] theorem withSt_wr7Ws (s : State) (v : Word) : (s.withSt v).wr7Ws = s.wr7Ws := rfl
@[simp] theorem withSt_wr8Ws (s : State) (v : Word) : (s.withSt v).wr8Ws = s.wr8Ws := rfl
@[simp] theorem withSt_ioInhibit (s : State) (v : Word) : (s.withSt v).ioInhibit = s.ioInhibit := rfl
@[simp] theorem withSt_apHold (s : State) (v : Word) : (s.withSt v).apHold = s.apHold := rfl
@[simp] theorem withSt_xTarget (s : State) (v : Word) : (s.withSt v).xTarget = s.xTarget := rfl
@[simp] theorem withSt_resetDue (s : State) (v : Word) : (s.withSt v).resetDue = s.resetDue := rfl
@[simp] theorem withSt_pins (s : State) (v : Word) : (s.withSt v).pins = s.pins := rfl
@[simp] theorem withSt_bus (s : State) (v : Word) : (s.withSt v).bus = s.bus := rfl
@[simp] theorem withSt_ioIn (s : State) (v : Word) : (s.withSt v).ioIn = s.ioIn := rfl
@[simp] theorem withSt_ioOut (s : State) (v : Word) : (s.withSt v).ioOut = s.ioOut := rfl
@[simp] theorem withSt_devIn (s : State) (v : Word) : (s.withSt v).devIn = s.devIn := rfl
@[simp] theorem withSt_devOut (s : State) (v : Word) : (s.withSt v).devOut = s.devOut := rfl
@[simp] theorem withSt_draws (s : State) (v : Word) : (s.withSt v).draws = s.draws := rfl
@[simp] theorem withSt_params (s : State) (v : Word) : (s.withSt v).params = s.params := rfl

@[simp] theorem withPrivop_pc (s : State) (v : Bool) : (s.withPrivop v).pc = s.pc := rfl
@[simp] theorem withPrivop_wp (s : State) (v : Bool) : (s.withPrivop v).wp = s.wp := rfl
@[simp] theorem withPrivop_st (s : State) (v : Bool) : (s.withPrivop v).st = s.st := rfl
@[simp] theorem withPrivop_privop (s : State) (v : Bool) : (s.withPrivop v).privop = v := rfl
@[simp] theorem withPrivop_illop (s : State) (v : Bool) : (s.withPrivop v).illop = s.illop := rfl
@[simp] theorem withPrivop_af (s : State) (v : Bool) : (s.withPrivop v).af = s.af := rfl
@[simp] theorem withPrivop_mem (s : State) (v : Bool) : (s.withPrivop v).mem = s.mem := rfl
@[simp] theorem withPrivop_ms (s : State) (v : Bool) : (s.withPrivop v).ms = s.ms := rfl
@[simp] theorem withPrivop_nmiPending (s : State) (v : Bool) : (s.withPrivop v).nmiPending = s.nmiPending := rfl
@[simp] theorem withPrivop_nmiLast (s : State) (v : Bool) : (s.withPrivop v).nmiLast = s.nmiLast := rfl
@[simp] theorem withPrivop_inhibit (s : State) (v : Bool) : (s.withPrivop v).inhibit = s.inhibit := rfl
@[simp] theorem withPrivop_msMode (s : State) (v : Bool) : (s.withPrivop v).msMode = s.msMode := rfl
@[simp] theorem withPrivop_inMs (s : State) (v : Bool) : (s.withPrivop v).inMs = s.inMs := rfl
@[simp] theorem withPrivop_ldf (s : State) (v : Bool) : (s.withPrivop v).ldf = s.ldf := rfl
@[simp] theorem withPrivop_idle (s : State) (v : Bool) : (s.withPrivop v).idle = s.idle := rfl
@[simp] theorem withPrivop_prefetch (s : State) (v : Bool) : (s.withPrivop v).prefetch = s.prefetch := rfl
@[simp] theorem withPrivop_wr7Ws (s : State) (v : Bool) : (s.withPrivop v).wr7Ws = s.wr7Ws := rfl
@[simp] theorem withPrivop_wr8Ws (s : State) (v : Bool) : (s.withPrivop v).wr8Ws = s.wr8Ws := rfl
@[simp] theorem withPrivop_ioInhibit (s : State) (v : Bool) : (s.withPrivop v).ioInhibit = s.ioInhibit := rfl
@[simp] theorem withPrivop_apHold (s : State) (v : Bool) : (s.withPrivop v).apHold = s.apHold := rfl
@[simp] theorem withPrivop_xTarget (s : State) (v : Bool) : (s.withPrivop v).xTarget = s.xTarget := rfl
@[simp] theorem withPrivop_resetDue (s : State) (v : Bool) : (s.withPrivop v).resetDue = s.resetDue := rfl
@[simp] theorem withPrivop_pins (s : State) (v : Bool) : (s.withPrivop v).pins = s.pins := rfl
@[simp] theorem withPrivop_bus (s : State) (v : Bool) : (s.withPrivop v).bus = s.bus := rfl
@[simp] theorem withPrivop_ioIn (s : State) (v : Bool) : (s.withPrivop v).ioIn = s.ioIn := rfl
@[simp] theorem withPrivop_ioOut (s : State) (v : Bool) : (s.withPrivop v).ioOut = s.ioOut := rfl
@[simp] theorem withPrivop_devIn (s : State) (v : Bool) : (s.withPrivop v).devIn = s.devIn := rfl
@[simp] theorem withPrivop_devOut (s : State) (v : Bool) : (s.withPrivop v).devOut = s.devOut := rfl
@[simp] theorem withPrivop_draws (s : State) (v : Bool) : (s.withPrivop v).draws = s.draws := rfl
@[simp] theorem withPrivop_params (s : State) (v : Bool) : (s.withPrivop v).params = s.params := rfl

@[simp] theorem withIllop_pc (s : State) (v : Bool) : (s.withIllop v).pc = s.pc := rfl
@[simp] theorem withIllop_wp (s : State) (v : Bool) : (s.withIllop v).wp = s.wp := rfl
@[simp] theorem withIllop_st (s : State) (v : Bool) : (s.withIllop v).st = s.st := rfl
@[simp] theorem withIllop_privop (s : State) (v : Bool) : (s.withIllop v).privop = s.privop := rfl
@[simp] theorem withIllop_illop (s : State) (v : Bool) : (s.withIllop v).illop = v := rfl
@[simp] theorem withIllop_af (s : State) (v : Bool) : (s.withIllop v).af = s.af := rfl
@[simp] theorem withIllop_mem (s : State) (v : Bool) : (s.withIllop v).mem = s.mem := rfl
@[simp] theorem withIllop_ms (s : State) (v : Bool) : (s.withIllop v).ms = s.ms := rfl
@[simp] theorem withIllop_nmiPending (s : State) (v : Bool) : (s.withIllop v).nmiPending = s.nmiPending := rfl
@[simp] theorem withIllop_nmiLast (s : State) (v : Bool) : (s.withIllop v).nmiLast = s.nmiLast := rfl
@[simp] theorem withIllop_inhibit (s : State) (v : Bool) : (s.withIllop v).inhibit = s.inhibit := rfl
@[simp] theorem withIllop_msMode (s : State) (v : Bool) : (s.withIllop v).msMode = s.msMode := rfl
@[simp] theorem withIllop_inMs (s : State) (v : Bool) : (s.withIllop v).inMs = s.inMs := rfl
@[simp] theorem withIllop_ldf (s : State) (v : Bool) : (s.withIllop v).ldf = s.ldf := rfl
@[simp] theorem withIllop_idle (s : State) (v : Bool) : (s.withIllop v).idle = s.idle := rfl
@[simp] theorem withIllop_prefetch (s : State) (v : Bool) : (s.withIllop v).prefetch = s.prefetch := rfl
@[simp] theorem withIllop_wr7Ws (s : State) (v : Bool) : (s.withIllop v).wr7Ws = s.wr7Ws := rfl
@[simp] theorem withIllop_wr8Ws (s : State) (v : Bool) : (s.withIllop v).wr8Ws = s.wr8Ws := rfl
@[simp] theorem withIllop_ioInhibit (s : State) (v : Bool) : (s.withIllop v).ioInhibit = s.ioInhibit := rfl
@[simp] theorem withIllop_apHold (s : State) (v : Bool) : (s.withIllop v).apHold = s.apHold := rfl
@[simp] theorem withIllop_xTarget (s : State) (v : Bool) : (s.withIllop v).xTarget = s.xTarget := rfl
@[simp] theorem withIllop_resetDue (s : State) (v : Bool) : (s.withIllop v).resetDue = s.resetDue := rfl
@[simp] theorem withIllop_pins (s : State) (v : Bool) : (s.withIllop v).pins = s.pins := rfl
@[simp] theorem withIllop_bus (s : State) (v : Bool) : (s.withIllop v).bus = s.bus := rfl
@[simp] theorem withIllop_ioIn (s : State) (v : Bool) : (s.withIllop v).ioIn = s.ioIn := rfl
@[simp] theorem withIllop_ioOut (s : State) (v : Bool) : (s.withIllop v).ioOut = s.ioOut := rfl
@[simp] theorem withIllop_devIn (s : State) (v : Bool) : (s.withIllop v).devIn = s.devIn := rfl
@[simp] theorem withIllop_devOut (s : State) (v : Bool) : (s.withIllop v).devOut = s.devOut := rfl
@[simp] theorem withIllop_draws (s : State) (v : Bool) : (s.withIllop v).draws = s.draws := rfl
@[simp] theorem withIllop_params (s : State) (v : Bool) : (s.withIllop v).params = s.params := rfl

@[simp] theorem withAf_pc (s : State) (v : Bool) : (s.withAf v).pc = s.pc := rfl
@[simp] theorem withAf_wp (s : State) (v : Bool) : (s.withAf v).wp = s.wp := rfl
@[simp] theorem withAf_st (s : State) (v : Bool) : (s.withAf v).st = s.st := rfl
@[simp] theorem withAf_privop (s : State) (v : Bool) : (s.withAf v).privop = s.privop := rfl
@[simp] theorem withAf_illop (s : State) (v : Bool) : (s.withAf v).illop = s.illop := rfl
@[simp] theorem withAf_af (s : State) (v : Bool) : (s.withAf v).af = v := rfl
@[simp] theorem withAf_mem (s : State) (v : Bool) : (s.withAf v).mem = s.mem := rfl
@[simp] theorem withAf_ms (s : State) (v : Bool) : (s.withAf v).ms = s.ms := rfl
@[simp] theorem withAf_nmiPending (s : State) (v : Bool) : (s.withAf v).nmiPending = s.nmiPending := rfl
@[simp] theorem withAf_nmiLast (s : State) (v : Bool) : (s.withAf v).nmiLast = s.nmiLast := rfl
@[simp] theorem withAf_inhibit (s : State) (v : Bool) : (s.withAf v).inhibit = s.inhibit := rfl
@[simp] theorem withAf_msMode (s : State) (v : Bool) : (s.withAf v).msMode = s.msMode := rfl
@[simp] theorem withAf_inMs (s : State) (v : Bool) : (s.withAf v).inMs = s.inMs := rfl
@[simp] theorem withAf_ldf (s : State) (v : Bool) : (s.withAf v).ldf = s.ldf := rfl
@[simp] theorem withAf_idle (s : State) (v : Bool) : (s.withAf v).idle = s.idle := rfl
@[simp] theorem withAf_prefetch (s : State) (v : Bool) : (s.withAf v).prefetch = s.prefetch := rfl
@[simp] theorem withAf_wr7Ws (s : State) (v : Bool) : (s.withAf v).wr7Ws = s.wr7Ws := rfl
@[simp] theorem withAf_wr8Ws (s : State) (v : Bool) : (s.withAf v).wr8Ws = s.wr8Ws := rfl
@[simp] theorem withAf_ioInhibit (s : State) (v : Bool) : (s.withAf v).ioInhibit = s.ioInhibit := rfl
@[simp] theorem withAf_apHold (s : State) (v : Bool) : (s.withAf v).apHold = s.apHold := rfl
@[simp] theorem withAf_xTarget (s : State) (v : Bool) : (s.withAf v).xTarget = s.xTarget := rfl
@[simp] theorem withAf_resetDue (s : State) (v : Bool) : (s.withAf v).resetDue = s.resetDue := rfl
@[simp] theorem withAf_pins (s : State) (v : Bool) : (s.withAf v).pins = s.pins := rfl
@[simp] theorem withAf_bus (s : State) (v : Bool) : (s.withAf v).bus = s.bus := rfl
@[simp] theorem withAf_ioIn (s : State) (v : Bool) : (s.withAf v).ioIn = s.ioIn := rfl
@[simp] theorem withAf_ioOut (s : State) (v : Bool) : (s.withAf v).ioOut = s.ioOut := rfl
@[simp] theorem withAf_devIn (s : State) (v : Bool) : (s.withAf v).devIn = s.devIn := rfl
@[simp] theorem withAf_devOut (s : State) (v : Bool) : (s.withAf v).devOut = s.devOut := rfl
@[simp] theorem withAf_draws (s : State) (v : Bool) : (s.withAf v).draws = s.draws := rfl
@[simp] theorem withAf_params (s : State) (v : Bool) : (s.withAf v).params = s.params := rfl

@[simp] theorem withMem_pc (s : State) (v : Mem) : (s.withMem v).pc = s.pc := rfl
@[simp] theorem withMem_wp (s : State) (v : Mem) : (s.withMem v).wp = s.wp := rfl
@[simp] theorem withMem_st (s : State) (v : Mem) : (s.withMem v).st = s.st := rfl
@[simp] theorem withMem_privop (s : State) (v : Mem) : (s.withMem v).privop = s.privop := rfl
@[simp] theorem withMem_illop (s : State) (v : Mem) : (s.withMem v).illop = s.illop := rfl
@[simp] theorem withMem_af (s : State) (v : Mem) : (s.withMem v).af = s.af := rfl
@[simp] theorem withMem_mem (s : State) (v : Mem) : (s.withMem v).mem = v := rfl
@[simp] theorem withMem_ms (s : State) (v : Mem) : (s.withMem v).ms = s.ms := rfl
@[simp] theorem withMem_nmiPending (s : State) (v : Mem) : (s.withMem v).nmiPending = s.nmiPending := rfl
@[simp] theorem withMem_nmiLast (s : State) (v : Mem) : (s.withMem v).nmiLast = s.nmiLast := rfl
@[simp] theorem withMem_inhibit (s : State) (v : Mem) : (s.withMem v).inhibit = s.inhibit := rfl
@[simp] theorem withMem_msMode (s : State) (v : Mem) : (s.withMem v).msMode = s.msMode := rfl
@[simp] theorem withMem_inMs (s : State) (v : Mem) : (s.withMem v).inMs = s.inMs := rfl
@[simp] theorem withMem_ldf (s : State) (v : Mem) : (s.withMem v).ldf = s.ldf := rfl
@[simp] theorem withMem_idle (s : State) (v : Mem) : (s.withMem v).idle = s.idle := rfl
@[simp] theorem withMem_prefetch (s : State) (v : Mem) : (s.withMem v).prefetch = s.prefetch := rfl
@[simp] theorem withMem_wr7Ws (s : State) (v : Mem) : (s.withMem v).wr7Ws = s.wr7Ws := rfl
@[simp] theorem withMem_wr8Ws (s : State) (v : Mem) : (s.withMem v).wr8Ws = s.wr8Ws := rfl
@[simp] theorem withMem_ioInhibit (s : State) (v : Mem) : (s.withMem v).ioInhibit = s.ioInhibit := rfl
@[simp] theorem withMem_apHold (s : State) (v : Mem) : (s.withMem v).apHold = s.apHold := rfl
@[simp] theorem withMem_xTarget (s : State) (v : Mem) : (s.withMem v).xTarget = s.xTarget := rfl
@[simp] theorem withMem_resetDue (s : State) (v : Mem) : (s.withMem v).resetDue = s.resetDue := rfl
@[simp] theorem withMem_pins (s : State) (v : Mem) : (s.withMem v).pins = s.pins := rfl
@[simp] theorem withMem_bus (s : State) (v : Mem) : (s.withMem v).bus = s.bus := rfl
@[simp] theorem withMem_ioIn (s : State) (v : Mem) : (s.withMem v).ioIn = s.ioIn := rfl
@[simp] theorem withMem_ioOut (s : State) (v : Mem) : (s.withMem v).ioOut = s.ioOut := rfl
@[simp] theorem withMem_devIn (s : State) (v : Mem) : (s.withMem v).devIn = s.devIn := rfl
@[simp] theorem withMem_devOut (s : State) (v : Mem) : (s.withMem v).devOut = s.devOut := rfl
@[simp] theorem withMem_draws (s : State) (v : Mem) : (s.withMem v).draws = s.draws := rfl
@[simp] theorem withMem_params (s : State) (v : Mem) : (s.withMem v).params = s.params := rfl

@[simp] theorem withMs_pc (s : State) (v : Mem) : (s.withMs v).pc = s.pc := rfl
@[simp] theorem withMs_wp (s : State) (v : Mem) : (s.withMs v).wp = s.wp := rfl
@[simp] theorem withMs_st (s : State) (v : Mem) : (s.withMs v).st = s.st := rfl
@[simp] theorem withMs_privop (s : State) (v : Mem) : (s.withMs v).privop = s.privop := rfl
@[simp] theorem withMs_illop (s : State) (v : Mem) : (s.withMs v).illop = s.illop := rfl
@[simp] theorem withMs_af (s : State) (v : Mem) : (s.withMs v).af = s.af := rfl
@[simp] theorem withMs_mem (s : State) (v : Mem) : (s.withMs v).mem = s.mem := rfl
@[simp] theorem withMs_ms (s : State) (v : Mem) : (s.withMs v).ms = v := rfl
@[simp] theorem withMs_nmiPending (s : State) (v : Mem) : (s.withMs v).nmiPending = s.nmiPending := rfl
@[simp] theorem withMs_nmiLast (s : State) (v : Mem) : (s.withMs v).nmiLast = s.nmiLast := rfl
@[simp] theorem withMs_inhibit (s : State) (v : Mem) : (s.withMs v).inhibit = s.inhibit := rfl
@[simp] theorem withMs_msMode (s : State) (v : Mem) : (s.withMs v).msMode = s.msMode := rfl
@[simp] theorem withMs_inMs (s : State) (v : Mem) : (s.withMs v).inMs = s.inMs := rfl
@[simp] theorem withMs_ldf (s : State) (v : Mem) : (s.withMs v).ldf = s.ldf := rfl
@[simp] theorem withMs_idle (s : State) (v : Mem) : (s.withMs v).idle = s.idle := rfl
@[simp] theorem withMs_prefetch (s : State) (v : Mem) : (s.withMs v).prefetch = s.prefetch := rfl
@[simp] theorem withMs_wr7Ws (s : State) (v : Mem) : (s.withMs v).wr7Ws = s.wr7Ws := rfl
@[simp] theorem withMs_wr8Ws (s : State) (v : Mem) : (s.withMs v).wr8Ws = s.wr8Ws := rfl
@[simp] theorem withMs_ioInhibit (s : State) (v : Mem) : (s.withMs v).ioInhibit = s.ioInhibit := rfl
@[simp] theorem withMs_apHold (s : State) (v : Mem) : (s.withMs v).apHold = s.apHold := rfl
@[simp] theorem withMs_xTarget (s : State) (v : Mem) : (s.withMs v).xTarget = s.xTarget := rfl
@[simp] theorem withMs_resetDue (s : State) (v : Mem) : (s.withMs v).resetDue = s.resetDue := rfl
@[simp] theorem withMs_pins (s : State) (v : Mem) : (s.withMs v).pins = s.pins := rfl
@[simp] theorem withMs_bus (s : State) (v : Mem) : (s.withMs v).bus = s.bus := rfl
@[simp] theorem withMs_ioIn (s : State) (v : Mem) : (s.withMs v).ioIn = s.ioIn := rfl
@[simp] theorem withMs_ioOut (s : State) (v : Mem) : (s.withMs v).ioOut = s.ioOut := rfl
@[simp] theorem withMs_devIn (s : State) (v : Mem) : (s.withMs v).devIn = s.devIn := rfl
@[simp] theorem withMs_devOut (s : State) (v : Mem) : (s.withMs v).devOut = s.devOut := rfl
@[simp] theorem withMs_draws (s : State) (v : Mem) : (s.withMs v).draws = s.draws := rfl
@[simp] theorem withMs_params (s : State) (v : Mem) : (s.withMs v).params = s.params := rfl

@[simp] theorem withNmiPending_pc (s : State) (v : Bool) : (s.withNmiPending v).pc = s.pc := rfl
@[simp] theorem withNmiPending_wp (s : State) (v : Bool) : (s.withNmiPending v).wp = s.wp := rfl
@[simp] theorem withNmiPending_st (s : State) (v : Bool) : (s.withNmiPending v).st = s.st := rfl
@[simp] theorem withNmiPending_privop (s : State) (v : Bool) : (s.withNmiPending v).privop = s.privop := rfl
@[simp] theorem withNmiPending_illop (s : State) (v : Bool) : (s.withNmiPending v).illop = s.illop := rfl
@[simp] theorem withNmiPending_af (s : State) (v : Bool) : (s.withNmiPending v).af = s.af := rfl
@[simp] theorem withNmiPending_mem (s : State) (v : Bool) : (s.withNmiPending v).mem = s.mem := rfl
@[simp] theorem withNmiPending_ms (s : State) (v : Bool) : (s.withNmiPending v).ms = s.ms := rfl
@[simp] theorem withNmiPending_nmiPending (s : State) (v : Bool) : (s.withNmiPending v).nmiPending = v := rfl
@[simp] theorem withNmiPending_nmiLast (s : State) (v : Bool) : (s.withNmiPending v).nmiLast = s.nmiLast := rfl
@[simp] theorem withNmiPending_inhibit (s : State) (v : Bool) : (s.withNmiPending v).inhibit = s.inhibit := rfl
@[simp] theorem withNmiPending_msMode (s : State) (v : Bool) : (s.withNmiPending v).msMode = s.msMode := rfl
@[simp] theorem withNmiPending_inMs (s : State) (v : Bool) : (s.withNmiPending v).inMs = s.inMs := rfl
@[simp] theorem withNmiPending_ldf (s : State) (v : Bool) : (s.withNmiPending v).ldf = s.ldf := rfl
@[simp] theorem withNmiPending_idle (s : State) (v : Bool) : (s.withNmiPending v).idle = s.idle := rfl
@[simp] theorem withNmiPending_prefetch (s : State) (v : Bool) : (s.withNmiPending v).prefetch = s.prefetch := rfl
@[simp] theorem withNmiPending_wr7Ws (s : State) (v : Bool) : (s.withNmiPending v).wr7Ws = s.wr7Ws := rfl
@[simp] theorem withNmiPending_wr8Ws (s : State) (v : Bool) : (s.withNmiPending v).wr8Ws = s.wr8Ws := rfl
@[simp] theorem withNmiPending_ioInhibit (s : State) (v : Bool) : (s.withNmiPending v).ioInhibit = s.ioInhibit := rfl
@[simp] theorem withNmiPending_apHold (s : State) (v : Bool) : (s.withNmiPending v).apHold = s.apHold := rfl
@[simp] theorem withNmiPending_xTarget (s : State) (v : Bool) : (s.withNmiPending v).xTarget = s.xTarget := rfl
@[simp] theorem withNmiPending_resetDue (s : State) (v : Bool) : (s.withNmiPending v).resetDue = s.resetDue := rfl
@[simp] theorem withNmiPending_pins (s : State) (v : Bool) : (s.withNmiPending v).pins = s.pins := rfl
@[simp] theorem withNmiPending_bus (s : State) (v : Bool) : (s.withNmiPending v).bus = s.bus := rfl
@[simp] theorem withNmiPending_ioIn (s : State) (v : Bool) : (s.withNmiPending v).ioIn = s.ioIn := rfl
@[simp] theorem withNmiPending_ioOut (s : State) (v : Bool) : (s.withNmiPending v).ioOut = s.ioOut := rfl
@[simp] theorem withNmiPending_devIn (s : State) (v : Bool) : (s.withNmiPending v).devIn = s.devIn := rfl
@[simp] theorem withNmiPending_devOut (s : State) (v : Bool) : (s.withNmiPending v).devOut = s.devOut := rfl
@[simp] theorem withNmiPending_draws (s : State) (v : Bool) : (s.withNmiPending v).draws = s.draws := rfl
@[simp] theorem withNmiPending_params (s : State) (v : Bool) : (s.withNmiPending v).params = s.params := rfl

@[simp] theorem withNmiLast_pc (s : State) (v : Bool) : (s.withNmiLast v).pc = s.pc := rfl
@[simp] theorem withNmiLast_wp (s : State) (v : Bool) : (s.withNmiLast v).wp = s.wp := rfl
@[simp] theorem withNmiLast_st (s : State) (v : Bool) : (s.withNmiLast v).st = s.st := rfl
@[simp] theorem withNmiLast_privop (s : State) (v : Bool) : (s.withNmiLast v).privop = s.privop := rfl
@[simp] theorem withNmiLast_illop (s : State) (v : Bool) : (s.withNmiLast v).illop = s.illop := rfl
@[simp] theorem withNmiLast_af (s : State) (v : Bool) : (s.withNmiLast v).af = s.af := rfl
@[simp] theorem withNmiLast_mem (s : State) (v : Bool) : (s.withNmiLast v).mem = s.mem := rfl
@[simp] theorem withNmiLast_ms (s : State) (v : Bool) : (s.withNmiLast v).ms = s.ms := rfl
@[simp] theorem withNmiLast_nmiPending (s : State) (v : Bool) : (s.withNmiLast v).nmiPending = s.nmiPending := rfl
@[simp] theorem withNmiLast_nmiLast (s : State) (v : Bool) : (s.withNmiLast v).nmiLast = v := rfl
@[simp] theorem withNmiLast_inhibit (s : State) (v : Bool) : (s.withNmiLast v).inhibit = s.inhibit := rfl
@[simp] theorem withNmiLast_msMode (s : State) (v : Bool) : (s.withNmiLast v).msMode = s.msMode := rfl
@[simp] theorem withNmiLast_inMs (s : State) (v : Bool) : (s.withNmiLast v).inMs = s.inMs := rfl
@[simp] theorem withNmiLast_ldf (s : State) (v : Bool) : (s.withNmiLast v).ldf = s.ldf := rfl
@[simp] theorem withNmiLast_idle (s : State) (v : Bool) : (s.withNmiLast v).idle = s.idle := rfl
@[simp] theorem withNmiLast_prefetch (s : State) (v : Bool) : (s.withNmiLast v).prefetch = s.prefetch := rfl
@[simp] theorem withNmiLast_wr7Ws (s : State) (v : Bool) : (s.withNmiLast v).wr7Ws = s.wr7Ws := rfl
@[simp] theorem withNmiLast_wr8Ws (s : State) (v : Bool) : (s.withNmiLast v).wr8Ws = s.wr8Ws := rfl
@[simp] theorem withNmiLast_ioInhibit (s : State) (v : Bool) : (s.withNmiLast v).ioInhibit = s.ioInhibit := rfl
@[simp] theorem withNmiLast_apHold (s : State) (v : Bool) : (s.withNmiLast v).apHold = s.apHold := rfl
@[simp] theorem withNmiLast_xTarget (s : State) (v : Bool) : (s.withNmiLast v).xTarget = s.xTarget := rfl
@[simp] theorem withNmiLast_resetDue (s : State) (v : Bool) : (s.withNmiLast v).resetDue = s.resetDue := rfl
@[simp] theorem withNmiLast_pins (s : State) (v : Bool) : (s.withNmiLast v).pins = s.pins := rfl
@[simp] theorem withNmiLast_bus (s : State) (v : Bool) : (s.withNmiLast v).bus = s.bus := rfl
@[simp] theorem withNmiLast_ioIn (s : State) (v : Bool) : (s.withNmiLast v).ioIn = s.ioIn := rfl
@[simp] theorem withNmiLast_ioOut (s : State) (v : Bool) : (s.withNmiLast v).ioOut = s.ioOut := rfl
@[simp] theorem withNmiLast_devIn (s : State) (v : Bool) : (s.withNmiLast v).devIn = s.devIn := rfl
@[simp] theorem withNmiLast_devOut (s : State) (v : Bool) : (s.withNmiLast v).devOut = s.devOut := rfl
@[simp] theorem withNmiLast_draws (s : State) (v : Bool) : (s.withNmiLast v).draws = s.draws := rfl
@[simp] theorem withNmiLast_params (s : State) (v : Bool) : (s.withNmiLast v).params = s.params := rfl

@[simp] theorem withInhibit_pc (s : State) (v : Inhibit) : (s.withInhibit v).pc = s.pc := rfl
@[simp] theorem withInhibit_wp (s : State) (v : Inhibit) : (s.withInhibit v).wp = s.wp := rfl
@[simp] theorem withInhibit_st (s : State) (v : Inhibit) : (s.withInhibit v).st = s.st := rfl
@[simp] theorem withInhibit_privop (s : State) (v : Inhibit) : (s.withInhibit v).privop = s.privop := rfl
@[simp] theorem withInhibit_illop (s : State) (v : Inhibit) : (s.withInhibit v).illop = s.illop := rfl
@[simp] theorem withInhibit_af (s : State) (v : Inhibit) : (s.withInhibit v).af = s.af := rfl
@[simp] theorem withInhibit_mem (s : State) (v : Inhibit) : (s.withInhibit v).mem = s.mem := rfl
@[simp] theorem withInhibit_ms (s : State) (v : Inhibit) : (s.withInhibit v).ms = s.ms := rfl
@[simp] theorem withInhibit_nmiPending (s : State) (v : Inhibit) : (s.withInhibit v).nmiPending = s.nmiPending := rfl
@[simp] theorem withInhibit_nmiLast (s : State) (v : Inhibit) : (s.withInhibit v).nmiLast = s.nmiLast := rfl
@[simp] theorem withInhibit_inhibit (s : State) (v : Inhibit) : (s.withInhibit v).inhibit = v := rfl
@[simp] theorem withInhibit_msMode (s : State) (v : Inhibit) : (s.withInhibit v).msMode = s.msMode := rfl
@[simp] theorem withInhibit_inMs (s : State) (v : Inhibit) : (s.withInhibit v).inMs = s.inMs := rfl
@[simp] theorem withInhibit_ldf (s : State) (v : Inhibit) : (s.withInhibit v).ldf = s.ldf := rfl
@[simp] theorem withInhibit_idle (s : State) (v : Inhibit) : (s.withInhibit v).idle = s.idle := rfl
@[simp] theorem withInhibit_prefetch (s : State) (v : Inhibit) : (s.withInhibit v).prefetch = s.prefetch := rfl
@[simp] theorem withInhibit_wr7Ws (s : State) (v : Inhibit) : (s.withInhibit v).wr7Ws = s.wr7Ws := rfl
@[simp] theorem withInhibit_wr8Ws (s : State) (v : Inhibit) : (s.withInhibit v).wr8Ws = s.wr8Ws := rfl
@[simp] theorem withInhibit_ioInhibit (s : State) (v : Inhibit) : (s.withInhibit v).ioInhibit = s.ioInhibit := rfl
@[simp] theorem withInhibit_apHold (s : State) (v : Inhibit) : (s.withInhibit v).apHold = s.apHold := rfl
@[simp] theorem withInhibit_xTarget (s : State) (v : Inhibit) : (s.withInhibit v).xTarget = s.xTarget := rfl
@[simp] theorem withInhibit_resetDue (s : State) (v : Inhibit) : (s.withInhibit v).resetDue = s.resetDue := rfl
@[simp] theorem withInhibit_pins (s : State) (v : Inhibit) : (s.withInhibit v).pins = s.pins := rfl
@[simp] theorem withInhibit_bus (s : State) (v : Inhibit) : (s.withInhibit v).bus = s.bus := rfl
@[simp] theorem withInhibit_ioIn (s : State) (v : Inhibit) : (s.withInhibit v).ioIn = s.ioIn := rfl
@[simp] theorem withInhibit_ioOut (s : State) (v : Inhibit) : (s.withInhibit v).ioOut = s.ioOut := rfl
@[simp] theorem withInhibit_devIn (s : State) (v : Inhibit) : (s.withInhibit v).devIn = s.devIn := rfl
@[simp] theorem withInhibit_devOut (s : State) (v : Inhibit) : (s.withInhibit v).devOut = s.devOut := rfl
@[simp] theorem withInhibit_draws (s : State) (v : Inhibit) : (s.withInhibit v).draws = s.draws := rfl
@[simp] theorem withInhibit_params (s : State) (v : Inhibit) : (s.withInhibit v).params = s.params := rfl

@[simp] theorem withMsMode_pc (s : State) (v : MsMode) : (s.withMsMode v).pc = s.pc := rfl
@[simp] theorem withMsMode_wp (s : State) (v : MsMode) : (s.withMsMode v).wp = s.wp := rfl
@[simp] theorem withMsMode_st (s : State) (v : MsMode) : (s.withMsMode v).st = s.st := rfl
@[simp] theorem withMsMode_privop (s : State) (v : MsMode) : (s.withMsMode v).privop = s.privop := rfl
@[simp] theorem withMsMode_illop (s : State) (v : MsMode) : (s.withMsMode v).illop = s.illop := rfl
@[simp] theorem withMsMode_af (s : State) (v : MsMode) : (s.withMsMode v).af = s.af := rfl
@[simp] theorem withMsMode_mem (s : State) (v : MsMode) : (s.withMsMode v).mem = s.mem := rfl
@[simp] theorem withMsMode_ms (s : State) (v : MsMode) : (s.withMsMode v).ms = s.ms := rfl
@[simp] theorem withMsMode_nmiPending (s : State) (v : MsMode) : (s.withMsMode v).nmiPending = s.nmiPending := rfl
@[simp] theorem withMsMode_nmiLast (s : State) (v : MsMode) : (s.withMsMode v).nmiLast = s.nmiLast := rfl
@[simp] theorem withMsMode_inhibit (s : State) (v : MsMode) : (s.withMsMode v).inhibit = s.inhibit := rfl
@[simp] theorem withMsMode_msMode (s : State) (v : MsMode) : (s.withMsMode v).msMode = v := rfl
@[simp] theorem withMsMode_inMs (s : State) (v : MsMode) : (s.withMsMode v).inMs = s.inMs := rfl
@[simp] theorem withMsMode_ldf (s : State) (v : MsMode) : (s.withMsMode v).ldf = s.ldf := rfl
@[simp] theorem withMsMode_idle (s : State) (v : MsMode) : (s.withMsMode v).idle = s.idle := rfl
@[simp] theorem withMsMode_prefetch (s : State) (v : MsMode) : (s.withMsMode v).prefetch = s.prefetch := rfl
@[simp] theorem withMsMode_wr7Ws (s : State) (v : MsMode) : (s.withMsMode v).wr7Ws = s.wr7Ws := rfl
@[simp] theorem withMsMode_wr8Ws (s : State) (v : MsMode) : (s.withMsMode v).wr8Ws = s.wr8Ws := rfl
@[simp] theorem withMsMode_ioInhibit (s : State) (v : MsMode) : (s.withMsMode v).ioInhibit = s.ioInhibit := rfl
@[simp] theorem withMsMode_apHold (s : State) (v : MsMode) : (s.withMsMode v).apHold = s.apHold := rfl
@[simp] theorem withMsMode_xTarget (s : State) (v : MsMode) : (s.withMsMode v).xTarget = s.xTarget := rfl
@[simp] theorem withMsMode_resetDue (s : State) (v : MsMode) : (s.withMsMode v).resetDue = s.resetDue := rfl
@[simp] theorem withMsMode_pins (s : State) (v : MsMode) : (s.withMsMode v).pins = s.pins := rfl
@[simp] theorem withMsMode_bus (s : State) (v : MsMode) : (s.withMsMode v).bus = s.bus := rfl
@[simp] theorem withMsMode_ioIn (s : State) (v : MsMode) : (s.withMsMode v).ioIn = s.ioIn := rfl
@[simp] theorem withMsMode_ioOut (s : State) (v : MsMode) : (s.withMsMode v).ioOut = s.ioOut := rfl
@[simp] theorem withMsMode_devIn (s : State) (v : MsMode) : (s.withMsMode v).devIn = s.devIn := rfl
@[simp] theorem withMsMode_devOut (s : State) (v : MsMode) : (s.withMsMode v).devOut = s.devOut := rfl
@[simp] theorem withMsMode_draws (s : State) (v : MsMode) : (s.withMsMode v).draws = s.draws := rfl
@[simp] theorem withMsMode_params (s : State) (v : MsMode) : (s.withMsMode v).params = s.params := rfl

@[simp] theorem withInMs_pc (s : State) (v : Bool) : (s.withInMs v).pc = s.pc := rfl
@[simp] theorem withInMs_wp (s : State) (v : Bool) : (s.withInMs v).wp = s.wp := rfl
@[simp] theorem withInMs_st (s : State) (v : Bool) : (s.withInMs v).st = s.st := rfl
@[simp] theorem withInMs_privop (s : State) (v : Bool) : (s.withInMs v).privop = s.privop := rfl
@[simp] theorem withInMs_illop (s : State) (v : Bool) : (s.withInMs v).illop = s.illop := rfl
@[simp] theorem withInMs_af (s : State) (v : Bool) : (s.withInMs v).af = s.af := rfl
@[simp] theorem withInMs_mem (s : State) (v : Bool) : (s.withInMs v).mem = s.mem := rfl
@[simp] theorem withInMs_ms (s : State) (v : Bool) : (s.withInMs v).ms = s.ms := rfl
@[simp] theorem withInMs_nmiPending (s : State) (v : Bool) : (s.withInMs v).nmiPending = s.nmiPending := rfl
@[simp] theorem withInMs_nmiLast (s : State) (v : Bool) : (s.withInMs v).nmiLast = s.nmiLast := rfl
@[simp] theorem withInMs_inhibit (s : State) (v : Bool) : (s.withInMs v).inhibit = s.inhibit := rfl
@[simp] theorem withInMs_msMode (s : State) (v : Bool) : (s.withInMs v).msMode = s.msMode := rfl
@[simp] theorem withInMs_inMs (s : State) (v : Bool) : (s.withInMs v).inMs = v := rfl
@[simp] theorem withInMs_ldf (s : State) (v : Bool) : (s.withInMs v).ldf = s.ldf := rfl
@[simp] theorem withInMs_idle (s : State) (v : Bool) : (s.withInMs v).idle = s.idle := rfl
@[simp] theorem withInMs_prefetch (s : State) (v : Bool) : (s.withInMs v).prefetch = s.prefetch := rfl
@[simp] theorem withInMs_wr7Ws (s : State) (v : Bool) : (s.withInMs v).wr7Ws = s.wr7Ws := rfl
@[simp] theorem withInMs_wr8Ws (s : State) (v : Bool) : (s.withInMs v).wr8Ws = s.wr8Ws := rfl
@[simp] theorem withInMs_ioInhibit (s : State) (v : Bool) : (s.withInMs v).ioInhibit = s.ioInhibit := rfl
@[simp] theorem withInMs_apHold (s : State) (v : Bool) : (s.withInMs v).apHold = s.apHold := rfl
@[simp] theorem withInMs_xTarget (s : State) (v : Bool) : (s.withInMs v).xTarget = s.xTarget := rfl
@[simp] theorem withInMs_resetDue (s : State) (v : Bool) : (s.withInMs v).resetDue = s.resetDue := rfl
@[simp] theorem withInMs_pins (s : State) (v : Bool) : (s.withInMs v).pins = s.pins := rfl
@[simp] theorem withInMs_bus (s : State) (v : Bool) : (s.withInMs v).bus = s.bus := rfl
@[simp] theorem withInMs_ioIn (s : State) (v : Bool) : (s.withInMs v).ioIn = s.ioIn := rfl
@[simp] theorem withInMs_ioOut (s : State) (v : Bool) : (s.withInMs v).ioOut = s.ioOut := rfl
@[simp] theorem withInMs_devIn (s : State) (v : Bool) : (s.withInMs v).devIn = s.devIn := rfl
@[simp] theorem withInMs_devOut (s : State) (v : Bool) : (s.withInMs v).devOut = s.devOut := rfl
@[simp] theorem withInMs_draws (s : State) (v : Bool) : (s.withInMs v).draws = s.draws := rfl
@[simp] theorem withInMs_params (s : State) (v : Bool) : (s.withInMs v).params = s.params := rfl

@[simp] theorem withLdf_pc (s : State) (v : BitVec 3) : (s.withLdf v).pc = s.pc := rfl
@[simp] theorem withLdf_wp (s : State) (v : BitVec 3) : (s.withLdf v).wp = s.wp := rfl
@[simp] theorem withLdf_st (s : State) (v : BitVec 3) : (s.withLdf v).st = s.st := rfl
@[simp] theorem withLdf_privop (s : State) (v : BitVec 3) : (s.withLdf v).privop = s.privop := rfl
@[simp] theorem withLdf_illop (s : State) (v : BitVec 3) : (s.withLdf v).illop = s.illop := rfl
@[simp] theorem withLdf_af (s : State) (v : BitVec 3) : (s.withLdf v).af = s.af := rfl
@[simp] theorem withLdf_mem (s : State) (v : BitVec 3) : (s.withLdf v).mem = s.mem := rfl
@[simp] theorem withLdf_ms (s : State) (v : BitVec 3) : (s.withLdf v).ms = s.ms := rfl
@[simp] theorem withLdf_nmiPending (s : State) (v : BitVec 3) : (s.withLdf v).nmiPending = s.nmiPending := rfl
@[simp] theorem withLdf_nmiLast (s : State) (v : BitVec 3) : (s.withLdf v).nmiLast = s.nmiLast := rfl
@[simp] theorem withLdf_inhibit (s : State) (v : BitVec 3) : (s.withLdf v).inhibit = s.inhibit := rfl
@[simp] theorem withLdf_msMode (s : State) (v : BitVec 3) : (s.withLdf v).msMode = s.msMode := rfl
@[simp] theorem withLdf_inMs (s : State) (v : BitVec 3) : (s.withLdf v).inMs = s.inMs := rfl
@[simp] theorem withLdf_ldf (s : State) (v : BitVec 3) : (s.withLdf v).ldf = v := rfl
@[simp] theorem withLdf_idle (s : State) (v : BitVec 3) : (s.withLdf v).idle = s.idle := rfl
@[simp] theorem withLdf_prefetch (s : State) (v : BitVec 3) : (s.withLdf v).prefetch = s.prefetch := rfl
@[simp] theorem withLdf_wr7Ws (s : State) (v : BitVec 3) : (s.withLdf v).wr7Ws = s.wr7Ws := rfl
@[simp] theorem withLdf_wr8Ws (s : State) (v : BitVec 3) : (s.withLdf v).wr8Ws = s.wr8Ws := rfl
@[simp] theorem withLdf_ioInhibit (s : State) (v : BitVec 3) : (s.withLdf v).ioInhibit = s.ioInhibit := rfl
@[simp] theorem withLdf_apHold (s : State) (v : BitVec 3) : (s.withLdf v).apHold = s.apHold := rfl
@[simp] theorem withLdf_xTarget (s : State) (v : BitVec 3) : (s.withLdf v).xTarget = s.xTarget := rfl
@[simp] theorem withLdf_resetDue (s : State) (v : BitVec 3) : (s.withLdf v).resetDue = s.resetDue := rfl
@[simp] theorem withLdf_pins (s : State) (v : BitVec 3) : (s.withLdf v).pins = s.pins := rfl
@[simp] theorem withLdf_bus (s : State) (v : BitVec 3) : (s.withLdf v).bus = s.bus := rfl
@[simp] theorem withLdf_ioIn (s : State) (v : BitVec 3) : (s.withLdf v).ioIn = s.ioIn := rfl
@[simp] theorem withLdf_ioOut (s : State) (v : BitVec 3) : (s.withLdf v).ioOut = s.ioOut := rfl
@[simp] theorem withLdf_devIn (s : State) (v : BitVec 3) : (s.withLdf v).devIn = s.devIn := rfl
@[simp] theorem withLdf_devOut (s : State) (v : BitVec 3) : (s.withLdf v).devOut = s.devOut := rfl
@[simp] theorem withLdf_draws (s : State) (v : BitVec 3) : (s.withLdf v).draws = s.draws := rfl
@[simp] theorem withLdf_params (s : State) (v : BitVec 3) : (s.withLdf v).params = s.params := rfl

@[simp] theorem withIdle_pc (s : State) (v : Bool) : (s.withIdle v).pc = s.pc := rfl
@[simp] theorem withIdle_wp (s : State) (v : Bool) : (s.withIdle v).wp = s.wp := rfl
@[simp] theorem withIdle_st (s : State) (v : Bool) : (s.withIdle v).st = s.st := rfl
@[simp] theorem withIdle_privop (s : State) (v : Bool) : (s.withIdle v).privop = s.privop := rfl
@[simp] theorem withIdle_illop (s : State) (v : Bool) : (s.withIdle v).illop = s.illop := rfl
@[simp] theorem withIdle_af (s : State) (v : Bool) : (s.withIdle v).af = s.af := rfl
@[simp] theorem withIdle_mem (s : State) (v : Bool) : (s.withIdle v).mem = s.mem := rfl
@[simp] theorem withIdle_ms (s : State) (v : Bool) : (s.withIdle v).ms = s.ms := rfl
@[simp] theorem withIdle_nmiPending (s : State) (v : Bool) : (s.withIdle v).nmiPending = s.nmiPending := rfl
@[simp] theorem withIdle_nmiLast (s : State) (v : Bool) : (s.withIdle v).nmiLast = s.nmiLast := rfl
@[simp] theorem withIdle_inhibit (s : State) (v : Bool) : (s.withIdle v).inhibit = s.inhibit := rfl
@[simp] theorem withIdle_msMode (s : State) (v : Bool) : (s.withIdle v).msMode = s.msMode := rfl
@[simp] theorem withIdle_inMs (s : State) (v : Bool) : (s.withIdle v).inMs = s.inMs := rfl
@[simp] theorem withIdle_ldf (s : State) (v : Bool) : (s.withIdle v).ldf = s.ldf := rfl
@[simp] theorem withIdle_idle (s : State) (v : Bool) : (s.withIdle v).idle = v := rfl
@[simp] theorem withIdle_prefetch (s : State) (v : Bool) : (s.withIdle v).prefetch = s.prefetch := rfl
@[simp] theorem withIdle_wr7Ws (s : State) (v : Bool) : (s.withIdle v).wr7Ws = s.wr7Ws := rfl
@[simp] theorem withIdle_wr8Ws (s : State) (v : Bool) : (s.withIdle v).wr8Ws = s.wr8Ws := rfl
@[simp] theorem withIdle_ioInhibit (s : State) (v : Bool) : (s.withIdle v).ioInhibit = s.ioInhibit := rfl
@[simp] theorem withIdle_apHold (s : State) (v : Bool) : (s.withIdle v).apHold = s.apHold := rfl
@[simp] theorem withIdle_xTarget (s : State) (v : Bool) : (s.withIdle v).xTarget = s.xTarget := rfl
@[simp] theorem withIdle_resetDue (s : State) (v : Bool) : (s.withIdle v).resetDue = s.resetDue := rfl
@[simp] theorem withIdle_pins (s : State) (v : Bool) : (s.withIdle v).pins = s.pins := rfl
@[simp] theorem withIdle_bus (s : State) (v : Bool) : (s.withIdle v).bus = s.bus := rfl
@[simp] theorem withIdle_ioIn (s : State) (v : Bool) : (s.withIdle v).ioIn = s.ioIn := rfl
@[simp] theorem withIdle_ioOut (s : State) (v : Bool) : (s.withIdle v).ioOut = s.ioOut := rfl
@[simp] theorem withIdle_devIn (s : State) (v : Bool) : (s.withIdle v).devIn = s.devIn := rfl
@[simp] theorem withIdle_devOut (s : State) (v : Bool) : (s.withIdle v).devOut = s.devOut := rfl
@[simp] theorem withIdle_draws (s : State) (v : Bool) : (s.withIdle v).draws = s.draws := rfl
@[simp] theorem withIdle_params (s : State) (v : Bool) : (s.withIdle v).params = s.params := rfl

@[simp] theorem withPrefetch_pc (s : State) (v : Option Word) : (s.withPrefetch v).pc = s.pc := rfl
@[simp] theorem withPrefetch_wp (s : State) (v : Option Word) : (s.withPrefetch v).wp = s.wp := rfl
@[simp] theorem withPrefetch_st (s : State) (v : Option Word) : (s.withPrefetch v).st = s.st := rfl
@[simp] theorem withPrefetch_privop (s : State) (v : Option Word) : (s.withPrefetch v).privop = s.privop := rfl
@[simp] theorem withPrefetch_illop (s : State) (v : Option Word) : (s.withPrefetch v).illop = s.illop := rfl
@[simp] theorem withPrefetch_af (s : State) (v : Option Word) : (s.withPrefetch v).af = s.af := rfl
@[simp] theorem withPrefetch_mem (s : State) (v : Option Word) : (s.withPrefetch v).mem = s.mem := rfl
@[simp] theorem withPrefetch_ms (s : State) (v : Option Word) : (s.withPrefetch v).ms = s.ms := rfl
@[simp] theorem withPrefetch_nmiPending (s : State) (v : Option Word) :
    (s.withPrefetch v).nmiPending = s.nmiPending := rfl
@[simp] theorem withPrefetch_nmiLast (s : State) (v : Option Word) : (s.withPrefetch v).nmiLast = s.nmiLast := rfl
@[simp] theorem withPrefetch_inhibit (s : State) (v : Option Word) : (s.withPrefetch v).inhibit = s.inhibit := rfl
@[simp] theorem withPrefetch_msMode (s : State) (v : Option Word) : (s.withPrefetch v).msMode = s.msMode := rfl
@[simp] theorem withPrefetch_inMs (s : State) (v : Option Word) : (s.withPrefetch v).inMs = s.inMs := rfl
@[simp] theorem withPrefetch_ldf (s : State) (v : Option Word) : (s.withPrefetch v).ldf = s.ldf := rfl
@[simp] theorem withPrefetch_idle (s : State) (v : Option Word) : (s.withPrefetch v).idle = s.idle := rfl
@[simp] theorem withPrefetch_prefetch (s : State) (v : Option Word) : (s.withPrefetch v).prefetch = v := rfl
@[simp] theorem withPrefetch_wr7Ws (s : State) (v : Option Word) : (s.withPrefetch v).wr7Ws = s.wr7Ws := rfl
@[simp] theorem withPrefetch_wr8Ws (s : State) (v : Option Word) : (s.withPrefetch v).wr8Ws = s.wr8Ws := rfl
@[simp] theorem withPrefetch_ioInhibit (s : State) (v : Option Word) : (s.withPrefetch v).ioInhibit = s.ioInhibit := rfl
@[simp] theorem withPrefetch_apHold (s : State) (v : Option Word) : (s.withPrefetch v).apHold = s.apHold := rfl
@[simp] theorem withPrefetch_xTarget (s : State) (v : Option Word) : (s.withPrefetch v).xTarget = s.xTarget := rfl
@[simp] theorem withPrefetch_resetDue (s : State) (v : Option Word) : (s.withPrefetch v).resetDue = s.resetDue := rfl
@[simp] theorem withPrefetch_pins (s : State) (v : Option Word) : (s.withPrefetch v).pins = s.pins := rfl
@[simp] theorem withPrefetch_bus (s : State) (v : Option Word) : (s.withPrefetch v).bus = s.bus := rfl
@[simp] theorem withPrefetch_ioIn (s : State) (v : Option Word) : (s.withPrefetch v).ioIn = s.ioIn := rfl
@[simp] theorem withPrefetch_ioOut (s : State) (v : Option Word) : (s.withPrefetch v).ioOut = s.ioOut := rfl
@[simp] theorem withPrefetch_devIn (s : State) (v : Option Word) : (s.withPrefetch v).devIn = s.devIn := rfl
@[simp] theorem withPrefetch_devOut (s : State) (v : Option Word) : (s.withPrefetch v).devOut = s.devOut := rfl
@[simp] theorem withPrefetch_draws (s : State) (v : Option Word) : (s.withPrefetch v).draws = s.draws := rfl
@[simp] theorem withPrefetch_params (s : State) (v : Option Word) : (s.withPrefetch v).params = s.params := rfl

@[simp] theorem withWr7Ws_pc (s : State) (v : Bool) : (s.withWr7Ws v).pc = s.pc := rfl
@[simp] theorem withWr7Ws_wp (s : State) (v : Bool) : (s.withWr7Ws v).wp = s.wp := rfl
@[simp] theorem withWr7Ws_st (s : State) (v : Bool) : (s.withWr7Ws v).st = s.st := rfl
@[simp] theorem withWr7Ws_privop (s : State) (v : Bool) : (s.withWr7Ws v).privop = s.privop := rfl
@[simp] theorem withWr7Ws_illop (s : State) (v : Bool) : (s.withWr7Ws v).illop = s.illop := rfl
@[simp] theorem withWr7Ws_af (s : State) (v : Bool) : (s.withWr7Ws v).af = s.af := rfl
@[simp] theorem withWr7Ws_mem (s : State) (v : Bool) : (s.withWr7Ws v).mem = s.mem := rfl
@[simp] theorem withWr7Ws_ms (s : State) (v : Bool) : (s.withWr7Ws v).ms = s.ms := rfl
@[simp] theorem withWr7Ws_nmiPending (s : State) (v : Bool) : (s.withWr7Ws v).nmiPending = s.nmiPending := rfl
@[simp] theorem withWr7Ws_nmiLast (s : State) (v : Bool) : (s.withWr7Ws v).nmiLast = s.nmiLast := rfl
@[simp] theorem withWr7Ws_inhibit (s : State) (v : Bool) : (s.withWr7Ws v).inhibit = s.inhibit := rfl
@[simp] theorem withWr7Ws_msMode (s : State) (v : Bool) : (s.withWr7Ws v).msMode = s.msMode := rfl
@[simp] theorem withWr7Ws_inMs (s : State) (v : Bool) : (s.withWr7Ws v).inMs = s.inMs := rfl
@[simp] theorem withWr7Ws_ldf (s : State) (v : Bool) : (s.withWr7Ws v).ldf = s.ldf := rfl
@[simp] theorem withWr7Ws_idle (s : State) (v : Bool) : (s.withWr7Ws v).idle = s.idle := rfl
@[simp] theorem withWr7Ws_prefetch (s : State) (v : Bool) : (s.withWr7Ws v).prefetch = s.prefetch := rfl
@[simp] theorem withWr7Ws_wr7Ws (s : State) (v : Bool) : (s.withWr7Ws v).wr7Ws = v := rfl
@[simp] theorem withWr7Ws_wr8Ws (s : State) (v : Bool) : (s.withWr7Ws v).wr8Ws = s.wr8Ws := rfl
@[simp] theorem withWr7Ws_ioInhibit (s : State) (v : Bool) : (s.withWr7Ws v).ioInhibit = s.ioInhibit := rfl
@[simp] theorem withWr7Ws_apHold (s : State) (v : Bool) : (s.withWr7Ws v).apHold = s.apHold := rfl
@[simp] theorem withWr7Ws_xTarget (s : State) (v : Bool) : (s.withWr7Ws v).xTarget = s.xTarget := rfl
@[simp] theorem withWr7Ws_resetDue (s : State) (v : Bool) : (s.withWr7Ws v).resetDue = s.resetDue := rfl
@[simp] theorem withWr7Ws_pins (s : State) (v : Bool) : (s.withWr7Ws v).pins = s.pins := rfl
@[simp] theorem withWr7Ws_bus (s : State) (v : Bool) : (s.withWr7Ws v).bus = s.bus := rfl
@[simp] theorem withWr7Ws_ioIn (s : State) (v : Bool) : (s.withWr7Ws v).ioIn = s.ioIn := rfl
@[simp] theorem withWr7Ws_ioOut (s : State) (v : Bool) : (s.withWr7Ws v).ioOut = s.ioOut := rfl
@[simp] theorem withWr7Ws_devIn (s : State) (v : Bool) : (s.withWr7Ws v).devIn = s.devIn := rfl
@[simp] theorem withWr7Ws_devOut (s : State) (v : Bool) : (s.withWr7Ws v).devOut = s.devOut := rfl
@[simp] theorem withWr7Ws_draws (s : State) (v : Bool) : (s.withWr7Ws v).draws = s.draws := rfl
@[simp] theorem withWr7Ws_params (s : State) (v : Bool) : (s.withWr7Ws v).params = s.params := rfl

@[simp] theorem withWr8Ws_pc (s : State) (v : Bool) : (s.withWr8Ws v).pc = s.pc := rfl
@[simp] theorem withWr8Ws_wp (s : State) (v : Bool) : (s.withWr8Ws v).wp = s.wp := rfl
@[simp] theorem withWr8Ws_st (s : State) (v : Bool) : (s.withWr8Ws v).st = s.st := rfl
@[simp] theorem withWr8Ws_privop (s : State) (v : Bool) : (s.withWr8Ws v).privop = s.privop := rfl
@[simp] theorem withWr8Ws_illop (s : State) (v : Bool) : (s.withWr8Ws v).illop = s.illop := rfl
@[simp] theorem withWr8Ws_af (s : State) (v : Bool) : (s.withWr8Ws v).af = s.af := rfl
@[simp] theorem withWr8Ws_mem (s : State) (v : Bool) : (s.withWr8Ws v).mem = s.mem := rfl
@[simp] theorem withWr8Ws_ms (s : State) (v : Bool) : (s.withWr8Ws v).ms = s.ms := rfl
@[simp] theorem withWr8Ws_nmiPending (s : State) (v : Bool) : (s.withWr8Ws v).nmiPending = s.nmiPending := rfl
@[simp] theorem withWr8Ws_nmiLast (s : State) (v : Bool) : (s.withWr8Ws v).nmiLast = s.nmiLast := rfl
@[simp] theorem withWr8Ws_inhibit (s : State) (v : Bool) : (s.withWr8Ws v).inhibit = s.inhibit := rfl
@[simp] theorem withWr8Ws_msMode (s : State) (v : Bool) : (s.withWr8Ws v).msMode = s.msMode := rfl
@[simp] theorem withWr8Ws_inMs (s : State) (v : Bool) : (s.withWr8Ws v).inMs = s.inMs := rfl
@[simp] theorem withWr8Ws_ldf (s : State) (v : Bool) : (s.withWr8Ws v).ldf = s.ldf := rfl
@[simp] theorem withWr8Ws_idle (s : State) (v : Bool) : (s.withWr8Ws v).idle = s.idle := rfl
@[simp] theorem withWr8Ws_prefetch (s : State) (v : Bool) : (s.withWr8Ws v).prefetch = s.prefetch := rfl
@[simp] theorem withWr8Ws_wr7Ws (s : State) (v : Bool) : (s.withWr8Ws v).wr7Ws = s.wr7Ws := rfl
@[simp] theorem withWr8Ws_wr8Ws (s : State) (v : Bool) : (s.withWr8Ws v).wr8Ws = v := rfl
@[simp] theorem withWr8Ws_ioInhibit (s : State) (v : Bool) : (s.withWr8Ws v).ioInhibit = s.ioInhibit := rfl
@[simp] theorem withWr8Ws_apHold (s : State) (v : Bool) : (s.withWr8Ws v).apHold = s.apHold := rfl
@[simp] theorem withWr8Ws_xTarget (s : State) (v : Bool) : (s.withWr8Ws v).xTarget = s.xTarget := rfl
@[simp] theorem withWr8Ws_resetDue (s : State) (v : Bool) : (s.withWr8Ws v).resetDue = s.resetDue := rfl
@[simp] theorem withWr8Ws_pins (s : State) (v : Bool) : (s.withWr8Ws v).pins = s.pins := rfl
@[simp] theorem withWr8Ws_bus (s : State) (v : Bool) : (s.withWr8Ws v).bus = s.bus := rfl
@[simp] theorem withWr8Ws_ioIn (s : State) (v : Bool) : (s.withWr8Ws v).ioIn = s.ioIn := rfl
@[simp] theorem withWr8Ws_ioOut (s : State) (v : Bool) : (s.withWr8Ws v).ioOut = s.ioOut := rfl
@[simp] theorem withWr8Ws_devIn (s : State) (v : Bool) : (s.withWr8Ws v).devIn = s.devIn := rfl
@[simp] theorem withWr8Ws_devOut (s : State) (v : Bool) : (s.withWr8Ws v).devOut = s.devOut := rfl
@[simp] theorem withWr8Ws_draws (s : State) (v : Bool) : (s.withWr8Ws v).draws = s.draws := rfl
@[simp] theorem withWr8Ws_params (s : State) (v : Bool) : (s.withWr8Ws v).params = s.params := rfl

@[simp] theorem withIoInhibit_pc (s : State) (v : Bool) : (s.withIoInhibit v).pc = s.pc := rfl
@[simp] theorem withIoInhibit_wp (s : State) (v : Bool) : (s.withIoInhibit v).wp = s.wp := rfl
@[simp] theorem withIoInhibit_st (s : State) (v : Bool) : (s.withIoInhibit v).st = s.st := rfl
@[simp] theorem withIoInhibit_privop (s : State) (v : Bool) : (s.withIoInhibit v).privop = s.privop := rfl
@[simp] theorem withIoInhibit_illop (s : State) (v : Bool) : (s.withIoInhibit v).illop = s.illop := rfl
@[simp] theorem withIoInhibit_af (s : State) (v : Bool) : (s.withIoInhibit v).af = s.af := rfl
@[simp] theorem withIoInhibit_mem (s : State) (v : Bool) : (s.withIoInhibit v).mem = s.mem := rfl
@[simp] theorem withIoInhibit_ms (s : State) (v : Bool) : (s.withIoInhibit v).ms = s.ms := rfl
@[simp] theorem withIoInhibit_nmiPending (s : State) (v : Bool) : (s.withIoInhibit v).nmiPending = s.nmiPending := rfl
@[simp] theorem withIoInhibit_nmiLast (s : State) (v : Bool) : (s.withIoInhibit v).nmiLast = s.nmiLast := rfl
@[simp] theorem withIoInhibit_inhibit (s : State) (v : Bool) : (s.withIoInhibit v).inhibit = s.inhibit := rfl
@[simp] theorem withIoInhibit_msMode (s : State) (v : Bool) : (s.withIoInhibit v).msMode = s.msMode := rfl
@[simp] theorem withIoInhibit_inMs (s : State) (v : Bool) : (s.withIoInhibit v).inMs = s.inMs := rfl
@[simp] theorem withIoInhibit_ldf (s : State) (v : Bool) : (s.withIoInhibit v).ldf = s.ldf := rfl
@[simp] theorem withIoInhibit_idle (s : State) (v : Bool) : (s.withIoInhibit v).idle = s.idle := rfl
@[simp] theorem withIoInhibit_prefetch (s : State) (v : Bool) : (s.withIoInhibit v).prefetch = s.prefetch := rfl
@[simp] theorem withIoInhibit_wr7Ws (s : State) (v : Bool) : (s.withIoInhibit v).wr7Ws = s.wr7Ws := rfl
@[simp] theorem withIoInhibit_wr8Ws (s : State) (v : Bool) : (s.withIoInhibit v).wr8Ws = s.wr8Ws := rfl
@[simp] theorem withIoInhibit_ioInhibit (s : State) (v : Bool) : (s.withIoInhibit v).ioInhibit = v := rfl
@[simp] theorem withIoInhibit_apHold (s : State) (v : Bool) : (s.withIoInhibit v).apHold = s.apHold := rfl
@[simp] theorem withIoInhibit_xTarget (s : State) (v : Bool) : (s.withIoInhibit v).xTarget = s.xTarget := rfl
@[simp] theorem withIoInhibit_resetDue (s : State) (v : Bool) : (s.withIoInhibit v).resetDue = s.resetDue := rfl
@[simp] theorem withIoInhibit_pins (s : State) (v : Bool) : (s.withIoInhibit v).pins = s.pins := rfl
@[simp] theorem withIoInhibit_bus (s : State) (v : Bool) : (s.withIoInhibit v).bus = s.bus := rfl
@[simp] theorem withIoInhibit_ioIn (s : State) (v : Bool) : (s.withIoInhibit v).ioIn = s.ioIn := rfl
@[simp] theorem withIoInhibit_ioOut (s : State) (v : Bool) : (s.withIoInhibit v).ioOut = s.ioOut := rfl
@[simp] theorem withIoInhibit_devIn (s : State) (v : Bool) : (s.withIoInhibit v).devIn = s.devIn := rfl
@[simp] theorem withIoInhibit_devOut (s : State) (v : Bool) : (s.withIoInhibit v).devOut = s.devOut := rfl
@[simp] theorem withIoInhibit_draws (s : State) (v : Bool) : (s.withIoInhibit v).draws = s.draws := rfl
@[simp] theorem withIoInhibit_params (s : State) (v : Bool) : (s.withIoInhibit v).params = s.params := rfl

@[simp] theorem withApHold_pc (s : State) (v : Bool) : (s.withApHold v).pc = s.pc := rfl
@[simp] theorem withApHold_wp (s : State) (v : Bool) : (s.withApHold v).wp = s.wp := rfl
@[simp] theorem withApHold_st (s : State) (v : Bool) : (s.withApHold v).st = s.st := rfl
@[simp] theorem withApHold_privop (s : State) (v : Bool) : (s.withApHold v).privop = s.privop := rfl
@[simp] theorem withApHold_illop (s : State) (v : Bool) : (s.withApHold v).illop = s.illop := rfl
@[simp] theorem withApHold_af (s : State) (v : Bool) : (s.withApHold v).af = s.af := rfl
@[simp] theorem withApHold_mem (s : State) (v : Bool) : (s.withApHold v).mem = s.mem := rfl
@[simp] theorem withApHold_ms (s : State) (v : Bool) : (s.withApHold v).ms = s.ms := rfl
@[simp] theorem withApHold_nmiPending (s : State) (v : Bool) : (s.withApHold v).nmiPending = s.nmiPending := rfl
@[simp] theorem withApHold_nmiLast (s : State) (v : Bool) : (s.withApHold v).nmiLast = s.nmiLast := rfl
@[simp] theorem withApHold_inhibit (s : State) (v : Bool) : (s.withApHold v).inhibit = s.inhibit := rfl
@[simp] theorem withApHold_msMode (s : State) (v : Bool) : (s.withApHold v).msMode = s.msMode := rfl
@[simp] theorem withApHold_inMs (s : State) (v : Bool) : (s.withApHold v).inMs = s.inMs := rfl
@[simp] theorem withApHold_ldf (s : State) (v : Bool) : (s.withApHold v).ldf = s.ldf := rfl
@[simp] theorem withApHold_idle (s : State) (v : Bool) : (s.withApHold v).idle = s.idle := rfl
@[simp] theorem withApHold_prefetch (s : State) (v : Bool) : (s.withApHold v).prefetch = s.prefetch := rfl
@[simp] theorem withApHold_wr7Ws (s : State) (v : Bool) : (s.withApHold v).wr7Ws = s.wr7Ws := rfl
@[simp] theorem withApHold_wr8Ws (s : State) (v : Bool) : (s.withApHold v).wr8Ws = s.wr8Ws := rfl
@[simp] theorem withApHold_ioInhibit (s : State) (v : Bool) : (s.withApHold v).ioInhibit = s.ioInhibit := rfl
@[simp] theorem withApHold_apHold (s : State) (v : Bool) : (s.withApHold v).apHold = v := rfl
@[simp] theorem withApHold_xTarget (s : State) (v : Bool) : (s.withApHold v).xTarget = s.xTarget := rfl
@[simp] theorem withApHold_resetDue (s : State) (v : Bool) : (s.withApHold v).resetDue = s.resetDue := rfl
@[simp] theorem withApHold_pins (s : State) (v : Bool) : (s.withApHold v).pins = s.pins := rfl
@[simp] theorem withApHold_bus (s : State) (v : Bool) : (s.withApHold v).bus = s.bus := rfl
@[simp] theorem withApHold_ioIn (s : State) (v : Bool) : (s.withApHold v).ioIn = s.ioIn := rfl
@[simp] theorem withApHold_ioOut (s : State) (v : Bool) : (s.withApHold v).ioOut = s.ioOut := rfl
@[simp] theorem withApHold_devIn (s : State) (v : Bool) : (s.withApHold v).devIn = s.devIn := rfl
@[simp] theorem withApHold_devOut (s : State) (v : Bool) : (s.withApHold v).devOut = s.devOut := rfl
@[simp] theorem withApHold_draws (s : State) (v : Bool) : (s.withApHold v).draws = s.draws := rfl
@[simp] theorem withApHold_params (s : State) (v : Bool) : (s.withApHold v).params = s.params := rfl

@[simp] theorem withXTarget_pc (s : State) (v : Option Word) : (s.withXTarget v).pc = s.pc := rfl
@[simp] theorem withXTarget_wp (s : State) (v : Option Word) : (s.withXTarget v).wp = s.wp := rfl
@[simp] theorem withXTarget_st (s : State) (v : Option Word) : (s.withXTarget v).st = s.st := rfl
@[simp] theorem withXTarget_privop (s : State) (v : Option Word) : (s.withXTarget v).privop = s.privop := rfl
@[simp] theorem withXTarget_illop (s : State) (v : Option Word) : (s.withXTarget v).illop = s.illop := rfl
@[simp] theorem withXTarget_af (s : State) (v : Option Word) : (s.withXTarget v).af = s.af := rfl
@[simp] theorem withXTarget_mem (s : State) (v : Option Word) : (s.withXTarget v).mem = s.mem := rfl
@[simp] theorem withXTarget_ms (s : State) (v : Option Word) : (s.withXTarget v).ms = s.ms := rfl
@[simp] theorem withXTarget_nmiPending (s : State) (v : Option Word) :
    (s.withXTarget v).nmiPending = s.nmiPending := rfl
@[simp] theorem withXTarget_nmiLast (s : State) (v : Option Word) : (s.withXTarget v).nmiLast = s.nmiLast := rfl
@[simp] theorem withXTarget_inhibit (s : State) (v : Option Word) : (s.withXTarget v).inhibit = s.inhibit := rfl
@[simp] theorem withXTarget_msMode (s : State) (v : Option Word) : (s.withXTarget v).msMode = s.msMode := rfl
@[simp] theorem withXTarget_inMs (s : State) (v : Option Word) : (s.withXTarget v).inMs = s.inMs := rfl
@[simp] theorem withXTarget_ldf (s : State) (v : Option Word) : (s.withXTarget v).ldf = s.ldf := rfl
@[simp] theorem withXTarget_idle (s : State) (v : Option Word) : (s.withXTarget v).idle = s.idle := rfl
@[simp] theorem withXTarget_prefetch (s : State) (v : Option Word) : (s.withXTarget v).prefetch = s.prefetch := rfl
@[simp] theorem withXTarget_wr7Ws (s : State) (v : Option Word) : (s.withXTarget v).wr7Ws = s.wr7Ws := rfl
@[simp] theorem withXTarget_wr8Ws (s : State) (v : Option Word) : (s.withXTarget v).wr8Ws = s.wr8Ws := rfl
@[simp] theorem withXTarget_ioInhibit (s : State) (v : Option Word) : (s.withXTarget v).ioInhibit = s.ioInhibit := rfl
@[simp] theorem withXTarget_apHold (s : State) (v : Option Word) : (s.withXTarget v).apHold = s.apHold := rfl
@[simp] theorem withXTarget_xTarget (s : State) (v : Option Word) : (s.withXTarget v).xTarget = v := rfl
@[simp] theorem withXTarget_resetDue (s : State) (v : Option Word) : (s.withXTarget v).resetDue = s.resetDue := rfl
@[simp] theorem withXTarget_pins (s : State) (v : Option Word) : (s.withXTarget v).pins = s.pins := rfl
@[simp] theorem withXTarget_bus (s : State) (v : Option Word) : (s.withXTarget v).bus = s.bus := rfl
@[simp] theorem withXTarget_ioIn (s : State) (v : Option Word) : (s.withXTarget v).ioIn = s.ioIn := rfl
@[simp] theorem withXTarget_ioOut (s : State) (v : Option Word) : (s.withXTarget v).ioOut = s.ioOut := rfl
@[simp] theorem withXTarget_devIn (s : State) (v : Option Word) : (s.withXTarget v).devIn = s.devIn := rfl
@[simp] theorem withXTarget_devOut (s : State) (v : Option Word) : (s.withXTarget v).devOut = s.devOut := rfl
@[simp] theorem withXTarget_draws (s : State) (v : Option Word) : (s.withXTarget v).draws = s.draws := rfl
@[simp] theorem withXTarget_params (s : State) (v : Option Word) : (s.withXTarget v).params = s.params := rfl

@[simp] theorem withResetDue_pc (s : State) (v : Bool) : (s.withResetDue v).pc = s.pc := rfl
@[simp] theorem withResetDue_wp (s : State) (v : Bool) : (s.withResetDue v).wp = s.wp := rfl
@[simp] theorem withResetDue_st (s : State) (v : Bool) : (s.withResetDue v).st = s.st := rfl
@[simp] theorem withResetDue_privop (s : State) (v : Bool) : (s.withResetDue v).privop = s.privop := rfl
@[simp] theorem withResetDue_illop (s : State) (v : Bool) : (s.withResetDue v).illop = s.illop := rfl
@[simp] theorem withResetDue_af (s : State) (v : Bool) : (s.withResetDue v).af = s.af := rfl
@[simp] theorem withResetDue_mem (s : State) (v : Bool) : (s.withResetDue v).mem = s.mem := rfl
@[simp] theorem withResetDue_ms (s : State) (v : Bool) : (s.withResetDue v).ms = s.ms := rfl
@[simp] theorem withResetDue_nmiPending (s : State) (v : Bool) : (s.withResetDue v).nmiPending = s.nmiPending := rfl
@[simp] theorem withResetDue_nmiLast (s : State) (v : Bool) : (s.withResetDue v).nmiLast = s.nmiLast := rfl
@[simp] theorem withResetDue_inhibit (s : State) (v : Bool) : (s.withResetDue v).inhibit = s.inhibit := rfl
@[simp] theorem withResetDue_msMode (s : State) (v : Bool) : (s.withResetDue v).msMode = s.msMode := rfl
@[simp] theorem withResetDue_inMs (s : State) (v : Bool) : (s.withResetDue v).inMs = s.inMs := rfl
@[simp] theorem withResetDue_ldf (s : State) (v : Bool) : (s.withResetDue v).ldf = s.ldf := rfl
@[simp] theorem withResetDue_idle (s : State) (v : Bool) : (s.withResetDue v).idle = s.idle := rfl
@[simp] theorem withResetDue_prefetch (s : State) (v : Bool) : (s.withResetDue v).prefetch = s.prefetch := rfl
@[simp] theorem withResetDue_wr7Ws (s : State) (v : Bool) : (s.withResetDue v).wr7Ws = s.wr7Ws := rfl
@[simp] theorem withResetDue_wr8Ws (s : State) (v : Bool) : (s.withResetDue v).wr8Ws = s.wr8Ws := rfl
@[simp] theorem withResetDue_ioInhibit (s : State) (v : Bool) : (s.withResetDue v).ioInhibit = s.ioInhibit := rfl
@[simp] theorem withResetDue_apHold (s : State) (v : Bool) : (s.withResetDue v).apHold = s.apHold := rfl
@[simp] theorem withResetDue_xTarget (s : State) (v : Bool) : (s.withResetDue v).xTarget = s.xTarget := rfl
@[simp] theorem withResetDue_resetDue (s : State) (v : Bool) : (s.withResetDue v).resetDue = v := rfl
@[simp] theorem withResetDue_pins (s : State) (v : Bool) : (s.withResetDue v).pins = s.pins := rfl
@[simp] theorem withResetDue_bus (s : State) (v : Bool) : (s.withResetDue v).bus = s.bus := rfl
@[simp] theorem withResetDue_ioIn (s : State) (v : Bool) : (s.withResetDue v).ioIn = s.ioIn := rfl
@[simp] theorem withResetDue_ioOut (s : State) (v : Bool) : (s.withResetDue v).ioOut = s.ioOut := rfl
@[simp] theorem withResetDue_devIn (s : State) (v : Bool) : (s.withResetDue v).devIn = s.devIn := rfl
@[simp] theorem withResetDue_devOut (s : State) (v : Bool) : (s.withResetDue v).devOut = s.devOut := rfl
@[simp] theorem withResetDue_draws (s : State) (v : Bool) : (s.withResetDue v).draws = s.draws := rfl
@[simp] theorem withResetDue_params (s : State) (v : Bool) : (s.withResetDue v).params = s.params := rfl

@[simp] theorem withPins_pc (s : State) (v : Pins) : (s.withPins v).pc = s.pc := rfl
@[simp] theorem withPins_wp (s : State) (v : Pins) : (s.withPins v).wp = s.wp := rfl
@[simp] theorem withPins_st (s : State) (v : Pins) : (s.withPins v).st = s.st := rfl
@[simp] theorem withPins_privop (s : State) (v : Pins) : (s.withPins v).privop = s.privop := rfl
@[simp] theorem withPins_illop (s : State) (v : Pins) : (s.withPins v).illop = s.illop := rfl
@[simp] theorem withPins_af (s : State) (v : Pins) : (s.withPins v).af = s.af := rfl
@[simp] theorem withPins_mem (s : State) (v : Pins) : (s.withPins v).mem = s.mem := rfl
@[simp] theorem withPins_ms (s : State) (v : Pins) : (s.withPins v).ms = s.ms := rfl
@[simp] theorem withPins_nmiPending (s : State) (v : Pins) : (s.withPins v).nmiPending = s.nmiPending := rfl
@[simp] theorem withPins_nmiLast (s : State) (v : Pins) : (s.withPins v).nmiLast = s.nmiLast := rfl
@[simp] theorem withPins_inhibit (s : State) (v : Pins) : (s.withPins v).inhibit = s.inhibit := rfl
@[simp] theorem withPins_msMode (s : State) (v : Pins) : (s.withPins v).msMode = s.msMode := rfl
@[simp] theorem withPins_inMs (s : State) (v : Pins) : (s.withPins v).inMs = s.inMs := rfl
@[simp] theorem withPins_ldf (s : State) (v : Pins) : (s.withPins v).ldf = s.ldf := rfl
@[simp] theorem withPins_idle (s : State) (v : Pins) : (s.withPins v).idle = s.idle := rfl
@[simp] theorem withPins_prefetch (s : State) (v : Pins) : (s.withPins v).prefetch = s.prefetch := rfl
@[simp] theorem withPins_wr7Ws (s : State) (v : Pins) : (s.withPins v).wr7Ws = s.wr7Ws := rfl
@[simp] theorem withPins_wr8Ws (s : State) (v : Pins) : (s.withPins v).wr8Ws = s.wr8Ws := rfl
@[simp] theorem withPins_ioInhibit (s : State) (v : Pins) : (s.withPins v).ioInhibit = s.ioInhibit := rfl
@[simp] theorem withPins_apHold (s : State) (v : Pins) : (s.withPins v).apHold = s.apHold := rfl
@[simp] theorem withPins_xTarget (s : State) (v : Pins) : (s.withPins v).xTarget = s.xTarget := rfl
@[simp] theorem withPins_resetDue (s : State) (v : Pins) : (s.withPins v).resetDue = s.resetDue := rfl
@[simp] theorem withPins_pins (s : State) (v : Pins) : (s.withPins v).pins = v := rfl
@[simp] theorem withPins_bus (s : State) (v : Pins) : (s.withPins v).bus = s.bus := rfl
@[simp] theorem withPins_ioIn (s : State) (v : Pins) : (s.withPins v).ioIn = s.ioIn := rfl
@[simp] theorem withPins_ioOut (s : State) (v : Pins) : (s.withPins v).ioOut = s.ioOut := rfl
@[simp] theorem withPins_devIn (s : State) (v : Pins) : (s.withPins v).devIn = s.devIn := rfl
@[simp] theorem withPins_devOut (s : State) (v : Pins) : (s.withPins v).devOut = s.devOut := rfl
@[simp] theorem withPins_draws (s : State) (v : Pins) : (s.withPins v).draws = s.draws := rfl
@[simp] theorem withPins_params (s : State) (v : Pins) : (s.withPins v).params = s.params := rfl

@[simp] theorem withBus_pc (s : State) (v : List BusEvent) : (s.withBus v).pc = s.pc := rfl
@[simp] theorem withBus_wp (s : State) (v : List BusEvent) : (s.withBus v).wp = s.wp := rfl
@[simp] theorem withBus_st (s : State) (v : List BusEvent) : (s.withBus v).st = s.st := rfl
@[simp] theorem withBus_privop (s : State) (v : List BusEvent) : (s.withBus v).privop = s.privop := rfl
@[simp] theorem withBus_illop (s : State) (v : List BusEvent) : (s.withBus v).illop = s.illop := rfl
@[simp] theorem withBus_af (s : State) (v : List BusEvent) : (s.withBus v).af = s.af := rfl
@[simp] theorem withBus_mem (s : State) (v : List BusEvent) : (s.withBus v).mem = s.mem := rfl
@[simp] theorem withBus_ms (s : State) (v : List BusEvent) : (s.withBus v).ms = s.ms := rfl
@[simp] theorem withBus_nmiPending (s : State) (v : List BusEvent) : (s.withBus v).nmiPending = s.nmiPending := rfl
@[simp] theorem withBus_nmiLast (s : State) (v : List BusEvent) : (s.withBus v).nmiLast = s.nmiLast := rfl
@[simp] theorem withBus_inhibit (s : State) (v : List BusEvent) : (s.withBus v).inhibit = s.inhibit := rfl
@[simp] theorem withBus_msMode (s : State) (v : List BusEvent) : (s.withBus v).msMode = s.msMode := rfl
@[simp] theorem withBus_inMs (s : State) (v : List BusEvent) : (s.withBus v).inMs = s.inMs := rfl
@[simp] theorem withBus_ldf (s : State) (v : List BusEvent) : (s.withBus v).ldf = s.ldf := rfl
@[simp] theorem withBus_idle (s : State) (v : List BusEvent) : (s.withBus v).idle = s.idle := rfl
@[simp] theorem withBus_prefetch (s : State) (v : List BusEvent) : (s.withBus v).prefetch = s.prefetch := rfl
@[simp] theorem withBus_wr7Ws (s : State) (v : List BusEvent) : (s.withBus v).wr7Ws = s.wr7Ws := rfl
@[simp] theorem withBus_wr8Ws (s : State) (v : List BusEvent) : (s.withBus v).wr8Ws = s.wr8Ws := rfl
@[simp] theorem withBus_ioInhibit (s : State) (v : List BusEvent) : (s.withBus v).ioInhibit = s.ioInhibit := rfl
@[simp] theorem withBus_apHold (s : State) (v : List BusEvent) : (s.withBus v).apHold = s.apHold := rfl
@[simp] theorem withBus_xTarget (s : State) (v : List BusEvent) : (s.withBus v).xTarget = s.xTarget := rfl
@[simp] theorem withBus_resetDue (s : State) (v : List BusEvent) : (s.withBus v).resetDue = s.resetDue := rfl
@[simp] theorem withBus_pins (s : State) (v : List BusEvent) : (s.withBus v).pins = s.pins := rfl
@[simp] theorem withBus_bus (s : State) (v : List BusEvent) : (s.withBus v).bus = v := rfl
@[simp] theorem withBus_ioIn (s : State) (v : List BusEvent) : (s.withBus v).ioIn = s.ioIn := rfl
@[simp] theorem withBus_ioOut (s : State) (v : List BusEvent) : (s.withBus v).ioOut = s.ioOut := rfl
@[simp] theorem withBus_devIn (s : State) (v : List BusEvent) : (s.withBus v).devIn = s.devIn := rfl
@[simp] theorem withBus_devOut (s : State) (v : List BusEvent) : (s.withBus v).devOut = s.devOut := rfl
@[simp] theorem withBus_draws (s : State) (v : List BusEvent) : (s.withBus v).draws = s.draws := rfl
@[simp] theorem withBus_params (s : State) (v : List BusEvent) : (s.withBus v).params = s.params := rfl

@[simp] theorem withIoIn_pc (s : State) (v : List Word) : (s.withIoIn v).pc = s.pc := rfl
@[simp] theorem withIoIn_wp (s : State) (v : List Word) : (s.withIoIn v).wp = s.wp := rfl
@[simp] theorem withIoIn_st (s : State) (v : List Word) : (s.withIoIn v).st = s.st := rfl
@[simp] theorem withIoIn_privop (s : State) (v : List Word) : (s.withIoIn v).privop = s.privop := rfl
@[simp] theorem withIoIn_illop (s : State) (v : List Word) : (s.withIoIn v).illop = s.illop := rfl
@[simp] theorem withIoIn_af (s : State) (v : List Word) : (s.withIoIn v).af = s.af := rfl
@[simp] theorem withIoIn_mem (s : State) (v : List Word) : (s.withIoIn v).mem = s.mem := rfl
@[simp] theorem withIoIn_ms (s : State) (v : List Word) : (s.withIoIn v).ms = s.ms := rfl
@[simp] theorem withIoIn_nmiPending (s : State) (v : List Word) : (s.withIoIn v).nmiPending = s.nmiPending := rfl
@[simp] theorem withIoIn_nmiLast (s : State) (v : List Word) : (s.withIoIn v).nmiLast = s.nmiLast := rfl
@[simp] theorem withIoIn_inhibit (s : State) (v : List Word) : (s.withIoIn v).inhibit = s.inhibit := rfl
@[simp] theorem withIoIn_msMode (s : State) (v : List Word) : (s.withIoIn v).msMode = s.msMode := rfl
@[simp] theorem withIoIn_inMs (s : State) (v : List Word) : (s.withIoIn v).inMs = s.inMs := rfl
@[simp] theorem withIoIn_ldf (s : State) (v : List Word) : (s.withIoIn v).ldf = s.ldf := rfl
@[simp] theorem withIoIn_idle (s : State) (v : List Word) : (s.withIoIn v).idle = s.idle := rfl
@[simp] theorem withIoIn_prefetch (s : State) (v : List Word) : (s.withIoIn v).prefetch = s.prefetch := rfl
@[simp] theorem withIoIn_wr7Ws (s : State) (v : List Word) : (s.withIoIn v).wr7Ws = s.wr7Ws := rfl
@[simp] theorem withIoIn_wr8Ws (s : State) (v : List Word) : (s.withIoIn v).wr8Ws = s.wr8Ws := rfl
@[simp] theorem withIoIn_ioInhibit (s : State) (v : List Word) : (s.withIoIn v).ioInhibit = s.ioInhibit := rfl
@[simp] theorem withIoIn_apHold (s : State) (v : List Word) : (s.withIoIn v).apHold = s.apHold := rfl
@[simp] theorem withIoIn_xTarget (s : State) (v : List Word) : (s.withIoIn v).xTarget = s.xTarget := rfl
@[simp] theorem withIoIn_resetDue (s : State) (v : List Word) : (s.withIoIn v).resetDue = s.resetDue := rfl
@[simp] theorem withIoIn_pins (s : State) (v : List Word) : (s.withIoIn v).pins = s.pins := rfl
@[simp] theorem withIoIn_bus (s : State) (v : List Word) : (s.withIoIn v).bus = s.bus := rfl
@[simp] theorem withIoIn_ioIn (s : State) (v : List Word) : (s.withIoIn v).ioIn = v := rfl
@[simp] theorem withIoIn_ioOut (s : State) (v : List Word) : (s.withIoIn v).ioOut = s.ioOut := rfl
@[simp] theorem withIoIn_devIn (s : State) (v : List Word) : (s.withIoIn v).devIn = s.devIn := rfl
@[simp] theorem withIoIn_devOut (s : State) (v : List Word) : (s.withIoIn v).devOut = s.devOut := rfl
@[simp] theorem withIoIn_draws (s : State) (v : List Word) : (s.withIoIn v).draws = s.draws := rfl
@[simp] theorem withIoIn_params (s : State) (v : List Word) : (s.withIoIn v).params = s.params := rfl

@[simp] theorem withIoOut_pc (s : State) (v : List IoWrite) : (s.withIoOut v).pc = s.pc := rfl
@[simp] theorem withIoOut_wp (s : State) (v : List IoWrite) : (s.withIoOut v).wp = s.wp := rfl
@[simp] theorem withIoOut_st (s : State) (v : List IoWrite) : (s.withIoOut v).st = s.st := rfl
@[simp] theorem withIoOut_privop (s : State) (v : List IoWrite) : (s.withIoOut v).privop = s.privop := rfl
@[simp] theorem withIoOut_illop (s : State) (v : List IoWrite) : (s.withIoOut v).illop = s.illop := rfl
@[simp] theorem withIoOut_af (s : State) (v : List IoWrite) : (s.withIoOut v).af = s.af := rfl
@[simp] theorem withIoOut_mem (s : State) (v : List IoWrite) : (s.withIoOut v).mem = s.mem := rfl
@[simp] theorem withIoOut_ms (s : State) (v : List IoWrite) : (s.withIoOut v).ms = s.ms := rfl
@[simp] theorem withIoOut_nmiPending (s : State) (v : List IoWrite) : (s.withIoOut v).nmiPending = s.nmiPending := rfl
@[simp] theorem withIoOut_nmiLast (s : State) (v : List IoWrite) : (s.withIoOut v).nmiLast = s.nmiLast := rfl
@[simp] theorem withIoOut_inhibit (s : State) (v : List IoWrite) : (s.withIoOut v).inhibit = s.inhibit := rfl
@[simp] theorem withIoOut_msMode (s : State) (v : List IoWrite) : (s.withIoOut v).msMode = s.msMode := rfl
@[simp] theorem withIoOut_inMs (s : State) (v : List IoWrite) : (s.withIoOut v).inMs = s.inMs := rfl
@[simp] theorem withIoOut_ldf (s : State) (v : List IoWrite) : (s.withIoOut v).ldf = s.ldf := rfl
@[simp] theorem withIoOut_idle (s : State) (v : List IoWrite) : (s.withIoOut v).idle = s.idle := rfl
@[simp] theorem withIoOut_prefetch (s : State) (v : List IoWrite) : (s.withIoOut v).prefetch = s.prefetch := rfl
@[simp] theorem withIoOut_wr7Ws (s : State) (v : List IoWrite) : (s.withIoOut v).wr7Ws = s.wr7Ws := rfl
@[simp] theorem withIoOut_wr8Ws (s : State) (v : List IoWrite) : (s.withIoOut v).wr8Ws = s.wr8Ws := rfl
@[simp] theorem withIoOut_ioInhibit (s : State) (v : List IoWrite) : (s.withIoOut v).ioInhibit = s.ioInhibit := rfl
@[simp] theorem withIoOut_apHold (s : State) (v : List IoWrite) : (s.withIoOut v).apHold = s.apHold := rfl
@[simp] theorem withIoOut_xTarget (s : State) (v : List IoWrite) : (s.withIoOut v).xTarget = s.xTarget := rfl
@[simp] theorem withIoOut_resetDue (s : State) (v : List IoWrite) : (s.withIoOut v).resetDue = s.resetDue := rfl
@[simp] theorem withIoOut_pins (s : State) (v : List IoWrite) : (s.withIoOut v).pins = s.pins := rfl
@[simp] theorem withIoOut_bus (s : State) (v : List IoWrite) : (s.withIoOut v).bus = s.bus := rfl
@[simp] theorem withIoOut_ioIn (s : State) (v : List IoWrite) : (s.withIoOut v).ioIn = s.ioIn := rfl
@[simp] theorem withIoOut_ioOut (s : State) (v : List IoWrite) : (s.withIoOut v).ioOut = v := rfl
@[simp] theorem withIoOut_devIn (s : State) (v : List IoWrite) : (s.withIoOut v).devIn = s.devIn := rfl
@[simp] theorem withIoOut_devOut (s : State) (v : List IoWrite) : (s.withIoOut v).devOut = s.devOut := rfl
@[simp] theorem withIoOut_draws (s : State) (v : List IoWrite) : (s.withIoOut v).draws = s.draws := rfl
@[simp] theorem withIoOut_params (s : State) (v : List IoWrite) : (s.withIoOut v).params = s.params := rfl

@[simp] theorem withDevIn_pc (s : State) (v : List Word) : (s.withDevIn v).pc = s.pc := rfl
@[simp] theorem withDevIn_wp (s : State) (v : List Word) : (s.withDevIn v).wp = s.wp := rfl
@[simp] theorem withDevIn_st (s : State) (v : List Word) : (s.withDevIn v).st = s.st := rfl
@[simp] theorem withDevIn_privop (s : State) (v : List Word) : (s.withDevIn v).privop = s.privop := rfl
@[simp] theorem withDevIn_illop (s : State) (v : List Word) : (s.withDevIn v).illop = s.illop := rfl
@[simp] theorem withDevIn_af (s : State) (v : List Word) : (s.withDevIn v).af = s.af := rfl
@[simp] theorem withDevIn_mem (s : State) (v : List Word) : (s.withDevIn v).mem = s.mem := rfl
@[simp] theorem withDevIn_ms (s : State) (v : List Word) : (s.withDevIn v).ms = s.ms := rfl
@[simp] theorem withDevIn_nmiPending (s : State) (v : List Word) : (s.withDevIn v).nmiPending = s.nmiPending := rfl
@[simp] theorem withDevIn_nmiLast (s : State) (v : List Word) : (s.withDevIn v).nmiLast = s.nmiLast := rfl
@[simp] theorem withDevIn_inhibit (s : State) (v : List Word) : (s.withDevIn v).inhibit = s.inhibit := rfl
@[simp] theorem withDevIn_msMode (s : State) (v : List Word) : (s.withDevIn v).msMode = s.msMode := rfl
@[simp] theorem withDevIn_inMs (s : State) (v : List Word) : (s.withDevIn v).inMs = s.inMs := rfl
@[simp] theorem withDevIn_ldf (s : State) (v : List Word) : (s.withDevIn v).ldf = s.ldf := rfl
@[simp] theorem withDevIn_idle (s : State) (v : List Word) : (s.withDevIn v).idle = s.idle := rfl
@[simp] theorem withDevIn_prefetch (s : State) (v : List Word) : (s.withDevIn v).prefetch = s.prefetch := rfl
@[simp] theorem withDevIn_wr7Ws (s : State) (v : List Word) : (s.withDevIn v).wr7Ws = s.wr7Ws := rfl
@[simp] theorem withDevIn_wr8Ws (s : State) (v : List Word) : (s.withDevIn v).wr8Ws = s.wr8Ws := rfl
@[simp] theorem withDevIn_ioInhibit (s : State) (v : List Word) : (s.withDevIn v).ioInhibit = s.ioInhibit := rfl
@[simp] theorem withDevIn_apHold (s : State) (v : List Word) : (s.withDevIn v).apHold = s.apHold := rfl
@[simp] theorem withDevIn_xTarget (s : State) (v : List Word) : (s.withDevIn v).xTarget = s.xTarget := rfl
@[simp] theorem withDevIn_resetDue (s : State) (v : List Word) : (s.withDevIn v).resetDue = s.resetDue := rfl
@[simp] theorem withDevIn_pins (s : State) (v : List Word) : (s.withDevIn v).pins = s.pins := rfl
@[simp] theorem withDevIn_bus (s : State) (v : List Word) : (s.withDevIn v).bus = s.bus := rfl
@[simp] theorem withDevIn_ioIn (s : State) (v : List Word) : (s.withDevIn v).ioIn = s.ioIn := rfl
@[simp] theorem withDevIn_ioOut (s : State) (v : List Word) : (s.withDevIn v).ioOut = s.ioOut := rfl
@[simp] theorem withDevIn_devIn (s : State) (v : List Word) : (s.withDevIn v).devIn = v := rfl
@[simp] theorem withDevIn_devOut (s : State) (v : List Word) : (s.withDevIn v).devOut = s.devOut := rfl
@[simp] theorem withDevIn_draws (s : State) (v : List Word) : (s.withDevIn v).draws = s.draws := rfl
@[simp] theorem withDevIn_params (s : State) (v : List Word) : (s.withDevIn v).params = s.params := rfl

@[simp] theorem withDevOut_pc (s : State) (v : List (Nat × Word)) : (s.withDevOut v).pc = s.pc := rfl
@[simp] theorem withDevOut_wp (s : State) (v : List (Nat × Word)) : (s.withDevOut v).wp = s.wp := rfl
@[simp] theorem withDevOut_st (s : State) (v : List (Nat × Word)) : (s.withDevOut v).st = s.st := rfl
@[simp] theorem withDevOut_privop (s : State) (v : List (Nat × Word)) : (s.withDevOut v).privop = s.privop := rfl
@[simp] theorem withDevOut_illop (s : State) (v : List (Nat × Word)) : (s.withDevOut v).illop = s.illop := rfl
@[simp] theorem withDevOut_af (s : State) (v : List (Nat × Word)) : (s.withDevOut v).af = s.af := rfl
@[simp] theorem withDevOut_mem (s : State) (v : List (Nat × Word)) : (s.withDevOut v).mem = s.mem := rfl
@[simp] theorem withDevOut_ms (s : State) (v : List (Nat × Word)) : (s.withDevOut v).ms = s.ms := rfl
@[simp] theorem withDevOut_nmiPending (s : State) (v : List (Nat × Word)) :
    (s.withDevOut v).nmiPending = s.nmiPending := rfl
@[simp] theorem withDevOut_nmiLast (s : State) (v : List (Nat × Word)) : (s.withDevOut v).nmiLast = s.nmiLast := rfl
@[simp] theorem withDevOut_inhibit (s : State) (v : List (Nat × Word)) : (s.withDevOut v).inhibit = s.inhibit := rfl
@[simp] theorem withDevOut_msMode (s : State) (v : List (Nat × Word)) : (s.withDevOut v).msMode = s.msMode := rfl
@[simp] theorem withDevOut_inMs (s : State) (v : List (Nat × Word)) : (s.withDevOut v).inMs = s.inMs := rfl
@[simp] theorem withDevOut_ldf (s : State) (v : List (Nat × Word)) : (s.withDevOut v).ldf = s.ldf := rfl
@[simp] theorem withDevOut_idle (s : State) (v : List (Nat × Word)) : (s.withDevOut v).idle = s.idle := rfl
@[simp] theorem withDevOut_prefetch (s : State) (v : List (Nat × Word)) : (s.withDevOut v).prefetch = s.prefetch := rfl
@[simp] theorem withDevOut_wr7Ws (s : State) (v : List (Nat × Word)) : (s.withDevOut v).wr7Ws = s.wr7Ws := rfl
@[simp] theorem withDevOut_wr8Ws (s : State) (v : List (Nat × Word)) : (s.withDevOut v).wr8Ws = s.wr8Ws := rfl
@[simp] theorem withDevOut_ioInhibit (s : State) (v : List (Nat × Word)) :
    (s.withDevOut v).ioInhibit = s.ioInhibit := rfl
@[simp] theorem withDevOut_apHold (s : State) (v : List (Nat × Word)) : (s.withDevOut v).apHold = s.apHold := rfl
@[simp] theorem withDevOut_xTarget (s : State) (v : List (Nat × Word)) : (s.withDevOut v).xTarget = s.xTarget := rfl
@[simp] theorem withDevOut_resetDue (s : State) (v : List (Nat × Word)) : (s.withDevOut v).resetDue = s.resetDue := rfl
@[simp] theorem withDevOut_pins (s : State) (v : List (Nat × Word)) : (s.withDevOut v).pins = s.pins := rfl
@[simp] theorem withDevOut_bus (s : State) (v : List (Nat × Word)) : (s.withDevOut v).bus = s.bus := rfl
@[simp] theorem withDevOut_ioIn (s : State) (v : List (Nat × Word)) : (s.withDevOut v).ioIn = s.ioIn := rfl
@[simp] theorem withDevOut_ioOut (s : State) (v : List (Nat × Word)) : (s.withDevOut v).ioOut = s.ioOut := rfl
@[simp] theorem withDevOut_devIn (s : State) (v : List (Nat × Word)) : (s.withDevOut v).devIn = s.devIn := rfl
@[simp] theorem withDevOut_devOut (s : State) (v : List (Nat × Word)) : (s.withDevOut v).devOut = v := rfl
@[simp] theorem withDevOut_draws (s : State) (v : List (Nat × Word)) : (s.withDevOut v).draws = s.draws := rfl
@[simp] theorem withDevOut_params (s : State) (v : List (Nat × Word)) : (s.withDevOut v).params = s.params := rfl

@[simp] theorem withDraws_pc (s : State) (v : Nat) : (s.withDraws v).pc = s.pc := rfl
@[simp] theorem withDraws_wp (s : State) (v : Nat) : (s.withDraws v).wp = s.wp := rfl
@[simp] theorem withDraws_st (s : State) (v : Nat) : (s.withDraws v).st = s.st := rfl
@[simp] theorem withDraws_privop (s : State) (v : Nat) : (s.withDraws v).privop = s.privop := rfl
@[simp] theorem withDraws_illop (s : State) (v : Nat) : (s.withDraws v).illop = s.illop := rfl
@[simp] theorem withDraws_af (s : State) (v : Nat) : (s.withDraws v).af = s.af := rfl
@[simp] theorem withDraws_mem (s : State) (v : Nat) : (s.withDraws v).mem = s.mem := rfl
@[simp] theorem withDraws_ms (s : State) (v : Nat) : (s.withDraws v).ms = s.ms := rfl
@[simp] theorem withDraws_nmiPending (s : State) (v : Nat) : (s.withDraws v).nmiPending = s.nmiPending := rfl
@[simp] theorem withDraws_nmiLast (s : State) (v : Nat) : (s.withDraws v).nmiLast = s.nmiLast := rfl
@[simp] theorem withDraws_inhibit (s : State) (v : Nat) : (s.withDraws v).inhibit = s.inhibit := rfl
@[simp] theorem withDraws_msMode (s : State) (v : Nat) : (s.withDraws v).msMode = s.msMode := rfl
@[simp] theorem withDraws_inMs (s : State) (v : Nat) : (s.withDraws v).inMs = s.inMs := rfl
@[simp] theorem withDraws_ldf (s : State) (v : Nat) : (s.withDraws v).ldf = s.ldf := rfl
@[simp] theorem withDraws_idle (s : State) (v : Nat) : (s.withDraws v).idle = s.idle := rfl
@[simp] theorem withDraws_prefetch (s : State) (v : Nat) : (s.withDraws v).prefetch = s.prefetch := rfl
@[simp] theorem withDraws_wr7Ws (s : State) (v : Nat) : (s.withDraws v).wr7Ws = s.wr7Ws := rfl
@[simp] theorem withDraws_wr8Ws (s : State) (v : Nat) : (s.withDraws v).wr8Ws = s.wr8Ws := rfl
@[simp] theorem withDraws_ioInhibit (s : State) (v : Nat) : (s.withDraws v).ioInhibit = s.ioInhibit := rfl
@[simp] theorem withDraws_apHold (s : State) (v : Nat) : (s.withDraws v).apHold = s.apHold := rfl
@[simp] theorem withDraws_xTarget (s : State) (v : Nat) : (s.withDraws v).xTarget = s.xTarget := rfl
@[simp] theorem withDraws_resetDue (s : State) (v : Nat) : (s.withDraws v).resetDue = s.resetDue := rfl
@[simp] theorem withDraws_pins (s : State) (v : Nat) : (s.withDraws v).pins = s.pins := rfl
@[simp] theorem withDraws_bus (s : State) (v : Nat) : (s.withDraws v).bus = s.bus := rfl
@[simp] theorem withDraws_ioIn (s : State) (v : Nat) : (s.withDraws v).ioIn = s.ioIn := rfl
@[simp] theorem withDraws_ioOut (s : State) (v : Nat) : (s.withDraws v).ioOut = s.ioOut := rfl
@[simp] theorem withDraws_devIn (s : State) (v : Nat) : (s.withDraws v).devIn = s.devIn := rfl
@[simp] theorem withDraws_devOut (s : State) (v : Nat) : (s.withDraws v).devOut = s.devOut := rfl
@[simp] theorem withDraws_draws (s : State) (v : Nat) : (s.withDraws v).draws = v := rfl
@[simp] theorem withDraws_params (s : State) (v : Nat) : (s.withDraws v).params = s.params := rfl

@[simp] theorem withParams_pc (s : State) (v : Params) : (s.withParams v).pc = s.pc := rfl
@[simp] theorem withParams_wp (s : State) (v : Params) : (s.withParams v).wp = s.wp := rfl
@[simp] theorem withParams_st (s : State) (v : Params) : (s.withParams v).st = s.st := rfl
@[simp] theorem withParams_privop (s : State) (v : Params) : (s.withParams v).privop = s.privop := rfl
@[simp] theorem withParams_illop (s : State) (v : Params) : (s.withParams v).illop = s.illop := rfl
@[simp] theorem withParams_af (s : State) (v : Params) : (s.withParams v).af = s.af := rfl
@[simp] theorem withParams_mem (s : State) (v : Params) : (s.withParams v).mem = s.mem := rfl
@[simp] theorem withParams_ms (s : State) (v : Params) : (s.withParams v).ms = s.ms := rfl
@[simp] theorem withParams_nmiPending (s : State) (v : Params) : (s.withParams v).nmiPending = s.nmiPending := rfl
@[simp] theorem withParams_nmiLast (s : State) (v : Params) : (s.withParams v).nmiLast = s.nmiLast := rfl
@[simp] theorem withParams_inhibit (s : State) (v : Params) : (s.withParams v).inhibit = s.inhibit := rfl
@[simp] theorem withParams_msMode (s : State) (v : Params) : (s.withParams v).msMode = s.msMode := rfl
@[simp] theorem withParams_inMs (s : State) (v : Params) : (s.withParams v).inMs = s.inMs := rfl
@[simp] theorem withParams_ldf (s : State) (v : Params) : (s.withParams v).ldf = s.ldf := rfl
@[simp] theorem withParams_idle (s : State) (v : Params) : (s.withParams v).idle = s.idle := rfl
@[simp] theorem withParams_prefetch (s : State) (v : Params) : (s.withParams v).prefetch = s.prefetch := rfl
@[simp] theorem withParams_wr7Ws (s : State) (v : Params) : (s.withParams v).wr7Ws = s.wr7Ws := rfl
@[simp] theorem withParams_wr8Ws (s : State) (v : Params) : (s.withParams v).wr8Ws = s.wr8Ws := rfl
@[simp] theorem withParams_ioInhibit (s : State) (v : Params) : (s.withParams v).ioInhibit = s.ioInhibit := rfl
@[simp] theorem withParams_apHold (s : State) (v : Params) : (s.withParams v).apHold = s.apHold := rfl
@[simp] theorem withParams_xTarget (s : State) (v : Params) : (s.withParams v).xTarget = s.xTarget := rfl
@[simp] theorem withParams_resetDue (s : State) (v : Params) : (s.withParams v).resetDue = s.resetDue := rfl
@[simp] theorem withParams_pins (s : State) (v : Params) : (s.withParams v).pins = s.pins := rfl
@[simp] theorem withParams_bus (s : State) (v : Params) : (s.withParams v).bus = s.bus := rfl
@[simp] theorem withParams_ioIn (s : State) (v : Params) : (s.withParams v).ioIn = s.ioIn := rfl
@[simp] theorem withParams_ioOut (s : State) (v : Params) : (s.withParams v).ioOut = s.ioOut := rfl
@[simp] theorem withParams_devIn (s : State) (v : Params) : (s.withParams v).devIn = s.devIn := rfl
@[simp] theorem withParams_devOut (s : State) (v : Params) : (s.withParams v).devOut = s.devOut := rfl
@[simp] theorem withParams_draws (s : State) (v : Params) : (s.withParams v).draws = s.draws := rfl
@[simp] theorem withParams_params (s : State) (v : Params) : (s.withParams v).params = v := rfl

end Sys2Proof.Machine.State
end

