-- ==== Sys2Proof/Laws/Ops.lean ====
section
/-! SUPPORT. What each shared operation answers: how computations compose, and, on a calm bus, the one outcome every
access has, in main memory and inside Macrostore, so that a meaning is evaluated by rewriting and never unfolded
further. -/

namespace Sys2Proof.Machine

/-! ### Composition -/

@[simp] theorem M.pure_apply {α : Type} (a : α) (s : State) : (pure a : M α) s = .ok (a, s) := rfl

theorem M.bind_apply {α β : Type} (m : M α) (f : α → M β) (s : State) :
    (m >>= f) s = match m s with
      | .ok (a, t) => f a t
      | .error e => .error e := by
  show (StateT.bind m f) s = _
  unfold StateT.bind
  rcases h : m s with e | ⟨a, t⟩ <;> rfl

/-- If the first computation answers, the second runs from there. -/
theorem M.bind_ok {α β : Type} {m : M α} {f : α → M β} {s t : State} {a : α} (h : m s = .ok (a, t)) :
    (m >>= f) s = f a t := by rw [M.bind_apply, h]

/-- A composed computation answers only through an answer of its first part. -/
theorem M.bind_eq_ok {α β : Type} {m : M α} {f : α → M β} {s t : State} {b : β} :
    (m >>= f) s = .ok (b, t) ↔ ∃ a u, m s = .ok (a, u) ∧ f a u = .ok (b, t) := by
  rw [M.bind_apply]
  rcases h : m s with e | ⟨a, u⟩
  · simp
  · constructor
    · intro h2; exact ⟨a, u, rfl, h2⟩
    · rintro ⟨a', u', h1, h2⟩; cases h1; exact h2

/-- Changing what a computation answers. -/
theorem M.map_apply {α β : Type} (f : α → β) (m : M α) (s : State) :
    (f <$> m) s = match m s with
      | .ok (a, t) => .ok (f a, t)
      | .error e => .error e := by
  show (StateT.map f m) s = _
  unfold StateT.map
  rcases h : m s with e | ⟨a, t⟩ <;> rfl

@[simp] theorem gets_apply {α : Type} (f : State → α) (s : State) : gets f s = .ok (f s, s) := rfl
@[simp] theorem update_apply (f : State → State) (s : State) : update f s = .ok ((), f s) := rfl
@[simp] theorem refuse_apply {α : Type} (r : Refusal) (s : State) :
    (refuse r : M α) s = .error (.refused r) := rfl

@[simp] theorem gets_bind {α β : Type} (f : State → α) (g : α → M β) (s : State) :
    (gets f >>= g) s = g (f s) s := rfl
@[simp] theorem update_bind {β : Type} (f : State → State) (g : Unit → M β) (s : State) :
    (update f >>= g) s = g () (f s) := rfl
@[simp] theorem pure_bind_apply {α β : Type} (a : α) (g : α → M β) (s : State) :
    ((pure a : M α) >>= g) s = g a s := rfl
@[simp] theorem refuse_bind {α β : Type} (r : Refusal) (g : α → M β) (s : State) :
    ((refuse r : M α) >>= g) s = .error (.refused r) := rfl

/-- A choice between computations, decided before it is run. -/
theorem M.ite_apply {α : Type} (c : Prop) [Decidable c] (m n : M α) (s : State) :
    (if c then m else n) s = if c then m s else n s := by split <;> rfl

/-- A computation answers a next state by finishing, or by being cut. -/
theorem outcome_next {m : M Unit} {s t : State} :
    outcome m s = .next t ↔ m s = .ok ((), t) ∨ ∃ u, m s = .error (.cut u) ∧ t = u.cutShort := by
  unfold outcome
  rcases h : m s with e | ⟨a, u⟩
  · cases e <;> simp [State.cutShort, eq_comm]
  · simp

/-- A computation that finishes answers the state it finishes in. -/
theorem outcome_ok {m : M Unit} {s t : State} (h : m s = .ok ((), t)) : outcome m s = .next t :=
  outcome_next.2 (.inl h)

/-- A computation that is cut answers the state of the cut. -/
theorem outcome_cut {m : M Unit} {s t : State} (h : m s = .error (.cut t)) : outcome m s = .next t.cutShort :=
  outcome_next.2 (.inr ⟨t, h, rfl⟩)

/-! ### One bus cycle, on every bus -/

/-- All a bus cycle that ends can have done: nothing, or an event has let the other masters write. -/
theorem busCycle_ok {s t : State} {a : Unit} (h : busCycle s = .ok (a, t)) :
    (s.bus = [] ∧ t = s) ∨
    ∃ e rest, s.bus = e :: rest ∧ e.reset = false ∧ e.ready = true ∧ t = (s.withBus rest).served e := by
  unfold busCycle at h
  split at h
  · rename_i hb; cases h; exact .inl ⟨hb, rfl⟩
  · rename_i e rest hb
    cases h1 : e.reset <;> cases h2 : e.ready <;> simp only [h1, h2, Bool.false_eq_true, if_true, if_false] at h <;>
      cases h
    exact .inr ⟨e, rest, hb, h1, h2, rfl⟩

/-- All that can stop a bus cycle: RESET, after the other masters have written, or a READY that never comes. -/
theorem busCycle_error {s : State} {x : Stop} (h : busCycle s = .error x) :
    ∃ e rest, s.bus = e :: rest ∧
      ((e.reset = true ∧ x = .cut ((s.withBus rest).served e)) ∨
       (e.reset = false ∧ e.ready = false ∧ x = .refused .neverReady)) := by
  unfold busCycle at h
  split at h
  · cases h
  · rename_i e rest hb
    cases h1 : e.reset <;> cases h2 : e.ready <;> simp only [h1, h2, Bool.false_eq_true, if_true, if_false] at h <;>
      cases h
    · exact ⟨e, rest, hb, .inr ⟨h1, h2, rfl⟩⟩
    · exact ⟨e, rest, hb, .inl ⟨h1, rfl⟩⟩
    · exact ⟨e, rest, hb, .inl ⟨h1, rfl⟩⟩

/-! ### A calm bus -/

/-- On a calm bus a cycle changes nothing. -/
theorem busCycle_calm {s : State} (h : s.calm) : busCycle s = .ok ((), s) := by simp [busCycle, h.1]

/-- On a calm bus every main-memory address holds RAM or ROM. -/
theorem State.calm.kind {s : State} (h : s.calm) (n : Nat) :
    mainKind s.params n = .ram ∨ mainKind s.params n = .rom := by
  unfold mainKind
  split
  · rename_i r hr
    have := List.all_eq_true.1 (show _ = true from h.2) r (List.mem_of_find?_eq_some hr)
    exact .inr (by simpa using this)
  · exact .inl rfl

/-- Whether a bus is calm depends on what is to come on it and on the platform alone. -/
theorem State.calm.of_eq {s t : State} (h : s.calm) (hb : t.bus = s.bus) (hp : t.params = s.params) : t.calm := by
  unfold State.calm State.memoryOnly; rw [hb, hp]; exact h

@[simp] theorem calm_withPc (s : State) (v : Word) : (s.withPc v).calm ↔ s.calm := Iff.rfl
@[simp] theorem calm_withWp (s : State) (v : Word) : (s.withWp v).calm ↔ s.calm := Iff.rfl
@[simp] theorem calm_withSt (s : State) (v : Word) : (s.withSt v).calm ↔ s.calm := Iff.rfl
@[simp] theorem calm_withPrivop (s : State) (v : Bool) : (s.withPrivop v).calm ↔ s.calm := Iff.rfl
@[simp] theorem calm_withIllop (s : State) (v : Bool) : (s.withIllop v).calm ↔ s.calm := Iff.rfl
@[simp] theorem calm_withAf (s : State) (v : Bool) : (s.withAf v).calm ↔ s.calm := Iff.rfl
@[simp] theorem calm_withMem (s : State) (v : Mem) : (s.withMem v).calm ↔ s.calm := Iff.rfl
@[simp] theorem calm_withMs (s : State) (v : Mem) : (s.withMs v).calm ↔ s.calm := Iff.rfl
@[simp] theorem calm_withNmiPending (s : State) (v : Bool) : (s.withNmiPending v).calm ↔ s.calm := Iff.rfl
@[simp] theorem calm_withNmiLast (s : State) (v : Bool) : (s.withNmiLast v).calm ↔ s.calm := Iff.rfl
@[simp] theorem calm_withInhibit (s : State) (v : Inhibit) : (s.withInhibit v).calm ↔ s.calm := Iff.rfl
@[simp] theorem calm_withMsMode (s : State) (v : MsMode) : (s.withMsMode v).calm ↔ s.calm := Iff.rfl
@[simp] theorem calm_withInMs (s : State) (v : Bool) : (s.withInMs v).calm ↔ s.calm := Iff.rfl
@[simp] theorem calm_withLdf (s : State) (v : BitVec 3) : (s.withLdf v).calm ↔ s.calm := Iff.rfl
@[simp] theorem calm_withIdle (s : State) (v : Bool) : (s.withIdle v).calm ↔ s.calm := Iff.rfl
@[simp] theorem calm_withPrefetch (s : State) (v : Option Word) : (s.withPrefetch v).calm ↔ s.calm := Iff.rfl
@[simp] theorem calm_withWr7Ws (s : State) (v : Bool) : (s.withWr7Ws v).calm ↔ s.calm := Iff.rfl
@[simp] theorem calm_withWr8Ws (s : State) (v : Bool) : (s.withWr8Ws v).calm ↔ s.calm := Iff.rfl
@[simp] theorem calm_withIoInhibit (s : State) (v : Bool) : (s.withIoInhibit v).calm ↔ s.calm := Iff.rfl
@[simp] theorem calm_withApHold (s : State) (v : Bool) : (s.withApHold v).calm ↔ s.calm := Iff.rfl
@[simp] theorem calm_withXTarget (s : State) (v : Option Word) : (s.withXTarget v).calm ↔ s.calm := Iff.rfl
@[simp] theorem calm_withResetDue (s : State) (v : Bool) : (s.withResetDue v).calm ↔ s.calm := Iff.rfl
@[simp] theorem calm_withPins (s : State) (v : Pins) : (s.withPins v).calm ↔ s.calm := Iff.rfl
@[simp] theorem calm_withIoIn (s : State) (v : List Word) : (s.withIoIn v).calm ↔ s.calm := Iff.rfl
@[simp] theorem calm_withIoOut (s : State) (v : List IoWrite) : (s.withIoOut v).calm ↔ s.calm := Iff.rfl
@[simp] theorem calm_withDevIn (s : State) (v : List Word) : (s.withDevIn v).calm ↔ s.calm := Iff.rfl
@[simp] theorem calm_withDevOut (s : State) (v : List (Nat × Word)) : (s.withDevOut v).calm ↔ s.calm := Iff.rfl
@[simp] theorem calm_withDraws (s : State) (v : Nat) : (s.withDraws v).calm ↔ s.calm := Iff.rfl

/-- What stands at a Macrostore address depends on the mode and the platform alone. -/
theorem msRegion_of_eq {s t : State} (hm : t.msMode = s.msMode) (hp : t.params = s.params) (a : Word) :
    msRegion t a = msRegion s a := by unfold msRegion; rw [hm, hp]

@[simp] theorem msRegion_withPc (s : State) (v : Word) (a : Word) : msRegion (s.withPc v) a = msRegion s a := rfl
@[simp] theorem msRegion_withWp (s : State) (v : Word) (a : Word) : msRegion (s.withWp v) a = msRegion s a := rfl
@[simp] theorem msRegion_withSt (s : State) (v : Word) (a : Word) : msRegion (s.withSt v) a = msRegion s a := rfl
@[simp] theorem msRegion_withPrivop (s : State) (v : Bool) (a : Word) :
    msRegion (s.withPrivop v) a = msRegion s a := rfl
@[simp] theorem msRegion_withIllop (s : State) (v : Bool) (a : Word) : msRegion (s.withIllop v) a = msRegion s a := rfl
@[simp] theorem msRegion_withAf (s : State) (v : Bool) (a : Word) : msRegion (s.withAf v) a = msRegion s a := rfl
@[simp] theorem msRegion_withMem (s : State) (v : Mem) (a : Word) : msRegion (s.withMem v) a = msRegion s a := rfl
@[simp] theorem msRegion_withMs (s : State) (v : Mem) (a : Word) : msRegion (s.withMs v) a = msRegion s a := rfl
@[simp] theorem msRegion_withNmiPending (s : State) (v : Bool) (a : Word) :
    msRegion (s.withNmiPending v) a = msRegion s a := rfl
@[simp] theorem msRegion_withNmiLast (s : State) (v : Bool) (a : Word) :
    msRegion (s.withNmiLast v) a = msRegion s a := rfl
@[simp] theorem msRegion_withInhibit (s : State) (v : Inhibit) (a : Word) :
    msRegion (s.withInhibit v) a = msRegion s a := rfl
@[simp] theorem msRegion_withInMs (s : State) (v : Bool) (a : Word) : msRegion (s.withInMs v) a = msRegion s a := rfl
@[simp] theorem msRegion_withLdf (s : State) (v : BitVec 3) (a : Word) : msRegion (s.withLdf v) a = msRegion s a := rfl
@[simp] theorem msRegion_withIdle (s : State) (v : Bool) (a : Word) : msRegion (s.withIdle v) a = msRegion s a := rfl
@[simp] theorem msRegion_withPrefetch (s : State) (v : Option Word) (a : Word) :
    msRegion (s.withPrefetch v) a = msRegion s a := rfl
@[simp] theorem msRegion_withWr7Ws (s : State) (v : Bool) (a : Word) : msRegion (s.withWr7Ws v) a = msRegion s a := rfl
@[simp] theorem msRegion_withWr8Ws (s : State) (v : Bool) (a : Word) : msRegion (s.withWr8Ws v) a = msRegion s a := rfl
@[simp] theorem msRegion_withIoInhibit (s : State) (v : Bool) (a : Word) :
    msRegion (s.withIoInhibit v) a = msRegion s a := rfl
@[simp] theorem msRegion_withApHold (s : State) (v : Bool) (a : Word) :
    msRegion (s.withApHold v) a = msRegion s a := rfl
@[simp] theorem msRegion_withXTarget (s : State) (v : Option Word) (a : Word) :
    msRegion (s.withXTarget v) a = msRegion s a := rfl
@[simp] theorem msRegion_withResetDue (s : State) (v : Bool) (a : Word) :
    msRegion (s.withResetDue v) a = msRegion s a := rfl
@[simp] theorem msRegion_withPins (s : State) (v : Pins) (a : Word) : msRegion (s.withPins v) a = msRegion s a := rfl
@[simp] theorem msRegion_withBus (s : State) (v : List BusEvent) (a : Word) :
    msRegion (s.withBus v) a = msRegion s a := rfl
@[simp] theorem msRegion_withIoIn (s : State) (v : List Word) (a : Word) :
    msRegion (s.withIoIn v) a = msRegion s a := rfl
@[simp] theorem msRegion_withIoOut (s : State) (v : List IoWrite) (a : Word) :
    msRegion (s.withIoOut v) a = msRegion s a := rfl
@[simp] theorem msRegion_withDevIn (s : State) (v : List Word) (a : Word) :
    msRegion (s.withDevIn v) a = msRegion s a := rfl
@[simp] theorem msRegion_withDevOut (s : State) (v : List (Nat × Word)) (a : Word) :
    msRegion (s.withDevOut v) a = msRegion s a := rfl
@[simp] theorem msRegion_withDraws (s : State) (v : Nat) (a : Word) : msRegion (s.withDraws v) a = msRegion s a := rfl

theorem State.reads.of_eq {s t : State} {l : Loc} (h : s.reads l) (hm : t.msMode = s.msMode)
    (hp : t.params = s.params) : t.reads l := by unfold State.reads; rw [msRegion_of_eq hm hp]; exact h

theorem State.writes.of_eq {s t : State} {l : Loc} (h : s.writes l) (hm : t.msMode = s.msMode)
    (hp : t.params = s.params) : t.writes l := by unfold State.writes; rw [msRegion_of_eq hm hp]; exact h

/-- Every access to main memory succeeds. -/
theorem State.reads_main {s : State} {l : Loc} (h : l.space = .main) : s.reads l := by simp [State.reads, h]
theorem State.writes_main {s : State} {l : Loc} (h : l.space = .main) : s.writes l := by simp [State.writes, h]

/-- Where a word can be written one can be read. -/
theorem State.writes.reads {s : State} {l : Loc} (h : s.writes l) : s.reads l := by
  intro hl; rcases h hl with h | h <;> simp [h]

/-! ### Words at locations -/

theorem mainAnswer_calm {s : State} (h : s.calm) (high : Bool) (code : BusCode) (a : Word) :
    mainAnswer high code a s = .ok (s.mainWord high code a, s) := by
  simp only [mainAnswer]
  rcases h.kind (physAddr s.params high code a.even) with e | e <;> simp [e]

theorem mainReadAs_calm {s : State} (h : s.calm) (high : Bool) (code : BusCode) (a : Word) :
    mainReadAs high code a s = .ok (s.mainWord high code a, s) := by
  simp only [mainReadAs, M.bind_ok (busCycle_calm h), mainAnswer_calm h]

theorem mainRead_calm {s : State} (h : s.calm) (code : BusCode) (a : Word) :
    mainRead code a s = .ok (s.mainWord (psel s code) code a, s) := by
  simp [mainRead, mainReadAs_calm h]

theorem mainWrite_calm {s : State} (h : s.calm) (code : BusCode) (a v : Word) :
    mainWrite code a v s = .ok ((), s.setMainWord (psel s code) code a v) := by
  simp [mainWrite, M.bind_ok (busCycle_calm h)]

theorem msRead_calm {s : State} (h : s.calm) {a : Word} (h1 : msRegion s a ≠ .absent)
    (h2 : msRegion s a ≠ .mromUnknown) : msRead a s = .ok (Mem.readWord s.ms a.even.toNat, s) := by
  simp only [msRead, M.bind_ok (busCycle_calm h)]

theorem msWrite_calm {s : State} (h : s.calm) {a : Word} (hr : msRegion s a = .ram ∨ msRegion s a = .extRom)
    (v : Word) : msWrite a v s = .ok ((), s.setMsWord a v) := by
  simp only [msWrite, M.bind_ok (busCycle_calm h)]
  rcases hr with hr | hr <;> simp [hr]

/-- A read gives the word at the location and changes nothing. -/
theorem readLoc_calm {s : State} {l : Loc} (h : s.calm) (hr : s.reads l) : readLoc l s = .ok (s.wordAt l, s) := by
  cases hs : l.space with
  | main => simp [readLoc, State.wordAt, hs, mainRead_calm h]
  | macrostore => simp [readLoc, State.wordAt, hs, msRead_calm h (hr hs).1 (hr hs).2]

/-- A read where nothing can be read is refused. -/
theorem readLoc_unread {s : State} {l : Loc} (h : s.calm) (hr : ¬ s.reads l) :
    readLoc l s = .error (.refused (s.unread l)) := by
  have hs : l.space = .macrostore := by
    cases hs : l.space with
    | main => exact absurd (State.reads_main hs) hr
    | macrostore => rfl
  simp only [readLoc, hs, msRead, M.bind_ok (busCycle_calm h), State.unread]
  cases hm : msRegion s l.addr <;> simp_all [State.reads]

/-- A write replaces the word at the location. -/
theorem writeLoc_calm {s : State} {l : Loc} (h : s.calm) (hw : s.writes l) (v : Word) :
    writeLoc l v s = .ok ((), s.putWord l v) := by
  cases hs : l.space with
  | main => simp [writeLoc, State.putWord, hs, mainWrite_calm h]
  | macrostore => simp [writeLoc, State.putWord, hs, msWrite_calm h (hw hs)]

/-- A read that answers on a calm bus gives the word at the location and changes nothing. -/
theorem readLoc_ok {l : Loc} {s t : State} {v : Word} (hc : s.calm) (h : readLoc l s = .ok (v, t)) :
    s.reads l ∧ v = s.wordAt l ∧ t = s := by
  have hr : s.reads l := by
    intro hs
    simp only [readLoc, hs, msRead, M.bind_ok (busCycle_calm hc)] at h
    constructor <;> (intro e; simp [e] at h)
  rw [readLoc_calm hc hr] at h
  simp at h; exact ⟨hr, h.1.symm, h.2.symm⟩

/-- A write that answers on a calm bus replaces the word at the location. -/
theorem writeLoc_ok {l : Loc} {v : Word} {s t : State} (hc : s.calm) (h : writeLoc l v s = .ok ((), t)) :
    s.writes l ∧ t = s.putWord l v := by
  have hw : s.writes l := by
    intro hs
    simp only [writeLoc, hs, msWrite, M.bind_ok (busCycle_calm hc)] at h
    cases hr : msRegion s l.addr <;> simp [hr] at h ⊢
  rw [writeLoc_calm hc hw] at h
  simp at h; exact ⟨hw, h.symm⟩

/-- Writing a word touches nothing but a memory and what the devices are handed. -/
theorem State.putWord_eq (s : State) (l : Loc) (v : Word) :
    ∃ m n d, s.putWord l v = ((s.withMem m).withMs n).withDevOut d := by
  unfold State.putWord State.setMainWord State.setMsWord
  split
  · dsimp only; split
    · exact ⟨Mem.writeWord s.mem (physAddr s.params (psel s l.code) l.code l.addr.even) v, s.ms, s.devOut, rfl⟩
    · exact ⟨s.mem, s.ms, s.devOut ++ [(physAddr s.params (psel s l.code) l.code l.addr.even, v)], rfl⟩
    · exact ⟨s.mem, s.ms, s.devOut, rfl⟩
  · split
    · exact ⟨s.mem, Mem.writeWord s.ms l.addr.even.toNat v, s.devOut, rfl⟩
    · exact ⟨s.mem, s.ms, s.devOut, rfl⟩

@[simp] theorem State.putWord_pc (s : State) (l : Loc) (v : Word) :
    (s.putWord l v).pc = s.pc := by
  obtain ⟨_, _, _, h⟩ := s.putWord_eq l v; rw [h]; rfl
@[simp] theorem State.putWord_wp (s : State) (l : Loc) (v : Word) :
    (s.putWord l v).wp = s.wp := by
  obtain ⟨_, _, _, h⟩ := s.putWord_eq l v; rw [h]; rfl
@[simp] theorem State.putWord_st (s : State) (l : Loc) (v : Word) :
    (s.putWord l v).st = s.st := by
  obtain ⟨_, _, _, h⟩ := s.putWord_eq l v; rw [h]; rfl
@[simp] theorem State.putWord_privop (s : State) (l : Loc) (v : Word) :
    (s.putWord l v).privop = s.privop := by
  obtain ⟨_, _, _, h⟩ := s.putWord_eq l v; rw [h]; rfl
@[simp] theorem State.putWord_illop (s : State) (l : Loc) (v : Word) :
    (s.putWord l v).illop = s.illop := by
  obtain ⟨_, _, _, h⟩ := s.putWord_eq l v; rw [h]; rfl
@[simp] theorem State.putWord_af (s : State) (l : Loc) (v : Word) :
    (s.putWord l v).af = s.af := by
  obtain ⟨_, _, _, h⟩ := s.putWord_eq l v; rw [h]; rfl
@[simp] theorem State.putWord_nmiPending (s : State) (l : Loc) (v : Word) :
    (s.putWord l v).nmiPending = s.nmiPending := by
  obtain ⟨_, _, _, h⟩ := s.putWord_eq l v; rw [h]; rfl
@[simp] theorem State.putWord_nmiLast (s : State) (l : Loc) (v : Word) :
    (s.putWord l v).nmiLast = s.nmiLast := by
  obtain ⟨_, _, _, h⟩ := s.putWord_eq l v; rw [h]; rfl
@[simp] theorem State.putWord_inhibit (s : State) (l : Loc) (v : Word) :
    (s.putWord l v).inhibit = s.inhibit := by
  obtain ⟨_, _, _, h⟩ := s.putWord_eq l v; rw [h]; rfl
@[simp] theorem State.putWord_msMode (s : State) (l : Loc) (v : Word) :
    (s.putWord l v).msMode = s.msMode := by
  obtain ⟨_, _, _, h⟩ := s.putWord_eq l v; rw [h]; rfl
@[simp] theorem State.putWord_inMs (s : State) (l : Loc) (v : Word) :
    (s.putWord l v).inMs = s.inMs := by
  obtain ⟨_, _, _, h⟩ := s.putWord_eq l v; rw [h]; rfl
@[simp] theorem State.putWord_ldf (s : State) (l : Loc) (v : Word) :
    (s.putWord l v).ldf = s.ldf := by
  obtain ⟨_, _, _, h⟩ := s.putWord_eq l v; rw [h]; rfl
@[simp] theorem State.putWord_idle (s : State) (l : Loc) (v : Word) :
    (s.putWord l v).idle = s.idle := by
  obtain ⟨_, _, _, h⟩ := s.putWord_eq l v; rw [h]; rfl
@[simp] theorem State.putWord_prefetch (s : State) (l : Loc) (v : Word) :
    (s.putWord l v).prefetch = s.prefetch := by
  obtain ⟨_, _, _, h⟩ := s.putWord_eq l v; rw [h]; rfl
@[simp] theorem State.putWord_wr7Ws (s : State) (l : Loc) (v : Word) :
    (s.putWord l v).wr7Ws = s.wr7Ws := by
  obtain ⟨_, _, _, h⟩ := s.putWord_eq l v; rw [h]; rfl
@[simp] theorem State.putWord_wr8Ws (s : State) (l : Loc) (v : Word) :
    (s.putWord l v).wr8Ws = s.wr8Ws := by
  obtain ⟨_, _, _, h⟩ := s.putWord_eq l v; rw [h]; rfl
@[simp] theorem State.putWord_ioInhibit (s : State) (l : Loc) (v : Word) :
    (s.putWord l v).ioInhibit = s.ioInhibit := by
  obtain ⟨_, _, _, h⟩ := s.putWord_eq l v; rw [h]; rfl
@[simp] theorem State.putWord_apHold (s : State) (l : Loc) (v : Word) :
    (s.putWord l v).apHold = s.apHold := by
  obtain ⟨_, _, _, h⟩ := s.putWord_eq l v; rw [h]; rfl
@[simp] theorem State.putWord_xTarget (s : State) (l : Loc) (v : Word) :
    (s.putWord l v).xTarget = s.xTarget := by
  obtain ⟨_, _, _, h⟩ := s.putWord_eq l v; rw [h]; rfl
@[simp] theorem State.putWord_resetDue (s : State) (l : Loc) (v : Word) :
    (s.putWord l v).resetDue = s.resetDue := by
  obtain ⟨_, _, _, h⟩ := s.putWord_eq l v; rw [h]; rfl
@[simp] theorem State.putWord_pins (s : State) (l : Loc) (v : Word) :
    (s.putWord l v).pins = s.pins := by
  obtain ⟨_, _, _, h⟩ := s.putWord_eq l v; rw [h]; rfl
@[simp] theorem State.putWord_bus (s : State) (l : Loc) (v : Word) :
    (s.putWord l v).bus = s.bus := by
  obtain ⟨_, _, _, h⟩ := s.putWord_eq l v; rw [h]; rfl
@[simp] theorem State.putWord_ioIn (s : State) (l : Loc) (v : Word) :
    (s.putWord l v).ioIn = s.ioIn := by
  obtain ⟨_, _, _, h⟩ := s.putWord_eq l v; rw [h]; rfl
@[simp] theorem State.putWord_ioOut (s : State) (l : Loc) (v : Word) :
    (s.putWord l v).ioOut = s.ioOut := by
  obtain ⟨_, _, _, h⟩ := s.putWord_eq l v; rw [h]; rfl
@[simp] theorem State.putWord_devIn (s : State) (l : Loc) (v : Word) :
    (s.putWord l v).devIn = s.devIn := by
  obtain ⟨_, _, _, h⟩ := s.putWord_eq l v; rw [h]; rfl
@[simp] theorem State.putWord_draws (s : State) (l : Loc) (v : Word) :
    (s.putWord l v).draws = s.draws := by
  obtain ⟨_, _, _, h⟩ := s.putWord_eq l v; rw [h]; rfl
@[simp] theorem State.putWord_params (s : State) (l : Loc) (v : Word) :
    (s.putWord l v).params = s.params := by
  obtain ⟨_, _, _, h⟩ := s.putWord_eq l v; rw [h]; rfl

theorem State.putWord_ms {l : Loc} (h : l.space = .main) (s : State) (v : Word) : (s.putWord l v).ms = s.ms := by
  simp only [State.putWord, State.setMainWord, h]; split <;> rfl

/-- On a calm bus no device is handed anything. -/
theorem State.putWord_devOut {s : State} (hc : s.calm) (l : Loc) (v : Word) : (s.putWord l v).devOut = s.devOut := by
  cases hs : l.space with
  | main =>
    simp only [State.putWord, State.setMainWord, hs]
    rcases hc.kind (physAddr s.params (psel s l.code) l.code l.addr.even) with e | e <;> simp [e]
  | macrostore =>
    simp only [State.putWord, State.setMsWord, hs]; split <;> rfl

@[simp] theorem calm_putWord (s : State) (l : Loc) (v : Word) : (s.putWord l v).calm ↔ s.calm :=
  ⟨fun h => h.of_eq (by simp) (by simp), fun h => h.of_eq (by simp) (by simp)⟩
@[simp] theorem msRegion_putWord (s : State) (l : Loc) (v a : Word) :
    msRegion (s.putWord l v) a = msRegion s a := msRegion_of_eq (by simp) (by simp) a

theorem SameControl.refl (s : State) : SameControl s s := by simp [SameControl]

theorem SameControl.trans {s t u : State} (h : SameControl s t) (k : SameControl t u) : SameControl s u := by
  unfold SameControl at *
  obtain ⟨h1, h2, h3, h4, h5, h6, h7, h8, h9, h10, h11, h12, h13, h14, h15, h16, h17, h18, h19, h20, h21, h22, h23,
    h24⟩ := h
  simpa [h1, h2, h3, h4, h5, h6, h7, h8, h9, h10, h11, h12, h13, h14, h15, h16, h17, h18, h19, h20, h21, h22, h23, h24]
    using k

theorem SameControl.putWord {s : State} (hc : s.calm) (l : Loc) (v : Word) : SameControl s (s.putWord l v) := by
  simp [SameControl, State.putWord_devOut hc]

/-- The selection of a page does not depend on the memories. -/
@[simp] theorem psel_putWord (s : State) (l : Loc) (v : Word) (c : BusCode) : psel (s.putWord l v) c = psel s c := by
  cases c <;> simp [psel, State.longSource, State.longDest, State.mapSelect]

/-! ### Registers and the instruction stream -/

theorem State.regLoc_main {s : State} (h : s.inMs = false) (r : Nibble) :
    s.regLoc r = { space := .main, addr := s.regAddr r, code := .ws } := by
  simp [State.regLoc, State.space, h]

theorem State.regLoc_macrostore {s : State} (h : s.inMs = true) (r : Nibble) :
    s.regLoc r = { space := .macrostore, addr := s.regAddr r, code := .ws } := by
  simp [State.regLoc, State.space, h]

/-- The registers of a workspace lie at the same addresses whatever was stored. -/
@[simp] theorem State.regLoc_putWord (s : State) (l : Loc) (v : Word) (r : Nibble) :
    (s.putWord l v).regLoc r = s.regLoc r := by
  simp [State.regLoc, State.space, State.regAddr]

/-- In main memory the registers and the instruction stream can always be read and written. -/
theorem State.reads_regLoc {s : State} (h : s.inMs = false) (r : Nibble) : s.reads (s.regLoc r) :=
  State.reads_main (by simp [State.regLoc_main h])
theorem State.writes_regLoc {s : State} (h : s.inMs = false) (r : Nibble) : s.writes (s.regLoc r) :=
  State.writes_main (by simp [State.regLoc_main h])
theorem State.reads_streamLoc {s : State} (h : s.inMs = false) : s.reads s.streamLoc :=
  State.reads_main (by simp [State.streamLoc, State.space, h])
theorem State.reads_opcodeLoc {s : State} (h : s.inMs = false) : s.reads s.opcodeLoc :=
  State.reads_main (by simp [State.opcodeLoc, State.space, h])

/-- In main memory every operand can be derived. -/
theorem State.derives_main {s : State} (h : s.inMs = false) (op : Operand) : s.derives op := by
  cases op <;> simp [State.derives, State.reads_regLoc h, State.writes_regLoc h, State.reads_streamLoc h]

theorem readReg_calm {s : State} (h : s.calm) {r : Nibble} (hr : s.reads (s.regLoc r)) :
    readReg r s = .ok (s.wr r, s) := by
  simp only [readReg, gets_bind]; rw [readLoc_calm h hr]; rfl

theorem writeReg_calm {s : State} (h : s.calm) {r : Nibble} (hw : s.writes (s.regLoc r)) (v : Word) :
    writeReg r v s = .ok ((), s.putWr r v) := by
  simp only [writeReg, gets_bind]; rw [writeLoc_calm h hw]; rfl

theorem readReg_main {s : State} (hc : s.calm) (h : s.inMs = false) (r : Nibble) : readReg r s = .ok (s.wr r, s) :=
  readReg_calm hc (State.reads_regLoc h r)

theorem writeReg_main {s : State} (hc : s.calm) (h : s.inMs = false) (r : Nibble) (v : Word) :
    writeReg r v s = .ok ((), s.putWr r v) := writeReg_calm hc (State.writes_regLoc h r) v

@[simp] theorem setPc_apply (v : Word) (s : State) : setPc v s = .ok ((), s.withPc v.even) := rfl
@[simp] theorem setWp_apply (v : Word) (s : State) : setWp v s = .ok ((), s.withWp v.even) := rfl
@[simp] theorem updateSt_apply (f : Word → Word) (s : State) :
    updateSt f s = .ok ((), s.withSt (f s.st)) := rfl
@[simp] theorem setPc_bind {β : Type} (v : Word) (g : Unit → M β) (s : State) :
    (setPc v >>= g) s = g () (s.withPc v.even) := rfl
@[simp] theorem setWp_bind {β : Type} (v : Word) (g : Unit → M β) (s : State) :
    (setWp v >>= g) s = g () (s.withWp v.even) := rfl
@[simp] theorem updateSt_bind {β : Type} (f : Word → Word) (g : Unit → M β) (s : State) :
    (updateSt f >>= g) s = g () (s.withSt (f s.st)) := rfl

/-- On a calm bus the ST cycle, the WP cycle and the cycle after the prefetch only change their register. -/
theorem stCycle_calm {s : State} (h : s.calm) (f : Word → Word) : stCycle f s = .ok ((), s.withSt (f s.st)) := by
  simp [stCycle, M.bind_ok (busCycle_calm h)]
theorem wpCycle_calm {s : State} (h : s.calm) (v : Word) : wpCycle v s = .ok ((), s.withWp v.even) := by
  simp [wpCycle, M.bind_ok (busCycle_calm h)]
theorem settle_calm {s : State} (h : s.calm) (f : Word → Word) : settle f s = .ok ((), s.withSt (f s.st)) := by
  simp [settle, M.bind_ok (busCycle_calm h)]

/-- X reads the word of its target and changes nothing. -/
theorem readTarget_calm {s : State} {l : Loc} (h : s.calm) (hr : s.reads l) :
    readTarget l s = .ok (s.targetAt l, s) := by
  simp only [readTarget, gets_bind, State.targetAt, M.ite_apply]
  split
  · exact mainReadAs_calm h _ _ _
  · exact readLoc_calm h hr

/-- Without the segments of spec/20_memory.md R110, or where the target is data, X reads the word at the location. -/
theorem targetAt_flat {s : State} {l : Loc} (h : s.params.useSegment = false ∨ s.params.xFromInstructionSegment = false) :
    s.targetAt l = s.wordAt l := by
  unfold State.targetAt
  split
  · rename_i hx
    simp only [Bool.and_eq_true, beq_iff_eq] at hx
    have hu : s.params.useSegment = false := by rcases h with h | h <;> simp_all
    simp [State.wordAt, hx.2, State.mainWord, physAddr, hu]
  · rfl

theorem fetchWord_calm {s : State} (h : s.calm) (hr : s.reads s.streamLoc) :
    fetchWord .iop s = .ok (s.streamWord, s.skipWord) := by
  have hl := readLoc_calm h hr
  unfold State.streamLoc at hl
  simp only [fetchWord, gets_bind]
  rw [M.bind_ok hl]
  rfl

theorem immediate_calm {s : State} (h : s.calm) (hr : s.reads s.streamLoc) :
    immediate s = .ok (s.streamWord, s.skipWord) := fetchWord_calm h hr

@[simp] theorem State.skipWord_wp (s : State) : s.skipWord.wp = s.wp := rfl
@[simp] theorem State.skipWord_st (s : State) : s.skipWord.st = s.st := rfl
@[simp] theorem State.skipWord_privop (s : State) : s.skipWord.privop = s.privop := rfl
@[simp] theorem State.skipWord_illop (s : State) : s.skipWord.illop = s.illop := rfl
@[simp] theorem State.skipWord_af (s : State) : s.skipWord.af = s.af := rfl
@[simp] theorem State.skipWord_mem (s : State) : s.skipWord.mem = s.mem := rfl
@[simp] theorem State.skipWord_ms (s : State) : s.skipWord.ms = s.ms := rfl
@[simp] theorem State.skipWord_nmiPending (s : State) : s.skipWord.nmiPending = s.nmiPending := rfl
@[simp] theorem State.skipWord_nmiLast (s : State) : s.skipWord.nmiLast = s.nmiLast := rfl
@[simp] theorem State.skipWord_inhibit (s : State) : s.skipWord.inhibit = s.inhibit := rfl
@[simp] theorem State.skipWord_msMode (s : State) : s.skipWord.msMode = s.msMode := rfl
@[simp] theorem State.skipWord_inMs (s : State) : s.skipWord.inMs = s.inMs := rfl
@[simp] theorem State.skipWord_ldf (s : State) : s.skipWord.ldf = s.ldf := rfl
@[simp] theorem State.skipWord_idle (s : State) : s.skipWord.idle = s.idle := rfl
@[simp] theorem State.skipWord_prefetch (s : State) : s.skipWord.prefetch = s.prefetch := rfl
@[simp] theorem State.skipWord_wr7Ws (s : State) : s.skipWord.wr7Ws = s.wr7Ws := rfl
@[simp] theorem State.skipWord_wr8Ws (s : State) : s.skipWord.wr8Ws = s.wr8Ws := rfl
@[simp] theorem State.skipWord_ioInhibit (s : State) : s.skipWord.ioInhibit = s.ioInhibit := rfl
@[simp] theorem State.skipWord_apHold (s : State) : s.skipWord.apHold = s.apHold := rfl
@[simp] theorem State.skipWord_xTarget (s : State) : s.skipWord.xTarget = s.xTarget := rfl
@[simp] theorem State.skipWord_resetDue (s : State) : s.skipWord.resetDue = s.resetDue := rfl
@[simp] theorem State.skipWord_pins (s : State) : s.skipWord.pins = s.pins := rfl
@[simp] theorem State.skipWord_bus (s : State) : s.skipWord.bus = s.bus := rfl
@[simp] theorem State.skipWord_ioIn (s : State) : s.skipWord.ioIn = s.ioIn := rfl
@[simp] theorem State.skipWord_ioOut (s : State) : s.skipWord.ioOut = s.ioOut := rfl
@[simp] theorem State.skipWord_devIn (s : State) : s.skipWord.devIn = s.devIn := rfl
@[simp] theorem State.skipWord_devOut (s : State) : s.skipWord.devOut = s.devOut := rfl
@[simp] theorem State.skipWord_draws (s : State) : s.skipWord.draws = s.draws := rfl
@[simp] theorem State.skipWord_params (s : State) : s.skipWord.params = s.params := rfl
@[simp] theorem calm_skipWord (s : State) : s.skipWord.calm ↔ s.calm := Iff.rfl
@[simp] theorem msRegion_skipWord (s : State) (a : Word) : msRegion s.skipWord a = msRegion s a := rfl
@[simp] theorem State.regLoc_skipWord (s : State) (r : Nibble) : s.skipWord.regLoc r = s.regLoc r := (rfl)
theorem SameControl.skipWord (s : State) : SameControl s s.skipWord := by simp [SameControl, State.skipWord]

/-! ### The prefetch -/

/-- A prefetch latches the word at its address. -/
theorem prefetchAt_calm {s : State} (h : s.calm) {a : Word} (hr : s.reads (s.withPc a).opcodeLoc) :
    prefetchAt a s = .ok ((), s.withPrefetch (some (s.withPc a).opcodeWord)) := by
  have hl : readLoc { space := s.space, addr := a, code := .iaq } s = .ok ((s.withPc a).opcodeWord, s) := by
    refine (readLoc_calm h hr).trans ?_
    simp only [State.opcodeWord, State.wordAt]; split <;> rfl
  simp only [prefetchAt, gets_bind, M.bind_ok hl, update_apply]

/-- A prefetch that finds nothing to read is refused. -/
theorem prefetchAt_unread {s : State} (h : s.calm) {a : Word} (hr : ¬ s.reads (s.withPc a).opcodeLoc) :
    prefetchAt a s = .error (.refused (s.unread (s.withPc a).opcodeLoc)) := by
  have hl : readLoc { space := s.space, addr := a, code := .iaq } s = _ := readLoc_unread h hr
  simp only [prefetchAt, gets_apply, M.bind_apply, hl]; rfl

theorem prefetchNext_calm {s : State} (h : s.calm) (hr : s.reads s.opcodeLoc) :
    prefetchNext s = .ok ((), s.latched) := by
  simp only [prefetchNext, gets_bind]; exact prefetchAt_calm h hr

theorem prefetchNext_unread {s : State} (h : s.calm) (hr : ¬ s.reads s.opcodeLoc) :
    prefetchNext s = .error (.refused (s.unread s.opcodeLoc)) := by
  simp only [prefetchNext, gets_bind]; exact prefetchAt_unread h hr

/-- PC and the prefetch go to a new address together. -/
theorem continueAt_calm {s : State} (h : s.calm) {a : Word} (hr : s.reads (s.withPc a.even).opcodeLoc) :
    continueAt a s = .ok ((), (s.withPc a.even).latched) := by
  simp only [continueAt, M.bind_ok (prefetchAt_calm h hr), setPc_apply]; rfl

theorem continueAt_unread {s : State} (h : s.calm) {a : Word} (hr : ¬ s.reads (s.withPc a.even).opcodeLoc) :
    continueAt a s = .error (.refused (s.unread (s.withPc a.even).opcodeLoc)) := by
  simp only [continueAt, M.bind_apply, prefetchAt_unread h hr]

/-- What a computation answers that reads an opcode ahead at the PC of `v`: `t`, or the refusal of that read. -/
def Answers (r : Except Stop (Unit × State)) (v t : State) : Prop :=
  (v.reads v.opcodeLoc → r = .ok ((), t)) ∧ (¬ v.reads v.opcodeLoc → r = .error (.refused (v.unread v.opcodeLoc)))

/-- What is so answered is an outcome that reaches `t`. -/
theorem Answers.reaches {m : M Unit} {s v t : State} {done : State → Prop} (h : Answers (m s) v t) (ht : done t) :
    Reaches (outcome m s) v done :=
  ⟨fun hr => ⟨t, outcome_ok (h.1 hr), ht⟩, fun hr => by rw [outcome, h.2 hr]⟩

/-- A prefetch, and what comes after it. -/
theorem prefetchNext_then {s t : State} (h : s.calm) {k : Unit → M Unit} (hk : k () s.latched = .ok ((), t)) :
    Answers ((prefetchNext >>= k) s) s t :=
  ⟨fun hr => by rw [M.bind_ok (prefetchNext_calm h hr), hk], fun hr => by rw [M.bind_apply, prefetchNext_unread h hr]⟩

theorem prefetchNext_answers {s : State} (h : s.calm) : Answers (prefetchNext s) s s.latched :=
  ⟨prefetchNext_calm h, prefetchNext_unread h⟩

/-- A prefetch at a new PC, and what comes after it. -/
theorem continueAt_then {s t : State} (h : s.calm) {a : Word} {k : Unit → M Unit}
    (hk : k () (s.withPc a.even).latched = .ok ((), t)) :
    Answers ((continueAt a >>= k) s) (s.withPc a.even) t :=
  ⟨fun hr => by rw [M.bind_ok (continueAt_calm h hr), hk], fun hr => by rw [M.bind_apply, continueAt_unread h hr]; rfl⟩

theorem continueAt_answers {s : State} (h : s.calm) (a : Word) :
    Answers (continueAt a s) (s.withPc a.even) (s.withPc a.even).latched :=
  ⟨continueAt_calm h, continueAt_unread h⟩

/-- In main memory both always succeed. -/
theorem prefetchNext_main {s : State} (h : s.calm) (hi : s.inMs = false) : prefetchNext s = .ok ((), s.latched) :=
  prefetchNext_calm h (State.reads_opcodeLoc hi)
theorem continueAt_main {s : State} (h : s.calm) (hi : s.inMs = false) (a : Word) :
    continueAt a s = .ok ((), (s.withPc a.even).latched) :=
  continueAt_calm h (State.reads_main (by simp [State.opcodeLoc, State.space, hi]))

@[simp] theorem State.latched_pc (s : State) : s.latched.pc = s.pc := rfl
@[simp] theorem State.latched_wp (s : State) : s.latched.wp = s.wp := rfl
@[simp] theorem State.latched_st (s : State) : s.latched.st = s.st := rfl
@[simp] theorem State.latched_privop (s : State) : s.latched.privop = s.privop := rfl
@[simp] theorem State.latched_illop (s : State) : s.latched.illop = s.illop := rfl
@[simp] theorem State.latched_af (s : State) : s.latched.af = s.af := rfl
@[simp] theorem State.latched_mem (s : State) : s.latched.mem = s.mem := rfl
@[simp] theorem State.latched_ms (s : State) : s.latched.ms = s.ms := rfl
@[simp] theorem State.latched_nmiPending (s : State) : s.latched.nmiPending = s.nmiPending := rfl
@[simp] theorem State.latched_nmiLast (s : State) : s.latched.nmiLast = s.nmiLast := rfl
@[simp] theorem State.latched_inhibit (s : State) : s.latched.inhibit = s.inhibit := rfl
@[simp] theorem State.latched_msMode (s : State) : s.latched.msMode = s.msMode := rfl
@[simp] theorem State.latched_inMs (s : State) : s.latched.inMs = s.inMs := rfl
@[simp] theorem State.latched_ldf (s : State) : s.latched.ldf = s.ldf := rfl
@[simp] theorem State.latched_idle (s : State) : s.latched.idle = s.idle := rfl
@[simp] theorem State.latched_wr7Ws (s : State) : s.latched.wr7Ws = s.wr7Ws := rfl
@[simp] theorem State.latched_wr8Ws (s : State) : s.latched.wr8Ws = s.wr8Ws := rfl
@[simp] theorem State.latched_ioInhibit (s : State) : s.latched.ioInhibit = s.ioInhibit := rfl
@[simp] theorem State.latched_apHold (s : State) : s.latched.apHold = s.apHold := rfl
@[simp] theorem State.latched_xTarget (s : State) : s.latched.xTarget = s.xTarget := rfl
@[simp] theorem State.latched_resetDue (s : State) : s.latched.resetDue = s.resetDue := rfl
@[simp] theorem State.latched_pins (s : State) : s.latched.pins = s.pins := rfl
@[simp] theorem State.latched_bus (s : State) : s.latched.bus = s.bus := rfl
@[simp] theorem State.latched_ioIn (s : State) : s.latched.ioIn = s.ioIn := rfl
@[simp] theorem State.latched_ioOut (s : State) : s.latched.ioOut = s.ioOut := rfl
@[simp] theorem State.latched_devIn (s : State) : s.latched.devIn = s.devIn := rfl
@[simp] theorem State.latched_devOut (s : State) : s.latched.devOut = s.devOut := rfl
@[simp] theorem State.latched_draws (s : State) : s.latched.draws = s.draws := rfl
@[simp] theorem State.latched_params (s : State) : s.latched.params = s.params := rfl
@[simp] theorem State.latched_prefetch (s : State) : s.latched.prefetch = some s.opcodeWord := rfl
@[simp] theorem calm_latched (s : State) : s.latched.calm ↔ s.calm := Iff.rfl
@[simp] theorem msRegion_latched (s : State) (a : Word) : msRegion s.latched a = msRegion s a := rfl
@[simp] theorem State.regLoc_latched (s : State) (r : Nibble) : s.latched.regLoc r = s.regLoc r := (rfl)
@[simp] theorem State.wr_latched (s : State) (r : Nibble) : s.latched.wr r = s.wr r := by
  simp only [State.wr, State.regLoc_latched, State.wordAt]
  split <;> rfl
theorem SameControl.latched (s : State) : SameControl s s.latched := by simp [SameControl, State.latched]

/-- Reading an opcode ahead and storing do not disturb each other. -/
theorem latched_putWord (s : State) (l : Loc) (v : Word) :
    s.latched.putWord l v = (s.putWord l v).withPrefetch (some s.opcodeWord) := by
  have hp : ∀ c, psel s.latched c = psel s c := fun c => by cases c <;> rfl
  cases hs : l.space
  · simp only [State.putWord, hs, State.setMainWord, hp, State.latched_params]; split <;> rfl
  · simp only [State.putWord, hs, State.setMsWord, msRegion_latched]; split <;> rfl

theorem latched_putWr (s : State) (r : Nibble) (v : Word) :
    s.latched.putWr r v = (s.putWr r v).withPrefetch (some s.opcodeWord) := latched_putWord s _ v

@[simp] theorem discardPrefetch_apply (s : State) : discardPrefetch s = .ok ((), s.withPrefetch none) := rfl
@[simp] theorem discardPrefetch_bind {β : Type} (g : Unit → M β) (s : State) :
    (discardPrefetch >>= g) s = g () (s.withPrefetch none) := rfl

/-! ### Registers after a store -/

@[simp] theorem State.putWr_pc (s : State) (r : Nibble) (v : Word) :
    (s.putWr r v).pc = s.pc := State.putWord_pc s _ v
@[simp] theorem State.putWr_wp (s : State) (r : Nibble) (v : Word) :
    (s.putWr r v).wp = s.wp := State.putWord_wp s _ v
@[simp] theorem State.putWr_st (s : State) (r : Nibble) (v : Word) :
    (s.putWr r v).st = s.st := State.putWord_st s _ v
@[simp] theorem State.putWr_privop (s : State) (r : Nibble) (v : Word) :
    (s.putWr r v).privop = s.privop := State.putWord_privop s _ v
@[simp] theorem State.putWr_illop (s : State) (r : Nibble) (v : Word) :
    (s.putWr r v).illop = s.illop := State.putWord_illop s _ v
@[simp] theorem State.putWr_af (s : State) (r : Nibble) (v : Word) :
    (s.putWr r v).af = s.af := State.putWord_af s _ v
@[simp] theorem State.putWr_nmiPending (s : State) (r : Nibble) (v : Word) :
    (s.putWr r v).nmiPending = s.nmiPending := State.putWord_nmiPending s _ v
@[simp] theorem State.putWr_nmiLast (s : State) (r : Nibble) (v : Word) :
    (s.putWr r v).nmiLast = s.nmiLast := State.putWord_nmiLast s _ v
@[simp] theorem State.putWr_inhibit (s : State) (r : Nibble) (v : Word) :
    (s.putWr r v).inhibit = s.inhibit := State.putWord_inhibit s _ v
@[simp] theorem State.putWr_msMode (s : State) (r : Nibble) (v : Word) :
    (s.putWr r v).msMode = s.msMode := State.putWord_msMode s _ v
@[simp] theorem State.putWr_inMs (s : State) (r : Nibble) (v : Word) :
    (s.putWr r v).inMs = s.inMs := State.putWord_inMs s _ v
@[simp] theorem State.putWr_ldf (s : State) (r : Nibble) (v : Word) :
    (s.putWr r v).ldf = s.ldf := State.putWord_ldf s _ v
@[simp] theorem State.putWr_idle (s : State) (r : Nibble) (v : Word) :
    (s.putWr r v).idle = s.idle := State.putWord_idle s _ v
@[simp] theorem State.putWr_prefetch (s : State) (r : Nibble) (v : Word) :
    (s.putWr r v).prefetch = s.prefetch := State.putWord_prefetch s _ v
@[simp] theorem State.putWr_wr7Ws (s : State) (r : Nibble) (v : Word) :
    (s.putWr r v).wr7Ws = s.wr7Ws := State.putWord_wr7Ws s _ v
@[simp] theorem State.putWr_wr8Ws (s : State) (r : Nibble) (v : Word) :
    (s.putWr r v).wr8Ws = s.wr8Ws := State.putWord_wr8Ws s _ v
@[simp] theorem State.putWr_ioInhibit (s : State) (r : Nibble) (v : Word) :
    (s.putWr r v).ioInhibit = s.ioInhibit := State.putWord_ioInhibit s _ v
@[simp] theorem State.putWr_apHold (s : State) (r : Nibble) (v : Word) :
    (s.putWr r v).apHold = s.apHold := State.putWord_apHold s _ v
@[simp] theorem State.putWr_xTarget (s : State) (r : Nibble) (v : Word) :
    (s.putWr r v).xTarget = s.xTarget := State.putWord_xTarget s _ v
@[simp] theorem State.putWr_resetDue (s : State) (r : Nibble) (v : Word) :
    (s.putWr r v).resetDue = s.resetDue := State.putWord_resetDue s _ v
@[simp] theorem State.putWr_pins (s : State) (r : Nibble) (v : Word) :
    (s.putWr r v).pins = s.pins := State.putWord_pins s _ v
@[simp] theorem State.putWr_bus (s : State) (r : Nibble) (v : Word) :
    (s.putWr r v).bus = s.bus := State.putWord_bus s _ v
@[simp] theorem State.putWr_ioIn (s : State) (r : Nibble) (v : Word) :
    (s.putWr r v).ioIn = s.ioIn := State.putWord_ioIn s _ v
@[simp] theorem State.putWr_ioOut (s : State) (r : Nibble) (v : Word) :
    (s.putWr r v).ioOut = s.ioOut := State.putWord_ioOut s _ v
@[simp] theorem State.putWr_devIn (s : State) (r : Nibble) (v : Word) :
    (s.putWr r v).devIn = s.devIn := State.putWord_devIn s _ v
@[simp] theorem State.putWr_draws (s : State) (r : Nibble) (v : Word) :
    (s.putWr r v).draws = s.draws := State.putWord_draws s _ v
@[simp] theorem State.putWr_params (s : State) (r : Nibble) (v : Word) :
    (s.putWr r v).params = s.params := State.putWord_params s _ v
@[simp] theorem calm_putWr (s : State) (r : Nibble) (v : Word) : (s.putWr r v).calm ↔ s.calm := calm_putWord s _ v
@[simp] theorem msRegion_putWr (s : State) (r : Nibble) (v a : Word) :
    msRegion (s.putWr r v) a = msRegion s a := msRegion_putWord s _ v a
@[simp] theorem State.regLoc_putWr (s : State) (r q : Nibble) (v : Word) : (s.putWr r v).regLoc q = s.regLoc q :=
  State.regLoc_putWord s _ v q
theorem State.putWr_ms {s : State} (h : s.inMs = false) (r : Nibble) (v : Word) : (s.putWr r v).ms = s.ms := by
  simp [State.putWr, State.putWord_ms, State.regLoc_main h]
theorem SameControl.putWr {s : State} (hc : s.calm) (r : Nibble) (v : Word) : SameControl s (s.putWr r v) :=
  SameControl.putWord hc _ v

/-! ### Operands -/

/-- Deriving an operand gives the location and the state of its mode. -/
theorem operandLoc_calm {s : State} (h : s.calm) {op : Operand} (hd : s.derives op) (n : Word) (role : BusCode) :
    operandLoc op n role s = .ok ((s.operand op n role).1, (s.operand op n role).2) := by
  cases op with
  | reg r => simp [operandLoc, State.operand]
  | ind r =>
    simp only [operandLoc, M.bind_ok (readReg_calm h hd)]
    simp [State.operand]
  | sym =>
    simp only [operandLoc, M.bind_ok (fetchWord_calm h hd)]
    simp [State.operand, State.space]; rfl
  | idx r =>
    simp only [operandLoc, M.bind_ok (readReg_calm h hd.1), M.bind_ok (fetchWord_calm h hd.2)]
    simp [State.operand]
    rfl
  | inc r =>
    simp only [operandLoc, M.bind_ok (readReg_calm h hd.1), M.bind_ok (writeReg_calm h hd.2 _)]
    simp [State.operand, State.baseLoc, State.putWr, State.regAddr, macrostoreBase]

theorem srcLoc_calm {s : State} (h : s.calm) {op : Operand} (hd : s.derives op) (n : Word) :
    srcLoc op n s = .ok ((s.operand op n .sop).1, (s.operand op n .sop).2) := operandLoc_calm h hd n .sop

theorem dstLoc_calm {s : State} (h : s.calm) {op : Operand} (hd : s.derives op) (n : Word) :
    dstLoc op n s = .ok ((s.operand op n .dop).1, (s.operand op n .dop).2) := operandLoc_calm h hd n .dop

/-- An operand of a main-memory instruction lies in main memory. -/
theorem State.operand_space {s : State} (h : s.inMs = false) (op : Operand) (n : Word) (role : BusCode) :
    (s.operand op n role).1.space = .main := by
  cases op <;> simp [State.operand, State.regLoc_main h, State.baseLoc, h, State.space]

/-- Deriving an operand changes nothing but PC and a register. -/
theorem State.operand_eq (s : State) (op : Operand) (n : Word) (role : BusCode) :
    (s.operand op n role).2 = s ∨ (s.operand op n role).2 = s.skipWord ∨
      ∃ r v, (s.operand op n role).2 = s.putWr r v := by
  cases op with
  | reg r => exact .inl rfl
  | ind r => exact .inl rfl
  | sym => exact .inr (.inl rfl)
  | idx r => exact .inr (.inl rfl)
  | inc r => exact .inr (.inr ⟨r, _, rfl⟩)

@[simp] theorem State.operand_wp (s : State) (op : Operand) (n : Word) (role : BusCode) :
    (s.operand op n role).2.wp = s.wp := by
  cases op <;> simp [State.operand, State.skipWord, State.putWr]
@[simp] theorem State.operand_st (s : State) (op : Operand) (n : Word) (role : BusCode) :
    (s.operand op n role).2.st = s.st := by
  cases op <;> simp [State.operand, State.skipWord, State.putWr]
@[simp] theorem State.operand_privop (s : State) (op : Operand) (n : Word) (role : BusCode) :
    (s.operand op n role).2.privop = s.privop := by
  cases op <;> simp [State.operand, State.skipWord, State.putWr]
@[simp] theorem State.operand_illop (s : State) (op : Operand) (n : Word) (role : BusCode) :
    (s.operand op n role).2.illop = s.illop := by
  cases op <;> simp [State.operand, State.skipWord, State.putWr]
@[simp] theorem State.operand_af (s : State) (op : Operand) (n : Word) (role : BusCode) :
    (s.operand op n role).2.af = s.af := by
  cases op <;> simp [State.operand, State.skipWord, State.putWr]
@[simp] theorem State.operand_nmiPending (s : State) (op : Operand) (n : Word) (role : BusCode) :
    (s.operand op n role).2.nmiPending = s.nmiPending := by
  cases op <;> simp [State.operand, State.skipWord, State.putWr]
@[simp] theorem State.operand_nmiLast (s : State) (op : Operand) (n : Word) (role : BusCode) :
    (s.operand op n role).2.nmiLast = s.nmiLast := by
  cases op <;> simp [State.operand, State.skipWord, State.putWr]
@[simp] theorem State.operand_inhibit (s : State) (op : Operand) (n : Word) (role : BusCode) :
    (s.operand op n role).2.inhibit = s.inhibit := by
  cases op <;> simp [State.operand, State.skipWord, State.putWr]
@[simp] theorem State.operand_msMode (s : State) (op : Operand) (n : Word) (role : BusCode) :
    (s.operand op n role).2.msMode = s.msMode := by
  cases op <;> simp [State.operand, State.skipWord, State.putWr]
@[simp] theorem State.operand_inMs (s : State) (op : Operand) (n : Word) (role : BusCode) :
    (s.operand op n role).2.inMs = s.inMs := by
  cases op <;> simp [State.operand, State.skipWord, State.putWr]
@[simp] theorem State.operand_ldf (s : State) (op : Operand) (n : Word) (role : BusCode) :
    (s.operand op n role).2.ldf = s.ldf := by
  cases op <;> simp [State.operand, State.skipWord, State.putWr]
@[simp] theorem State.operand_idle (s : State) (op : Operand) (n : Word) (role : BusCode) :
    (s.operand op n role).2.idle = s.idle := by
  cases op <;> simp [State.operand, State.skipWord, State.putWr]
@[simp] theorem State.operand_prefetch (s : State) (op : Operand) (n : Word) (role : BusCode) :
    (s.operand op n role).2.prefetch = s.prefetch := by
  cases op <;> simp [State.operand, State.skipWord, State.putWr]
@[simp] theorem State.operand_wr7Ws (s : State) (op : Operand) (n : Word) (role : BusCode) :
    (s.operand op n role).2.wr7Ws = s.wr7Ws := by
  cases op <;> simp [State.operand, State.skipWord, State.putWr]
@[simp] theorem State.operand_wr8Ws (s : State) (op : Operand) (n : Word) (role : BusCode) :
    (s.operand op n role).2.wr8Ws = s.wr8Ws := by
  cases op <;> simp [State.operand, State.skipWord, State.putWr]
@[simp] theorem State.operand_ioInhibit (s : State) (op : Operand) (n : Word) (role : BusCode) :
    (s.operand op n role).2.ioInhibit = s.ioInhibit := by
  cases op <;> simp [State.operand, State.skipWord, State.putWr]
@[simp] theorem State.operand_apHold (s : State) (op : Operand) (n : Word) (role : BusCode) :
    (s.operand op n role).2.apHold = s.apHold := by
  cases op <;> simp [State.operand, State.skipWord, State.putWr]
@[simp] theorem State.operand_xTarget (s : State) (op : Operand) (n : Word) (role : BusCode) :
    (s.operand op n role).2.xTarget = s.xTarget := by
  cases op <;> simp [State.operand, State.skipWord, State.putWr]
@[simp] theorem State.operand_resetDue (s : State) (op : Operand) (n : Word) (role : BusCode) :
    (s.operand op n role).2.resetDue = s.resetDue := by
  cases op <;> simp [State.operand, State.skipWord, State.putWr]
@[simp] theorem State.operand_pins (s : State) (op : Operand) (n : Word) (role : BusCode) :
    (s.operand op n role).2.pins = s.pins := by
  cases op <;> simp [State.operand, State.skipWord, State.putWr]
@[simp] theorem State.operand_bus (s : State) (op : Operand) (n : Word) (role : BusCode) :
    (s.operand op n role).2.bus = s.bus := by
  cases op <;> simp [State.operand, State.skipWord, State.putWr]
@[simp] theorem State.operand_ioIn (s : State) (op : Operand) (n : Word) (role : BusCode) :
    (s.operand op n role).2.ioIn = s.ioIn := by
  cases op <;> simp [State.operand, State.skipWord, State.putWr]
@[simp] theorem State.operand_ioOut (s : State) (op : Operand) (n : Word) (role : BusCode) :
    (s.operand op n role).2.ioOut = s.ioOut := by
  cases op <;> simp [State.operand, State.skipWord, State.putWr]
@[simp] theorem State.operand_devIn (s : State) (op : Operand) (n : Word) (role : BusCode) :
    (s.operand op n role).2.devIn = s.devIn := by
  cases op <;> simp [State.operand, State.skipWord, State.putWr]
@[simp] theorem State.operand_draws (s : State) (op : Operand) (n : Word) (role : BusCode) :
    (s.operand op n role).2.draws = s.draws := by
  cases op <;> simp [State.operand, State.skipWord, State.putWr]
@[simp] theorem State.operand_params (s : State) (op : Operand) (n : Word) (role : BusCode) :
    (s.operand op n role).2.params = s.params := by
  cases op <;> simp [State.operand, State.skipWord, State.putWr]

@[simp] theorem calm_operand (s : State) (op : Operand) (n : Word) (role : BusCode) :
    (s.operand op n role).2.calm ↔ s.calm :=
  ⟨fun h => h.of_eq (by simp) (by simp), fun h => h.of_eq (by simp) (by simp)⟩
@[simp] theorem msRegion_operand (s : State) (op : Operand) (n : Word) (role : BusCode) (a : Word) :
    msRegion (s.operand op n role).2 a = msRegion s a := msRegion_of_eq (by simp) (by simp) a
@[simp] theorem State.regLoc_operand (s : State) (op : Operand) (n : Word) (role : BusCode) (r : Nibble) :
    (s.operand op n role).2.regLoc r = s.regLoc r := by
  simp [State.regLoc, State.space, State.regAddr]

theorem State.operand_ms {s : State} (h : s.inMs = false) (op : Operand) (n : Word) (role : BusCode) :
    (s.operand op n role).2.ms = s.ms := by
  cases op <;> simp [State.operand, State.skipWord, State.putWr, State.putWord_ms, State.regLoc_main h]

theorem State.operand_control {s : State} (hc : s.calm) (op : Operand) (n : Word) (role : BusCode) :
    SameControl s (s.operand op n role).2 := by
  rcases s.operand_eq op n role with h | h | ⟨r, v, h⟩ <;> rw [h]
  · exact SameControl.refl s
  · exact SameControl.skipWord s
  · exact SameControl.putWr hc r v

/-! ### Status bits -/

theorem stBit_stSet (st : Word) {n m : Nat} (hn : n < 16) (hm : m < 16) (b : Bool) :
    stBit (stSet st n b) m = if m = n then b else stBit st m := by
  unfold stBit stSet stMask
  have h1 : ∀ k, k < 16 → ∀ j, j < 16 → (0x8000#16 >>> k).getMsbD j = decide (j = k) := by decide
  cases b <;> simp [BitVec.getMsbD_or, BitVec.getMsbD_and, BitVec.getMsbD_not, h1 n hn m hm, hm] <;>
    by_cases hmn : m = n <;> simp [hmn]

theorem stBit_and (a b : Word) (n : Nat) : stBit (a &&& b) n = (stBit a n && stBit b n) := by
  simp [stBit, BitVec.getMsbD_and]

theorem stBit_or (a b : Word) (n : Nat) : stBit (a ||| b) n = (stBit a n || stBit b n) := by
  simp [stBit, BitVec.getMsbD_or]

end Sys2Proof.Machine
end

