-- ==== Sys2Proof/Laws/Flags.lean ====
section
/-! SUPPORT. What the flag computations do to each status bit, in terms of integers. -/

namespace Sys2Proof.Machine


theorem decide_toInt_ne {n : Nat} (r : BitVec n) : decide (r.toInt ≠ 0) = (r != 0#n) := by
  have : r.toInt = 0 ↔ r = 0#n := by
    constructor
    · intro h; apply BitVec.eq_of_toInt_eq; simpa using h
    · rintro rfl; simp
  by_cases h : r = 0#n <;> simp [h, this]

theorem decide_toInt_eq {n : Nat} (r : BitVec n) : decide (r.toInt = 0) = (r == 0#n) := by
  have : r.toInt = 0 ↔ r = 0#n := by
    constructor
    · intro h; apply BitVec.eq_of_toInt_eq; simpa using h
    · rintro rfl; simp
  by_cases h : r = 0#n <;> simp [h, this]

theorem decide_toInt_pos {n : Nat} (r : BitVec n) : decide (0 < r.toInt) = (!r.msb && r != 0#n) := by
  have h0 : r.toInt = 0 ↔ r = 0#n := by
    constructor
    · intro h; apply BitVec.eq_of_toInt_eq; simpa using h
    · rintro rfl; simp
  have h1 : r.msb = decide (r.toInt < 0) := BitVec.msb_eq_toInt
  rw [h1]
  by_cases h : r = 0#n
  · simp [h]
  · have h2 : r.toInt ≠ 0 := fun e => h (h0.1 e)
    have : (r != 0#n) = true := by simpa using h
    rw [this]; 
    by_cases h3 : r.toInt < 0
    · simp [h3]; omega
    · simp [h3]; omega

theorem stBit_setLae {n : Nat} (r : BitVec n) (st : Word) {m : Nat} (hm : m < 16) :
    stBit (setLae r st) m = if m = 0 then r != 0#n else if m = 1 then (!r.msb && r != 0#n) else
      if m = 2 then r == 0#n else stBit st m := by
  unfold setLae
  simp only [stBit_stSet _ (show 2 < 16 by decide) hm, stBit_stSet _ (show 1 < 16 by decide) hm,
    stBit_stSet _ (show 0 < 16 by decide) hm]
  split_ifs <;> simp_all

theorem StatusIs_setLae {n : Nat} (r : BitVec n) (st : Word) : StatusIs st (setLae r st) (resultBits r) := by
  intro m hm
  rw [stBit_setLae r st hm]
  unfold resultBits
  rw [decide_toInt_ne, decide_toInt_pos, decide_toInt_eq]
  by_cases h0 : m = 0
  · simp [h0]
  by_cases h1 : m = 1
  · simp [h1, List.lookup]
  by_cases h2 : m = 2
  · simp [h2, List.lookup]
  have e0 : (m == 0) = false := by simpa using h0
  have e1 : (m == 1) = false := by simpa using h1
  have e2 : (m == 2) = false := by simpa using h2
  simp [h0, h1, h2, List.lookup, e0, e1, e2]

/-- Setting one more bit, not yet listed. -/
theorem StatusIs.set {old new : Word} {bits : List (Nat × Bool)} (h : StatusIs old new bits) {k : Nat} (hk : k < 16)
    (hl : bits.lookup k = none) (b : Bool) : StatusIs old (stSet new k b) (bits ++ [(k, b)]) := by
  intro m hm
  rw [stBit_stSet _ hk hm, h m hm, List.lookup_append]
  by_cases e : m = k
  · subst e; simp [hl, List.lookup]
  · have : (m == k) = false := by simpa using e
    cases bits.lookup m <;> simp [e, List.lookup, this]

theorem bmod_near {z : Int} {n : Nat} (h1 : -(2^n) - 2^n ≤ z) (h2 : z < 2^n+2^n) : z.bmod (2^(n+1)) =
    if z < -(2^n) then z + 2^(n+1) else if 2^n ≤ z then z - 2^(n+1) else z := by
  have hp : (2:Int)^(n+1) = 2 * 2^n := by ring
  have hpos : (0:Int) < 2^n := by positivity
  have hN : ((2^(n+1) : Nat) : Int) = 2^(n+1) := by push_cast; rfl
  have key : ∀ r k : Int, -(2^n) ≤ r → r < 2^n → z = r + k * 2^(n+1) → z.bmod (2^(n+1)) = r := by
    intro r k hr1 hr2 he
    subst he
    have : (r + k * 2^(n+1)).bmod (2^(n+1)) = r.bmod (2^(n+1)) := by
      rw [← hN, mul_comm]; exact Int.add_mul_bmod_self_left r _ k
    rw [this]
    apply Int.bmod_eq_of_le
    · rw [hN, hp]; omega
    · rw [hN, hp]; omega
  split_ifs with a b
  · exact key _ (-1) (by omega) (by omega) (by omega)
  · exact key _ 1 (by omega) (by omega) (by omega)
  · exact key _ 0 (by omega) (by omega) (by omega)

theorem addN_r {n : Nat} (x y : BitVec n) : (addN x y).r = x + y := by
  unfold addN; apply BitVec.eq_of_toNat_eq; simp

theorem addN_c {n : Nat} (x y : BitVec n) : (addN x y).c = decide (2 ^ n ≤ x.toNat + y.toNat) := rfl

/-- The overflow of a sum is the exact sum outside the signed range. -/
theorem addN_v {n : Nat} (x y : BitVec (n + 1)) : (addN x y).v = outside (n + 1) (x.toInt + y.toInt) := by
  have hr : (addN x y).v = (x.msb == y.msb && (x + y).msb != x.msb) := by
    rw [← addN_r]; rfl
  rw [hr, BitVec.msb_eq_toInt (x := x), BitVec.msb_eq_toInt (x := y), BitVec.msb_eq_toInt (x := x + y),
    BitVec.toInt_add]
  unfold outside
  have b1 := BitVec.toInt_lt (x := x); have b2 := BitVec.le_toInt (x := x)
  have b3 := BitVec.toInt_lt (x := y); have b4 := BitVec.le_toInt (x := y)
  simp only [Nat.add_sub_cancel] at *
  rw [bmod_near (by omega) (by omega)]
  have hp : (2:Int)^(n+1) = 2 * 2^n := by ring
  have hpos : (0:Int) < 2^n := by positivity
  rw [Bool.eq_iff_iff]
  simp only [Bool.and_eq_true, beq_iff_eq, bne_iff_ne, Bool.or_eq_true, decide_eq_true_eq, decide_eq_decide, ne_eq]
  split_ifs <;> constructor <;> intro h <;> omega

theorem subN_r {n : Nat} (x y : BitVec n) : (subN x y).r = x - y := by
  unfold subN; apply BitVec.eq_of_toNat_eq
  have := y.isLt
  simp [BitVec.toNat_sub]
  congr 1; omega
theorem subN_c {n : Nat} (x y : BitVec n) : (subN x y).c = decide (y.toNat ≤ x.toNat) := by
  unfold subN
  have := y.isLt
  have := x.isLt
  simp only [decide_eq_decide]; omega
theorem subN_v {n : Nat} (x y : BitVec (n+1)) : (subN x y).v = outside (n+1) (x.toInt - y.toInt) := by
  have hr : (subN x y).v = (x.msb != y.msb && (x - y).msb != x.msb) := by
    rw [← subN_r]; rfl
  rw [hr]
  have h1 : x.msb = decide (x.toInt < 0) := BitVec.msb_eq_toInt
  have h2 : y.msb = decide (y.toInt < 0) := BitVec.msb_eq_toInt
  have h3 : (x-y).msb = decide ((x-y).toInt < 0) := BitVec.msb_eq_toInt
  rw [h1, h2, h3, BitVec.toInt_sub]
  unfold outside
  have b1 := BitVec.toInt_lt (x := x); have b2 := BitVec.le_toInt (x := x)
  have b3 := BitVec.toInt_lt (x := y); have b4 := BitVec.le_toInt (x := y)
  simp only [Nat.add_sub_cancel] at *
  rw [bmod_near (by omega) (by omega)]
  have hp : (2:Int)^(n+1) = 2 * 2^n := by ring
  have hpos : (0:Int) < 2^n := by positivity
  rw [Bool.eq_iff_iff]
  simp only [Bool.and_eq_true, bne_iff_ne, Bool.or_eq_true, decide_eq_true_eq, decide_eq_decide, ne_eq]
  split_ifs <;> constructor <;> intro h <;> omega

/-- The status of a sum: result, carry and overflow. -/
theorem StatusIs_setArith_add {n : Nat} (x y : BitVec (n + 1)) (st : Word) :
    StatusIs st (setArith (addN x y) st) (resultBits (x + y) ++ sumBits x y) := by
  have h := (((StatusIs_setLae (x + y) st).set (k := 3) (by decide) rfl
    (decide (2 ^ (n + 1) ≤ x.toNat + y.toNat))).set (k := 4) (by decide) rfl (outside (n + 1) (x.toInt + y.toInt)))
  simpa [setArith, setOverflow, setCarry, addN_r, addN_c, addN_v, sumBits] using h

/-- The status of a difference: result, carry and overflow. -/
theorem StatusIs_setArith_sub {n : Nat} (x y : BitVec (n + 1)) (st : Word) :
    StatusIs st (setArith (subN x y) st) (resultBits (x - y) ++ diffBits x y) := by
  have h := (((StatusIs_setLae (x - y) st).set (k := 3) (by decide) rfl
    (decide (y.toNat ≤ x.toNat))).set (k := 4) (by decide) rfl (outside (n + 1) (x.toInt - y.toInt)))
  simpa [setArith, setOverflow, setCarry, subN_r, subN_c, subN_v, diffBits] using h

/-- Parity as the number of one bits. -/
theorem parityOdd_eq (b : Byte) : parityOdd b = oddOnes b := by
  revert b; decide

theorem StatusIs.parity {old new : Word} {bits : List (Nat × Bool)} (h : StatusIs old new bits)
    (hl : bits.lookup 5 = none) (b : Byte) : StatusIs old (setParity b new) (bits ++ parityBit b) := by
  simpa [setParity, parityBit, parityOdd_eq] using h.set (k := 5) (by decide) hl (parityOdd b)

/-- A comparison as ST0, ST1 and ST2. -/
theorem StatusIs_cmpLae {n : Nat} (x y : BitVec n) (st : Word) : StatusIs st (cmpLae x y st) (compareBits x y) := by
  have h0 : StatusIs st st [] := fun m _ => rfl
  have h := ((h0.set (k := 0) (by decide) rfl (y.ult x)).set (k := 1) (by decide) rfl (y.slt x)).set (k := 2)
    (by decide) rfl (x == y)
  have e1 : decide (y.toNat < x.toNat) = y.ult x := rfl
  have e2 : decide (y.toInt < x.toInt) = y.slt x := rfl
  have e3 : decide (x.toNat = y.toNat) = (x == y) := by
    rw [Bool.eq_iff_iff]; simp [BitVec.toNat_inj]
  simpa [cmpLae, compareBits, e1, e2, e3] using h

theorem StatusIs.refl (st : Word) : StatusIs st st [] := fun _ _ => rfl

end Sys2Proof.Machine
end

