-- ==== Sys2Proof/Laws/Meanings.lean ====
section
/-! SUPPORT. The one outcome, on a calm bus and in both spaces, of every frame that several instructions share: a
meaning is its frame with a result and a flag function, so these say all it can do. -/

namespace Sys2Proof.Machine

/-- What a location allows does not depend on what a derivation did. -/
@[simp] theorem reads_operand (s : State) (op : Operand) (n : Word) (role : BusCode) (l : Loc) :
    (s.operand op n role).2.reads l ↔ s.reads l := by simp [State.reads]
@[simp] theorem writes_operand (s : State) (op : Operand) (n : Word) (role : BusCode) (l : Loc) :
    (s.operand op n role).2.writes l ↔ s.writes l := by simp [State.writes]
@[simp] theorem reads_putWord (s : State) (m l : Loc) (v : Word) :
    (s.putWord m v).reads l ↔ s.reads l := by simp [State.reads]
@[simp] theorem writes_putWord (s : State) (m l : Loc) (v : Word) :
    (s.putWord m v).writes l ↔ s.writes l := by simp [State.writes]
@[simp] theorem reads_latched (s : State) (l : Loc) : s.latched.reads l ↔ s.reads l := ⟨id, id⟩
@[simp] theorem writes_latched (s : State) (l : Loc) : s.latched.writes l ↔ s.writes l := ⟨id, id⟩
@[simp] theorem reads_skipWord (s : State) (l : Loc) : s.skipWord.reads l ↔ s.reads l := ⟨id, id⟩
@[simp] theorem writes_skipWord (s : State) (l : Loc) : s.skipWord.writes l ↔ s.writes l := ⟨id, id⟩
@[simp] theorem reads_putWr (s : State) (r : Nibble) (v : Word) (l : Loc) : (s.putWr r v).reads l ↔ s.reads l :=
  reads_putWord s _ l v
@[simp] theorem writes_putWr (s : State) (r : Nibble) (v : Word) (l : Loc) : (s.putWr r v).writes l ↔ s.writes l :=
  writes_putWord s _ l v

/-- In main memory every operand can be read and written. -/
theorem State.readable_main {s : State} (h : s.inMs = false) (op : Operand) (n : Word) (role : BusCode) :
    s.readable op n role := ⟨State.derives_main h op, State.reads_main (State.operand_space h op n role)⟩
theorem State.writable_main {s : State} (h : s.inMs = false) (op : Operand) (n : Word) (role : BusCode) :
    s.writable op n role := ⟨State.derives_main h op, State.writes_main (State.operand_space h op n role)⟩

/-- What can be written can be read. -/
theorem State.writable.readable {s : State} {op : Operand} {n : Word} {role : BusCode} (h : s.writable op n role) :
    s.readable op n role := ⟨h.1, h.2.reads⟩

section
variable {s : State} (h : s.calm)
include h

/-- An operand derived and read, and the state left. -/
theorem srcLoc_readLoc {β : Type} {op : Operand} {n : Word} (hr : s.readable op n .sop) (k : Loc → Word → M β) :
    (srcLoc op n >>= fun l => readLoc l >>= k l) s =
      (let p := s.operand op n .sop; k p.1 (p.2.wordAt p.1) p.2) := by
  rw [M.bind_ok (srcLoc_calm h hr.1 n), M.bind_ok (readLoc_calm (by simpa using h) (by simpa using hr.2))]

theorem dstLoc_readLoc {β : Type} {op : Operand} {n : Word} (hr : s.readable op n .dop) (k : Loc → Word → M β) :
    (dstLoc op n >>= fun l => readLoc l >>= k l) s =
      (let p := s.operand op n .dop; k p.1 (p.2.wordAt p.1) p.2) := by
  rw [M.bind_ok (dstLoc_calm h hr.1 n), M.bind_ok (readLoc_calm (by simpa using h) (by simpa using hr.2))]

theorem dualWord_calm (res : Word → Word → Word) (fl : Word → Word → Word → Word) {src dst : Operand}
    (hs : s.readable src wordStep .sop) (hd : (s.operand src wordStep .sop).2.writable dst wordStep .dop) :
    let a := s.operand src wordStep .sop
    let b := a.2.operand dst wordStep .dop
    let x := a.2.wordAt a.1
    let y := b.2.wordAt b.1
    Answers (dualWord res fl src dst s) b.2
      (((b.2.putWord b.1 (res x y)).withPrefetch (some b.2.opcodeWord)).withSt (fl x y s.st)) := by
  intro a b x y
  have ha : a.2.calm := by simpa [a] using h
  have hb : b.2.calm := by simpa [b] using ha
  simp only [dualWord]
  rw [srcLoc_readLoc h hs, dstLoc_readLoc ha hd.readable]
  apply prefetchNext_then hb
  rw [M.bind_ok (writeLoc_calm (by simpa using hb) (by simpa [a, b] using hd.2) _)]
  simp [latched_putWord, b, a, x, y]

theorem dualByte_calm (res : Byte → Byte → Byte) (fl : Byte → Byte → Word → Word) {src dst : Operand}
    (hs : s.readable src byteStep .sop) (hd : (s.operand src byteStep .sop).2.writable dst byteStep .dop) :
    let a := s.operand src byteStep .sop
    let b := a.2.operand dst byteStep .dop
    let x := byteAt a.1.addr (a.2.wordAt a.1)
    let w := b.2.wordAt b.1
    let y := byteAt b.1.addr w
    Answers (dualByte res fl src dst s) b.2
      (((b.2.putWord b.1 (mergeByte b.1.addr w (res x y))).withPrefetch (some b.2.opcodeWord)).withSt
        (fl x y s.st)) := by
  intro a b x w y
  have ha : a.2.calm := by simpa [a] using h
  have hb : b.2.calm := by simpa [b] using ha
  simp only [dualByte]
  rw [srcLoc_readLoc h hs, dstLoc_readLoc ha hd.readable]
  apply prefetchNext_then hb
  rw [M.bind_ok (writeLoc_calm (by simpa using hb) (by simpa [a, b] using hd.2) _)]
  simp [latched_putWord, b, a, x, y, w]

theorem modifyWord_calm (res : Word → Word) (fl : Word → Word → Word) {src : Operand}
    (hs : s.writable src wordStep .sop) :
    let a := s.operand src wordStep .sop
    let x := a.2.wordAt a.1
    Answers (modifyWord res fl src s) a.2
      (((a.2.putWord a.1 (res x)).withPrefetch (some a.2.opcodeWord)).withSt (fl x s.st)) := by
  intro a x
  have ha : a.2.calm := by simpa [a] using h
  simp only [modifyWord]
  rw [srcLoc_readLoc h hs.readable]
  apply prefetchNext_then ha
  rw [M.bind_ok (writeLoc_calm (by simpa using ha) (by simpa [a] using hs.2) _)]
  simp [latched_putWord, a, x]

theorem storeWord_calm (v : Word) {src : Operand} (hs : s.writable src wordStep .sop) :
    let a := s.operand src wordStep .sop
    Answers (storeWord v src s) a.2 ((a.2.putWord a.1 v).withPrefetch (some a.2.opcodeWord)) := by
  intro a
  have ha : a.2.calm := by simpa [a] using h
  simp only [storeWord]
  rw [M.bind_ok (srcLoc_calm h hs.1 _)]
  apply prefetchNext_then ha
  rw [writeLoc_calm (by simpa using ha) (by simpa [a] using hs.2)]
  simp [latched_putWord, a]

theorem immediateReg_calm (res : Word → Word → Word) (fl : Word → Word → Word → Word) {w : Reg}
    (hw : s.writes (s.regLoc w)) (hi : s.reads s.streamLoc) :
    let x := s.wr w
    let v := s.streamWord
    Answers (immediateReg res fl w s) s.skipWord
      (((s.skipWord.putWr w (res x v)).withPrefetch (some s.skipWord.opcodeWord)).withSt (fl x v s.st)) := by
  intro x v
  have hc : s.skipWord.calm := by simpa using h
  simp only [immediateReg]
  rw [M.bind_ok (readReg_calm h hw.reads), M.bind_ok (immediate_calm h hi)]
  apply prefetchNext_then hc
  rw [M.bind_ok (writeReg_calm (by simpa using hc) (by simpa [State.writes] using hw) _)]
  simp [latched_putWr, x, v]

/-- A jump. -/
theorem jumpIf_calm (cond : Word → Bool) (d : Byte) :
    let u := if cond s.st then s.withPc (s.pc + dispBytes d).even else s
    Answers (jumpIf cond d s) u u.latched := by
  simp only [jumpIf, gets_bind, M.ite_apply]
  split
  · exact continueAt_answers h _
  · exact prefetchNext_answers h

end

end Sys2Proof.Machine
end

