-- ==== Sys2Proof/Laws/Context.lean ====
section
/-! SUPPORT. Words, bytes and registers before and after a store; and the one outcome of taking an exception, of the
reset sequence and of the returns, so that no proof unfolds them. -/

namespace Sys2Proof.Machine

/-! ### Even addresses -/

theorem Word.even_toNat (a : Word) : a.even.toNat = a.toNat - a.toNat % 2 := by
  have h := a.isLt
  have : a.even = BitVec.ofNat 16 (a.toNat / 2 * 2) := by
    unfold Word.even
    apply BitVec.eq_of_getLsbD_eq; intro i hi
    have e : BitVec.ofNat 16 (a.toNat / 2 * 2) = (a >>> 1) <<< 1 := by
      apply BitVec.eq_of_toNat_eq
      simp [BitVec.toNat_shiftLeft, Nat.shiftLeft_eq, Nat.shiftRight_eq_div_pow]
    rw [e]
    interval_cases i <;> simp
  rw [this]; simp; omega

theorem Word.even_getLsbD_zero (a : Word) : a.even.getLsbD 0 = false := by simp [Word.even]

@[simp] theorem Word.even_even (a : Word) : a.even.even = a.even := by simp [Word.even, BitVec.and_assoc]

/-- An even word is its own word address. -/
theorem Word.even_of_getLsbD_zero {a : Word} (h : a.getLsbD 0 = false) : a.even = a := by
  unfold Word.even
  apply BitVec.eq_of_getLsbD_eq; intro i hi
  have : ∀ i < 16, BitVec.getLsbD 0xFFFE#16 i = decide (i ≠ 0) := by decide
  rw [BitVec.getLsbD_and, this i hi]
  by_cases h0 : i = 0
  · rw [h0, h]; rfl
  · simp [h0]

theorem physAddr_even (p : Params) (h : Bool) (c) (a : Word) : physAddr p h c a.even % 2 = 0 := by
  unfold physAddr; rw [Word.even_toNat]; split_ifs <;> omega

theorem physAddr_even_inj (p : Params) (h : Bool) (c) (a b : Word)
    (e : physAddr p h c a.even = physAddr p h c b.even) : a.even = b.even := by
  unfold physAddr at e; apply BitVec.eq_of_toNat_eq; omega

/-- Words at different even addresses do not disturb each other. -/
theorem Mem.readWord_writeWord_even_ne (m : Mem) (a b : Nat) (v : Word) (ha : a % 2 = 0) (hb : b % 2 = 0)
    (h : a ≠ b) : Mem.readWord (Mem.writeWord m a v) b = Mem.readWord m b :=
  Mem.readWord_writeWord_ne m v (by omega)

/-! ### A word, a byte and a register after a store -/

/-- A store where RAM stands. -/
theorem putWord_ram {s : State} {l : Loc} (h : s.ramAt l = true) (v : Word) :
    s.putWord l v = match l.space with
      | .main => s.withMem (Mem.writeWord s.mem (s.wordBase l) v)
      | .macrostore => s.withMs (Mem.writeWord s.ms (s.wordBase l) v) := by
  cases hl : l.space <;> simp only [State.ramAt, State.wordBase, hl, beq_iff_eq] at h ⊢ <;>
    simp [State.putWord, State.setMainWord, State.setMsWord, hl, h]

/-- A store where no RAM stands changes no memory. -/
theorem putWord_lost {s : State} {l : Loc} (h : s.ramAt l = false) (v : Word) :
    (s.putWord l v).mem = s.mem ∧ (s.putWord l v).ms = s.ms := by
  cases hl : l.space <;> simp only [State.ramAt, State.wordBase, hl, beq_eq_false_iff_ne, ne_eq] at h <;>
    simp only [State.putWord, State.setMainWord, State.setMsWord, hl]
  · split <;> first | contradiction | simp
  · simp

theorem wordBase_even (s : State) (m : Loc) : s.wordBase m % 2 = 0 := by
  unfold State.wordBase; split
  · exact physAddr_even ..
  · rw [Word.even_toNat]; omega

/-- The word at a location, by its place. -/
theorem wordAt_eq (s : State) (m : Loc) : s.wordAt m = match m.space with
    | .main => Mem.readWord s.mem (s.wordBase m)
    | .macrostore => Mem.readWord s.ms (s.wordBase m) := by
  cases hm : m.space <;> simp [State.wordAt, State.wordBase, hm, State.mainWord]

@[simp] theorem wordBase_putWord (s : State) (l m : Loc) (v : Word) :
    (s.putWord l v).wordBase m = s.wordBase m := by
  unfold State.wordBase; simp only [psel_putWord, State.putWord_params]

@[simp] theorem ramAt_putWord (s : State) (l m : Loc) (v : Word) : (s.putWord l v).ramAt m = s.ramAt m := by
  unfold State.ramAt; simp only [wordBase_putWord, State.putWord_params, msRegion_putWord]

/-- A word read after a store is the stored one where it lies at the same place and RAM stands there, and the old one
elsewhere. -/
theorem wordAt_putWord (s : State) (l m : Loc) (v : Word) : (s.putWord l v).wordAt m =
    if s.ramAt l = true ∧ l.space = m.space ∧ s.wordBase l = s.wordBase m then v else s.wordAt m := by
  rw [wordAt_eq, wordAt_eq, wordBase_putWord]
  cases hr : s.ramAt l
  · obtain ⟨e1, e2⟩ := putWord_lost hr v
    rw [e1, e2]; simp
  · have := wordBase_even s l; have := wordBase_even s m
    rw [putWord_ram hr]
    cases hl : l.space <;> cases hm : m.space <;> simp only [State.withMem_mem, State.withMem_ms, State.withMs_mem,
      State.withMs_ms, true_and, reduceCtorEq, false_and, and_false, if_false]
    · split
      · rename_i e; rw [e]; simp
      · rename_i e; rw [Mem.readWord_writeWord_even_ne _ _ _ _ ‹_› ‹_› e]
    · split
      · rename_i e; rw [e]; simp
      · rename_i e; rw [Mem.readWord_writeWord_even_ne _ _ _ _ ‹_› ‹_› e]

/-- A store leaves every byte outside its word alone. -/
theorem byteOf_putWord (s : State) (l : Loc) (v : Word) (sp : Space) (a : Nat) (h : ¬ s.covers l sp a) :
    (s.putWord l v).byteOf sp a = s.byteOf sp a := by
  cases hr : s.ramAt l
  · obtain ⟨e1, e2⟩ := putWord_lost hr v
    unfold State.byteOf; rw [e1, e2]
  · rw [putWord_ram hr]
    unfold State.covers at h
    cases hl : l.space <;> cases sp <;> simp only [hl, true_and, not_or] at h <;> simp only [State.byteOf]
    · exact Mem.read_writeWord_ne _ _ h.1 h.2
    · rfl
    · rfl
    · exact Mem.read_writeWord_ne _ _ h.1 h.2

/-- Where a word lies depends on the parameters, ST8 and the long-distance flags alone. -/
theorem covers_congr {v w : State} (hp : v.params = w.params) (h8 : stBit v.st 8 = stBit w.st 8) (hl : v.ldf = w.ldf)
    (l : Loc) (sp : Space) (a : Nat) : v.covers l sp a ↔ w.covers l sp a := by
  have hps : ∀ c, psel v c = psel w c := fun c => by
    cases c <;> simp [psel, State.mapSelect, h8, State.longSource, State.longDest, hl]
  unfold State.covers State.wordBase; rw [hp, hps]

/-- A change of ST that keeps ST8 does not disturb a store. -/
theorem withSt_putWord (s : State) (st : Word) (l : Loc) (v : Word) (h : stBit st 8 = stBit s.st 8) :
    (s.withSt st).putWord l v = (s.putWord l v).withSt st := by
  have hp : ∀ c, psel (s.withSt st) c = psel s c := fun c => by
    cases c <;> simp [psel, State.mapSelect, h, State.longSource, State.longDest]
  cases hs : l.space
  · simp only [State.putWord, hs, State.setMainWord, hp, State.withSt_params]; split <;> rfl
  · simp only [State.putWord, hs, State.setMsWord, msRegion_withSt]; split <;> rfl

/-- A change of PC does not disturb a store. -/
theorem withPc_putWord (s : State) (p : Word) (l : Loc) (v : Word) :
    (s.withPc p).putWord l v = (s.putWord l v).withPc p := by
  have hp : ∀ c, psel (s.withPc p) c = psel s c := fun c => by cases c <;> rfl
  cases hs : l.space
  · simp only [State.putWord, hs, State.setMainWord, hp, State.withPc_params]; split <;> rfl
  · simp only [State.putWord, hs, State.setMsWord, msRegion_withPc]; split <;> rfl

/-- The opcode at PC depends on the memories, PC, ST8 and where the processor executes. -/
theorem opcodeWord_congr {s t : State} (hm : t.mem = s.mem) (hms : t.ms = s.ms) (hpc : t.pc = s.pc)
    (h8 : stBit t.st 8 = stBit s.st 8) (hi : t.inMs = s.inMs) (hp : t.params = s.params) :
    t.opcodeWord = s.opcodeWord := by
  simp only [State.opcodeWord, State.opcodeLoc, State.wordAt, State.mainWord, State.space, psel, State.mapSelect, hm,
    hms, hpc, h8, hi, hp]

/-- A change of ST that keeps ST8 does not disturb the prefetch. -/
theorem latched_withSt (s : State) (st : Word) (h : stBit st 8 = stBit s.st 8) :
    (s.withSt st).latched = s.latched.withSt st := by
  have := opcodeWord_congr (s := s) (t := s.withSt st) rfl rfl rfl h rfl rfl
  unfold State.latched; rw [this]; rfl

/-- The registers of a workspace are different words. -/
theorem wordBase_regLoc (s : State) (w : s.inMs = false) (hw : s.wp.getLsbD 0 = false) (r q : Nibble) :
    s.wordBase (s.regLoc r) = s.wordBase (s.regLoc q) ↔ r = q := by
  constructor
  · intro h
    rw [State.regLoc_main w, State.regLoc_main w] at h
    have h1 := congrArg BitVec.toNat (physAddr_even_inj _ _ _ _ _ h)
    rw [Word.even_toNat, Word.even_toNat] at h1
    simp [State.regAddr, BitVec.toNat_add, BitVec.toNat_mul] at h1
    have hw2 : s.wp.toNat % 2 = 0 := by
      rw [BitVec.getLsbD, Nat.testBit_zero] at hw; simpa using hw
    have := r.isLt; have := q.isLt; have := s.wp.isLt
    apply BitVec.eq_of_toNat_eq
    omega
  · rintro rfl; rfl

/-- Writing one register of a workspace at an even WP changes that register alone, where RAM stands. -/
theorem wr_putWr (s : State) (w : s.inMs = false) (hw : s.wp.getLsbD 0 = false) (r q : Nibble) (v : Word) :
    (s.putWr r v).wr q = if s.ramAt (s.regLoc r) = true ∧ r = q then v else s.wr q := by
  unfold State.wr State.putWr
  rw [State.regLoc_putWord, wordAt_putWord]
  simp [wordBase_regLoc s w hw, show (s.regLoc r).space = (s.regLoc q).space from rfl]

@[simp] theorem ramAt_putWr (s : State) (r : Nibble) (v : Word) (m : Loc) : (s.putWr r v).ramAt m = s.ramAt m :=
  ramAt_putWord s _ m v

/-- A register's value depends on the memories, the parameters, WP, ST8 and where the processor executes alone. -/
theorem wr_congr {s t : State} (hm : s.mem = t.mem) (hms : s.ms = t.ms) (hp : s.params = t.params)
    (h8 : stBit s.st 8 = stBit t.st 8) (hw : s.wp = t.wp) (hi : s.inMs = t.inMs) (r : Nibble) : s.wr r = t.wr r := by
  unfold State.wr State.wordAt State.regLoc State.space State.regAddr State.mainWord
  have : psel s .ws = psel t .ws := by simp [psel, State.mapSelect, h8]
  simp only [hm, hms, hp, hw, hi]
  split <;> simp [this]

/-! ### The status of an exception -/

theorem stBit_clearModes (st : Word) (k : Nat) (hk : k < 16) :
    stBit (clearModes st) k = (stBit st k && !(decide (7 ≤ k) && decide (k ≤ 11))) := by
  unfold clearModes; rw [stBit_and]; congr 1; revert k; decide

theorem StatusIs_withIntMask (st : Word) (m : BitVec 4) : StatusIs st (withIntMask st m) (maskBits m) := by
  intro n hn
  unfold withIntMask stBit maskBits
  have : ∀ n < 16, BitVec.getMsbD 0xFFF0#16 n = decide (n < 12) := by decide
  interval_cases n <;> simp [List.lookup, BitVec.getMsbD]

/-- The status after a context switch: ST7 to ST11 cleared and the new mask. -/
theorem StatusIs_contextSwitch (st : Word) (mask : BitVec 4) :
    StatusIs st (withIntMask (clearModes (stSet st 8 false)) mask) (modeBitsClear ++ maskBits mask) := by
  intro n hn
  rw [StatusIs_withIntMask _ _ n hn, stBit_clearModes _ _ hn, stBit_stSet _ (by decide) hn]
  interval_cases n <;> simp [List.lookup, maskBits, modeBitsClear]

theorem stBit_contextSwitch_eight (st : Word) (mask : BitVec 4) :
    stBit (withIntMask (clearModes (stSet st 8 false)) mask) 8 = false := by
  rw [StatusIs_contextSwitch st mask 8 (by decide)]; rfl

/-! ### The saved context -/

@[simp] theorem saving_params (n : State) (a b c : Word) : (n.saving a b c).params = n.params := by
  simp [State.saving]
@[simp] theorem saving_inMs (n : State) (a b c : Word) : (n.saving a b c).inMs = n.inMs := by simp [State.saving]
@[simp] theorem saving_wp (n : State) (a b c : Word) : (n.saving a b c).wp = n.wp := by simp [State.saving]
@[simp] theorem saving_pc (n : State) (a b c : Word) : (n.saving a b c).pc = n.pc := by simp [State.saving]
@[simp] theorem saving_st (n : State) (a b c : Word) : (n.saving a b c).st = n.st := by simp [State.saving]
@[simp] theorem calm_saving (n : State) (a b c : Word) : (n.saving a b c).calm ↔ n.calm := by simp [State.saving]
theorem saving_ms {n : State} (h : n.inMs = false) (a b c : Word) : (n.saving a b c).ms = n.ms := by
  simp [State.saving, State.putWr_ms, h]
theorem SameControl.saving {n : State} (h : n.calm) (a b c : Word) : SameControl n (n.saving a b c) :=
  ((SameControl.putWr h _ _).trans (SameControl.putWr (by simpa using h) _ _)).trans
    (SameControl.putWr (by simpa using h) _ _)

/-- Registers 13, 14 and 15 hold what was saved in them, where they lie in RAM. -/
theorem saved_registers {n : State} (hi : n.inMs = false) (hw : n.wp.getLsbD 0 = false) (hr : n.savedInRam)
    (a b c : Word) : SavedContext (n.saving a b c) a b c := by
  simp only [State.savedInRam, State.savedLocs, List.mem_cons, List.not_mem_nil, or_false, forall_eq_or_imp,
    forall_eq] at hr
  obtain ⟨r13, r14, r15⟩ := hr
  have h1 : (n.putWr 13#4 a).inMs = false := by simpa using hi
  have h2 : ((n.putWr 13#4 a).putWr 14#4 b).inMs = false := by simpa using hi
  have w1 : (n.putWr 13#4 a).wp.getLsbD 0 = false := by rw [State.putWr_wp]; exact hw
  have w2 : ((n.putWr 13#4 a).putWr 14#4 b).wp.getLsbD 0 = false := by
    rw [State.putWr_wp, State.putWr_wp]; exact hw
  refine ⟨?_, ?_, ?_⟩ <;> simp only [State.saving]
  · rw [wr_putWr _ h2 w2, if_neg (by simp), wr_putWr _ h1 w1, if_neg (by simp), wr_putWr _ hi hw,
      if_pos (by simp [r13])]
  · rw [wr_putWr _ h2 w2, if_neg (by simp), wr_putWr _ h1 w1, if_pos (by simp [r14])]
  · rw [wr_putWr _ h2 w2, if_pos (by simp [r15])]

/-- Saving a context leaves every other byte alone. -/
theorem byteOf_saving {n : State} (sp : Space) (a : Nat) (x y z : Word)
    (hc : ∀ l ∈ n.savedLocs, ¬ n.covers l sp a) : (n.saving x y z).byteOf sp a = n.byteOf sp a := by
  simp only [State.savedLocs, List.mem_cons, List.mem_nil_iff, or_false, forall_eq_or_imp, forall_eq] at hc
  have cc : ∀ (u : State) l v, (u.putWord l v).covers = u.covers := by
    intro u l v; funext m sp a; exact propext (covers_congr (by simp) (by simp) (by simp) _ _ _)
  simp only [State.saving, State.putWr, State.regLoc_putWord]
  rw [byteOf_putWord _ _ _ _ _ (by simpa only [cc] using hc.2.2),
    byteOf_putWord _ _ _ _ _ (by simpa only [cc] using hc.2.1), byteOf_putWord _ _ _ _ _ hc.1]

/-- What a store in a register makes of main memory depends on that memory, the parameters, WP and ST8 alone. -/
theorem putWr_mem_congr {s t : State} (hm : s.mem = t.mem) (hp : s.params = t.params)
    (h8 : stBit s.st 8 = stBit t.st 8) (hw : s.wp = t.wp) (hs : s.inMs = false) (ht : t.inMs = false) (r : Nibble)
    (v : Word) : (s.putWr r v).mem = (t.putWr r v).mem := by
  have h : psel s .ws = psel t .ws := by simp [psel, State.mapSelect, h8]
  simp only [State.putWr, State.regLoc_main hs, State.regLoc_main ht, State.putWord, State.setMainWord, h, hp,
    State.regAddr, hw]
  split <;> simp [hm]

theorem saving_mem_congr {s t : State} (hm : s.mem = t.mem) (hp : s.params = t.params)
    (h8 : stBit s.st 8 = stBit t.st 8) (hw : s.wp = t.wp) (hs : s.inMs = false) (ht : t.inMs = false) (a b c : Word) :
    (s.saving a b c).mem = (t.saving a b c).mem := by
  apply putWr_mem_congr <;> try simpa
  apply putWr_mem_congr <;> try simpa
  exact putWr_mem_congr hm hp h8 hw hs ht _ _

/-- A change of PC does not disturb the saving of a context. -/
theorem saving_withPc (n : State) (p a b c : Word) : (n.withPc p).saving a b c = (n.saving a b c).withPc p := by
  have e : ∀ (s : State) (r : Nibble) (v : Word), (s.withPc p).putWr r v = (s.putWr r v).withPc p :=
    fun s r v => withPc_putWord s p _ v
  simp only [State.saving, e]

/-- No device is handed a saved context on a calm bus. -/
theorem saving_devOut {n : State} (h : n.calm) (a b c : Word) : (n.saving a b c).devOut = n.devOut := by
  simp only [State.saving, State.putWr]
  rw [State.putWord_devOut (by simpa using h), State.putWord_devOut (by simpa using h), State.putWord_devOut h]

/-- A state with the memories a saved context leaves, and the same workspace, holds that context where it lies in RAM,
and has every other byte as it was. -/
theorem saved_of {n t : State} {a b c : Word} (hm : t.mem = (n.saving a b c).mem) (hms : t.ms = (n.saving a b c).ms)
    (hp : t.params = n.params) (h8 : psel t .ws = psel n .ws) (hw : t.wp = n.wp) (hi : n.inMs = false)
    (hti : t.inMs = false) (he : n.wp.getLsbD 0 = false) :
    (t.savedInRam → SavedContext t a b c) ∧ SameBytesExcept t n t t.savedLocs := by
  have hl : ∀ r, t.regLoc r = n.regLoc r := fun r => by simp [State.regLoc, State.space, State.regAddr, hi, hti, hw]
  have hb : ∀ r, t.wordBase (n.regLoc r) = n.wordBase (n.regLoc r) := fun r => by
    simp only [State.regLoc_main hi, State.wordBase, h8, hp]
  have hr : ∀ r, t.ramAt (n.regLoc r) = n.ramAt (n.regLoc r) := fun r => by
    have := hb r
    simp only [State.regLoc_main hi, State.ramAt, hp] at this ⊢
    rw [this]
  have hwr : ∀ r, t.wr r = (n.saving a b c).wr r := fun r => by
    have h8' : psel (n.saving a b c) .ws = psel n .ws := by simp [State.saving, psel, State.mapSelect]
    rw [State.wr, State.wr, hl, State.regLoc_main hi,
      show (n.saving a b c).regLoc r = n.regLoc r by simp [State.saving], State.regLoc_main hi]
    simp [State.wordAt, State.mainWord, hm, hp, h8, h8']
  constructor
  · intro h
    have hn : n.savedInRam := by
      intro l hl2
      simp only [State.savedLocs, List.mem_cons, List.not_mem_nil, or_false] at hl2
      rcases hl2 with rfl | rfl | rfl <;> rw [← hr] <;> apply h <;> simp [State.savedLocs, hl]
    have := saved_registers hi he hn a b c
    exact ⟨(hwr _).trans this.1, (hwr _).trans this.2.1, (hwr _).trans this.2.2⟩
  · intro sp x hc
    have hcn : ∀ l ∈ n.savedLocs, ¬ n.covers l sp x := by
      intro l hl2 hcv
      refine hc l (by simpa [State.savedLocs, hl] using hl2) ?_
      simp only [State.savedLocs, List.mem_cons, List.not_mem_nil, or_false] at hl2
      rcases hl2 with rfl | rfl | rfl <;> simpa only [State.covers, hb] using hcv
    rw [← byteOf_saving sp x a b c hcn]
    cases sp <;> simp [State.byteOf, hm, hms]

/-! ### Taking and leaving a context -/

/-- All a context switch with a given PC to save does while executing from main memory (spec/60_exceptions.md R548). -/
theorem contextSwitchSaving_calm {s : State} (hc : s.calm) (h : s.inMs = false) (pc vec : Word) (mask : BitVec 4) :
    contextSwitchSaving pc vec mask s = .ok ((),
      let c := (s.withPrefetch none).withSt (stSet s.st 8 false)
      let n := c.withWp (s.mainWord true .inta vec).even
      (((((n.saving s.wp pc s.st).withSt (withIntMask (clearModes (stSet s.st 8 false)) mask)).withInhibit
        .maskable).withIdle false).withPc (s.mainWord true .inta (vec + 2#16)).even).latched) := by
  have hp : psel ((s.withPrefetch none).withSt (stSet s.st 8 false)) .inta = true := by
    simp [psel, State.mapSelect, stBit_stSet]
  have e : ∀ a, State.mainWord ((s.withPrefetch none).withSt (stSet s.st 8 false)) true .inta a =
    s.mainWord true .inta a := fun a => rfl
  simp [contextSwitchSaving, M.bind_apply, mainRead, hp, e, mainReadAs_calm, stCycle_calm, wpCycle_calm,
    writeReg_main, continueAt_main, h, hc, State.saving]

/-- All a context switch does while executing from main memory (spec/60_exceptions.md R548). -/
theorem contextSwitch_calm {s : State} (hc : s.calm) (h : s.inMs = false) (vec : Word) (mask : BitVec 4) :
    contextSwitch vec mask s = .ok ((),
      let c := (s.withPrefetch none).withSt (stSet s.st 8 false)
      let n := c.withWp (s.mainWord true .inta vec).even
      (((((n.saving s.wp s.pc s.st).withSt (withIntMask (clearModes (stSet s.st 8 false)) mask)).withInhibit
        .maskable).withIdle false).withPc (s.mainWord true .inta (vec + 2#16)).even).latched) := by
  rw [contextSwitch, gets_bind, contextSwitchSaving_calm hc h]

/-- PC is replaced by a context switch, so that which PC it finds does not matter but for the one it is given to save. -/
theorem contextSwitchSaving_eq {s : State} (hc : s.calm) (h : s.inMs = false) (pc vec : Word) (mask : BitVec 4) :
    contextSwitchSaving pc vec mask s = contextSwitch vec mask (s.withPc pc) := by
  rw [contextSwitchSaving_calm hc h, contextSwitch_calm (by simpa using hc) (by simpa using h)]
  have e : ∀ v a b c, (State.saving (((s.withPc pc).withPrefetch none).withSt (stSet s.st 8 false) |>.withWp v) a b c)
      = (State.saving (((s.withPrefetch none).withSt (stSet s.st 8 false)).withWp v) a b c).withPc pc := by
    intro v a b c
    rw [← saving_withPc]; rfl
  simp only [State.withPc_st, State.withPc_wp, State.withPc_pc, e]
  rfl

/-- All an accept by an attached processor does (spec/60_exceptions.md R586). -/
theorem apAccept_calm {s : State} (hc : s.calm) (h : s.inMs = false) (pc : Word) :
    apAccept pc s = .ok ((),
      let c := (s.withPrefetch none).withSt (stSet s.st 8 false)
      let n := c.withWp (s.mainWord true .inta 0x0008#16).even
      (n.saving s.wp pc s.st).withApHold true) := by
  have hp : psel ((s.withPrefetch none).withSt (stSet s.st 8 false)) .inta = true := by
    simp [psel, State.mapSelect, stBit_stSet]
  have e : ∀ a, State.mainWord ((s.withPrefetch none).withSt (stSet s.st 8 false)) true .inta a =
    s.mainWord true .inta a := fun a => rfl
  simp [apAccept, M.bind_apply, mainRead, hp, e, mainReadAs_calm, stCycle_calm, wpCycle_calm, writeReg_main, h, hc,
    State.saving]

/-- A context switch from a state that differs in what the switch overwrites is the same. -/
theorem Switched.congr {s s' t : State} {vec : Word} {mask : BitVec 4} (h : Switched s t vec mask)
    (hi : s.inMs = false) (hi' : s'.inMs = false) (hm : s.mem = s'.mem) (hms : s.ms = s'.ms)
    (hp : s.params = s'.params) (hw : s.wp = s'.wp) (hpc : s.pc = s'.pc) (hst : s.st = s'.st)
    (hc : SameControl ((s'.withInhibit .maskable).withIdle false) ((s.withInhibit .maskable).withIdle false)) :
    Switched s' t vec mask := by
  have e : ∀ a, s.mainWord true .inta a = s'.mainWord true .inta a := fun a => by simp [State.mainWord, hm, hp]
  obtain ⟨h1, h2, h3, h4, h5, h6, h7, h8, h9⟩ := h
  simp only [e] at h1 h2 h3
  refine ⟨h1, h2, ?_, h4.trans hms, ?_, ?_, ?_, h8, hc.trans h9⟩
  · rw [h3, ← hw, ← hpc, ← hst]
    apply saving_mem_congr <;> simp [hm, hp, hi, hi']
  · rw [← hw, ← hpc, ← hst]; exact h5
  · intro sp a ha; rw [h6 sp a ha]; cases sp <;> simp [State.byteOf, hm, hms]
  · rw [← hst]; exact h7

/-- The same of an accept by an attached processor. -/
theorem Accepted.congr {s s' t : State} {pc : Word} (h : Accepted s t pc) (hi : s.inMs = false)
    (hi' : s'.inMs = false) (hm : s.mem = s'.mem) (hms : s.ms = s'.ms) (hp : s.params = s'.params)
    (hw : s.wp = s'.wp) (hpc : s.pc = s'.pc) (hst : s.st = s'.st)
    (hc : SameControl (s'.withApHold true) (s.withApHold true)) : Accepted s' t pc := by
  have e : ∀ a, s.mainWord true .inta a = s'.mainWord true .inta a := fun a => by simp [State.mainWord, hm, hp]
  obtain ⟨h1, h2, h3, h4, h5, h6, h7, h8, h9⟩ := h
  simp only [e] at h1 h3
  refine ⟨h1, h2.trans hpc, ?_, h4.trans hms, ?_, ?_, ?_, h8, hc.trans h9⟩
  · rw [h3, ← hw, ← hst]
    apply saving_mem_congr <;> simp [hm, hp, hi, hi']
  · rw [← hw, ← hst]; exact h5
  · intro sp a ha; rw [h6 sp a ha]; cases sp <;> simp [State.byteOf, hm, hms]
  · rw [← hst]; exact h7

/-- The state in which the reset sequence reads its vector. -/
def State.cleared (s : State) : State :=
  (((((((((((s.withInMs false).withIdle false).withApHold false).withMsMode s.pins.modeAtReset).withXTarget
    none).withWr7Ws false).withWr8Ws false).withIoInhibit false).withResetDue false).withPrefetch none).withSt
    0x0000#16)

/-- All the reset sequence does (spec/70_reset_and_hazards.md R630). -/
theorem resetSequence_calm {s : State} (hc : s.calm) : resetSequence s = .ok ((),
    let n := s.cleared.withWp (s.mainWord true .inta 0x0000#16).even
    (((((((((n.saving s.wp s.pc s.st).withPrivop false).withIllop false).withAf false).withLdf 0b111#3).withInhibit
      .maskable).withNmiPending s.pins.nmi).withNmiLast s.pins.nmi).withPc
      (s.mainWord true .inta 0x0002#16).even).latched) := by
  unfold resetSequence
  simp only [M.bind_apply, mainRead, gets_apply, update_apply, discardPrefetch_apply]
  rw [stCycle_calm (by simpa using hc)]
  dsimp only
  have e0 : (((((((((((s.withInMs false).withIdle false).withApHold false).withMsMode s.pins.modeAtReset).withXTarget
    none).withWr7Ws false).withWr8Ws false).withIoInhibit false).withResetDue false).withPrefetch none).withSt 0#16) =
      s.cleared := rfl
  rw [e0]
  have e1 : psel s.cleared .inta = true := by simp [State.cleared, psel, State.mapSelect, stBit]
  have e2 : ∀ a, State.mainWord s.cleared true .inta a = s.mainWord true .inta a := by
    intro a; simp [State.cleared, State.mainWord]
  have hm : s.cleared.inMs = false := by simp [State.cleared]
  have hpi : s.cleared.pins = s.pins := by simp [State.cleared]
  have hcc : s.cleared.calm := by simpa [State.cleared] using hc
  rw [e1, mainReadAs_calm hcc]
  simp only [e1, mainReadAs_calm hcc, e2]
  generalize s.cleared = c at *
  simp [wpCycle_calm, writeReg_main, continueAt_main, hm, hpi, hcc, State.saving]

theorem readRegHigh_main {s : State} (hc : s.calm) (h : s.inMs = false) (r : Nibble) :
    readRegHigh r s = .ok (s.mainWord true .ws (s.regAddr r), s) := by
  simp [readRegHigh, State.regLoc_main h, mainReadAs_calm hc]

theorem readSavedContext_main {s : State} (hc : s.calm) (h : s.inMs = false) : readSavedContext s =
    .ok ((s.mainWord true .ws (s.regAddr 14#4), s.mainWord true .ws (s.regAddr 15#4),
      s.mainWord true .ws (s.regAddr 13#4)), s) := by
  simp only [readSavedContext, M.bind_ok (readRegHigh_main hc h _), M.pure_apply]

/-- All a return in main memory restores (spec/60_exceptions.md R620). -/
theorem returnContext_main {s : State} (hc : s.calm) (h : s.inMs = false) :
    let word := fun r : Nibble => s.mainWord true .ws (s.regAddr r)
    returnContext s = .ok ((), ((s.withSt (loadedSt s.st (word 15#4))).withPc (word 14#4).even).latched.withWp
      (word 13#4).even) := by
  simp only [returnContext, M.bind_ok (readSavedContext_main hc h), M.bind_ok (stCycle_calm hc _)]
  rw [M.bind_ok (continueAt_main (by simpa using hc) (by simpa using h) _), wpCycle_calm (by simpa using hc)]

/-- All a return from an attached processor restores (spec/60_exceptions.md R588). -/
theorem apReturn_main {s : State} (hc : s.calm) (h : s.inMs = false) :
    let word := fun r : Nibble => s.mainWord true .ws (s.regAddr r)
    let u := ((s.withSt (word 15#4)).withPc (word 14#4).even).latched.withWp (word 13#4).even
    apReturn s = .ok ((), (((u.withAf (s.af || (stBit (word 15#4) 4 && stBit (word 15#4) 10))).withInhibit
      .none).withLdf 0b111#3).withApHold false) := by
  intro word u
  simp only [apReturn, M.bind_ok (readSavedContext_main hc h), M.bind_ok (stCycle_calm hc _)]
  rw [M.bind_ok (continueAt_main (by simpa using hc) (by simpa using h) _),
    M.bind_ok (wpCycle_calm (by simpa using hc) _)]
  simp only [evalAf, update_bind, update_apply]
  have e : (if stBit u.st 4 && stBit u.st 10 then u.withAf true else u) =
      u.withAf (s.af || (stBit (word 15#4) 4 && stBit (word 15#4) 10)) := by
    have hst : u.st = word 15#4 := rfl
    have haf : u.af = s.af := rfl
    rw [hst]
    cases stBit (word 15#4) 4 <;> cases stBit (word 15#4) 10 <;> simp [← haf, State.withAf]
  exact congrArg (fun v : State => (Except.ok ((), ((v.withInhibit .none).withLdf 0b111#3).withApHold false) :
    Except Stop (Unit × State))) e

theorem readRegHigh_macrostore {s : State} (hc : s.calm) (h : s.inMs = true) {r : Nibble}
    (hr : s.reads (s.regLoc r)) : readRegHigh r s = .ok (s.wr r, s) := by
  have := readLoc_calm hc hr
  simp only [readRegHigh, gets_bind, State.wr, State.regLoc_macrostore h] at this ⊢
  exact this

/-- All an exit from Macrostore restores, where registers 13 to 15 can be read (spec/47_macrostore.md R489). -/
theorem macrostoreExit_calm {s : State} (hc : s.calm) (h : s.inMs = true)
    (hr : ∀ r, 13#4 ≤ r → s.reads (s.regLoc r)) : macrostoreExit s = .ok ((), s.left) := by
  simp only [macrostoreExit, readSavedContext, M.bind_apply, readRegHigh_macrostore hc h (hr 14#4 (by decide)),
    readRegHigh_macrostore hc h (hr 13#4 (by decide)), readRegHigh_macrostore hc h (hr 15#4 (by decide)),
    M.pure_apply, busCycle_calm hc, update_apply, updateSt_apply, setWp_apply, evalAf, State.left]
  have e : statusFrom s.st (s.wr 15#4) = loadedSt s.st (s.wr 15#4) := rfl
  rw [e, continueAt_main (by simpa using hc) rfl]
  cases h4 : stBit (loadedSt s.st (s.wr 15#4)) 4 <;> cases h10 : stBit (loadedSt s.st (s.wr 15#4)) 10 <;>
    simp [h4, h10] <;> rfl

end Sys2Proof.Machine
end

