-- ==== Sys2Proof/Laws/Cycle.lean ====
section
/-! SUPPORT. The parts of a step: the inputs sampled, the choice at an instruction boundary, the opcode fetched and
run, and the completion of an instruction. -/

namespace Sys2Proof.Machine

/-- Sampling latches an NMI edge and may end the baseline mode; it changes nothing else. -/
theorem sampleInputs_eq (s : State) : ∃ a b c, sampleInputs s = ((s.withNmiPending a).withNmiLast b).withMsMode c := by
  unfold sampleInputs; dsimp only; split
  · exact ⟨_, _, _, rfl⟩
  · exact ⟨s.nmiPending || (s.pins.nmi && !s.nmiLast), s.pins.nmi, s.msMode, rfl⟩

@[simp] theorem sampleInputs_pc (s : State) : (sampleInputs s).pc = s.pc := by
  obtain ⟨_, _, _, h⟩ := sampleInputs_eq s; rw [h]; rfl
@[simp] theorem sampleInputs_wp (s : State) : (sampleInputs s).wp = s.wp := by
  obtain ⟨_, _, _, h⟩ := sampleInputs_eq s; rw [h]; rfl
@[simp] theorem sampleInputs_st (s : State) : (sampleInputs s).st = s.st := by
  obtain ⟨_, _, _, h⟩ := sampleInputs_eq s; rw [h]; rfl
@[simp] theorem sampleInputs_privop (s : State) : (sampleInputs s).privop = s.privop := by
  obtain ⟨_, _, _, h⟩ := sampleInputs_eq s; rw [h]; rfl
@[simp] theorem sampleInputs_illop (s : State) : (sampleInputs s).illop = s.illop := by
  obtain ⟨_, _, _, h⟩ := sampleInputs_eq s; rw [h]; rfl
@[simp] theorem sampleInputs_af (s : State) : (sampleInputs s).af = s.af := by
  obtain ⟨_, _, _, h⟩ := sampleInputs_eq s; rw [h]; rfl
@[simp] theorem sampleInputs_mem (s : State) : (sampleInputs s).mem = s.mem := by
  obtain ⟨_, _, _, h⟩ := sampleInputs_eq s; rw [h]; rfl
@[simp] theorem sampleInputs_ms (s : State) : (sampleInputs s).ms = s.ms := by
  obtain ⟨_, _, _, h⟩ := sampleInputs_eq s; rw [h]; rfl
@[simp] theorem sampleInputs_inhibit (s : State) : (sampleInputs s).inhibit = s.inhibit := by
  obtain ⟨_, _, _, h⟩ := sampleInputs_eq s; rw [h]; rfl
@[simp] theorem sampleInputs_inMs (s : State) : (sampleInputs s).inMs = s.inMs := by
  obtain ⟨_, _, _, h⟩ := sampleInputs_eq s; rw [h]; rfl
@[simp] theorem sampleInputs_ldf (s : State) : (sampleInputs s).ldf = s.ldf := by
  obtain ⟨_, _, _, h⟩ := sampleInputs_eq s; rw [h]; rfl
@[simp] theorem sampleInputs_idle (s : State) : (sampleInputs s).idle = s.idle := by
  obtain ⟨_, _, _, h⟩ := sampleInputs_eq s; rw [h]; rfl
@[simp] theorem sampleInputs_prefetch (s : State) : (sampleInputs s).prefetch = s.prefetch := by
  obtain ⟨_, _, _, h⟩ := sampleInputs_eq s; rw [h]; rfl
@[simp] theorem sampleInputs_wr7Ws (s : State) : (sampleInputs s).wr7Ws = s.wr7Ws := by
  obtain ⟨_, _, _, h⟩ := sampleInputs_eq s; rw [h]; rfl
@[simp] theorem sampleInputs_wr8Ws (s : State) : (sampleInputs s).wr8Ws = s.wr8Ws := by
  obtain ⟨_, _, _, h⟩ := sampleInputs_eq s; rw [h]; rfl
@[simp] theorem sampleInputs_ioInhibit (s : State) : (sampleInputs s).ioInhibit = s.ioInhibit := by
  obtain ⟨_, _, _, h⟩ := sampleInputs_eq s; rw [h]; rfl
@[simp] theorem sampleInputs_apHold (s : State) : (sampleInputs s).apHold = s.apHold := by
  obtain ⟨_, _, _, h⟩ := sampleInputs_eq s; rw [h]; rfl
@[simp] theorem sampleInputs_xTarget (s : State) : (sampleInputs s).xTarget = s.xTarget := by
  obtain ⟨_, _, _, h⟩ := sampleInputs_eq s; rw [h]; rfl
@[simp] theorem sampleInputs_resetDue (s : State) : (sampleInputs s).resetDue = s.resetDue := by
  obtain ⟨_, _, _, h⟩ := sampleInputs_eq s; rw [h]; rfl
@[simp] theorem sampleInputs_pins (s : State) : (sampleInputs s).pins = s.pins := by
  obtain ⟨_, _, _, h⟩ := sampleInputs_eq s; rw [h]; rfl
@[simp] theorem sampleInputs_bus (s : State) : (sampleInputs s).bus = s.bus := by
  obtain ⟨_, _, _, h⟩ := sampleInputs_eq s; rw [h]; rfl
@[simp] theorem sampleInputs_ioIn (s : State) : (sampleInputs s).ioIn = s.ioIn := by
  obtain ⟨_, _, _, h⟩ := sampleInputs_eq s; rw [h]; rfl
@[simp] theorem sampleInputs_ioOut (s : State) : (sampleInputs s).ioOut = s.ioOut := by
  obtain ⟨_, _, _, h⟩ := sampleInputs_eq s; rw [h]; rfl
@[simp] theorem sampleInputs_devIn (s : State) : (sampleInputs s).devIn = s.devIn := by
  obtain ⟨_, _, _, h⟩ := sampleInputs_eq s; rw [h]; rfl
@[simp] theorem sampleInputs_devOut (s : State) : (sampleInputs s).devOut = s.devOut := by
  obtain ⟨_, _, _, h⟩ := sampleInputs_eq s; rw [h]; rfl
@[simp] theorem sampleInputs_draws (s : State) : (sampleInputs s).draws = s.draws := by
  obtain ⟨_, _, _, h⟩ := sampleInputs_eq s; rw [h]; rfl
@[simp] theorem sampleInputs_params (s : State) : (sampleInputs s).params = s.params := by
  obtain ⟨_, _, _, h⟩ := sampleInputs_eq s; rw [h]; rfl
@[simp] theorem calm_sampleInputs (s : State) : (sampleInputs s).calm ↔ s.calm := by simp [State.calm, State.memoryOnly]

/-! ### The choice of what a step does -/

/-- An unhindered step is a Macrostore instruction or an instruction boundary. -/
theorem step_unhindered {s : State} (h : s.unhindered) : step s = outcome (do
    if ← gets State.inMs then
      let w ← fetchOpcode
      runAndFinish w
    else boundary) (sampleInputs s) := by
  obtain ⟨h1, h2, h3, h4, h5⟩ := h
  unfold step cycle outcome
  simp [M.bind_apply, h1, h2, proceed, h3, h4, h5]

/-- A step in which the processor itself does nothing ends as one bus cycle does. -/
theorem outcome_busCycle (s : State) : outcome busCycle s = s.waited := by
  unfold outcome busCycle State.waited
  cases s.bus with
  | nil => rfl
  | cons e rest => cases h : e.reset <;> cases h2 : e.ready <;> simp [h, h2, State.served, State.cutShort]

/-- A reset that finds HOLD asserted is due and waits (log 40). -/
theorem resetStep_hold {s : State} (h : s.pins.hold = true) : resetStep s = busCycle (s.withResetDue true) := by
  simp [resetStep, M.bind_apply, h]

/-- A reset with HOLD released runs its sequence. -/
theorem resetStep_released {s : State} (h : s.pins.hold = false) : resetStep s = resetSequence s := by
  simp [resetStep, M.bind_apply, h]

theorem step_main {s : State} (h : s.unhindered) (hm : s.inMs = false) :
    step s = outcome boundary (sampleInputs s) := by
  rw [step_unhindered h]; unfold outcome; simp [M.bind_apply, hm]

theorem stIntMask_toNat (st : Word) : (stIntMask st).toNat = st.toNat % 16 := by
  simp [stIntMask, BitVec.extractLsb'_toNat]

/-- A pending NMI is taken first. -/
theorem boundary_nmi {s : State} (h : s.inhibit ≠ .all) (h2 : s.nmiPending = true) :
    boundary s = contextSwitch 0xFFFC#16 0#4 (((s.withInhibit .none).withNmiPending false).withIdle false) := by
  simp [boundary, M.bind_apply, h, h2]

/-- Then an internal request. -/
theorem boundary_internal {s : State} (h : s.inhibit = .none) (h1 : s.nmiPending = false)
    (h2 : s.internalRequest = true) : boundary s = contextSwitch 0x0008#16 1#4 (s.withInhibit .none) := by
  have : (s.withInhibit .none).internalRequest = true := h2
  simp [boundary, M.bind_apply, h, h1, this]

/-- Then an external request. -/
theorem boundary_external {s : State} (h : s.inhibit = .none) (h1 : s.nmiPending = false)
    (h2 : s.internalRequest = false) (h3 : s.externalRequest = true) :
    boundary s = contextSwitch (4#16 * s.pins.ic.setWidth 16) (newMask s.pins.ic) (s.withInhibit .none) := by
  have e2 : (s.withInhibit .none).internalRequest = false := h2
  have e3 : (s.withInhibit .none).externalRequest = true := h3
  simp [boundary, M.bind_apply, h, h1, e2, e3]

/-- Else the idle state or the next instruction. -/
theorem boundary_quiet {s : State} (h : s.inhibit = .all ∨ s.nmiPending = false)
    (h2 : s.inhibit ≠ .none ∨ (s.internalRequest = false ∧ s.externalRequest = false)) :
    boundary s = (if s.idle then idleStep else fetchAndRun) (s.withInhibit .none) := by
  have e2 : (s.withInhibit .none).internalRequest = s.internalRequest := rfl
  have e3 : (s.withInhibit .none).externalRequest = s.externalRequest := rfl
  have c1 : ¬ ((decide (s.inhibit ≠ .all) && s.nmiPending) = true) := by rcases h with h | h <;> simp [h]
  have c2 : ¬ ((decide (s.inhibit = .none) && (s.withInhibit .none).internalRequest) = true) := by
    rw [e2]; rcases h2 with h | ⟨h, _⟩ <;> simp [h]
  have c3 : ¬ ((decide (s.inhibit = .none) && (s.withInhibit .none).externalRequest) = true) := by
    rw [e3]; rcases h2 with h | ⟨_, h⟩ <;> simp [h]
  unfold boundary
  rw [gets_bind, update_bind, gets_bind]
  rw [M.ite_apply, if_neg (by simpa using c1), gets_bind, M.ite_apply,
    if_neg (by simpa using c2), gets_bind, M.ite_apply, if_neg (by simpa using c3), gets_bind]
  rfl

theorem newMask_eq (ic : BitVec 4) : newMask ic = BitVec.ofNat 4 (ic.toNat - 1) := by revert ic; decide
theorem vector_eq (ic : BitVec 4) : 4#16 * ic.setWidth 16 = BitVec.ofNat 16 (4 * ic.toNat) := by revert ic; decide

/-! ### Fetching and completing -/

/-- An opcode read ahead is used without a bus cycle. -/
theorem fetchOpcode_latched {s : State} {w : Word} (hp : s.prefetch = some w) :
    fetchOpcode s = .ok (w, s.skipWord.withPrefetch none) := by
  simp only [fetchOpcode, gets_bind, hp]; rfl

/-- The opcode fetched, in both spaces, read ahead or not. -/
theorem fetchOpcode_calm {s : State} (hc : s.calm) (hr : s.prefetch = none → s.reads s.opcodeLoc) :
    fetchOpcode s = .ok (s.nextOpcode, s.skipWord.withPrefetch none) := by
  cases hp : s.prefetch with
  | some w => rw [fetchOpcode_latched hp]; simp [State.nextOpcode, hp]
  | none =>
    have hl := readLoc_calm hc (hr hp)
    unfold State.opcodeLoc at hl
    simp only [fetchOpcode, gets_bind, hp, fetchWord]
    rw [M.bind_ok hl]
    have e : s.skipWord.withPrefetch none = s.skipWord := by
      cases s; simp_all [State.skipWord, State.withPc, State.withPrefetch]
    rw [e]; simp [State.nextOpcode, hp, State.opcodeWord, State.opcodeLoc, State.skipWord]

/-- A meaning run as a computation. -/
theorem runInstr_next {i : Instr} {s t : State} (h : exec i s = .next t) :
    runInstr i s = if t.resetDue then .error (.cut t) else .ok ((), t) := by simp [runInstr, h]
theorem runInstr_refused {i : Instr} {s : State} {e : Refusal} (h : exec i s = .refused e) :
    runInstr i s = .error (.refused e) := by simp [runInstr, h]

/-- An opcode that leaves no target of X to run ends the chain. -/
theorem runChain_done {n : Nat} {w : Word} {s t : State} {k : Bool} (h : runOpcode w s = .ok (k, t))
    (hx : t.xTarget = none) : runChain (n + 1) w s = .ok (k, t) := by
  simp only [runChain, M.bind_ok h, gets_bind, hx]; rfl

/-- An opcode that leaves a target of X goes on with it. -/
theorem runChain_target {n : Nat} {w v : Word} {s t : State} {k : Bool} (h : runOpcode w s = .ok (k, t))
    (hx : t.xTarget = some v) : runChain (n + 1) w s = runChain n v (t.withXTarget none) := by
  simp only [runChain, M.bind_ok h, gets_bind, hx]; rfl

/-- An opcode that stops stops the chain. -/
theorem runChain_error {n : Nat} {w : Word} {s : State} {e : Stop} (h : runOpcode w s = .error e) :
    runChain (n + 1) w s = .error e := by
  simp [runChain, M.bind_apply, h]

/-- X runs, and leaves its target. -/
theorem runOpcode_x {w : Word} {src : Operand} {s u : State} (h : decodeFirst s.inMs w = .instr (.x src))
    (he : exec (.x src) s = .next u) (hd : u.resetDue = false) :
    runOpcode w s = .ok (false, u) := by
  simp only [runOpcode, gets_bind, h]
  rw [M.bind_ok (show runInstr (.x src) s = .ok ((), u) by rw [runInstr_next he, if_neg (by simp [hd])])]
  rfl

/-- A chain of X runs to where it has been chased. -/
theorem runChain_chased {n m : Nat} {w v : Word} {s t : State} (h : s.chased n w t v) :
    runChain (n + m) w s = runChain m v t := by
  induction n generalizing s w with
  | zero => obtain ⟨rfl, rfl⟩ := h; rw [Nat.zero_add]
  | succ n ih =>
    obtain ⟨src, u, x, h1, h2, h3, h4, h5⟩ := h
    rw [Nat.succ_add, runChain_target (runOpcode_x h1 h2 h3) h4]
    exact ih h5

/-- Some of the fuel is left where a chain of X has been chased to within the limit. -/
theorem runChain_limit {n : Nat} {w v : Word} {s t : State} (hn : n < chainLimit) (h : s.chased n w t v) :
    ∃ m, runChain chainLimit w s = runChain (m + 1) v t := by
  obtain ⟨m, hm⟩ := Nat.exists_eq_add_of_lt hn
  exact ⟨m, by rw [hm, Nat.add_assoc, runChain_chased h]⟩

/-- All the completion of an instruction does. -/
theorem finish_apply (t : State) (k : Bool) : finish k t = .ok ((), t.finished k) := by
  cases h1 : t.inMs <;> cases h2 : t.apHold <;> cases h4 : stBit t.st 4 <;>
    cases h10 : stBit t.st 10 <;> cases k <;> simp [finish, State.finished, h1, h2, h4, h10] <;> rfl

theorem outcome_congr {m n : M Unit} {s t : State} (h : m s = n t) : outcome m s = outcome n t := by
  unfold outcome; rw [h]

/-! ### What decodes -/

/-- Bytes that decode are a one-word opcode, or the first word of a two-word opcode and its second word. -/
theorem decode_ok {b : List Byte} {ctx : Context} {i : Instr} {rest : List Byte} (h : decode ctx b = .ok (i, rest)) :
    ∃ hb lb r, b = hb :: lb :: r ∧
    ((ctx.first (wordOfBytes hb lb) = .instr i ∧ rest = r) ∨
     ∃ k h2 l2, ctx.first (wordOfBytes hb lb) = .two k ∧ r = h2 :: l2 :: rest ∧
       decodeSecond k (wordOfBytes h2 l2) = some i) := by
  unfold decode at h
  split at h
  · rename_i hb lb r
    refine ⟨hb, lb, r, rfl, ?_⟩
    split at h
    · rename_i i' hf
      simp at h; left; exact ⟨by rw [hf, h.1], h.2.symm⟩
    · simp at h
    · simp at h
    · rename_i k hf
      split at h
      · rename_i h2 l2 rest2
        split at h
        · rename_i i' hi
          simp at h
          right; exact ⟨k, h2, l2, hf, by rw [h.2], by rw [hi, h.1]⟩
        · simp at h
      · simp at h
  · simp at h

theorem encode_length_second {k : TwoWord} {w : Word} {i : Instr} (h : decodeSecond k w = some i) :
    (encode i).length = 2 := by
  cases k <;> simp only [decodeSecond] at h <;> split at h <;> simp at h <;> subst h <;> rfl

theorem encode_length_main {w : Word} {i : Instr} (h : decodeMain w = .instr i) : (encode i).length = 1 := by
  unfold decodeMain dualOp fieldOp dispOp shiftOp singleOp regOp fixedOp at h
  split at h
  · rename_i heq; split at heq <;> simp at heq <;> subst heq <;> simp at h <;> subst h <;> rfl
  split at h
  · rename_i heq; split at heq <;> simp at heq <;> subst heq <;> simp at h <;> subst h <;> rfl
  split at h
  · rename_i heq; split at heq <;> simp at heq <;> subst heq <;> simp at h <;> subst h <;> rfl
  split at h
  · rename_i heq; split at heq <;> simp at heq <;> subst heq <;> simp at h <;> subst h <;> rfl
  split at h
  · rename_i heq; split at heq <;> simp at heq <;> subst heq <;> simp at h <;> subst h <;> rfl
  split at h
  · rename_i heq; split at heq <;> simp at heq <;> subst heq <;> simp at h <;> subst h <;> rfl
  split at h
  · rename_i heq; split at heq <;> simp at heq <;> subst heq <;> simp at h <;> subst h <;> rfl
  split at h <;> simp at h

/-! ### Running the opcode -/

/-- A step that runs a chain of X from an opcode which is an instruction ends as that instruction does. -/
theorem stepIs_chain {s v u : State} {w : Word} {i : Instr} {k : Bool} {n : Nat} {done : State → State}
    (hs : step s = outcome (do
      let keep ← runChain (n + 1) w
      if v.inMs then update fun s => s.withIoInhibit false else finish keep) v)
    (hr : runOpcode w v = (runInstr i >>= fun _ => pure k) u)
    (hd : ∀ t, done t = if v.inMs then t.withIoInhibit false else t.finished k) :
    StepIs s done (exec i u) := by
  cases he : exec i u with
  | next t =>
    unfold StepIs
    dsimp only
    split
    · rename_i hc
      have : runOpcode w v = .error (.cut t) := by rw [hr, M.bind_apply, runInstr_next he, if_pos hc]
      rw [hs]; unfold outcome; rw [M.bind_apply, runChain_error this]; rfl
    · rename_i hc
      intro hx
      have : runOpcode w v = .ok (k, t) := by rw [hr, M.bind_apply, runInstr_next he, if_neg hc]; rfl
      rw [hs]; apply outcome_ok; rw [M.bind_ok (runChain_done this hx), hd]
      split
      · rfl
      · exact finish_apply t k
  | fault e => nomatch e
  | refused e =>
    have : runOpcode w v = .error (.refused e) := by rw [hr, M.bind_apply, runInstr_refused he]
    unfold StepIs; dsimp only
    rw [hs]; unfold outcome; rw [M.bind_apply, runChain_error this]

/-- A step that runs an opcode which is an instruction ends as that instruction does. -/
theorem stepIs_run {s v u : State} {w : Word} {i : Instr} {k : Bool} {done : State → State}
    (hs : step s = outcome (runAndFinish w) v)
    (hr : runOpcode w v = (runInstr i >>= fun _ => pure k) u)
    (hd : ∀ t, done t = if v.inMs then t.withIoInhibit false else t.finished k) :
    StepIs s done (exec i u) := by
  obtain ⟨m, hm⟩ := runChain_limit (n := 0) (by decide) (show v.chased 0 w v w from ⟨rfl, rfl⟩)
  apply stepIs_chain (n := m) (v := v) (w := w) (k := k) _ hr hd
  rw [hs]; apply outcome_congr; simp only [runAndFinish, gets_bind]
  simp only [M.bind_apply, hm, M.ite_apply]

/-- The next opcode is the instruction that the code bytes decode to, or the first word of its two. -/
theorem decode_codeBytes {v : State} {c : Context} {i : Instr} {rest} (h : decode c v.codeBytes = .ok (i, rest)) :
    c.first v.nextOpcode = .instr i ∨
    ∃ k, c.first v.nextOpcode = .two k ∧ decodeSecond k v.skipWord.streamWord = some i := by
  obtain ⟨hb, lb, r, hbr, hc⟩ := decode_ok h
  simp only [State.codeBytes, bytesOfWord, List.cons_append, List.nil_append, List.cons.injEq] at hbr
  obtain ⟨rfl, rfl, rfl⟩ := hbr
  rw [show wordOfBytes (hi8 v.nextOpcode) (lo8 v.nextOpcode) = v.nextOpcode by simp] at hc
  rcases hc with ⟨h1, -⟩ | ⟨k, h2, l2, h1, h3, h4⟩
  · exact .inl h1
  · simp only [List.cons.injEq] at h3
    obtain ⟨rfl, rfl, -⟩ := h3
    exact .inr ⟨k, h1, by simpa using h4⟩

/-- A one-word opcode is its instruction, run. -/
theorem runOpcode_instr {v : State} {w i} (h : decodeFirst v.inMs w = .instr i) :
    runOpcode w v = (runInstr i >>= fun _ => pure false) v := by
  simp only [runOpcode, gets_bind, h]

/-- A two-word opcode is its instruction, run with PC past the second word. -/
theorem runOpcode_two {v : State} {w k i} (hc : v.calm) (hr : v.reads v.streamLoc)
    (h : decodeFirst v.inMs w = .two k) (h2 : decodeSecond k v.streamWord = some i) :
    runOpcode w v = (runInstr i >>= fun _ => pure false) v.skipWord := by
  simp only [runOpcode, gets_bind, h]
  rw [M.bind_ok (fetchWord_calm hc hr)]
  simp only [h2]

theorem encode_length_macrostore {w i} (h : decodeMacrostore w = .instr i) : (encode i).length = 1 := by
  unfold decodeMacrostore macrostoreOp macrostoreDispOp at h
  split at h
  · rename_i heq; split at heq <;> simp at heq <;> subst heq <;> simp at h <;> subst h <;> rfl
  split at h
  · rename_i heq; split at heq <;> simp at heq <;> subst heq <;> simp at h <;> subst h <;> rfl
  split at h
  · simp at h; subst h; rfl
  · split at h
    · simp at h
    · exact encode_length_main h

/-- An opcode that is an instruction by itself has one word. -/
theorem encode_length_first {b w i} (h : decodeFirst b w = .instr i) : (encode i).length = 1 := by
  cases b
  · exact encode_length_main h
  · exact encode_length_macrostore h

/-- A main-memory step with nothing before the instruction fetches and runs. -/
theorem step_quiet {s : State} (hr : s.unhindered) (hm : s.inMs = false) (hq : (sampleInputs s).quiet) :
    step s = outcome fetchAndRun ((sampleInputs s).withInhibit .none) := by
  rw [step_main hr hm]
  obtain ⟨⟨q1, q2⟩, q3, q4⟩ := hq
  apply outcome_congr
  rw [boundary_quiet q1 q2, q3]; rfl

/-- Without a breakpoint the opcode fetched is run. -/
theorem fetchAndRun_ok {v u : State} {w} (h : fetchOpcode v = .ok (w, u)) (hb : u.breakpoint = false) :
    fetchAndRun v = runAndFinish w u := by
  simp only [fetchAndRun, gets_bind]
  rw [M.bind_ok h, gets_bind, hb]; simp

theorem State.begun_main {s : State} (h : s.inMs = false) :
    s.begun = ((sampleInputs s).withInhibit .none).withPrefetch none := by
  simp [State.begun, h]; rfl

/-- A main-memory step on a calm bus runs the next opcode with PC past it. -/
theorem step_main_run {s : State} (hr : s.ready) (hm : s.inMs = false) (hq : (sampleInputs s).quiet) :
    step s = outcome (runAndFinish (sampleInputs s).nextOpcode) s.begun.skipWord := by
  rw [step_quiet hr.1 hm hq]
  apply outcome_congr
  have hc : ((sampleInputs s).withInhibit .none).calm := by simpa using (calm_sampleInputs s).2 hr.2
  rw [fetchAndRun_ok (fetchOpcode_calm hc (fun _ => State.reads_opcodeLoc (by simpa using hm))) hq.2.2,
    State.begun_main hm]
  rfl

theorem calm_begun {s : State} (h : s.calm) : s.begun.skipWord.calm := by
  unfold State.begun; dsimp only; split <;> simpa using h

theorem State.begun_inMs (s : State) : s.begun.inMs = s.inMs := by
  unfold State.begun; dsimp only; split <;> simp_all

end Sys2Proof.Machine
end

