-- ==== Sys2Proof/Laws/Chain.lean ====
section
/-! SUPPORT. How a step comes to run an opcode, and where a chain of X stands when it has run through some of its
opcodes: on every bus, and in the space it began in. -/

namespace Sys2Proof.Machine

/-- A step that comes to run an opcode runs it. -/
theorem comesToRun_step {s u : State} {w : Word} (h : s.comesToRun u w) :
    step s = outcome (runAndFinish w) u := by
  obtain ⟨h1, h2, h3, h4, h⟩ := h
  have hs : step s = outcome proceed (sampleInputs s) := by
    unfold step cycle outcome
    simp [M.bind_apply, h1, h2, h3]
  rcases h with ⟨hx, rfl⟩ | ⟨hx, hq, rfl, hw⟩
  · rw [hs]
    apply outcome_congr
    simp [proceed, M.bind_apply, h4, hx]
  · have hf : ∀ v : State, v.prefetch = s.prefetch → v.calm = s.calm →
        v.reads s.opcodeLoc = (sampleInputs s).reads s.opcodeLoc → v.opcodeLoc = s.opcodeLoc →
        v.opcodeWord = (sampleInputs s).opcodeWord → fetchOpcode v = .ok (w, v.skipWord.withPrefetch none) := by
      intro v e1 e2 e3 e4 e5
      rcases hw with hp | ⟨hp, hc, hr, hw⟩
      · exact fetchOpcode_latched (e1.trans hp)
      · rw [fetchOpcode_calm (e2 ▸ hc) (fun _ => by rw [e4, e3]; exact hr)]
        simp [State.nextOpcode, e1, hp, e5, hw]
    by_cases hi : s.inMs = true
    · rw [step_unhindered ⟨h1, h2, h3, h4, hx⟩]
      apply outcome_congr
      simp only [gets_bind, sampleInputs_inMs, hi, if_true]
      rw [M.bind_ok (hf (sampleInputs s) (by simp) (by simp) rfl (by simp [State.opcodeLoc, State.space]) rfl)]
      simp [State.begun, hi]; rfl
    · have hi : s.inMs = false := by simpa using hi
      rw [step_quiet ⟨h1, h2, h3, h4, hx⟩ hi (hq hi)]
      apply outcome_congr
      rw [fetchAndRun_ok (hf ((sampleInputs s).withInhibit .none) (by simp) (by simp) rfl
        (by simp [State.opcodeLoc, State.space]) rfl) (hq hi).2.2, State.begun_main hi]
      rfl

/-- A chain of X that has been chased to the limit is refused. -/
theorem runAndFinish_endless {u t : State} {w v : Word} (h : u.chased chainLimit w t v) :
    outcome (runAndFinish w) u = .refused (.endlessX v) := by
  have hr := runChain_chased (m := 0) h
  rw [Nat.add_zero] at hr
  simp only [outcome, runAndFinish, M.bind_apply, gets_apply, hr]
  rfl

/-- A computation that does not change where the processor executes. -/
def KeepsSpace {α : Type} (m : M α) : Prop := ∀ s t a, m s = .ok (a, t) → t.inMs = s.inMs

theorem KeepsSpace.bind {α β : Type} {m : M α} {f : α → M β} (h : KeepsSpace m) (k : ∀ a, KeepsSpace (f a)) :
    KeepsSpace (m >>= f) := by
  intro s t b e
  obtain ⟨a, u, e1, e2⟩ := M.bind_eq_ok.1 e
  exact (k a _ _ _ e2).trans (h _ _ _ e1)
theorem KeepsSpace.pure {α : Type} (a : α) : KeepsSpace (pure a : M α) := by intro s t b e; cases e; rfl
theorem KeepsSpace.gets {α : Type} (f : State → α) : KeepsSpace (gets f) := by intro s t b e; cases e; rfl
theorem KeepsSpace.update {f : State → State} (h : ∀ s, (f s).inMs = s.inMs) : KeepsSpace (update f) := by
  intro s t b e; cases e; exact h s

theorem masterWrite_inMs (s : State) (w : MasterWrite) : (s.masterWrite w).inMs = s.inMs := by
  simp only [State.masterWrite]; split <;> rfl
theorem busCycle_space : KeepsSpace busCycle := by
  intro s t a e
  unfold busCycle at e
  have : ∀ (l : List MasterWrite) (u : State), (l.foldl State.masterWrite u).inMs = u.inMs := by
    intro l; induction l with
    | nil => intro u; rfl
    | cons x l ih => intro u; exact (ih _).trans (masterWrite_inMs _ _)
  split at e
  · cases e; rfl
  · dsimp only at e; split at e
    · cases e
    · split at e <;> cases e
      rw [this]; rfl
theorem drawWord_space : KeepsSpace drawWord :=
  (KeepsSpace.gets _).bind fun _ => (KeepsSpace.update (by intro; rfl)).bind fun _ => .pure _
theorem mainAnswer_space (h : Bool) (c : BusCode) (a : Word) : KeepsSpace (mainAnswer h c a) := by
  intro s t v e
  unfold mainAnswer at e
  split at e
  · cases e; rfl
  · cases e; rfl
  · refine ((KeepsSpace.gets _).bind fun l => ?_ : KeepsSpace deviceAnswer) s t v e
    cases l with
    | nil => exact drawWord_space
    | cons w r => exact (KeepsSpace.update (f := fun s => s.withDevIn r) (by intro; rfl)).bind fun _ => .pure w
  · exact drawWord_space s t v e
theorem readLoc_space (l : Loc) : KeepsSpace (readLoc l) := by
  unfold readLoc; split
  · exact (KeepsSpace.gets _).bind fun _ => busCycle_space.bind fun _ => mainAnswer_space _ _ _
  · refine busCycle_space.bind fun _ => ?_
    intro s t v e; dsimp only at e; split at e <;> cases e; rfl
theorem readTarget_space (l : Loc) : KeepsSpace (readTarget l) := by
  refine (KeepsSpace.gets _).bind fun b => ?_
  cases b
  · exact readLoc_space l
  · exact (KeepsSpace.gets _).bind fun _ => busCycle_space.bind fun _ => mainAnswer_space _ _ _
theorem writeLoc_space (l : Loc) (v : Word) : KeepsSpace (writeLoc l v) := by
  unfold writeLoc; split
  · refine busCycle_space.bind fun _ => .update fun s => ?_
    simp only [State.setMainWord]; split <;> rfl
  · refine busCycle_space.bind fun _ => ?_
    intro s t v e; dsimp only at e; split at e <;> cases e
    simp only [State.setMsWord]; split <;> rfl
theorem fetchWord_space (c : BusCode) : KeepsSpace (fetchWord c) :=
  (KeepsSpace.gets _).bind fun _ => (KeepsSpace.gets _).bind fun _ => (readLoc_space _).bind fun _ =>
    (KeepsSpace.update (by intro; rfl)).bind fun _ => .pure _
theorem operandLoc_space (op : Operand) (n : Word) (r : BusCode) : KeepsSpace (operandLoc op n r) := by
  have hr : ∀ q, KeepsSpace (readReg q) := fun q => (KeepsSpace.gets _).bind fun _ => readLoc_space _
  have hw : ∀ q v, KeepsSpace (writeReg q v) := fun q v => (KeepsSpace.gets _).bind fun _ => writeLoc_space _ _
  cases op with
  | reg r => exact .gets _
  | ind r => exact (hr _).bind fun _ => .gets _
  | sym => exact (fetchWord_space _).bind fun _ => .gets _
  | idx r => exact (hr _).bind fun _ => (fetchWord_space _).bind fun _ => .gets _
  | inc r => exact (hr _).bind fun _ => (hw _ _).bind fun _ => .gets _

/-- X of a register leaves the word it reads there as its target. -/
theorem execX_register {r : Nibble} {s : State} (hc : s.calm) (hr : s.reads (s.regLoc r)) :
    exec (.x (.reg r)) s = .next (s.withXTarget (some (s.targetAt (s.regLoc r)))) := by
  have e : srcLoc (.reg r) wordStep s = .ok (s.regLoc r, s) := rfl
  simp only [exec, execX, outcome, M.bind_ok e, M.bind_ok (readTarget_calm hc hr)]
  rfl

/-- X leaves the processor where it executes. -/
theorem execX_space {src : Operand} {s u : State} (h : exec (.x src) s = .next u) (hd : u.resetDue = false) :
    u.inMs = s.inMs := by
  rcases outcome_next.1 h with h | ⟨v, _, rfl⟩
  · have hk : KeepsSpace (do
        let sl ← srcLoc src wordStep
        let t ← readTarget sl
        update fun u => u.withXTarget (some t)) :=
      (operandLoc_space _ _ _).bind fun _ => (readTarget_space _).bind fun _ => .update (by intro; rfl)
    exact hk _ _ _ h
  · simp [State.cutShort] at hd

/-- So does a chain of X. -/
theorem chased_space {n : Nat} {s t : State} {w v : Word} (h : s.chased n w t v) : t.inMs = s.inMs := by
  induction n generalizing s w with
  | zero => obtain ⟨rfl, -⟩ := h; rfl
  | succ n ih =>
    obtain ⟨src, u, x, h1, h2, h3, h4, h5⟩ := h
    exact (ih h5).trans (execX_space (u := u) h2 h3)

theorem comesToRun_space {s u : State} {w : Word} (h : s.comesToRun u w) : u.inMs = s.inMs := by
  obtain ⟨-, -, -, -, h⟩ := h
  rcases h with ⟨-, rfl⟩ | ⟨-, -, rfl, -⟩
  · simp
  · simp [State.begun_inMs]

/-- A step comes to run the opcode that a chain of X has been chased to. -/
theorem chased_step {n : Nat} {s u t : State} {w v : Word} (h : s.comesToRun u w) (hn : n < chainLimit)
    (hc : u.chased n w t v) : ∃ m, step s = outcome (do
      let keep ← runChain (m + 1) v
      if t.inMs then update fun s => s.withIoInhibit false else finish keep) t := by
  obtain ⟨m, hm⟩ := runChain_limit hn hc
  refine ⟨m, ?_⟩
  rw [comesToRun_step h]
  apply outcome_congr
  simp only [runAndFinish, gets_bind, chased_space hc]
  simp only [M.bind_apply, hm]

end Sys2Proof.Machine
end

