-- ==== Sys2Proof/Laws/Shift.lean ====
section
/-! SUPPORT. What `k` steps of each shift leave, in closed form: the value, the last bit out, and for an arithmetic left
shift whether the sign changed on the way. -/

namespace Sys2Proof.Machine

theorem shiftBy_succ {n : Nat} (f : Shift n → Shift n) (k : Nat) (v : Shift n) :
    shiftBy f (k+1) v = f (shiftBy f k v) := by
  induction k generalizing v with
  | zero => rfl
  | succ k ih => rw [shiftBy, ih]; rfl

theorem slaStep_value {n : Nat} (c : Nat) (x : BitVec n) :
    (shiftBy slaStep c (Shift.start x)).x = BitVec.ofNat n (x.toNat * 2^c) := by
  induction c with
  | zero => simp [shiftBy, Shift.start]
  | succ c ih =>
    rw [shiftBy_succ, slaStep]; simp only [ih]
    apply BitVec.eq_of_toNat_eq
    simp [BitVec.toNat_shiftLeft, Nat.shiftLeft_eq, pow_succ]
    rw [← Nat.mul_assoc]

theorem slaStep_out {n : Nat} (c : Nat) (x : BitVec n) (h : 0 < c) :
    (shiftBy slaStep c (Shift.start x)).out = (decide (c ≤ n) && x.getLsbD (n - c)) := by
  obtain ⟨k, rfl⟩ : ∃ k, c = k+1 := ⟨c-1, by omega⟩
  rw [shiftBy_succ, slaStep]; simp only [slaStep_value]
  have : BitVec.ofNat n (x.toNat * 2^k) = x <<< k := by
    apply BitVec.eq_of_toNat_eq; simp [BitVec.toNat_shiftLeft, Nat.shiftLeft_eq]
  rw [this, BitVec.msb_eq_getLsbD_last]
  simp
  rcases Nat.lt_or_ge n (k+1) with h1 | h1
  · rw [decide_eq_false (p := k < n) (by omega)]
    rcases Nat.eq_zero_or_pos n with rfl | hn
    · simp
    · simp; omega
  · rw [decide_eq_true (p := k < n) (by omega), decide_eq_true (p := 0 < n) (by omega),
      decide_eq_false (p := n - 1 < k) (by omega)]
    simp [show n - 1 - k = n - (k+1) by omega]

/-- An arithmetic left shift overflows exactly when the exact multiple leaves the signed range. -/
theorem slaStep_changed {m : Nat} (c : Nat) (x : BitVec (m + 1)) :
    (shiftBy slaStep c (Shift.start x)).changed = outside (m+1) (x.toInt * 2^c) := by
  induction c with
  | zero =>
    have h1 := BitVec.le_toInt x
    have h2 := BitVec.toInt_lt (x := x)
    simp [shiftBy, Shift.start, outside]
    simp at h1 h2
    constructor <;> omega
  | succ c ih =>
    rw [shiftBy_succ, slaStep]
    simp only [ih]
    have hx : (shiftBy slaStep c (Shift.start x)).x = BitVec.ofInt (m+1) (x.toInt * 2^c) := by
      rw [slaStep_value]
      apply BitVec.eq_of_toInt_eq
      rw [BitVec.toInt_ofInt, BitVec.toInt_eq_toNat_bmod, BitVec.toNat_ofNat, BitVec.toInt_eq_toNat_bmod]
      have h9 := fun z : Int => Int.emod_bmod z (2^(m+1))
      push_cast at h9 ⊢
      rw [h9, Int.bmod_mul_bmod]
    rw [hx]
    generalize hz : x.toInt * 2^c = z
    have e : x.toInt * 2^(c+1) = 2 * z := by rw [← hz]; ring
    rw [e]
    by_cases ho : outside (m+1) z = true
    · simp only [ho, Bool.true_or]
      symm
      simp [outside] at ho ⊢
      have : (0:Int) < 2^m := by positivity
      omega
    · have ho2 : outside (m+1) z = false := by simpa using ho
      rw [ho2, Bool.false_or]
      simp [outside] at ho2
      have hp : (0:Int) < 2^m := by positivity
      have p2 : (2:Int)^(m+1) = 2 * 2^m := by ring
      have hzt : (BitVec.ofInt (m+1) z).toInt = z := by
        rw [BitVec.toInt_ofInt]
        apply Int.bmod_eq_of_le
        · push_cast; rw [p2]; omega
        · push_cast; rw [p2]; omega
      have hs : (BitVec.ofInt (m+1) z) <<< 1 = BitVec.ofInt (m+1) (2*z) := by
        apply BitVec.eq_of_toInt_eq
        rw [BitVec.toInt_shiftLeft, BitVec.toInt_ofInt]
        rw [Nat.shiftLeft_eq]
        have h3 : ((BitVec.ofInt (m+1) z).toNat : Int).bmod (2^(m+1)) = z := by
          rw [← BitVec.toInt_eq_toNat_bmod, hzt]
        push_cast
        rw [← Int.bmod_mul_bmod, h3]; ring_nf
      rw [hs, BitVec.msb_eq_toInt, BitVec.msb_eq_toInt, hzt, BitVec.toInt_ofInt]
      have bm : (2*z).bmod (2^(m+1)) = if 2*z < -(2^m) then 2*z + 2^(m+1)
          else if 2^m ≤ 2*z then 2*z - 2^(m+1) else 2*z :=
        bmod_near (by omega) (by omega)
      rw [bm, outside]
      simp only [Nat.add_sub_cancel]
      split_ifs <;> (rw [Bool.eq_iff_iff]; simp; omega)

theorem sraStep_value {n : Nat} (c : Nat) (x : BitVec n) :
    (shiftBy sraStep c (Shift.start x)).x = x.sshiftRight c := by
  induction c with
  | zero => simp [shiftBy, Shift.start]
  | succ c ih => rw [shiftBy_succ, sraStep]; simp only [ih]; rw [← BitVec.sshiftRight_add]

theorem sshiftRight_eq_div {n : Nat} (c : Nat) (x : BitVec n) : x.sshiftRight c = BitVec.ofInt n (x.toInt / 2^c) := by
  rw [BitVec.sshiftRight, Int.shiftRight_eq_div_pow]; norm_cast

theorem sraStep_out {n : Nat} (c : Nat) (x : BitVec n) (h : 0 < c) (hc : c ≤ n) :
    (shiftBy sraStep c (Shift.start x)).out = x.getLsbD (c - 1) := by
  obtain ⟨k, rfl⟩ : ∃ k, c = k+1 := ⟨c-1, by omega⟩
  rw [shiftBy_succ, sraStep]; simp only [sraStep_value]
  rw [BitVec.getLsbD_sshiftRight]
  simp [show ¬ n ≤ 0 by omega]; omega

theorem srlStep_value {n : Nat} (c : Nat) (x : BitVec n) : (shiftBy srlStep c (Shift.start x)).x = x >>> c := by
  induction c with
  | zero => simp [shiftBy, Shift.start]
  | succ c ih => rw [shiftBy_succ, srlStep]; simp only [ih]; rw [← BitVec.shiftRight_add]

theorem srlStep_out {n : Nat} (c : Nat) (x : BitVec n) (h : 0 < c) :
    (shiftBy srlStep c (Shift.start x)).out = x.getLsbD (c - 1) := by
  obtain ⟨k, rfl⟩ : ∃ k, c = k+1 := ⟨c-1, by omega⟩
  rw [shiftBy_succ, srlStep]; simp only [srlStep_value]
  simp

theorem rotateRight_zero_word (x : BitVec 16) : x.rotateRight 0 = x := by
  apply BitVec.eq_of_getLsbD_eq; intro i hi
  rw [BitVec.getLsbD_rotateRight]; interval_cases i <;> simp

theorem rotateRight_mod_word (x : BitVec 16) (c : Nat) : x.rotateRight c = x.rotateRight (c % 16) := by
  apply BitVec.eq_of_getLsbD_eq; intro i hi
  rw [BitVec.getLsbD_rotateRight, BitVec.getLsbD_rotateRight]; simp

theorem rotateRight_one_word (x : BitVec 16) (k : Nat) (hk : k < 16) :
    (x.rotateRight k).rotateRight 1 = x.rotateRight (k+1) := by
  apply BitVec.eq_of_getLsbD_eq; intro i hi
  interval_cases k <;> interval_cases i <;> simp

theorem srcStep_value (c : Nat) (x : BitVec 16) : (shiftBy srcStep c (Shift.start x)).x = x.rotateRight c := by
  induction c with
  | zero => simp [shiftBy, Shift.start, rotateRight_zero_word]
  | succ c ih =>
    rw [shiftBy_succ, srcStep]; simp only [ih]
    rw [rotateRight_mod_word x c, rotateRight_one_word _ _ (Nat.mod_lt _ (by decide)),
      rotateRight_mod_word x (c+1), rotateRight_mod_word x (c%16+1)]
    congr 1; omega

theorem srcStep_out (c : Nat) (x : BitVec 16) (h : 0 < c) (hc : c ≤ 16) :
    (shiftBy srcStep c (Shift.start x)).out = x.getLsbD (c - 1) := by
  obtain ⟨k, rfl⟩ : ∃ k, c = k+1 := ⟨c-1, by omega⟩
  rw [shiftBy_succ, srcStep]; simp only [srcStep_value]
  simp at hc
  have : k < 16 := by omega
  interval_cases k <;> simp

/-- ST0 to ST3 of a shift. -/
theorem StatusIs_shiftFlags {n : Nat} (r : Shift n) (st : Word) :
    StatusIs st (shiftFlags r st) (resultBits r.x ++ [(3, r.out)]) :=
  (StatusIs_setLae _ _).set (by decide) rfl _

/-- ST0 to ST4 of an arithmetic left shift. -/
theorem StatusIs_shiftLeftFlags {n : Nat} (r : Shift n) (st : Word) :
    StatusIs st (shiftLeftFlags r st) (resultBits r.x ++ [(3, r.out), (4, r.changed)]) := by
  have := (StatusIs_shiftFlags r st).set (k := 4) (by decide) rfl r.changed
  simpa [shiftLeftFlags, setOverflow] using this

end Sys2Proof.Machine
end

