-- ==== Sys2Proof/Tests/Slice0.lean ====
section
/-! SUPPORT. The model's own tests: the smoke test of `Instr.wf`, decoding of words written out from
spec/opcode_table.json, steps whose results are those of the vectors V1 to V359 of spec/95_test_vectors.md or of the
rules named, and, for each obligation with hypotheses, states and operands that meet them. -/

open Sys2Proof Sys2Proof.Machine

namespace Sys2Proof.Tests

-- One test at a time: all at once they need many threads and their memory.
set_option Elab.async false

/-! ### Small states and what a step shows -/

/-- A memory holding the words listed. -/
def put (m : Mem) (cells : List (Nat × Word)) : Mem := cells.foldl (fun m c => Mem.writeWord m c.1 c.2) m

/-- The starting state of spec/95_test_vectors.md: WP = >0200, PC = >1000, no inhibit, `code` at PC. -/
def start (st : Word) (code : List Word) (cells : List (Nat × Word)) : State :=
  { State.reset with
    pc := 0x1000#16, wp := 0x0200#16, st := st, inhibit := .none,
    mem := put [] (cells ++ (List.range code.length).zipWith (fun i w => (0x1000 + 2 * i, w)) code) }

/-- The same on a TMS99110A in standard mode. -/
def extended (s : State) : State :=
  { s with msMode := .standard, params := { Params.default with variant := .tms99110a } }

/-- External Macrostore memory over a range. -/
def fitted (first last : Nat) (rom : Bool) : ExtMsRange := { first := first, last := last, rom := rom }

/-- Inputs all inactive. -/
def idle : Pins := State.idlePins .baseline

/-- The same in prototyping mode with an external Macrostore of RAM holding the words listed. -/
def prototyping (s : State) (cells : List (Nat × Word)) : State :=
  { s with
    msMode := .prototyping, ms := put [] cells,
    params := { Params.default with extMs := [fitted 0x0800 0xFFFF false] } }

/-- Executing from Macrostore at >1000, WP at >0000, with code there and the words listed. -/
def inside (st : Word) (code : List Word) (cells main : List (Nat × Word)) : State :=
  { prototyping (start st [] main)
      (cells ++ (List.range code.length).zipWith (fun i w => (0x1000 + 2 * i, w)) code) with
    inMs := true, wp := 0x0000#16 }

/-- Idle inputs but for an external request. -/
def request (level : BitVec 4) : Pins := { idle with intreq := true, ic := level }

/-- Several steps. -/
def steps : Nat → State → Host.Outcome State Fault Refusal
  | 0, s => .next s
  | n + 1, s => match step s with
    | .next t => steps n t
    | o => o

/-- The state after some steps that all answer one. -/
def after (n : Nat) (s : State) : Option State :=
  match steps n s with
  | .next t => some t
  | _ => none

/-- WP, PC, ST and some main-memory words after a step. -/
def seen (s : State) (addrs : List Nat) : Option (Word × Word × Word × List Word) :=
  (after 1 s).map fun t => (t.wp, t.pc, t.st, addrs.map (Mem.readWord t.mem))

/-- PC, ST, some words, PRIVOP, ILLOP, AF and IDLE, the inhibit and the I/O writes after a step. -/
def noted (s : State) (addrs : List Nat) :
    Option ((Word × Word × List Word) × List Bool × Inhibit × List IoWrite) :=
  (after 1 s).map fun t =>
    ((t.pc, t.st, addrs.map (Mem.readWord t.mem)), [t.privop, t.illop, t.af, t.idle], t.inhibit, t.ioOut)

/-- WP, PC, ST, whether Macrostore executes, and some Macrostore words after a step. -/
def seenInside (s : State) (addrs : List Nat) : Option ((Word × Word × Word) × Bool × List Word) :=
  (after 1 s).map fun t => ((t.wp, t.pc, t.st), t.inMs, addrs.map (Mem.readWord t.ms))

/-- Why a step stops, if it refuses. -/
def refusal (s : State) : Option Refusal :=
  match step s with
  | .refused r => some r
  | _ => none

/-- PC after the one-word instruction `w` at >1000 with status `st`. -/
def goes (w st : Word) : Option Word := (after 1 (start st [w] [])).map State.pc

/-- The instruction that the words are, all of them, in a context. -/
def decoded (c : Context) (words : List Word) : Option Instr :=
  match decode c (words.flatMap bytesOfWord) with
  | .ok (i, []) => some i
  | _ => none

/-! ### Well-formedness -/

/-- WR0 does not index (spec/30_encoding.md R143), as source or as destination. -/
theorem test_wf_refuses_index_zero :
    [(Instr.a (.idx 0#4) (.reg 1#4)).wf, (Instr.mm (.reg 1#4) (.idx 0#4)).wf, (Instr.xop (.idx 0#4) 3#4).wf,
      (Instr.b (.idx 0#4)).wf, (Instr.tmb (.idx 0#4) 3#4).wf, (Instr.slam (.idx 0#4) 3#4).wf] =
      [false, false, false, false, false, false] := by decide

/-- The bit tests take no autoincrement (spec/30_encoding.md R164). -/
theorem test_wf_refuses_autoincrement_bit_test :
    [(Instr.tmb (.inc 1#4) 3#4).wf, (Instr.tcmb (.inc 1#4) 3#4).wf, (Instr.tsmb (.inc 1#4) 3#4).wf] =
      [false, false, false] := by decide

/-- The same operands where they are allowed. -/
theorem test_wf_accepts :
    [(Instr.a (.idx 1#4) .sym).wf, (Instr.tmb (.ind 1#4) 3#4).wf, (Instr.sram (.inc 1#4) 3#4).wf] =
      [true, true, true] := by decide

/-! ### Decoding: a word of every row, its operand fields filled in by hand, and the rejections -/

/-- SZC, SZCB, S, SB, C, CB, A, AB. -/
theorem test_decode_main_f1_a :
    [[0x47F9#16], [0x5980#16], [0x6F57#16], [0x712E#16], [0x86F5#16], [0x988C#16], [0xAE53#16], [0xB02A#16]].map
      (decoded .main) =
      ([.szc (.inc 9#4) (.ind 15#4), .szcb (.reg 0#4) (.idx 6#4), .s (.ind 7#4) (.inc 13#4), .sb (.idx 14#4) (.reg 4#4),
        .c (.inc 5#4) (.ind 11#4), .cb (.reg 12#4) (.idx 2#4), .a (.ind 3#4) (.inc 9#4), .ab (.idx 10#4) (.reg 0#4)] :
        List Instr).map some := by decide

/-- MOV, MOVB, SOC, SOCB. -/
theorem test_decode_main_f1_b :
    [[0xC5F1#16], [0xDB88#16], [0xED5F#16], [0xF326#16]].map (decoded .main) =
      ([.mov (.inc 1#4) (.ind 7#4), .movb (.reg 8#4) (.idx 14#4), .soc (.ind 15#4) (.inc 5#4), .socb (.idx 6#4) (.reg
        12#4)] : List Instr).map some := by decide

/-- COC, CZC, XOR, MPY, DIV. -/
theorem test_decode_main_f2 :
    [[0x23A8#16], [0x257F#16], [0x2B06#16], [0x38DD#16], [0x3EA4#16]].map (decoded .main) =
      ([.coc (.idx 8#4) 14#4, .czc (.inc 15#4) 5#4, .xor (.reg 6#4) 12#4, .mpy (.ind 13#4) 3#4, .div (.idx 4#4) 10#4] :
        List Instr).map some := by decide

/-- XOP. -/
theorem test_decode_main_f3 :
    [[0x2C7B#16]].map (decoded .main) =
      ([.xop (.inc 11#4) 1#4] : List Instr).map some := by decide

/-- LDCR, STCR. -/
theorem test_decode_main_f4 :
    [[0x3202#16], [0x37D9#16]].map (decoded .main) =
      ([.ldcr (.reg 2#4) 8#4, .stcr (.ind 9#4) 15#4] : List Instr).map some := by decide

/-- MPYS, DIVS, BIND, BLWP, B, X, CLR, NEG. -/
theorem test_decode_main_f5_a :
    [[0x01DB#16], [0x01A2#16], [0x0179#16], [0x0400#16], [0x0457#16], [0x04AE#16], [0x04F5#16], [0x050C#16]].map
      (decoded .main) =
      ([.mpys (.ind 11#4), .divs (.idx 2#4), .bind (.inc 9#4), .blwp (.reg 0#4), .b (.ind 7#4), .x (.idx 14#4), .clr
        (.inc 5#4), .neg (.reg 12#4)] : List Instr).map some := by decide

/-- INV, INC, INCT, DEC, DECT, BL, SWPB, SETO. -/
theorem test_decode_main_f5_b :
    [[0x0553#16], [0x05AA#16], [0x05F1#16], [0x0608#16], [0x065F#16], [0x06A6#16], [0x06FD#16], [0x0704#16]].map
      (decoded .main) =
      ([.inv (.ind 3#4), .inc (.idx 10#4), .inct (.inc 1#4), .dec (.reg 8#4), .dect (.ind 15#4), .bl (.idx 6#4), .swpb
        (.inc 13#4), .seto (.reg 4#4)] : List Instr).map some := by decide

/-- ABS. -/
theorem test_decode_main_f5_c :
    [[0x075B#16]].map (decoded .main) =
      ([.abs (.ind 11#4)] : List Instr).map some := by decide

/-- JMP, JLT, JLE, JEQ, JHE, JGT, JNE, JNC. -/
theorem test_decode_main_f6_a :
    [[0x10FF#16], [0x1124#16], [0x1249#16], [0x136E#16], [0x1493#16], [0x15B8#16], [0x16DD#16], [0x1702#16]].map
      (decoded .main) =
      ([.jmp 0xFF#8, .jlt 0x24#8, .jle 0x49#8, .jeq 0x6E#8, .jhe 0x93#8, .jgt 0xB8#8, .jne 0xDD#8, .jnc 0x02#8] : List
        Instr).map some := by decide

/-- JOC, JNO, JL, JH, JOP, SBO, SBZ, TB. -/
theorem test_decode_main_f6_b :
    [[0x1827#16], [0x194C#16], [0x1A71#16], [0x1B96#16], [0x1CBB#16], [0x1DE0#16], [0x1E05#16], [0x1F2A#16]].map
      (decoded .main) =
      ([.joc 0x27#8, .jno 0x4C#8, .jl 0x71#8, .jh 0x96#8, .jop 0xBB#8, .sbo 0xE0#8, .sbz 0x05#8, .tb 0x2A#8] : List
        Instr).map some := by decide

/-- SRA, SRL, SLA, SRC. -/
theorem test_decode_main_f7 :
    [[0x08D2#16], [0x0949#16], [0x0AB0#16], [0x0B27#16]].map (decoded .main) =
      ([.sra 2#4 13#4, .srl 9#4 4#4, .sla 0#4 11#4, .src 7#4 2#4] : List Instr).map some := by decide

/-- LI, AI, ANDI, ORI, CI, BLSK. -/
theorem test_decode_main_f8 :
    [[0x0209#16], [0x0220#16], [0x0247#16], [0x026E#16], [0x0285#16], [0x00BC#16]].map (decoded .main) =
      ([.li 9#4, .ai 0#4, .andi 7#4, .ori 14#4, .ci 5#4, .blsk 12#4] : List Instr).map some := by decide

/-- LWPI, LIMI. -/
theorem test_decode_main_f9 :
    [[0x02E0#16], [0x0300#16]].map (decoded .main) =
      ([.lwpi, .limi] : List Instr).map some := by decide

/-- STWP, STST, LST, LWP. -/
theorem test_decode_main_f10 :
    [[0x02A1#16], [0x02C8#16], [0x008F#16], [0x0096#16]].map (decoded .main) =
      ([.stwp 1#4, .stst 8#4, .lst 15#4, .lwp 6#4] : List Instr).map some := by decide

/-- IDLE, RSET, RTWP, CKON, CKOF, LREX. -/
theorem test_decode_main_f11 :
    [[0x0340#16], [0x0360#16], [0x0380#16], [0x03A0#16], [0x03C0#16], [0x03E0#16]].map (decoded .main) =
      ([.idle, .rset, .rtwp, .ckon, .ckof, .lrex] : List Instr).map some := by decide

/-- TMB, TCMB, TSMB, SLAM, SRAM. -/
theorem test_decode_main_f12 :
    [[0x0C09#16, 0x01D1#16], [0x0C0A#16, 0x03A8#16], [0x0C0B#16, 0x016F#16], [0x001D#16, 0x4306#16], [0x001C#16,
      0x40DD#16]].map (decoded .main) =
      ([.tmb (.ind 1#4) 7#4, .tcmb (.idx 8#4) 14#4, .tsmb (.idx 15#4) 5#4, .slam (.reg 6#4) 12#4, .sram (.ind 13#4) 3#4]
        : List Instr).map some := by decide

/-- AM, SM. -/
theorem test_decode_main_f13 :
    [[0x002A#16, 0x47F9#16], [0x0029#16, 0x4980#16]].map (decoded .main) =
      ([.am (.inc 9#4) (.ind 15#4), .sm (.reg 0#4) (.idx 6#4)] : List Instr).map some := by decide

/-- EVAD. -/
theorem test_decode_macrostore_f5 :
    [[0x013D#16]].map (decoded .macrostore) =
      ([.evad (.inc 13#4)] : List Instr).map some := by decide

/-- The four RTWP forms of Macrostore. -/
theorem test_decode_macrostore_f11 :
    [[0x0380#16], [0x0381#16], [0x0382#16], [0x0384#16]].map (decoded .macrostore) =
      ([.rtwpExit, .rtwpStay, .rtwpIllop, .rtwpQuiet] : List Instr).map some := by decide

/-- The two jumps of Macrostore. -/
theorem test_decode_macrostore_f6 :
    [[0x1D39#16], [0x1E5E#16]].map (decoded .macrostore) =
      ([.jip 0x39#8, .jnep 0x5E#8] : List Instr).map some := by decide

/-- LDS, LDD, AR, CIR, SR, MR, DR, LR. -/
theorem test_decode_rom_f5_a :
    [[0x0780#16], [0x07C0#16], [0x0C4C#16], [0x0C93#16], [0x0CEA#16], [0x0D31#16], [0x0D48#16], [0x0D9F#16]].map
      (decoded .rom) =
      ([.lds, .ldd, .ar (.reg 12#4), .cir (.ind 3#4), .sr (.idx 10#4), .mr (.inc 1#4), .dr (.reg 8#4), .lr (.ind 15#4)]
        : List Instr).map some := by decide

/-- STR. -/
theorem test_decode_rom_f5_b :
    [[0x0DE6#16]].map (decoded .rom) =
      ([.str (.idx 6#4)] : List Instr).map some := by decide

/-- CRI, NEGR, CRE, CER. -/
theorem test_decode_rom_f14 :
    [[0x0C00#16], [0x0C02#16], [0x0C04#16], [0x0C06#16]].map (decoded .rom) =
      ([.cri, .negr, .cre, .cer] : List Instr).map some := by decide

/-- CR, MM. -/
theorem test_decode_rom_f13 :
    [[0x0301#16, 0x0E53#16], [0x0302#16, 0x002A#16]].map (decoded .rom) =
      ([.cr (.ind 3#4) (.inc 9#4), .mm (.idx 10#4) (.reg 0#4)] : List Instr).map some := by decide
/-- A MID opcode, an illegal second word, a cut-off instruction, and TB inside Macrostore are rejected by name
(spec/30_encoding.md R163 to R165). -/
theorem test_decode_rejects :
    (decode .main [0x00#8, 0x00#8, 0x00#8, 0x00#8]).toOption = none ∧ decodeMain 0x0000#16 = .mid ∧
    decodeSecond .tmb 0x0031#16 = none ∧ decodeSecond .am 0x0102#16 = none ∧ decodeSecond .slam 0x0042#16 = none ∧
    (decode .main [0x00#8, 0x2A#8]).toOption = none ∧ decodeMacrostore 0x1F00#16 = .undefined ∧
    decodeRom 0x0C01#16 = .undefined := by decide

/-! ### One step on the vectors of spec/95_test_vectors.md: WP, PC, ST and words -/

/-- V1: A R1,R2. -/
theorem test_a_overflow :
    seen (start 0x0000#16 [0xA081#16] [(0x0202, 0x7FFF#16), (0x0204, 0x0001#16)]) [0x0204] =
      some (0x0200#16, 0x1002#16, 0x8800#16, [0x8000#16]) := by decide

/-- V5: A *R1+,*R1+. -/
theorem test_a_autoincrement_twice :
    seen (start 0x0000#16 [0xAC71#16] [(0x0202, 0x2000#16), (0x2000, 0x0001#16), (0x2002, 0x0002#16)]) [0x0202,
      0x2002] =
      some (0x0200#16, 0x1002#16, 0xC000#16, [0x2004#16, 0x0003#16]) := by decide

/-- V9: AB *R1+,R2. -/
theorem test_ab_autoincrement_by_one :
    seen (start 0x0000#16 [0xB0B1#16] [(0x0202, 0x2000#16), (0x0204, 0x7F55#16), (0x2000, 0x0199#16)]) [0x0202,
      0x0204] =
      some (0x0200#16, 0x1002#16, 0x8C00#16, [0x2001#16, 0x8055#16]) := by decide

/-- V10: AB R1,@>2001. -/
theorem test_ab_odd_byte :
    seen (start 0x0000#16 [0xB801#16, 0x2001#16] [(0x0202, 0x80AA#16), (0x2000, 0x7780#16)]) [0x2000] =
      some (0x0200#16, 0x1004#16, 0x3800#16, [0x7700#16]) := by decide

/-- V15: S R1,R2. -/
theorem test_s_carry_no_overflow :
    seen (start 0x0000#16 [0x6081#16] [(0x0202, 0x0003#16), (0x0204, 0x0005#16)]) [0x0204] =
      some (0x0200#16, 0x1002#16, 0xD000#16, [0x0002#16]) := by decide

/-- V12: S R1,R2. -/
theorem test_s_borrow :
    seen (start 0x0000#16 [0x6081#16] [(0x0202, 0x0001#16), (0x0204, 0x0000#16)]) [0x0204] =
      some (0x0200#16, 0x1002#16, 0x8000#16, [0xFFFF#16]) := by decide

/-- V17: SB R1,R2. -/
theorem test_sb :
    seen (start 0x0000#16 [0x7081#16] [(0x0202, 0x0100#16), (0x0204, 0x8034#16)]) [0x0204] =
      some (0x0200#16, 0x1002#16, 0xDC00#16, [0x7F34#16]) := by decide

/-- V18: C R1,R2. -/
theorem test_c_signed_unsigned :
    seen (start 0x0000#16 [0x8081#16] [(0x0202, 0x0001#16), (0x0204, 0x8000#16)]) [] =
      some (0x0200#16, 0x1002#16, 0x4000#16, []) := by decide

/-- V20: C *R1+,*R2+. -/
theorem test_c_autoincrement :
    seen (start 0x0000#16 [0x8CB1#16] [(0x0202, 0x2000#16), (0x0204, 0x3000#16), (0x2000, 0xFFFF#16), (0x3000,
      0x7FFF#16)]) [0x0202, 0x0204] =
      some (0x0200#16, 0x1002#16, 0x8000#16, [0x2002#16, 0x3002#16]) := by decide

/-- V21: CB @>2001,R2. -/
theorem test_cb_source_parity :
    seen (start 0x0000#16 [0x90A0#16, 0x2001#16] [(0x0204, 0x8000#16), (0x2000, 0xFF7F#16)]) [] =
      some (0x0200#16, 0x1004#16, 0x4400#16, []) := by decide

/-- V22: SOC R1,R2. -/
theorem test_soc_keeps_carry :
    seen (start 0x1800#16 [0xE081#16] [(0x0202, 0x0000#16), (0x0204, 0x0000#16)]) [] =
      some (0x0200#16, 0x1002#16, 0x3800#16, []) := by decide

/-- V35: SOCB *R15+,*R15+. -/
theorem test_socb_all_ones_word :
    seen (start 0x0000#16 [0xFFFF#16] [(0x021E, 0x2000#16), (0x2000, 0x0F30#16)]) [0x021E, 0x2000] =
      some (0x0200#16, 0x1002#16, 0xC000#16, [0x2002#16, 0x0F3F#16]) := by decide

/-- V25: SZC R1,R2. -/
theorem test_szc :
    seen (start 0x0000#16 [0x4081#16] [(0x0202, 0x0000#16), (0x0204, 0xABCD#16)]) [] =
      some (0x0200#16, 0x1002#16, 0x8000#16, []) := by decide

/-- V26: SZCB R1,R2. -/
theorem test_szcb :
    seen (start 0x0000#16 [0x5081#16] [(0x0202, 0xF000#16), (0x0204, 0xFFAA#16)]) [0x0204] =
      some (0x0200#16, 0x1002#16, 0xC000#16, [0x0FAA#16]) := by decide

/-- V28: MOV R1,*R1+. -/
theorem test_mov_source_is_address :
    seen (start 0x0000#16 [0xCC41#16] [(0x0202, 0x2000#16)]) [0x0202, 0x2000] =
      some (0x0200#16, 0x1002#16, 0xC000#16, [0x2002#16, 0x2000#16]) := by decide

/-- V29: MOV *R1+,R1. -/
theorem test_mov_to_its_register :
    seen (start 0x0000#16 [0xC071#16] [(0x0202, 0x2000#16), (0x2000, 0xBEEF#16)]) [0x0202] =
      some (0x0200#16, 0x1002#16, 0x8000#16, [0xBEEF#16]) := by decide

/-- V33: MOVB @>2001,R1. -/
theorem test_movb_from_odd :
    seen (start 0x0000#16 [0xD060#16, 0x2001#16] [(0x0202, 0x1122#16), (0x2000, 0xAA00#16)]) [0x0202] =
      some (0x0200#16, 0x1004#16, 0x2000#16, [0x0022#16]) := by decide

/-- V34: MOVB *R1+,*R2+. -/
theorem test_movb_autoincrement :
    seen (start 0x0000#16 [0xDCB1#16] [(0x0202, 0x2001#16), (0x0204, 0x3000#16), (0x2000, 0x0007#16), (0x3000,
      0xFFFF#16)]) [0x0202, 0x0204, 0x3000] =
      some (0x0200#16, 0x1002#16, 0xC400#16, [0x2002#16, 0x3001#16, 0x07FF#16]) := by decide

/-- V41: COC R1,R2. -/
theorem test_coc :
    seen (start 0x2000#16 [0x2081#16] [(0x0202, 0x0011#16), (0x0204, 0xFF10#16)]) [] =
      some (0x0200#16, 0x1002#16, 0x0000#16, []) := by decide

/-- V43: CZC *R1+,R2. -/
theorem test_czc :
    seen (start 0x0000#16 [0x24B1#16] [(0x0202, 0x2000#16), (0x0204, 0x00FF#16), (0x2000, 0xFF00#16)]) [0x0202] =
      some (0x0200#16, 0x1002#16, 0x2000#16, [0x2002#16]) := by decide

/-- V45: XOR @>2000,R2. -/
theorem test_xor :
    seen (start 0x0000#16 [0x28A0#16, 0x2000#16] [(0x0204, 0x0F0F#16), (0x2000, 0x8F0F#16)]) [0x0204] =
      some (0x0200#16, 0x1004#16, 0x8000#16, [0x8000#16]) := by decide

/-- V46: MPY R1,R2. -/
theorem test_mpy_keeps_status :
    seen (start 0xFC00#16 [0x3881#16] [(0x0202, 0x0000#16), (0x0204, 0xFFFF#16)]) [0x0204, 0x0206] =
      some (0x0200#16, 0x1002#16, 0xFC00#16, [0x0000#16, 0x0000#16]) := by decide

/-- V48: MPY R1,R15. -/
theorem test_mpy_r15 :
    seen (start 0x0000#16 [0x3BC1#16] [(0x0202, 0x0003#16), (0x021E, 0x8000#16)]) [0x021E, 0x0220] =
      some (0x0200#16, 0x1002#16, 0x0000#16, [0x0001#16, 0x8000#16]) := by decide

/-- V51: DIV R1,R2. -/
theorem test_div_overflow :
    seen (start 0x0000#16 [0x3C81#16] [(0x0202, 0x0005#16), (0x0204, 0x0005#16), (0x0206, 0x0000#16)]) [] =
      some (0x0200#16, 0x1002#16, 0x0800#16, []) := by decide

/-- DIV R1,R2 with the word after R2 a device: an overflow does not read it, a divisor of zero does
(spec/71_bus_sequences.md R696; log 49). -/
theorem test_div_exits :
    [0x0005#16, 0x0000#16].map (fun x =>
      let s := start 0x0000#16 [0x3C81#16] [(0x0202, x), (0x0204, 0x0005#16)]
      (after 1 { s with
          devIn := [0x0001#16]
          params := { s.params with mainMap := [{ first := 0x0206, last := 0x0207, kind := .device }] } }).map
        fun t => (t.st, t.devIn)) =
      [some (0x0800#16, [0x0001#16]), some (0x0800#16, [])] := by decide

/-- V54: DIV R1,R2. -/
theorem test_div :
    seen (start 0x0800#16 [0x3C81#16] [(0x0202, 0x0007#16), (0x0204, 0x0000#16), (0x0206, 0x0064#16)]) [0x0204,
      0x0206] =
      some (0x0200#16, 0x1002#16, 0x0000#16, [0x000E#16, 0x0002#16]) := by decide

/-- V57: MPYS R2. -/
theorem test_mpys :
    seen (start 0x0000#16 [0x01C2#16] [(0x0200, 0x7FFF#16), (0x0204, 0x8000#16)]) [0x0200, 0x0202] =
      some (0x0200#16, 0x1002#16, 0x8000#16, [0xC000#16, 0x8000#16]) := by decide

/-- V59: DIVS R2. -/
theorem test_divs_toward_zero :
    seen (start 0x0000#16 [0x0182#16] [(0x0200, 0x0000#16), (0x0202, 0x0007#16), (0x0204, 0xFFFE#16)]) [0x0200,
      0x0202] =
      some (0x0200#16, 0x1002#16, 0x8000#16, [0xFFFD#16, 0x0001#16]) := by decide

/-- V60: DIVS R2. -/
theorem test_divs_most_negative :
    seen (start 0x0000#16 [0x0182#16] [(0x0200, 0xFFFF#16), (0x0202, 0x8000#16), (0x0204, 0x0001#16)]) [0x0200,
      0x0202] =
      some (0x0200#16, 0x1002#16, 0x8000#16, [0x8000#16, 0x0000#16]) := by decide

/-- V70: CLR *R1+. -/
theorem test_clr_keeps_status :
    seen (start 0xFFFF#16 [0x04F1#16] [(0x0202, 0x2000#16)]) [0x0202, 0x2000] =
      some (0x0200#16, 0x1002#16, 0xFFFF#16, [0x2002#16, 0x0000#16]) := by decide

/-- V71: SETO @>2000(R2). -/
theorem test_seto_indexed :
    seen (start 0x0000#16 [0x0722#16, 0x2000#16] [(0x0204, 0x0004#16)]) [0x2004] =
      some (0x0200#16, 0x1004#16, 0x0000#16, [0xFFFF#16]) := by decide

/-- V72: INV R1. -/
theorem test_inv :
    seen (start 0x0000#16 [0x0541#16] [(0x0202, 0xFFFF#16)]) [0x0202] =
      some (0x0200#16, 0x1002#16, 0x2000#16, [0x0000#16]) := by decide

/-- V73: NEG R1. -/
theorem test_neg_zero :
    seen (start 0x0000#16 [0x0501#16] [(0x0202, 0x0000#16)]) [] =
      some (0x0200#16, 0x1002#16, 0x3000#16, []) := by decide

/-- V74: NEG R1. -/
theorem test_neg_most_negative :
    seen (start 0x0000#16 [0x0501#16] [(0x0202, 0x8000#16)]) [] =
      some (0x0200#16, 0x1002#16, 0x8800#16, []) := by decide

/-- V76: ABS R1. -/
theorem test_abs_most_negative :
    seen (start 0x1000#16 [0x0741#16] [(0x0202, 0x8000#16)]) [] =
      some (0x0200#16, 0x1002#16, 0x8800#16, []) := by decide

/-- V78: ABS *R1. -/
theorem test_abs_positive :
    seen (start 0x0000#16 [0x0751#16] [(0x0202, 0x2000#16), (0x2000, 0x0007#16)]) [] =
      some (0x0200#16, 0x1002#16, 0xC000#16, []) := by decide

/-- V79: SWPB R1. -/
theorem test_swpb :
    seen (start 0x2000#16 [0x06C1#16] [(0x0202, 0x00FF#16)]) [0x0202] =
      some (0x0200#16, 0x1002#16, 0x2000#16, [0xFF00#16]) := by decide

/-- V80: INC R1. -/
theorem test_inc :
    seen (start 0x0000#16 [0x0581#16] [(0x0202, 0xFFFF#16)]) [0x0202] =
      some (0x0200#16, 0x1002#16, 0x3000#16, [0x0000#16]) := by decide

/-- V82: INCT R1. -/
theorem test_inct :
    seen (start 0x0000#16 [0x05C1#16] [(0x0202, 0xFFFF#16)]) [0x0202] =
      some (0x0200#16, 0x1002#16, 0xD000#16, [0x0001#16]) := by decide

/-- V83: DEC R1. -/
theorem test_dec :
    seen (start 0x0000#16 [0x0601#16] [(0x0202, 0x0000#16)]) [0x0202] =
      some (0x0200#16, 0x1002#16, 0x8000#16, [0xFFFF#16]) := by decide

/-- V86: DECT R1. -/
theorem test_dect :
    seen (start 0x0000#16 [0x0641#16] [(0x0202, 0x8001#16)]) [0x0202] =
      some (0x0200#16, 0x1002#16, 0xD800#16, [0x7FFF#16]) := by decide

/-- V88: B R3. -/
theorem test_b_register_address :
    seen (start 0x0000#16 [0x0443#16] []) [] =
      some (0x0200#16, 0x0206#16, 0x0000#16, []) := by decide

/-- V89: BL *R11. -/
theorem test_bl_address_before_link :
    seen (start 0x0000#16 [0x069B#16] [(0x0216, 0x3000#16), (0x3000, 0x0000#16)]) [0x0216] =
      some (0x0200#16, 0x3000#16, 0x0000#16, [0x1002#16]) := by decide

/-- V97: BIND *R10+. -/
theorem test_bind_pops :
    seen (start 0x0000#16 [0x017A#16] [(0x0214, 0x7FFE#16), (0x7FFE, 0x1004#16)]) [0x0214] =
      some (0x0200#16, 0x1004#16, 0x0000#16, [0x8000#16]) := by decide

/-- V103: SLA R1,2. -/
theorem test_sla_overflow_between :
    seen (start 0x0000#16 [0x0A21#16] [(0x0202, 0xE000#16)]) [0x0202] =
      some (0x0200#16, 0x1002#16, 0x9000#16, [0x8000#16]) := by decide

/-- V104: SLA R1,0. -/
theorem test_sla_by_sixteen :
    seen (start 0x0000#16 [0x0A01#16] [(0x0200, 0x0010#16), (0x0202, 0x0001#16)]) [0x0202] =
      some (0x0200#16, 0x1002#16, 0x3800#16, [0x0000#16]) := by decide

/-- V105: SRA R1,0. -/
theorem test_sra_by_sixteen :
    seen (start 0x0800#16 [0x0801#16] [(0x0200, 0x0000#16), (0x0202, 0x8000#16)]) [0x0202] =
      some (0x0200#16, 0x1002#16, 0x9800#16, [0xFFFF#16]) := by decide +kernel

/-- V107: SRL R1,0. -/
theorem test_srl_by_sixteen :
    seen (start 0x0000#16 [0x0901#16] [(0x0200, 0x0000#16), (0x0202, 0x8000#16)]) [0x0202] =
      some (0x0200#16, 0x1002#16, 0x3000#16, [0x0000#16]) := by decide

/-- V110: SRC R1,1. -/
theorem test_src :
    seen (start 0x0000#16 [0x0B11#16] [(0x0202, 0x0001#16)]) [0x0202] =
      some (0x0200#16, 0x1002#16, 0x9000#16, [0x8000#16]) := by decide

/-- V120: JMP $-254. -/
theorem test_jmp_back :
    seen (start 0x0000#16 [0x1080#16] []) [] =
      some (0x0200#16, 0x0F02#16, 0x0000#16, []) := by decide

/-- V122: JMP $+2. -/
theorem test_jmp_wraps :
    seen { start 0x0000#16 [] [(0xFFFE, 0x1000#16)] with pc := 0xFFFE#16 } [] =
      some (0x0200#16, 0x0000#16, 0x0000#16, []) := by decide

/-- V124: JNE $-2. -/
theorem test_jne_wraps :
    seen { start 0x0000#16 [] [(0x0000, 0x16FE#16)] with pc := 0x0000#16 } [] =
      some (0x0200#16, 0xFFFE#16, 0x0000#16, []) := by decide

/-- V131: LI R2,>8000. -/
theorem test_li :
    seen (start 0x3C0F#16 [0x0202#16, 0x8000#16] []) [0x0204] =
      some (0x0200#16, 0x1004#16, 0x9C0F#16, [0x8000#16]) := by decide

/-- V133: AI R1,-1. -/
theorem test_ai :
    seen (start 0x0000#16 [0x0221#16, 0xFFFF#16] [(0x0202, 0x8000#16)]) [0x0202] =
      some (0x0200#16, 0x1004#16, 0xD800#16, [0x7FFF#16]) := by decide

/-- V136: ANDI R5,>F3FF. -/
theorem test_andi :
    seen (start 0x0000#16 [0x0245#16, 0xF3FF#16] [(0x020A, 0x0C55#16)]) [0x020A] =
      some (0x0200#16, 0x1004#16, 0xC000#16, [0x0055#16]) := by decide

/-- V137: ORI R1,>8000. -/
theorem test_ori :
    seen (start 0x0000#16 [0x0261#16, 0x8000#16] [(0x0202, 0x0001#16)]) [0x0202] =
      some (0x0200#16, 0x1004#16, 0x8000#16, [0x8001#16]) := by decide

/-- V139: CI R1,>8000. -/
theorem test_ci :
    seen (start 0x0000#16 [0x0281#16, 0x8000#16] [(0x0202, 0x7FFF#16)]) [] =
      some (0x0200#16, 0x1004#16, 0x4000#16, []) := by decide

/-- V140: BLSK R10,>3001. -/
theorem test_blsk_wraps :
    seen (start 0x0000#16 [0x00BA#16, 0x3001#16] [(0x0214, 0x0000#16)]) [0x0214, 0xFFFE] =
      some (0x0200#16, 0x3000#16, 0x0000#16, [0xFFFE#16, 0x1004#16]) := by decide

/-- V141: BLSK R10,>3000. -/
theorem test_blsk_over_its_own_register :
    seen (start 0x0000#16 [0x00BA#16, 0x3000#16] [(0x0214, 0x0216#16)]) [0x0214] =
      some (0x0200#16, 0x3000#16, 0x0000#16, [0x1004#16]) := by decide

/-- V150: LWPI >0301. -/
theorem test_lwpi :
    seen (start 0x0000#16 [0x02E0#16, 0x0301#16] []) [] =
      some (0x0300#16, 0x1004#16, 0x0000#16, []) := by decide

/-- V153: STST R3. -/
theorem test_stst :
    seen (start 0xD5BF#16 [0x02C3#16] []) [0x0206] =
      some (0x0200#16, 0x1002#16, 0xD5BF#16, [0xD5BF#16]) := by decide

/-- V154: LST R1. -/
theorem test_lst :
    seen (start 0x0000#16 [0x0081#16] [(0x0202, 0x018F#16)]) [] =
      some (0x0200#16, 0x1002#16, 0x018F#16, []) := by decide

/-- V155: LST R1. -/
theorem test_lst_user :
    seen (start 0x010F#16 [0x0081#16] [(0x0202, 0x0000#16)]) [] =
      some (0x0200#16, 0x1002#16, 0x010F#16, []) := by decide

/-- V157: STWP R2. -/
theorem test_stwp :
    seen { start 0x0000#16 [0x02A2#16] [] with wp := 0x8300#16 } [0x8304] =
      some (0x8300#16, 0x1002#16, 0x0000#16, [0x8300#16]) := by decide

/-- V158: LWP R4. -/
theorem test_lwp :
    seen (start 0x0000#16 [0x0094#16] [(0x0208, 0x8301#16)]) [] =
      some (0x8300#16, 0x1002#16, 0x0000#16, []) := by decide

/-- V159: RTWP. -/
theorem test_rtwp :
    seen (start 0x0000#16 [0x0380#16] [(0x021A, 0x0400#16), (0x021C, 0x2001#16), (0x021E, 0x01AF#16)]) [] =
      some (0x0400#16, 0x2000#16, 0x01AF#16, []) := by decide

/-- V160: RTWP. -/
theorem test_rtwp_user :
    seen (start 0x018F#16 [0x0380#16] [(0x021A, 0x0400#16), (0x021C, 0x2000#16), (0x021E, 0xFE00#16)]) [] =
      some (0x0400#16, 0x2000#16, 0xFD8F#16, []) := by decide

/-- V91: BLWP R4. -/
theorem test_blwp :
    seen (start 0x01AF#16 [0x0404#16] [(0x0208, 0x0301#16), (0x020A, 0x4001#16)]) [0x031A, 0x031C, 0x031E] =
      some (0x0300#16, 0x4000#16, 0x01AF#16, [0x0200#16, 0x1002#16, 0x01AF#16]) := by decide

/-- V92: BLWP *R1+. -/
theorem test_blwp_same_workspace :
    seen (start 0x0000#16 [0x0431#16] [(0x0202, 0x0500#16), (0x0500, 0x0200#16), (0x0502, 0x4000#16)]) [0x0202,
      0x021A, 0x021C, 0x021E] =
      some (0x0200#16, 0x4000#16, 0x0000#16, [0x0502#16, 0x0200#16, 0x1002#16, 0x0000#16]) := by decide

/-- V210: TMB R1,15. -/
theorem test_tmb_last_bit :
    seen (start 0x0000#16 [0x0C09#16, 0x03C1#16] [(0x0202, 0x0001#16)]) [] =
      some (0x0200#16, 0x1004#16, 0x2000#16, []) := by decide

/-- V211: TMB R1,0. -/
theorem test_tmb_clear :
    seen (start 0x2000#16 [0x0C09#16, 0x0001#16] [(0x0202, 0x7FFF#16)]) [] =
      some (0x0200#16, 0x1004#16, 0x0000#16, []) := by decide

/-- V212: TCMB @>2000(R2),7. -/
theorem test_tcmb_indexed :
    seen (start 0x0000#16 [0x0C0A#16, 0x01E2#16, 0x2000#16] [(0x0204, 0x0002#16), (0x2002, 0xFFFF#16)]) [0x2002] =
      some (0x0200#16, 0x1006#16, 0x2000#16, [0xFEFF#16]) := by decide

/-- V213: TSMB @>2000,8. -/
theorem test_tsmb_already_set :
    seen (start 0x0000#16 [0x0C0B#16, 0x0220#16, 0x2000#16] [(0x2000, 0x0080#16)]) [] =
      some (0x0200#16, 0x1006#16, 0x2000#16, []) := by decide

/-- V219: AM *R1+,*R1+. -/
theorem test_am_autoincrement_twice :
    seen (start 0x0000#16 [0x002A#16, 0x4C71#16] [(0x0202, 0x2000#16), (0x2000, 0x0000#16), (0x2002, 0x0005#16),
      (0x2004, 0x0000#16), (0x2006, 0x0007#16)]) [0x0202, 0x2006] =
      some (0x0200#16, 0x1004#16, 0xC000#16, [0x2008#16, 0x000C#16]) := by decide

/-- V222: SM R2,R4. -/
theorem test_sm_overflow :
    seen (start 0x0000#16 [0x0029#16, 0x4102#16] [(0x0204, 0x0000#16), (0x0206, 0x0001#16), (0x0208, 0x8000#16),
      (0x020A, 0x0000#16)]) [0x0208, 0x020A] =
      some (0x0200#16, 0x1004#16, 0xD800#16, [0x7FFF#16, 0xFFFF#16]) := by decide

/-- V225: SLAM R2,0. -/
theorem test_slam_count_zero :
    seen (start 0x1800#16 [0x001D#16, 0x4002#16] [(0x0200, 0xF0FF#16), (0x0204, 0x8000#16), (0x0206, 0x0001#16)]) []
      =
      some (0x0200#16, 0x1004#16, 0x8000#16, []) := by decide

/-- V226: SLAM R2,0. -/
theorem test_slam_count_from_register :
    seen (start 0x0000#16 [0x001D#16, 0x4002#16] [(0x0200, 0x0300#16), (0x0204, 0x1000#16), (0x0206, 0x8000#16)])
      [0x0204, 0x0206] =
      some (0x0200#16, 0x1004#16, 0x8800#16, [0x8004#16, 0x0000#16]) := by decide

/-- V229: SRAM R2,15. -/
theorem test_sram_by_fifteen :
    seen (start 0x0800#16 [0x001C#16, 0x43C2#16] [(0x0204, 0x8000#16), (0x0206, 0x0000#16)]) [0x0204] =
      some (0x0200#16, 0x1004#16, 0x8800#16, [0xFFFF#16]) := by decide +kernel

/-- V231: SRAM R0,0. -/
theorem test_sram_operand_is_count :
    seen (start 0x0000#16 [0x001C#16, 0x4000#16] [(0x0200, 0x0400#16), (0x0202, 0x0000#16)]) [0x0200] =
      some (0x0200#16, 0x1004#16, 0xC000#16, [0x0040#16]) := by decide

/-- V241: XOP *R1+,15. -/
theorem test_xop_autoincrement :
    seen (start 0x0000#16 [0x2FF1#16] [(0x0202, 0x2000#16), (0x007C, 0x0301#16), (0x007E, 0x4001#16)]) [0x0202,
      0x0316, 0x031A, 0x031C, 0x031E] =
      some (0x0300#16, 0x4000#16, 0x0200#16, [0x2002#16, 0x2000#16, 0x0200#16, 0x1002#16, 0x0000#16]) := by decide

/-- V243: XOP R3,1. -/
theorem test_xop_overlapping_workspace :
    seen (start 0x0000#16 [0x2C43#16] [(0x0206, 0x0000#16), (0x0044, 0x0200#16), (0x0046, 0x4000#16)]) [0x0216,
      0x021A, 0x021C, 0x021E] =
      some (0x0200#16, 0x4000#16, 0x0200#16, [0x0206#16, 0x0200#16, 0x1002#16, 0x0000#16]) := by decide

/-- V190: STCR R2,0. -/
theorem test_stcr_sixteen :
    seen { start 0x0000#16 [0x3402#16] [(0x0218, 0x0200#16)] with ioIn := [0x8000#16, 0x0000#16, 0x0000#16,
      0x0000#16, 0x0000#16, 0x8000#16, 0x0000#16, 0x0000#16, 0x0000#16, 0x0000#16, 0x8000#16, 0x0000#16, 0x0000#16,
      0x0000#16, 0x0000#16, 0x8000#16] } [0x0204] =
      some (0x0200#16, 0x1002#16, 0x8000#16, [0x8421#16]) := by decide

/-- V192: STCR @>2001,8. -/
theorem test_stcr_byte_odd :
    seen { start 0x0000#16 [0x3620#16, 0x2001#16] [(0x0218, 0x0200#16), (0x2000, 0x1234#16)] with ioIn :=
      [0x0000#16, 0x0000#16, 0x0000#16, 0x0000#16, 0x0000#16, 0x0000#16, 0x0000#16, 0x8000#16] } [0x2000] =
      some (0x0200#16, 0x1004#16, 0x8400#16, [0x1280#16]) := by decide

/-- V250: (JMP $+2). -/
theorem test_interrupt_level_4 :
    seen { start 0xD5BF#16 [] [(0x0010, 0x0300#16), (0x0012, 0x2000#16), (0x1006, 0x1000#16)] with
        pc := 0x1006#16, pins := request 4#4 } [0x031A, 0x031C, 0x031E] =
      some (0x0300#16, 0x2000#16, 0xD403#16, [0x0200#16, 0x1006#16, 0xD5BF#16]) := by decide

/-- V256: (JMP $+2). -/
theorem test_nmi_with_mask_zero :
    seen { start 0x2000#16 [0x1000#16] [(0xFFFC, 0x0300#16), (0xFFFE, 0x2000#16)] with nmiPending := true } [0x031A,
      0x031C, 0x031E] =
      some (0x0300#16, 0x2000#16, 0x2000#16, [0x0200#16, 0x1000#16, 0x2000#16]) := by decide

/-- V251: (JMP $+2). -/
theorem test_interrupt_masked :
    seen { start 0x0003#16 [0x1000#16] [] with pins := request 4#4 } [] =
      some (0x0200#16, 0x1002#16, 0x0003#16, []) := by decide
/-! ### Jumps by status: ST = 0, ST0, ST1, ST2, and for the others the bit and its absence
(spec/44_jump_shift.md R352 to R363) -/

/-- The status words with none or one of ST0 to ST2, and with ST0 and ST2. -/
def lae : List Word := [0x0000#16, 0x8000#16, 0x4000#16, 0x2000#16, 0xA000#16]

theorem test_jlt :
    lae.map (goes 0x1101#16) = [0x1004#16, 0x1004#16, 0x1002#16, 0x1002#16, 0x1002#16].map some := by decide
theorem test_jle :
    lae.map (goes 0x1201#16) = [0x1004#16, 0x1002#16, 0x1004#16, 0x1004#16, 0x1004#16].map some := by decide
theorem test_jeq :
    lae.map (goes 0x1301#16) = [0x1002#16, 0x1002#16, 0x1002#16, 0x1004#16, 0x1004#16].map some := by decide
theorem test_jhe :
    lae.map (goes 0x1401#16) = [0x1002#16, 0x1004#16, 0x1002#16, 0x1004#16, 0x1004#16].map some := by decide
theorem test_jgt :
    lae.map (goes 0x1501#16) = [0x1002#16, 0x1002#16, 0x1004#16, 0x1002#16, 0x1002#16].map some := by decide
theorem test_jl :
    lae.map (goes 0x1A01#16) = [0x1004#16, 0x1002#16, 0x1004#16, 0x1002#16, 0x1002#16].map some := by decide
theorem test_jh :
    lae.map (goes 0x1B01#16) = [0x1002#16, 0x1004#16, 0x1002#16, 0x1002#16, 0x1002#16].map some := by decide
theorem test_jnc : [0xEFFF#16, 0x1000#16].map (goes 0x1701#16) = [some 0x1004#16, some 0x1002#16] := by decide
theorem test_joc : [0x1000#16, 0xEFFF#16].map (goes 0x1801#16) = [some 0x1004#16, some 0x1002#16] := by decide
theorem test_jno : [0xF7FF#16, 0x0800#16].map (goes 0x1901#16) = [some 0x1004#16, some 0x1002#16] := by decide
theorem test_jop : [0x0400#16, 0xFBFF#16].map (goes 0x1C01#16) = [some 0x1004#16, some 0x1002#16] := by decide

/-! ### Flags, inhibit and I/O -/

/-- V151: LIMI 5. -/
theorem test_limi :
    noted (start 0xC00F#16 [0x0300#16, 0xFFF5#16] []) [] =
      some ((0x1004#16, 0xC005#16, []), [false, false, false, false], .none, []) := by decide

/-- V152: LIMI 0. -/
theorem test_limi_user :
    noted (start 0x0102#16 [0x0300#16, 0x0000#16] []) [] =
      some ((0x1004#16, 0x0102#16, []), [true, false, false, false], .none, []) := by decide

/-- V162: CKON. -/
theorem test_ckon :
    noted (start 0x0000#16 [0x03A0#16] []) [] =
      some ((0x1002#16, 0x0000#16, []), [false, false, false, false], .none, [.bit 0x1ECA#16 false]) := by decide

/-- V163: CKOF. -/
theorem test_ckof :
    noted (start 0x0000#16 [0x03C0#16] []) [] =
      some ((0x1002#16, 0x0000#16, []), [false, false, false, false], .none, [.bit 0x1ECC#16 false]) := by decide

/-- V164: LREX. -/
theorem test_lrex :
    noted (start 0x0000#16 [0x03E0#16] []) [] =
      some ((0x1002#16, 0x0000#16, []), [false, false, false, false], .none, [.bit 0x1ECE#16 false]) := by decide

/-- V165: CKON. -/
theorem test_ckon_user :
    noted (start 0x0100#16 [0x03A0#16] []) [] =
      some ((0x1002#16, 0x0100#16, []), [true, false, false, false], .none, []) := by decide

/-- V166: RSET. -/
theorem test_rset_user :
    noted { start 0x0171#16 [0x0360#16] [] with illop := true, af := true } [] =
      some ((0x1002#16, 0x0171#16, []), [true, true, true, false], .none, []) := by decide

/-- V167: RSET. -/
theorem test_rset :
    noted { start 0xFE71#16 [0x0360#16] [] with privop := true, illop := true, af := true } [] =
      some ((0x1002#16, 0xFE00#16, []), [false, false, false, false], .none, [.bit 0x1EC6#16 false]) := by decide

/-- V168: IDLE. -/
theorem test_idle :
    noted (start 0x0002#16 [0x0340#16] []) [] =
      some ((0x1002#16, 0x0002#16, []), [false, false, false, true], .none, [.bit 0x1EC4#16 false]) := by decide

/-- V182: LDCR *R1+,9. -/
theorem test_ldcr_nine_bits :
    noted (start 0x0000#16 [0x3271#16] [(0x0202, 0x2000#16), (0x0218, 0x0000#16), (0x2000, 0x0101#16)]) [0x0202] =
      some ((0x1002#16, 0xC000#16, [0x2002#16]), [false, false, false, false], .none, [.bit 0x0000#16 true, .bit
        0x0002#16 false, .bit 0x0004#16 false, .bit 0x0006#16 false, .bit 0x0008#16 false, .bit 0x000A#16 false, .bit
        0x000C#16 false, .bit 0x000E#16 false, .bit 0x0010#16 true]) := by decide

/-- V186: LDCR R1,3. -/
theorem test_ldcr_parallel_byte :
    noted (start 0x0000#16 [0x30C1#16] [(0x0202, 0x0000#16), (0x0218, 0x8100#16)]) [0x0218] =
      some ((0x1002#16, 0x2000#16, [0x8102#16]), [false, false, false, false], .none, [.byte 0x8100#16 0x00#8]) := by
        decide

/-- V184: LDCR R1,4. -/
theorem test_ldcr_user_break :
    noted (start 0x0100#16 [0x3101#16] [(0x0202, 0x0F00#16), (0x0218, 0x1BFC#16)]) [] =
      some ((0x1002#16, 0xC100#16, []), [true, false, false, false], .none, [.bit 0x1BFC#16 true, .bit 0x1BFE#16
        true]) := by decide

/-- V196: STCR R3,11. -/
theorem test_stcr_parallel_word :
    noted { start 0x0000#16 [0x36C3#16] [(0x0218, 0x9001#16)] with ioIn := [0x7FFF#16] } [0x0206, 0x0218] =
      some ((0x1002#16, 0xC000#16, [0x7FFF#16, 0x9003#16]), [false, false, false, false], .none, []) := by decide

/-- V194: STCR R2,1. -/
theorem test_stcr_user :
    noted { start 0x0101#16 [0x3442#16] [(0x0204, 0x0000#16), (0x0218, 0x1FDA#16)] with illop := true } [0x0204] =
      some ((0x1002#16, 0xC501#16, [0x0100#16]), [true, true, false, false], .none, []) := by decide

/-- V197: SBO 0. -/
theorem test_sbo :
    noted (start 0x0000#16 [0x1D00#16] [(0x0218, 0x0101#16)]) [] =
      some ((0x1002#16, 0x0000#16, []), [false, false, false, false], .none, [.bit 0x0100#16 true]) := by decide

/-- V202: SBO 0. -/
theorem test_sbo_user_below_guard :
    noted (start 0x0100#16 [0x1D00#16] [(0x0218, 0x1BFE#16)]) [] =
      some ((0x1002#16, 0x0100#16, []), [false, false, false, false], .none, [.bit 0x1BFE#16 true]) := by decide

/-- V200: SBZ -128. -/
theorem test_sbz :
    noted (start 0x0000#16 [0x1E80#16] [(0x0218, 0x0100#16)]) [] =
      some ((0x1002#16, 0x0000#16, []), [false, false, false, false], .none, [.bit 0x0000#16 false]) := by decide

/-- V203: SBZ 0. -/
theorem test_sbz_clears_flag :
    noted { start 0x0001#16 [0x1E00#16] [(0x0218, 0x1FC8#16)] with af := true } [] =
      some ((0x1002#16, 0x0001#16, []), [false, false, false, false], .none, [.bit 0x1FC8#16 false]) := by decide

/-- V205: TB 0 in user mode; and where the parameter has R651 restrict it, with PRIVOP set after the read
(spec/70_reset_and_hazards.md R651). -/
theorem test_tb_flag :
    [false, true].map (fun b => (after 1 { start 0x2101#16 [0x1F00#16] [(0x0218, 0x1FDC#16)] with
        params := { Params.default with tbViolates := b } }).map fun t => (t.pc, t.st, t.privop, t.ioInhibit)) =
      [some (0x1002#16, 0x0101#16, false, false), some (0x1002#16, 0x0101#16, true, false)] := by decide

/-- V206: TB 2. -/
theorem test_tb_input :
    noted { start 0x0000#16 [0x1F02#16] [(0x0218, 0x0300#16)] with ioIn := [0x8000#16] } [] =
      some ((0x1002#16, 0x2000#16, []), [false, false, false, false], .none, []) := by decide

/-- V258: (JMP $+2). -/
theorem test_internal_before_external :
    noted { start 0x0002#16 [0x1000#16] [(0x0008, 0x0300#16), (0x000A, 0x2000#16)] with
        af := true, pins := request 1#4 } [0x031A, 0x031C, 0x031E] =
      some ((0x2000#16, 0x0001#16, [0x0200#16, 0x1000#16, 0x0002#16]), [false, false, true, false], .maskable, []) :=
        by decide

/-- V268: (JMP $+2). -/
theorem test_inhibit_all_holds_nmi :
    noted { start 0x000F#16 [0x1000#16] [] with
        nmiPending := true, inhibit := .all } [] =
      some ((0x1002#16, 0x000F#16, []), [false, false, false, false], .none, []) := by decide

/-- V264: (idle state). -/
theorem test_idle_stays :
    noted { start 0x0003#16 [0x1000#16] [] with idle := true, pins := request 4#4 } [] =
      some ((0x1000#16, 0x0003#16, []), [false, false, false, true], .none, [.bit 0x1EC4#16 false]) := by decide

/-- V214: TMB *R1+,0. -/
theorem test_mid_second_word_baseline :
    noted (start 0x0000#16 [0x0C09#16, 0x0031#16] [(0x0202, 0x2000#16), (0x0008, 0x0280#16), (0x000A, 0x3000#16)])
      [0x029A, 0x029C, 0x029E] =
      some ((0x3000#16, 0x0001#16, [0x0200#16, 0x1002#16, 0x0000#16]), [false, true, false, false], .maskable, []) :=
        by decide
/-- V61: DIVS whose quotient does not fit stores nothing. -/
theorem test_divs_overflow :
    (match exec (.divs (.reg 2#4)) (start 0x0000#16 [] [(0x0202, 0x8000#16), (0x0204, 0x0001#16)]) with
      | .next t => some (t.pc, Mem.readWord t.mem 0x0200, Mem.readWord t.mem 0x0202)
      | _ => none) = some (0x1000#16, 0x0000#16, 0x8000#16) := by decide

/-- X R1 whose register holds the word X R1 (spec/93_implementation_defined.md U2). -/
def selfX : State := start 0x0000#16 [0x0481#16] [(0x0202, 0x0481#16)]

/-- The state at which that X runs, and the one it leaves: the same one. -/
theorem selfX_runs : selfX.comesToRun selfX.begun.skipWord 0x0481#16 :=
  ⟨rfl, rfl, rfl, rfl, .inr ⟨rfl, fun _ => ⟨⟨.inr rfl, .inr ⟨rfl, rfl⟩⟩, rfl, rfl⟩, rfl,
    .inr ⟨rfl, ⟨rfl, rfl⟩, State.reads_main rfl, rfl⟩⟩⟩
theorem selfX_chased (n : Nat) :
    selfX.begun.skipWord.chased n 0x0481#16 selfX.begun.skipWord 0x0481#16 := by
  induction n with
  | zero => exact ⟨rfl, rfl⟩
  | succ n ih => exact ⟨.reg 1#4, _, 0x0481#16, rfl, rfl, rfl, rfl, ih⟩

/-- It is refused. -/
theorem test_x_endless : refusal selfX = some (.endlessX 0x0481#16) := by
  rw [refusal, comesToRun_step selfX_runs, runAndFinish_endless (selfX_chased chainLimit)]

/-- X R1 to X R2 to X R3 to INC R4, in one step (spec/42_xop_single_operand.md R311). -/
theorem test_x_chain :
    seen (start 0x0000#16 [0x0481#16] [(0x0202, 0x0482#16), (0x0204, 0x0483#16), (0x0206, 0x0584#16)]) [0x0208] =
      some (0x0200#16, 0x1002#16, 0xC000#16, [0x0001#16]) := by decide

/-- V95: X, then its target with both address words in the stream. -/
theorem test_x_target_operand :
    (after 1 (start 0x0000#16 [0x04A0#16, 0x2000#16, 0x3000#16] [(0x2000, 0xC060#16), (0x3000, 0x00AA#16)])).map
        (fun t => (t.pc, t.st, Mem.readWord t.mem 0x0202)) =
      some (0x1006#16, 0xC000#16, 0x00AA#16) := by decide

/-- X R1 where the platform decodes segments: by R310 its target is INC R1, from the data segment, by R110 INC R2, from
the instruction segment (spec/42_xop_single_operand.md R310, spec/20_memory.md R110). -/
theorem test_x_segment :
    [false, true].map (fun b => (after 1 { start 0x0000#16 [] [(0x21000, 0x0481#16), (0x0202, 0x0581#16),
        (0x20202, 0x0582#16)] with
        params := { Params.default with useSegment := true, xFromInstructionSegment := b } }).map
          fun t => [0x0202, 0x0204].map (Mem.readWord t.mem)) =
      [some [0x0582#16, 0x0000#16], some [0x0581#16, 0x0001#16]] := by decide

/-- V198, spec/43_cru_io.md R344: SBO in the parallel half writes a word; its bits but D15 are free. -/
theorem test_sbo_parallel :
    (after 1 (start 0x0000#16 [0x1DFF#16] [])).map (fun t => t.ioOut.map fun e => match e with
        | .word a _ => some a
        | _ => none) =
      some [some 0xFFFE#16] := by decide

/-- V188, V204: a reserved CNT in the parallel half, and a 1 to a flag address while the parameter is not given. -/
theorem test_io_refusals :
    refusal (start 0x0000#16 [0x3141#16] [(0x0218, 0x8000#16)]) = some (.reservedCount 5#4) ∧
    refusal (start 0x0000#16 [0x1D00#16] [(0x0218, 0x1FC8#16)]) = some (.flagSetOutput 0x1FC8#16) := by decide

/-- A result stored over the next instruction: the opcode read before the store runs (spec/10_state.md R61,
spec/70_reset_and_hazards.md R645). -/
theorem test_store_over_next_instruction :
    (after 2 (start 0x0000#16 [0xC481#16, 0x1000#16] [(0x0202, 0x10FF#16), (0x0204, 0x1002#16)])).map
        (fun t => (t.pc, Mem.readWord t.mem 0x1002)) =
      some (0x1004#16, 0x10FF#16) := by decide

/-- STWP R1 with ST8 set, where the platform decodes PSEL: opcode and register lie in the other page
(spec/20_memory.md R106). -/
theorem test_psel_page :
    (after 1 { start 0x0080#16 [] [(0x11000, 0x02A1#16)] with
        params := { Params.default with usePsel := true } }).map
      (fun t => (t.pc, Mem.readWord t.mem 0x0202, Mem.readWord t.mem 0x10202)) =
      some (0x1002#16, 0x0000#16, 0x0200#16) := by decide

/-! ### Reset, HOLD, an attached processor -/

/-- The reset sequence: vector, saved context, ST (spec/70_reset_and_hazards.md R630). -/
theorem test_reset :
    seen { start 0xFFFF#16 [] [(0x0000, 0x0301#16), (0x0002, 0x4001#16)] with
        pins := { idle with reset := .full } } [0x031A, 0x031C, 0x031E] =
      some (0x0300#16, 0x4000#16, 0x0000#16, [0x0200#16, 0x1000#16, 0xFFFF#16]) := by decide

/-- HOLD waits, before an instruction and before the reset vector; a short RESET is refused
(spec/20_memory.md R130, spec/70_reset_and_hazards.md R630, R635). -/
theorem test_hold_and_short_reset :
    seen { start 0x0000#16 [0xA081#16] [] with pins := { idle with hold := true } } [] =
      some (0x0200#16, 0x1000#16, 0x0000#16, []) ∧
    seen { start 0x0001#16 [] [] with pins := { idle with hold := true, reset := .full } } [] =
      some (0x0200#16, 0x1000#16, 0x0001#16, []) ∧
    refusal { start 0x0000#16 [] [] with pins := { idle with reset := .short } } =
      some .shortReset := by decide

/-- V284: an attached processor takes the opcode: the context in the level-2 workspace, PC not loaded. -/
theorem test_attached_processor :
    (after 1 { prototyping (start 0x0002#16 [0x0C40#16] [(0x0008, 0x0100#16)]) [] with
        wp := 0x8300#16, pins := { idle with appMid := true } }).map
        (fun t => (t.apHold, t.wp, [0x011A, 0x011C, 0x011E].map (Mem.readWord t.mem))) =
      some (true, 0x0100#16, [0x8300#16, 0x1002#16, 0x0002#16]) := by decide

/-! ### Macrostore -/

/-- V280: entry by a first word. -/
theorem test_macrostore_entry :
    seenInside { prototyping (start 0x0002#16 [0x0C40#16] []) [(0x0808, 0x1200#16)] with wp := 0x8300#16 }
        [0x0A, 0x06, 0x1A, 0x1C, 0x1E] =
      some ((0x0000#16, 0x1200#16, 0x0002#16), true, [0x0C40#16, 0xE000#16, 0x8300#16, 0x1002#16, 0x0002#16]) := by
  decide

/-- V281: entry by an illegal second word. -/
theorem test_macrostore_entry_second :
    seenInside (prototyping (start 0x018F#16 [0x0C09#16, 0x0031#16] []) [(0x0810, 0x1300#16)])
        [0x0A, 0x06, 0x1A, 0x1C, 0x1E] =
      some ((0x0000#16, 0x1300#16, 0x018F#16), true, [0x0031#16, 0xE001#16, 0x0200#16, 0x1002#16, 0x018F#16]) := by
  decide

/-- V282: entry by XOP under emulation. -/
theorem test_macrostore_entry_xop :
    seenInside (prototyping (start 0x01BF#16 [0x2C83#16] []) [(0x0812, 0x1400#16)]) [0x0A, 0x06, 0x1A, 0x1C, 0x1E] =
      some ((0x0000#16, 0x1400#16, 0x000F#16), true, [0x2C83#16, 0xE000#16, 0x0200#16, 0x1002#16, 0x01BF#16]) := by
  decide

/-- V283: a MID opcode of a TMS99105A in standard mode asks the on-chip ROM; prototyping mode with nothing fitted has
nothing there. -/
theorem test_macrostore_unreadable :
    refusal { start 0x0002#16 [0x0C40#16] [] with msMode := .standard } = some (.mromUnknown 0x0808#16) ∧
    refusal { start 0x0002#16 [0x0C40#16] [] with msMode := .prototyping } = some (.macrostoreAbsent 0x0808#16) := by
  decide

/-- A trap on a second word, cut before its fifth cycle: PC - 2 is in WR14 and WR3 is not written; and uncut, with the
first Macrostore instruction fetched (spec/71_bus_sequences.md R701). -/
theorem test_macrostore_entry_order :
    (let s := prototyping (start 0x0000#16 [0x0C09#16, 0x0031#16] []) [(0x0810, 0x1300#16), (0x1300, 0x1234#16)]
     let uncut : BusEvent := { writes := [], reset := false, ready := true }
     (after 1 { s with bus := List.replicate 4 uncut ++ [{ writes := [], reset := true, ready := true }] }).map
        (fun t => (t.resetDue, [0x0A, 0x1C, 0x06].map (Mem.readWord t.ms))) =
       some (true, [0x0031#16, 0x1002#16, 0x0000#16]) ∧
     (after 1 s).map State.prefetch = some (some 0x1234#16)) := by decide

/-- The last word of external Macrostore at its odd address; and INC R1 in the last word of MRAM, whose prefetch finds
nothing (spec/20_memory.md R91, spec/70_reset_and_hazards.md R647, spec/93_implementation_defined.md U10). -/
theorem test_macrostore_edges :
    (let s := inside 0x0000#16 [0xC801#16, 0xFFFF#16] [(0x02, 0x1234#16)] []
     seenInside { s with params := { s.params with extMs := [fitted 0x0800 0xFFFE false] } } [0xFFFE] =
       some ((0x0000#16, 0x1004#16, 0xC000#16), true, [0x1234#16])) ∧
    refusal { inside 0x0000#16 [] [(0x1E, 0x0581#16)] [] with pc := 0x001E#16 } =
      some (.macrostoreAbsent 0x0020#16) := by decide

/-- The exits of spec/95_test_vectors.md 2.12, from registers 13 to 15 = >0200, >1002, >C00F. -/
theorem test_rtwp_exit :
    seenInside (inside 0x0002#16 [0x0380#16] [(0x1A, 0x0200#16), (0x1C, 0x1002#16), (0x1E, 0xC00F#16)] []) [] =
      some ((0x0200#16, 0x1002#16, 0xC00F#16), false, []) := by decide
theorem test_rtwp_stay :
    seenInside (inside 0x0002#16 [0x0381#16] [(0x1A, 0x0200#16), (0x1C, 0x1002#16), (0x1E, 0xC00F#16)] []) [] =
      some ((0x0200#16, 0x1002#16, 0xC00F#16), true, []) := by decide
theorem test_rtwp_quiet :
    (after 1 (inside 0x0002#16 [0x0384#16] [(0x1A, 0x0200#16), (0x1C, 0x1002#16), (0x1E, 0xC00F#16)] [])).map
        (fun t => (t.wp, t.pc, t.st, t.inMs, t.inhibit)) =
      some (0x0200#16, 0x1002#16, 0xC00F#16, false, .all) := by decide
theorem test_rtwp_illop :
    noted (inside 0x0002#16 [0x0382#16] [(0x1A, 0x0200#16), (0x1C, 0x1002#16), (0x1E, 0xC00F#16)]
        [(0x0008, 0x0280#16), (0x000A, 0x3000#16)]) [0x029A, 0x029C, 0x029E] =
      some ((0x3000#16, 0xC001#16, [0x0200#16, 0x1002#16, 0xC00F#16]), [false, true, false, false], .maskable, []) := by
  decide

/-- spec/95_test_vectors.md 1.4: EVAD on the target word >4A51: its two fields, and ST and the latches. -/
theorem test_evad_fields :
    (match (do
        let src ← evalField 1#2 1#4 10#4 0x8300#16 0x6002#16
        let dst ← evalField 2#2 9#4 9#4 0x8300#16 src.2
        return (src.1, dst) : M (Word × Word × Word))
        (inside 0x0000#16 [] [] [(0x8302, 0x9000#16), (0x8312, 0x0010#16), (0x6002, 0xA000#16)]) with
      | .ok (v, _) => some v
      | .error _ => none) = some (0x9000#16, 0xA010#16, 0x6004#16) := by decide
theorem test_evad :
    (after 1 (inside 0x2000#16 [0x0105#16] [(0x0A, 0x4A51#16), (0x1A, 0x8300#16), (0x1C, 0x6002#16)] [])).map
        (fun t => (t.pc, t.st, t.wr7Ws, t.wr8Ws)) =
      some (0x1002#16, 0x8000#16, false, false) := by decide

/-- spec/95_test_vectors.md 1.3: the user's WR4 and the user's next word, read from Macrostore. -/
theorem test_macrostore_reads_user_memory :
    seenInside (inside 0x0000#16 [0xC06D#16, 0x0008#16] [(0x1A, 0x8300#16)] [(0x8308, 0x1234#16)]) [0x02] =
      some ((0x0000#16, 0x1004#16, 0xC000#16), true, [0x1234#16]) ∧
    seenInside (inside 0x0000#16 [0xC07E#16] [(0x1C, 0x6002#16)] [(0x6002, 0xABCD#16)]) [0x02, 0x1C] =
      some ((0x0000#16, 0x1002#16, 0x8000#16), true, [0xABCD#16, 0x6004#16]) := by decide

/-- The Macrostore jumps, with and without a pending request (spec/47_macrostore.md R484 to R486). -/
theorem test_jip :
    (after 1 { inside 0x0004#16 [0x1D01#16] [] [] with pins := request 4#4 }).map State.pc = some 0x1004#16 ∧
    (after 1 { inside 0x0003#16 [0x1D01#16] [] [] with pins := request 4#4 }).map State.pc = some 0x1002#16 := by
  decide
theorem test_jnep :
    (after 1 (inside 0x0000#16 [0x1EFF#16] [] [])).map State.pc = some 0x1000#16 ∧
    (after 1 { inside 0x0000#16 [0x1EFF#16] [] [] with nmiPending := true }).map State.pc = some 0x1002#16 := by
  decide

/-- IDLE, XOP and a word without meaning inside Macrostore (spec/93_implementation_defined.md U11). -/
theorem test_macrostore_refusals :
    refusal (inside 0x0000#16 [0x0340#16] [] []) = some .idleInMacrostore ∧
    refusal (inside 0x0000#16 [0x2C83#16] [] []) = some .xopInMacrostore ∧
    refusal (inside 0x0000#16 [0x1F00#16] [] []) = some (.undefinedInMacrostore 0x1F00#16) ∧
    refusal (inside 0x0000#16 [0x0100#16] [] []) = some .evadRegisterZero ∧
    refusal { inside 0x0000#16 [0x0105#16] [] [] with wp := 0x0002#16 } = some .evadWorkspace := by decide

/-! ### The TMS99110A's extensions -/

/-- V356, V357, V358: the long-distance flags, the inhibit, PRIVOP and PC. -/
theorem test_lds :
    (after 1 (extended (start 0x0000#16 [0x0780#16] []))).map (fun t => (t.pc, t.ldf, t.inhibit, t.privop)) =
      some (0x1002#16, 0b110#3, .all, false) ∧
    (after 1 (extended (start 0x0100#16 [0x0780#16] []))).map (fun t => (t.pc, t.ldf, t.inhibit, t.privop)) =
      some (0x1002#16, 0b111#3, .none, true) := by decide +kernel
theorem test_ldd :
    (after 1 { extended (start 0x0000#16 [0x07C0#16] []) with ldf := 0b110#3 }).map
        (fun t => (t.pc, t.ldf, t.inhibit)) =
      some (0x1002#16, 0b000#3, .all) := by decide +kernel

/-- V359: with LDF = 110 the source of MOV *R1,*R2 is read from the other page, the destination is not. -/
theorem test_long_distance_source :
    (after 1 { start 0x0000#16 [0xC491#16] [(0x0202, 0x2000#16), (0x0204, 0x3000#16), (0x12000, 0x1234#16)] with
        ldf := 0b110#3, params := { Params.default with usePsel := true } }).map
        (fun t => (t.ldf, Mem.readWord t.mem 0x3000)) =
      some (0b111#3, 0x1234#16) := by decide

/-- V302: AR R2. -/
theorem test_ar_carries_a_digit :
    seen (extended (start 0x0000#16 [0x0C42#16] [(0x0200, 0x41F0#16), (0x0202, 0x0000#16), (0x0204, 0x4110#16),
      (0x0206, 0x0000#16)])) [0x0200, 0x0202] =
      some (0x0200#16, 0x1002#16, 0xC000#16, [0x4210#16, 0x0000#16]) := by decide +kernel

/-- V303: AR R2. -/
theorem test_ar_from_zero :
    seen (extended (start 0x0000#16 [0x0C42#16] [(0x0200, 0x0000#16), (0x0202, 0x0000#16), (0x0204, 0xC264#16),
      (0x0206, 0x0000#16)])) [0x0200, 0x0202] =
      some (0x0200#16, 0x1002#16, 0x8000#16, [0xC264#16, 0x0000#16]) := by decide +kernel

/-- V308: SR R2. -/
theorem test_sr_borrows_a_digit :
    seen (extended (start 0x0000#16 [0x0CC2#16] [(0x0200, 0x4210#16), (0x0202, 0x0000#16), (0x0204, 0x4110#16),
      (0x0206, 0x0000#16)])) [0x0200, 0x0202] =
      some (0x0200#16, 0x1002#16, 0xC000#16, [0x41F0#16, 0x0000#16]) := by decide +kernel

/-- V310: MR R2. -/
theorem test_mr_signs :
    seen (extended (start 0x0000#16 [0x0D02#16] [(0x0200, 0xC110#16), (0x0202, 0x0000#16), (0x0204, 0xC110#16),
      (0x0206, 0x0000#16)])) [0x0200, 0x0202] =
      some (0x0200#16, 0x1002#16, 0xC000#16, [0x4110#16, 0x0000#16]) := by decide +kernel

/-- V315: DR R2. -/
theorem test_dr :
    seen (extended (start 0x0000#16 [0x0D42#16] [(0x0200, 0x4160#16), (0x0202, 0x0000#16), (0x0204, 0xC130#16),
      (0x0206, 0x0000#16)])) [0x0200, 0x0202] =
      some (0x0200#16, 0x1002#16, 0x8000#16, [0xC120#16, 0x0000#16]) := by decide +kernel

/-- V318: DR R2. -/
theorem test_dr_of_zero :
    seen (extended (start 0x0000#16 [0x0D42#16] [(0x0200, 0x0000#16), (0x0202, 0x0000#16), (0x0204, 0x4120#16),
      (0x0206, 0x0000#16)])) [0x0200, 0x0202] =
      some (0x0200#16, 0x1002#16, 0x2000#16, [0x0000#16, 0x0000#16]) := by decide +kernel

/-- V323: CIR R2. -/
theorem test_cir_most_negative :
    seen (extended (start 0x0000#16 [0x0C82#16] [(0x0204, 0x8000#16)])) [0x0200, 0x0202] =
      some (0x0200#16, 0x1002#16, 0x9000#16, [0xC480#16, 0x0000#16]) := by decide +kernel

/-- V324: CIR R2. -/
theorem test_cir_largest :
    seen (extended (start 0x0000#16 [0x0C82#16] [(0x0204, 0x7FFF#16)])) [0x0200, 0x0202] =
      some (0x0200#16, 0x1002#16, 0xD000#16, [0x447F#16, 0xFF00#16]) := by decide +kernel

/-- V327: the integer of the real that CRI converts there. -/
theorem test_cri_most_negative :
    fpToInt 0xC4800000#32 (Config.fpAway .toInt 0xC4800000#32 0#32) = -0x8000 ∧ fitsSigned 16 (-0x8000) = true := by
  decide +kernel

/-- V331: NEGR. -/
theorem test_negr :
    seen (extended (start 0x0000#16 [0x0C02#16] [(0x0200, 0x4110#16), (0x0202, 0x0000#16)])) [0x0200, 0x0202] =
      some (0x0200#16, 0x1002#16, 0x8000#16, [0xC110#16, 0x0000#16]) := by decide +kernel

/-- V333: NEGR. -/
theorem test_negr_zero :
    seen (extended (start 0x0000#16 [0x0C02#16] [(0x0200, 0x0000#16), (0x0202, 0x0000#16)])) [0x0200, 0x0202] =
      some (0x0200#16, 0x1002#16, 0x2000#16, [0x0000#16, 0x0000#16]) := by decide +kernel

/-- V336: CRE. -/
theorem test_cre_most_negative :
    seen (extended (start 0x0000#16 [0x0C04#16] [(0x0200, 0xC880#16), (0x0202, 0x0000#16)])) [0x0200, 0x0202] =
      some (0x0200#16, 0x1002#16, 0x8000#16, [0x8000#16, 0x0000#16]) := by decide +kernel

/-- V340: CER. -/
theorem test_cer_seven_digits :
    seen (extended (start 0x0000#16 [0x0C06#16] [(0x0200, 0x0100#16), (0x0202, 0x0000#16)])) [0x0200, 0x0202] =
      some (0x0200#16, 0x1002#16, 0xD000#16, [0x4710#16, 0x0000#16]) := by decide +kernel

/-- V341: CER. -/
theorem test_cer_most_negative :
    seen (extended (start 0x0000#16 [0x0C06#16] [(0x0200, 0x8000#16), (0x0202, 0x0000#16)])) [0x0200, 0x0202] =
      some (0x0200#16, 0x1002#16, 0x9000#16, [0xC880#16, 0x0000#16]) := by decide +kernel

/-- V344: LR *R4+. -/
theorem test_lr_autoincrement :
    seen (extended (start 0x1800#16 [0x0DB4#16] [(0x0208, 0x2000#16), (0x2000, 0xC110#16), (0x2002, 0x0000#16)]))
      [0x0200, 0x0202, 0x0208] =
      some (0x0200#16, 0x1002#16, 0x9800#16, [0xC110#16, 0x0000#16, 0x2004#16]) := by decide +kernel

/-- V346: STR @>2000. -/
theorem test_str_symbolic :
    seen (extended (start 0x0000#16 [0x0DE0#16, 0x2000#16] [(0x0200, 0x4264#16), (0x0202, 0x0000#16)])) [0x2000,
      0x2002] =
      some (0x0200#16, 0x1004#16, 0xC000#16, [0x4264#16, 0x0000#16]) := by decide +kernel

/-- V348: CR R0,@>2000. -/
theorem test_cr_less :
    seen (extended (start 0x0000#16 [0x0301#16, 0x0800#16, 0x2000#16] [(0x0200, 0x4110#16), (0x0202, 0x0000#16),
      (0x2000, 0x4120#16), (0x2002, 0x0000#16)])) [] =
      some (0x0200#16, 0x1006#16, 0x8000#16, []) := by decide +kernel

/-- V349: CR R0,R2. -/
theorem test_cr_negative :
    seen (extended (start 0x0000#16 [0x0301#16, 0x0080#16] [(0x0200, 0xC110#16), (0x0202, 0x0000#16), (0x0204,
      0xC120#16), (0x0206, 0x0000#16)])) [] =
      some (0x0200#16, 0x1004#16, 0xC000#16, []) := by decide +kernel

/-- V353: MM R2,R4. -/
theorem test_mm_unsigned :
    seen (extended (start 0x0000#16 [0x0302#16, 0x0102#16] [(0x0204, 0xFFFF#16), (0x0206, 0xFFFF#16), (0x0208,
      0xFFFF#16), (0x020A, 0xFFFF#16)])) [0x0208, 0x020A, 0x020C, 0x020E] =
      some (0x0200#16, 0x1004#16, 0x0000#16, [0xFFFF#16, 0xFFFE#16, 0x0000#16, 0x0001#16]) := by decide +kernel

/-- V355: MM *R2+,*R3+. -/
theorem test_mm_autoincrement :
    seen (extended (start 0x0000#16 [0x0302#16, 0x0CF2#16] [(0x2000, 0x0000#16), (0x2002, 0x0002#16), (0x3000,
      0x0000#16), (0x3002, 0x0005#16), (0x0204, 0x2000#16), (0x0206, 0x3000#16)])) [0x3000, 0x3002, 0x3004, 0x3006,
      0x0204, 0x0206] =
      some (0x0200#16, 0x1004#16, 0x0000#16, [0x0000#16, 0x0000#16, 0x0000#16, 0x000A#16, 0x2004#16, 0x3008#16]) := by
        decide +kernel
/-! ### What the other masters, RESET, ROM and devices do -/

/-- An event before a bus cycle in which READY is raised. -/
def event (writes : List MasterWrite) (reset : Bool) : BusEvent :=
  { writes := writes, reset := reset, ready := true }

/-- MOV R1,R2 whose source a DMA device writes before it is read (spec/00_scope.md R16, spec/20_memory.md R130). -/
theorem test_dma_between_cycles :
    seen { start 0x0000#16 [0xC081#16] [(0x0202, 0x0001#16)] with
        bus := [event [] false, event [{ addr := 0x00202#18, value := 0x8000#16 }] false] } [0x0204] =
      some (0x0200#16, 0x1002#16, 0x8000#16, [0x8000#16]) := by decide

/-- A DMA device that changes the next opcode after it was read ahead does not change what runs: the latched JMP $ - 2
runs, and memory holds the other word (spec/70_reset_and_hazards.md R646). -/
theorem test_dma_stale_prefetch :
    (after 2 { start 0x0000#16 [0x1000#16, 0x10FE#16] [] with
        bus := [event [] false, event [] false, event [{ addr := 0x01002#18, value := 0x1000#16 }] false] }).map
        (fun t => (t.pc, Mem.readWord t.mem 0x1002)) = some (0x1000#16, 0x1000#16) := by decide

/-- RESET before the store of CLR *R1+: the register is raised, the word kept, PC past the opcode, and the next step is
the reset sequence, which saves that PC (spec/70_reset_and_hazards.md R630, R631). -/
theorem test_reset_cuts :
    (let s := { start 0x0001#16 [0x04F1#16] [(0x0202, 0x2000#16), (0x2000, 0x1234#16), (0x0000, 0x0300#16)] with
        bus := List.replicate 4 (event [] false) ++ [event [] true] }
     (after 1 s).map (fun t => (t.pc, t.resetDue, [0x0202, 0x2000].map (Mem.readWord t.mem))) =
       some (0x1002#16, true, [0x2002#16, 0x1234#16]) ∧
     (after 2 s).map (fun t => (t.wp, t.resetDue, [0x031A, 0x031C, 0x031E].map (Mem.readWord t.mem))) =
       some (0x0300#16, false, [0x0200#16, 0x1002#16, 0x0001#16])) := by decide

/-- XOP *R1+,2 cut after its WS write, before its ST cycle: the reset saves the old ST8; and cut after it, the new one.
LIMI cut after its IOP read, before its mask changes: the reset saves the old mask, with PC past the immediate
(spec/42_xop_single_operand.md R281, spec/71_bus_sequences.md R691, R694, spec/70_reset_and_hazards.md R631). -/
theorem test_reset_cuts_before_internal_cycles :
    (let cut := fun (code : List Word) (k : Nat) =>
       (after 2 { start 0x0083#16 code [(0x0202, 0x2000#16), (0x0000, 0x0300#16)] with
         bus := List.replicate k (event [] false) ++ [event [] true] }).map
         fun t => [0x0202, 0x031C, 0x031E].map (Mem.readWord t.mem)
     cut [0x2CB1#16] 3 = some [0x2002#16, 0x1002#16, 0x0083#16] ∧
     cut [0x2CB1#16] 4 = some [0x2002#16, 0x1002#16, 0x0003#16] ∧
     cut [0x0300#16, 0x0005#16] 2 = some [0x2000#16, 0x1004#16, 0x0083#16] ∧
     cut [0x0300#16, 0x0005#16] 3 = some [0x2000#16, 0x1004#16, 0x0085#16]) := by decide

/-- READY that never comes in the third cycle of MOV R1,R2, the prefetch (spec/70_reset_and_hazards.md R664). -/
theorem test_never_ready :
    refusal { start 0x0000#16 [0xC081#16] [] with
        bus := [event [] false, event [] false, { writes := [], reset := false, ready := false }] } =
      some .neverReady := by decide

/-- RESET released while HOLD is still asserted: the reset is not lost, and its vector is read when HOLD is released,
as the DMA device has left it (spec/70_reset_and_hazards.md R635). -/
theorem test_reset_released_under_hold :
    (let s := { start 0x0001#16 [] [] with pins := { idle with hold := true, reset := .full } }
     let e := event [{ addr := 0x0002#18, value := 0x4000#16 }] false
     ((after 1 s).bind fun t => after 1 { t with pins := { idle with hold := true }, bus := [e] }).bind
        fun t => seen { t with pins := idle } [0x001E]) =
      some (0x0000#16, 0x4000#16, 0x0000#16, [0x0001#16]) := by decide

/-- Main memory with a range of one kind. -/
def fit (s : State) (first last : Nat) (kind : MainKind) : State :=
  { s with params := { s.params with mainMap := [{ first := first, last := last, kind := kind }] } }

/-- Where ROM stands a store is lost, its flags are not; a device is read and handed the word
(spec/20_memory.md R98). -/
theorem test_rom_and_device :
    seen (fit (start 0x0000#16 [0x0720#16, 0x2000#16] [(0x2000, 0x1234#16)]) 0x2000 0x2FFF .rom) [0x2000] =
      some (0x0200#16, 0x1004#16, 0x0000#16, [0x1234#16]) ∧
    (after 1 (fit { start 0x0000#16 [0xA801#16, 0x2000#16] [(0x0202, 0x5678#16)] with devIn := [0x0001#16] }
        0x2000 0x2FFF .device)).map (fun t => (t.devIn, t.devOut, Mem.readWord t.mem 0x2000)) =
      some ([], [(0x2000, 0x5679#16)], 0x0000#16) := by decide

/-- External Macrostore that is ROM keeps its word (spec/47_macrostore.md R461; log 46); the on-chip ROM is not
written (spec/93_implementation_defined.md U10). -/
theorem test_macrostore_rom :
    (let s := inside 0x0000#16 [0x0720#16, 0x2000#16] [(0x2000, 0x1234#16)] []
     seenInside { s with params := { s.params with extMs := [fitted 0x0800 0xFFFF true] } } [0x2000] =
       some ((0x0000#16, 0x1004#16, 0x0000#16), true, [0x1234#16]) ∧
     refusal { inside 0x0000#16 [0x0720#16, 0x0800#16] [] [] with msMode := .standard } =
       some (.mromWrite 0x0800#16)) := by decide

/-- An entry of FLAG_SET_ADDRS sets its flags at any address (spec/10_state.md R52; log 16). -/
theorem test_flag_set_table :
    noted { start 0x0000#16 [0x1D00#16] [(0x0218, 0x0100#16)] with
        params := { Params.default with
          flagSetAddrs := some [{ addr := 0x0100#16, privop := false, illop := true, af := false }] } } [] =
      some ((0x1002#16, 0x0000#16, []), [false, true, false, false], .none, [.bit 0x0100#16 true]) := by decide

/-! ### For each obligation with hypotheses, states and operands that meet them, at the edges of each clause -/

/-- Privileged and user mode, executing from main memory, nothing written. -/
def privileged : State := start 0x0000#16 [] []
def user : State := start 0x0100#16 [] []

/-- Executing from Macrostore with nothing written. -/
def within : State := inside 0x0000#16 [] [] []

theorem privileged_calm : privileged.calm := ⟨rfl, rfl⟩
theorem user_calm : user.calm := ⟨rfl, rfl⟩
theorem within_calm : within.calm := ⟨rfl, rfl⟩

/-- Inside Macrostore the sixteen words of MRAM can be read and written. -/
theorem within_mram (l : Loc) (h : l.addr.toNat < 0x20) : within.reads l ∧ within.writes l := by
  have e : msRegion within l.addr = .ram := by
    have hm : within.msMode = .prototyping := rfl
    have : l.addr.even.toNat < 0x20 := by rw [Word.even_toNat]; omega
    simp [msRegion, hm, this]
  exact ⟨fun _ => by simp [e], fun _ => .inl e⟩

/-- A register operand, in main memory and inside Macrostore. -/
theorem privileged_writable (op : Operand) (n : Word) (role : BusCode) :
    privileged.readable op n role ∧ privileged.writable op n role :=
  ⟨State.readable_main rfl op n role, State.writable_main rfl op n role⟩
theorem user_readable (op : Operand) (n : Word) (role : BusCode) :
    user.readable op n role ∧ user.writable op n role :=
  ⟨State.readable_main rfl op n role, State.writable_main rfl op n role⟩
theorem within_writable (n : Word) (role : BusCode) :
    within.readable (.reg 1#4) n role ∧ within.writable (.reg 1#4) n role :=
  ⟨⟨trivial, (within_mram (within.regLoc 1#4) (by decide)).1⟩, trivial,
    (within_mram (within.regLoc 1#4) (by decide)).2⟩
theorem within_registers (r : Nibble) : within.reads (within.regLoc r) ∧ within.writes (within.regLoc r) :=
  within_mram _ (by revert r; decide)

/-- What `Reaches` tells apart: an opcode that can be read, in both spaces, at the edges of what is fitted; and ones
that cannot, in the hole above MRAM and in the ROM without an image. -/
theorem witness_Reaches :
    privileged.reads privileged.opcodeLoc ∧
    (∀ pc ∈ [0x001E#16, 0x0800#16, 0xFFFE#16], (within.withPc pc).reads (within.withPc pc).opcodeLoc) ∧
    (∀ pc ∈ [0x0020#16, 0x07FE#16], ¬ (within.withPc pc).reads (within.withPc pc).opcodeLoc ∧
      (within.withPc pc).unread (within.withPc pc).opcodeLoc = .macrostoreAbsent pc) ∧
    (let s := { within with msMode := .standard, pc := 0x0800#16 }
     ¬ s.reads s.opcodeLoc ∧ s.unread s.opcodeLoc = .mromUnknown 0x0800#16) := by
  refine ⟨State.reads_main rfl, ?_, ?_, fun h => (h rfl).2 rfl, rfl⟩
  · simp only [List.forall_mem_cons, List.not_mem_nil, State.reads]
    exact ⟨fun _ => by decide, fun _ => by decide, fun _ => by decide, nofun⟩
  · simp only [List.forall_mem_cons, List.not_mem_nil]
    exact ⟨⟨fun h => (h rfl).1 rfl, rfl⟩, ⟨fun h => (h rfl).1 rfl, rfl⟩, nofun⟩

theorem witness_EveryStepKeepsMachineInvariant : State.reset.Inv ∧ ∃ t, step State.reset = .next t :=
  ⟨by unfold State.Inv; decide, _, rfl⟩

/-- A full RESET, a reset that is due, and a RESET that is too short. -/
theorem witness_ResetSequenceSavesAndClears :
    { privileged with pins := { idle with reset := .short } }.pins.reset = .short ∧
    (let s := { privileged with pins := { idle with reset := .full } }
     s.pins.reset = .full ∧ s.pins.hold = false ∧ s.calm) ∧
    (let s := { privileged with resetDue := true }
     s.pins.reset = .inactive ∧ s.resetDue = true ∧ s.pins.hold = false ∧ s.calm) :=
  ⟨rfl, ⟨rfl, rfl, rfl, rfl⟩, rfl, rfl, rfl, rfl, rfl⟩

theorem witness_DecodeInvertsEncode :
    (Instr.a (.idx 15#4) .sym).wf = true ∧ (Instr.tmb (.idx 1#4) 15#4).wf = true ∧ (Instr.mm .sym .sym).wf = true := by
  decide

theorem witness_DecodedBytesAreTheEncoding :
    ∃ i rest, decode .main [0x00#8, 0x2A#8, 0x41#8, 0x02#8, 0xFF#8] = .ok (i, rest) := ⟨_, _, rfl⟩

/-- The words beside those that decode otherwise, the ends of EVAD's range, and an instruction. -/
theorem witness_MacrostoreDecodesAsMainMemory :
    decodeMain 0x1CFF#16 = .instr (.jop 0xFF#8) ∧ decodeMain 0x2000#16 = .instr (.coc (.reg 0#4) 0#4) ∧
    (∀ w ∈ [0x1CFF#16, 0x2000#16], w ≠ 0x0380#16 ∧ ¬ (0x1D00 ≤ w.toNat ∧ w.toNat ≤ 0x1FFF)) ∧
    (Instr.evad (.inc 15#4)).wf = true ∧ (0x0100#16).toNat = 0x0100 ∧ (0x013F#16).toNat = 0x013F ∧
    let i := Instr.jop 0xFF#8
    i.wf = true ∧ i.context = .main ∧ i ≠ .rtwp ∧ (∀ d, i ≠ .sbo d) ∧ (∀ d, i ≠ .sbz d) ∧ ∀ d, i ≠ .tb d :=
  ⟨rfl, rfl, by simp, rfl, rfl, rfl, rfl, rfl, by decide, fun _ => by simp, fun _ => by simp, fun _ => by simp⟩

/-- An XOP under emulation in main memory; the edges of what an illegal second word is. -/
theorem witness_MidOpcodesAreTheListedRanges :
    (let s := start 0x0010#16 [] []
     s.inMs = false ∧ stBit s.st 11 = true) ∧
    (∀ p ∈ [(0x0C09#16, 0x0400#16), (0x0C0B#16, 0x0030#16), (0x002A#16, 0x3FFF#16), (0x0029#16, 0x5000#16),
        (0x001D#16, 0x3FFF#16), (0x001C#16, 0x4400#16)],
      decode .main (bytesOfWord p.1 ++ bytesOfWord p.2) = .error .midSecond) ∧
    (let s := { prototyping privileged [] with pins := { idle with appMid := true } }
     s.midRoute = .attached ∧ s.msMode ≠ .baseline ∧ s.pins.appMid = true) ∧
    privileged.midRoute = .baseline :=
  ⟨⟨rfl, by decide⟩, by simp only [List.forall_mem_cons, List.not_mem_nil]; exact ⟨rfl, rfl, rfl, rfl, rfl, rfl, nofun⟩,
    ⟨rfl, by decide, rfl⟩, rfl⟩

/-- The first and last byte of a range of each kind, and of RAM beside it; and a device with and without an answer. -/
theorem witness_StoredWordIsReadBack :
    Mem.wf (put [] [(0xFFFE, 0x1234#16)]) = true ∧ Mem.wf [] = true ∧ privileged.bus = [] ∧
    (let l := fun a : Word => ({ space := .main, addr := a, code := .dop } : Loc)
     let on := fun k : MainKind => fit privileged 0x2000 0x2FFF k
     (on .rom).ramAt (l 0x1FFF#16) = true ∧ (on .rom).ramAt (l 0x3000#16) = true ∧
     (on .rom).ramAt (l 0x2000#16) = false ∧ mainKind (on .rom).params ((on .rom).wordBase (l 0x2FFF#16)) = .rom ∧
     mainKind (on .device).params ((on .device).wordBase (l 0x2000#16)) = .device ∧
     mainKind (on .absent).params ((on .absent).wordBase (l 0x2FFF#16)) = .absent ∧
     privileged.devIn = [] ∧ { on .device with devIn := [0x0001#16] }.devIn = 0x0001#16 :: []) :=
  ⟨by decide, rfl, rfl, by decide, by decide, by decide, by decide, by decide, by decide, rfl, rfl⟩

/-- Every position of a register in its block occurs; a symbolic operand at >1000. -/
theorem witness_MacrostoreOperandsByRegister :
    within.inMs = true ∧ within.calm ∧ within.derives (.inc 13#4) ∧ within.reads within.streamLoc ∧
    ∀ r : Nibble, (within.regAddr r).toNat / 2 % 16 = r.toNat :=
  ⟨rfl, within_calm, within_registers _, fun _ => by decide, by decide⟩

theorem witness_StepRunsMainInstruction :
    let s := start 0x000F#16 [0x002A#16, 0x4102#16] []
    s.ready ∧ s.inMs = false ∧ (sampleInputs s).quiet ∧
    ∃ i rest, decode .main (sampleInputs s).codeBytes = .ok (i, rest) :=
  ⟨⟨⟨rfl, rfl, rfl, rfl, rfl⟩, rfl, rfl⟩, rfl, ⟨⟨.inr rfl, .inr ⟨rfl, rfl⟩⟩, rfl, rfl⟩, _, _, rfl⟩

/-- The last two words of MRAM, and a two-word instruction there. -/
theorem witness_StepRunsMacrostoreInstruction :
    let s := { within with pc := 0x001C#16, ms := put [] [(0x1C, 0x002A#16), (0x1E, 0x4102#16)] }
    s.ready ∧ s.inMs = true ∧ s.prefetch = none ∧ (sampleInputs s).reads s.opcodeLoc ∧
    (sampleInputs s).reads s.skipWord.streamLoc ∧
    ∃ i rest, decode .macrostore (sampleInputs s).codeBytes = .ok (i, rest) ∧ (encode i).length = 2 :=
  ⟨⟨⟨rfl, rfl, rfl, rfl, rfl⟩, rfl, rfl⟩, rfl, rfl, fun _ => by decide, fun _ => by decide, _, _, rfl, rfl⟩

theorem witness_StepRunsExtensionInstruction :
    let s := extended (start 0x0000#16 [0x0301#16, 0x0080#16] [])
    s.ready ∧ (sampleInputs s).romAnswers ∧ (sampleInputs s).quiet ∧
    decode .main (sampleInputs s).codeBytes = .error .mid ∧
    ∃ i rest, decode .rom (sampleInputs s).codeBytes = .ok (i, rest) :=
  ⟨⟨⟨rfl, rfl, rfl, rfl, rfl⟩, rfl, rfl⟩, ⟨rfl, rfl, rfl, rfl⟩, ⟨⟨.inr rfl, .inr ⟨rfl, rfl⟩⟩, rfl, rfl⟩, rfl, _, _, rfl⟩

/-- X R1 at PC comes to `v` in register 1, with PC where `p` holds. -/
def ExecutesTarget (s : State) (v : Word) (p : State → Bool) : Prop :=
  s.comesToRun s.begun.skipWord 0x0481#16 ∧
  ∃ t, s.begun.skipWord.chased 1 0x0481#16 t v ∧ t.calm ∧ t.reads t.streamLoc ∧ p t = true

/-- In main memory: a one-word instruction, a two-word one with its second word, an illegal second word and a MID opcode
on a route that is not the ROM's. -/
theorem targets_main :
    let s := fun v second : Word => start 0x0000#16 [0x0481#16, second] [(0x0202, v)]
    ExecutesTarget (s 0x1000#16 0#16) 0x1000#16 (fun _ => decodeFirst false 0x1000#16 == .instr (.jmp 0#8)) ∧
    ExecutesTarget (s 0x0C09#16 0x03C2#16) 0x0C09#16 (fun t => (decodeSecond .tmb t.streamWord).isSome) ∧
    ExecutesTarget (s 0x0C09#16 0x0400#16) 0x0C09#16 (fun t => (decodeSecond .tmb t.streamWord).isNone) ∧
    ExecutesTarget (s 0x0FFF#16 0#16) 0x0FFF#16
      (fun t => decodeFirst false 0x0FFF#16 == .mid && decide (t.midRoute ≠ .rom)) := by
  intro s
  refine ⟨⟨?_, ?_⟩, ⟨?_, ?_⟩, ⟨?_, ?_⟩, ⟨?_, ?_⟩⟩
  all_goals first
    | exact ⟨rfl, rfl, rfl, rfl, .inr ⟨rfl, fun _ => ⟨⟨.inr rfl, .inr ⟨rfl, rfl⟩⟩, rfl, rfl⟩, rfl,
        .inr ⟨rfl, ⟨rfl, rfl⟩, State.reads_main rfl, by decide⟩⟩⟩
    | exact ⟨_, ⟨.reg 1#4, _, _, rfl, rfl, rfl, rfl, rfl, by decide⟩, ⟨rfl, rfl⟩, State.reads_main rfl, by decide⟩

/-- Where the ROM answers: a word it does not implement, one of which nothing is known, and its instructions of one
word and of two, with a second word and without. -/
theorem targets_rom :
    let s := fun v second : Word => extended (start 0x0000#16 [0x0481#16, second] [(0x0202, v)])
    let rom := fun (t : State) (d : First) (v : Word) => decide (t.midRoute = .rom) && decodeRom v == d
    ExecutesTarget (s 0x0FFF#16 0#16) 0x0FFF#16 (fun t => rom t .undefined 0x0FFF#16) ∧
    ExecutesTarget (s 0x00C0#16 0#16) 0x00C0#16 (fun t => rom t .mid 0x00C0#16) ∧
    ExecutesTarget (s 0x0780#16 0#16) 0x0780#16 (fun t => rom t (.instr .lds) 0x0780#16) ∧
    ExecutesTarget (s 0x0301#16 0x0080#16) 0x0301#16
      (fun t => rom t (.two .cr) 0x0301#16 && (decodeSecond .cr t.streamWord).isSome) ∧
    ExecutesTarget (s 0x0301#16 0x1000#16) 0x0301#16
      (fun t => rom t (.two .cr) 0x0301#16 && (decodeSecond .cr t.streamWord).isNone) := by
  intro s rom
  refine ⟨⟨?_, ?_⟩, ⟨?_, ?_⟩, ⟨?_, ?_⟩, ⟨?_, ?_⟩, ⟨?_, ?_⟩⟩
  all_goals first
    | exact ⟨rfl, rfl, rfl, rfl, .inr ⟨rfl, fun _ => ⟨⟨.inr rfl, .inr ⟨rfl, rfl⟩⟩, rfl, rfl⟩, rfl,
        .inr ⟨rfl, ⟨rfl, rfl⟩, State.reads_main rfl, by decide⟩⟩⟩
    | exact ⟨_, ⟨.reg 1#4, _, _, rfl, rfl, rfl, rfl, rfl, by decide⟩, ⟨rfl, rfl⟩, State.reads_main rfl, by decide⟩

/-- Inside Macrostore: an exit, a two-word instruction with its second word and with an illegal one, and a word without
a meaning. -/
theorem targets_macrostore :
    let s := fun v second : Word => inside 0x0000#16 [0x0481#16, second] [(0x0002, v)] []
    ExecutesTarget (s 0x0380#16 0#16) 0x0380#16 (fun _ => decodeFirst true 0x0380#16 == .instr .rtwpExit) ∧
    ExecutesTarget (s 0x0C09#16 0x03C2#16) 0x0C09#16 (fun t => (decodeSecond .tmb t.streamWord).isSome) ∧
    ExecutesTarget (s 0x0C09#16 0x0400#16) 0x0C09#16 (fun t => (decodeSecond .tmb t.streamWord).isNone) ∧
    ExecutesTarget (s 0x1F00#16 0#16) 0x1F00#16 (fun _ => decodeFirst true 0x1F00#16 == .undefined) := by
  intro s
  refine ⟨⟨?_, ?_⟩, ⟨?_, ?_⟩, ⟨?_, ?_⟩, ⟨?_, ?_⟩⟩
  all_goals first
    | exact ⟨rfl, rfl, rfl, rfl, .inr ⟨rfl, nofun, rfl, .inr ⟨rfl, ⟨rfl, rfl⟩, fun _ => by decide, by decide⟩⟩⟩
    | exact ⟨_, ⟨.reg 1#4, _, _, rfl, execX_register ⟨rfl, rfl⟩ (fun _ => by decide), rfl, rfl, rfl, by decide⟩,
        ⟨rfl, rfl⟩, fun _ => by decide, by decide⟩

/-- A latched opcode in main memory and inside Macrostore; a target that a state holds; targets of X of every kind; and
an X without end. -/
theorem witness_LatchedOpcodesRun :
    (let s := { privileged with prefetch := some 0x1000#16 }
     s.comesToRun s.begun.skipWord 0x1000#16 ∧ s.begun.skipWord.chased 0 0x1000#16 s.begun.skipWord 0x1000#16 ∧
     ∃ i, decodeFirst s.inMs 0x1000#16 = .instr i) ∧
    (let s := { within with prefetch := some 0x0380#16 }
     s.comesToRun s.begun.skipWord 0x0380#16 ∧ s.inMs = true ∧ ∃ i, decodeFirst s.inMs 0x0380#16 = .instr i) ∧
    (let s := { privileged with xTarget := some 0x1000#16 }
     s.comesToRun ((sampleInputs s).withXTarget none) 0x1000#16) ∧
    selfX.comesToRun selfX.begun.skipWord 0x0481#16 ∧
    selfX.begun.skipWord.chased chainLimit 0x0481#16 selfX.begun.skipWord 0x0481#16 ∧ 1 < chainLimit :=
  ⟨⟨⟨rfl, rfl, rfl, rfl, .inr ⟨rfl, fun _ => ⟨⟨.inr rfl, .inr ⟨rfl, rfl⟩⟩, rfl, rfl⟩, rfl, .inl rfl⟩⟩,
      ⟨rfl, rfl⟩, _, rfl⟩,
    ⟨⟨rfl, rfl, rfl, rfl, .inr ⟨rfl, nofun, rfl, .inl rfl⟩⟩, rfl, _, rfl⟩,
    ⟨rfl, rfl, rfl, rfl, .inl ⟨rfl, rfl⟩⟩, selfX_runs, selfX_chased _, by decide⟩

/-- Idle with a request that the mask holds off, and with one that the inhibit holds off; HOLD in an instruction and
in a reset. -/
theorem witness_IdleAndHoldWait :
    (let s := { start 0x0003#16 [] [] with idle := true, pins := request 4#4 }
     s.ready ∧ s.inMs = false ∧ s.idle = true ∧ s.ioInhibit = false ∧ (sampleInputs s).uninterrupted ∧
     (sampleInputs s).breakpoint = false) ∧
    (let s := { start 0x000F#16 [] [] with idle := true, inhibit := .all, nmiPending := true }
     s.ready ∧ (sampleInputs s).uninterrupted) ∧
    (let s := { privileged with pins := { idle with hold := true }, bus := [event [] true] }
     s.pins.reset = .inactive ∧ s.resetDue = false ∧ s.pins.hold = true) ∧
    (let s := { privileged with pins := { idle with hold := true, reset := .full } }
     s.pins.reset = .full ∧ s.pins.hold = true) :=
  ⟨⟨⟨⟨rfl, rfl, rfl, rfl, rfl⟩, rfl, rfl⟩, rfl, rfl, rfl, ⟨.inr rfl, .inr ⟨rfl, rfl⟩⟩, rfl⟩,
    ⟨⟨⟨rfl, rfl, rfl, rfl, rfl⟩, rfl, rfl⟩, .inl rfl, .inl (by decide)⟩, ⟨rfl, rfl, rfl⟩, rfl, rfl⟩

/-- An instruction cut; CLR *R1+, XOP *R1+,2 and LIMI cut before their first cycle and before the last that the clause
has; a READY that never comes; MOV R1,R2 with a master's writes. -/
theorem witness_ResetAndMastersActBetweenCycles :
    (let s := { privileged with bus := [event [] true] }
     s.resetDue = false ∧ ∃ t, exec (.jmp 0#8) s = .next t ∧ t.resetDue = true) ∧
    (let s := fun k : Nat => { privileged with bus := List.replicate k (event [] false) ++ [event [] true] }
     (∀ k ∈ [0, 2, 3, 5], (s k).inMs = false ∧ (s k).memoryOnly ∧ stBit (s k).st 11 = false ∧ stBit (s k).st 7 = false ∧
       (s k).bus = List.replicate k { writes := [], reset := false, ready := true } ++ event [] true :: []) ∧
     (event [] true).writes = [] ∧ (event [] true).reset = true) ∧
    (let e : BusEvent := { writes := [], reset := false, ready := false }
     let s := fun k : Nat => { privileged with bus := List.replicate k (event [] false) ++ [e] }
     (∀ k ∈ [0, 3], (s k).inMs = false ∧ (s k).memoryOnly ∧
       (s k).bus = List.replicate k { writes := [], reset := false, ready := true } ++ e :: []) ∧
     e.reset = false ∧ e.ready = false) ∧
    (let e := event [{ addr := 0x00202#18, value := 0x8000#16 }] false
     let s := { privileged with bus := [e, e, e] }
     s.inMs = false ∧ s.memoryOnly ∧ s.bus = e :: e :: e :: [] ∧ ∀ x ∈ [e, e, e], x.reset = false ∧ x.ready = true) := by
  have h11 : stBit privileged.st 11 = false := rfl
  have h7 : stBit privileged.st 7 = false := rfl
  refine ⟨⟨rfl, _, rfl, rfl⟩, ⟨fun k _ => ⟨rfl, rfl, h11, h7, rfl⟩, rfl, rfl⟩, ⟨fun k _ => ⟨rfl, rfl, rfl⟩, rfl, rfl⟩,
    rfl, rfl, rfl, by decide⟩

theorem witness_AddAndSubtractWords :
    privileged.calm ∧ privileged.readable (.reg 1#4) 2#16 .sop ∧ privileged.writable (.reg 1#4) 2#16 .dop ∧
    within.calm ∧ within.readable (.reg 1#4) 2#16 .sop ∧ within.writable (.reg 1#4) 2#16 .dop :=
  ⟨privileged_calm, (privileged_writable _ _ _).1, (privileged_writable _ _ _).2, within_calm,
    (within_writable _ _).1, (within_writable _ _).2⟩

theorem witness_LogicAndMoveWords :
    user.calm ∧ user.readable .sym 2#16 .sop ∧ user.writable (.inc 1#4) 2#16 .dop ∧ within.calm ∧
    within.readable (.reg 1#4) 2#16 .sop ∧ within.writes (within.regLoc 15#4) :=
  ⟨user_calm, (user_readable _ _ _).1, (user_readable _ _ _).2, within_calm, (within_writable _ _).1,
    (within_registers _).2⟩

theorem witness_ByteInstructions :
    privileged.calm ∧ privileged.readable (.inc 1#4) 1#16 .sop ∧ privileged.writable (.inc 1#4) 1#16 .dop ∧
    within.calm ∧ within.readable (.reg 1#4) 1#16 .sop ∧ within.writable (.reg 1#4) 1#16 .dop :=
  ⟨privileged_calm, (privileged_writable _ _ _).1, (privileged_writable _ _ _).2, within_calm,
    (within_writable _ _).1, (within_writable _ _).2⟩

theorem witness_CompareInstructions :
    user.calm ∧ (∀ n, user.readable .sym n .sop ∧ user.readable (.ind 2#4) n .dop) ∧
    within.calm ∧ (∀ n, within.readable (.reg 1#4) n .sop ∧ within.readable (.reg 1#4) n .dop) ∧
    within.reads (within.regLoc 0#4) :=
  ⟨user_calm, fun _ => ⟨(user_readable _ _ _).1, (user_readable _ _ _).1⟩, within_calm,
    fun _ => ⟨(within_writable _ _).1, (within_writable _ _).1⟩, (within_registers _).1⟩

/-- The divisor just not above and just above the high word, and a divisor of zero. -/
theorem witness_UnsignedMultiplyAndDivide :
    let next : Loc := { space := .macrostore, addr := 0x0000#16 + 2#16 * (2#4).setWidth 16 + 2#16, code := .ws }
    let s := fun x : Word => inside 0x0000#16 [] [(0x02, x), (0x04, 0x0005#16)] []
    within.calm ∧ within.readable (.reg 1#4) 2#16 .sop ∧ within.writes (within.regLoc 2#4) ∧ within.writes next ∧
    within.reads next ∧ ((s 0#16).wordAt ((s 0#16).operand (.reg 1#4) 2#16 .sop).1).toNat = 0 ∧
    ((s 5#16).wordAt ((s 5#16).operand (.reg 1#4) 2#16 .sop).1).toNat ≤ ((s 5#16).wr 2#4).toNat ∧
    ((s 6#16).wr 2#4).toNat < ((s 6#16).wordAt ((s 6#16).operand (.reg 1#4) 2#16 .sop).1).toNat :=
  ⟨within_calm, (within_writable _ _).1, (within_registers _).2, (within_mram _ (by decide)).2,
    (within_mram _ (by decide)).1, by decide, by decide, by decide⟩

/-- Quotients 32767, -32768, 32768, and a divisor of zero. -/
theorem witness_SignedMultiplyAndDivide :
    let q := fun s : State => (longOf (s.wr 0#4) (s.wr 1#4)).toInt.tdiv (s.wr 2#4).toInt
    let s := fun hi lo x : Word => start 0x0000#16 [] [(0x0200, hi), (0x0202, lo), (0x0204, x)]
    q (s 0x0000#16 0x7FFF#16 0x0001#16) = 32767 ∧ q (s 0x0000#16 0x8000#16 0xFFFF#16) = -32768 ∧
    q (s 0xFFFF#16 0x8000#16 0xFFFF#16) = 32768 ∧ (s 0x0000#16 0x0001#16 0x0000#16).wr 2#4 = 0#16 ∧
    (s 0#16 0#16 0#16).calm ∧ (s 0#16 0#16 0#16).readable (.reg 2#4) 2#16 .sop ∧
    (∀ r, (s 0#16 0#16 0#16).reads ((s 0#16 0#16 0#16).regLoc r) ∧
      (s 0#16 0#16 0#16).writes ((s 0#16 0#16 0#16).regLoc r)) :=
  ⟨by decide, by decide, by decide, by decide, ⟨rfl, rfl⟩, State.readable_main rfl _ _ _,
    fun r => ⟨State.reads_regLoc rfl r, State.writes_regLoc rfl r⟩⟩

theorem witness_SingleOperandStores :
    privileged.calm ∧ privileged.writable (.inc 1#4) 2#16 .sop ∧ within.calm ∧
    within.writable (.reg 1#4) 2#16 .sop :=
  ⟨privileged_calm, (privileged_writable _ _ _).2, within_calm, (within_writable _ _).2⟩

theorem witness_BranchInstructions :
    within.calm ∧ within.writes (within.regLoc 10#4) ∧ within.reads within.streamLoc ∧
    within.writes (within.baseLoc 10#4 (within.wr 10#4 - 2#16) .sop) ∧ within.derives (.inc 11#4) ∧
    within.reads (within.operand (.inc 11#4) 2#16 .sop).1 ∧ within.writes (within.regLoc 11#4) :=
  ⟨within_calm, (within_registers _).2, fun _ => by decide, State.writes_main (by decide), within_registers _,
    (within_mram _ (by decide)).1, (within_registers _).2⟩

theorem witness_BlwpSwitchesWorkspace :
    let n := within.withWp (within.wr 1#4).even
    within.calm ∧ within.readable (.reg 1#4) 2#16 .sop ∧ within.reads ((within.regLoc 1#4).offset 2#16) ∧
    ∀ l ∈ n.savedLocs, n.writes l := by
  intro n
  refine ⟨within_calm, (within_writable _ _).1, (within_mram _ (by decide)).1, fun l hl => ?_⟩
  exact (within_mram l (by revert l hl; decide)).2

theorem witness_XopTrapsThroughItsVector :
    within.inMs = true ∧
    (let s := start 0x0010#16 [] []
     s.calm ∧ s.inMs = false ∧ stBit s.st 11 = true ∧ s.msMode = .baseline) ∧
    (let s := start 0xFFEF#16 [] []
     s.calm ∧ s.inMs = false ∧ stBit s.st 11 = false) :=
  ⟨rfl, ⟨⟨rfl, rfl⟩, rfl, rfl, rfl⟩, ⟨rfl, rfl⟩, rfl, rfl⟩

theorem witness_JumpsOnStatus : privileged.calm ∧ within.calm := ⟨privileged_calm, within_calm⟩

/-- Counts 1, 15 and 16: from the field, and from WR0. -/
theorem witness_SingleWordShifts :
    let s := fun w : Word => start 0x0000#16 [] [(0x0200, w)]
    within.calm ∧ within.writes (within.regLoc 1#4) ∧ within.reads (within.regLoc 0#4) ∧
    (1#4).toNat = 1 ∧ (15#4).toNat = 15 ∧ ((s 0xFFF0#16).wr 0#4).toNat % 16 = 0 ∧
    ((s 0x0001#16).wr 0#4).toNat % 16 = 1 :=
  ⟨within_calm, (within_registers _).2, (within_registers _).1, by decide, by decide, by decide, by decide⟩

/-- Counts 0 and 15: from the field, and from WR0. -/
theorem witness_DoubleWordInstructions :
    let s := fun w : Word => start 0x0000#16 [] [(0x0200, w)]
    within.calm ∧ within.readable (.reg 1#4) 4#16 .sop ∧ within.reads ((within.regLoc 1#4).offset 2#16) ∧
    within.writable (.reg 1#4) 4#16 .dop ∧ within.writes ((within.regLoc 1#4).offset 2#16) ∧
    within.writable (.reg 1#4) 4#16 .sop ∧ within.reads (within.regLoc 0#4) ∧
    (1#4).toNat = 1 ∧ (15#4).toNat = 15 ∧ ((s 0xF0FF#16).wr 0#4).toNat / 256 % 16 = 0 ∧
    ((s 0x0F00#16).wr 0#4).toNat / 256 % 16 = 15 :=
  ⟨within_calm, (within_writable _ _).1, (within_mram _ (by decide)).1, (within_writable _ _).2,
    (within_mram _ (by decide)).2, (within_writable _ _).2, (within_registers _).1, by decide, by decide, by decide,
    by decide⟩

theorem witness_MemoryBitTests :
    privileged.calm ∧ (Operand.reg 0#4).notInc = true ∧ (Operand.idx 15#4).notInc = true ∧
    privileged.readable (.idx 15#4) 2#16 .sop ∧ privileged.writes (privileged.operand (.idx 15#4) 2#16 .sop).1 :=
  ⟨privileged_calm, rfl, rfl, (privileged_writable _ _ _).1, (privileged_writable _ _ _).2.2⟩

theorem witness_ImmediateInstructions :
    within.calm ∧ within.writes (within.regLoc 1#4) ∧ within.reads (within.regLoc 1#4) ∧
    within.reads within.streamLoc :=
  ⟨within_calm, (within_registers _).2, (within_registers _).1, fun _ => by decide⟩

theorem witness_InternalRegisterLoadsAndStores :
    within.calm ∧ within.reads within.streamLoc ∧ within.reads (within.regLoc 15#4) ∧
    within.writes (within.regLoc 15#4) :=
  ⟨within_calm, fun _ => by decide, (within_registers _).1, (within_registers _).2⟩

theorem witness_LimiIsPrivileged :
    (privileged.calm ∧ privileged.reads privileged.streamLoc ∧ stBit privileged.st 7 = false) ∧
    (within.calm ∧ within.reads within.streamLoc ∧ within.inMs = true) ∧
    (user.calm ∧ user.reads user.streamLoc ∧ stBit user.st 7 = true ∧ user.inMs = false) :=
  ⟨⟨privileged_calm, State.reads_streamLoc rfl, rfl⟩, ⟨within_calm, fun _ => by decide, rfl⟩, user_calm,
    State.reads_streamLoc rfl, rfl, rfl⟩

theorem witness_RtwpRestoresContext : user.calm ∧ user.inMs = false := ⟨user_calm, rfl⟩

theorem witness_ExternalInstructions :
    (within.calm ∧ within.inMs = true ∧ within.ioInhibit = false) ∧
    (privileged.calm ∧ privileged.inMs = false ∧ privileged.ioInhibit = false ∧ stBit privileged.st 7 = false) ∧
    (user.calm ∧ user.inMs = false ∧ user.ioInhibit = false ∧ stBit user.st 7 = true) :=
  ⟨⟨within_calm, rfl, rfl⟩, ⟨privileged_calm, rfl, rfl, rfl⟩, user_calm, rfl, rfl, rfl⟩

/-- The I/O address with WR12 and a displacement of zero: the edges of the ranges. -/
theorem witness_SingleBitOutput :
    (let ioa := fun w : Word => ((start 0x0100#16 [] [(0x0218, w)]).wr 12#4 + BitVec.ofInt 16 (2 * (0#8).toInt)).even
     [0x1BFE#16, 0x1C00#16, 0x1FC0#16, 0x1FDF#16, 0x7FFF#16, 0x8000#16, 0x9BFF#16, 0x9C01#16, 0xFFFF#16].map ioa =
       [0x1BFE#16, 0x1C00#16, 0x1FC0#16, 0x1FDE#16, 0x7FFE#16, 0x8000#16, 0x9BFE#16, 0x9C00#16, 0xFFFE#16]) ∧
    (user.calm ∧ user.inMs = false ∧ user.ioInhibit = false ∧ stBit user.st 7 = true) ∧
    (privileged.calm ∧ privileged.inMs = false ∧ privileged.ioInhibit = false ∧ stBit privileged.st 7 = false ∧
      privileged.params.flagSetAddrs = none) ∧
    { privileged with params := { Params.default with flagSetAddrs := some [] } }.params.flagSetAddrs = some [] :=
  ⟨by decide, ⟨user_calm, rfl, rfl, rfl⟩, ⟨privileged_calm, rfl, rfl, rfl, rfl⟩, rfl⟩

theorem witness_TestBitReadsInput :
    (let ioa := fun w : Word => ((start 0x0000#16 [] [(0x0218, w)]).wr 12#4 + BitVec.ofInt 16 (2 * (0#8).toInt)).even
     [0x1FDC#16, 0x1FDB#16, 0x1FC8#16, 0x1FDE#16].map ioa = [0x1FDC#16, 0x1FDA#16, 0x1FC8#16, 0x1FDE#16]) ∧
    privileged.calm ∧ privileged.inMs = false ∧ privileged.ioIn = [] ∧
    { privileged with ioIn := [0x8000#16] }.ioIn = 0x8000#16 :: [] ∧
    (let s := { user with params := { user.params with tbViolates := true } }
     s.calm ∧ s.inMs = false ∧ stBit s.st 7 = true ∧ s.params.tbViolates = true) :=
  ⟨by decide, privileged_calm, rfl, rfl, rfl, ⟨rfl, rfl⟩, rfl, rfl, rfl⟩

/-- In user mode: sixteen bits up to the last address below >1FC0; a transfer that leaves the half; a 1 to a flag
address, refused in privileged mode; and the parameter given. -/
theorem witness_LdcrSerialOutput :
    let ioa := fun (base : Word) (i : Nat) => (base + BitVec.ofNat 16 (2 * i)).even
    let s := fun w : Word => start 0x0000#16 [] [(0x0218, w), (0x0202, 0xFFFF#16)]
    (s 0#16).calm ∧ (s 0#16).ioInhibit = false ∧ (∀ n, (s 0#16).readable (.reg 1#4) n .sop) ∧
    (s 0#16).reads ((s 0#16).regLoc 12#4) ∧ ((s 0x7FFE#16).wr 12#4).msb = false ∧
    ioa ((s 0x1FA0#16).wr 12#4) 15 = 0x1FBE#16 ∧ ioa ((s 0x7FFE#16).wr 12#4) 1 = 0x8000#16 ∧
    (s 0#16).params.flagSetAddrs = none ∧
    (let v := transferValue 1#4 0x0202#16 ((s 0x1FDC#16).wr 1#4)
     [0].find? (fun i => v.getLsbD i && decide (0x1FC0 ≤ (ioa ((s 0x1FDC#16).wr 12#4) i).toNat ∧
       (ioa ((s 0x1FDC#16).wr 12#4) i).toNat ≤ 0x1FDE)) = some 0) ∧
    (some [] : Option (List FlagSetEntry)) ≠ none :=
  ⟨⟨rfl, rfl⟩, rfl, fun _ => State.readable_main rfl _ _ _, State.reads_regLoc rfl _, by decide, by decide, by decide,
    rfl, by decide, by simp⟩

theorem witness_LdcrParallelOutput :
    let s := start 0x0100#16 [] [(0x0218, 0x9C00#16)]
    s.calm ∧ s.ioInhibit = false ∧ (∀ n, s.readable (.reg 1#4) n .sop) ∧ s.reads (s.regLoc 12#4) ∧
    (s.wr 12#4).msb = true ∧ s.writes (s.regLoc 12#4) ∧
    (∀ cnt ∈ [0#4, 1#4, 4#4, 9#4, 12#4, 15#4], cnt ∉ [2#4, 3#4, 10#4, 11#4]) ∧ 3#4 ∈ [2#4, 3#4, 10#4, 11#4] :=
  ⟨⟨rfl, rfl⟩, rfl, fun _ => State.readable_main rfl _ _ _, State.reads_regLoc rfl _, by decide,
    State.writes_regLoc rfl _, by decide, by decide⟩

/-- Sixteen queued answers from an address with no flag; a flag address. -/
theorem witness_StcrSerialInput :
    let s := { start 0x0000#16 [] [(0x0218, 0x0200#16)] with ioIn := List.replicate 16 0x8000#16 }
    let ioa := fun i : Nat => Word.even (s.wr 12#4 + BitVec.ofNat 16 (2 * i))
    s.calm ∧ (∀ n, s.writable (.reg 1#4) n .sop) ∧ s.reads (s.regLoc 12#4) ∧ (s.wr 12#4).msb = false ∧
    16 ≤ s.ioIn.length ∧ (∀ i, i < 16 → (ioa i).toNat < 0x1FC0) ∧
    Word.even (0x1FDA#16 + BitVec.ofNat 16 (2 * 1)) = 0x1FDC#16 :=
  ⟨⟨rfl, rfl⟩, fun _ => State.writable_main rfl _ _ _, State.reads_regLoc rfl _, by decide, by decide, by decide,
    by decide⟩

theorem witness_StcrParallelInput :
    let s := { start 0x0100#16 [] [(0x0218, 0x8001#16)] with ioIn := [0x7FFF#16] }
    s.calm ∧ (∀ n, s.writable (.reg 1#4) n .sop) ∧ s.reads (s.regLoc 12#4) ∧ s.writes (s.regLoc 12#4) ∧
    (s.wr 12#4).msb = true ∧ s.ioIn = 0x7FFF#16 :: [] ∧ 11#4 ∈ [2#4, 3#4, 10#4, 11#4] ∧
    15#4 ∉ [2#4, 3#4, 10#4, 11#4] :=
  ⟨⟨rfl, rfl⟩, fun _ => State.writable_main rfl _ _ _, State.reads_regLoc rfl _, State.writes_regLoc rfl _, by decide,
    rfl, by decide, by decide⟩

/-- EVAD R5, and the two refusals. -/
theorem witness_EvadEvaluatesAddresses :
    { within with wp := 0x0002#16 }.inMs = true ∧ { within with wp := 0x0002#16 }.wp ≠ 0#16 ∧
    within.calm ∧ within.inMs = true ∧ within.msMode ≠ .baseline ∧ within.wp = 0#16 ∧ Operand.reg 5#4 ≠ .reg 0#4 ∧
    ∃ l w, srcLoc (.reg 5#4) 2#16 within = .ok (l, within) ∧ readLoc l within = .ok (w, within) :=
  ⟨rfl, by decide, within_calm, rfl, by decide, rfl, by decide, _, _, rfl, rfl⟩

theorem witness_MacrostoreJumps : within.calm ∧ within.inMs = true := ⟨within_calm, rfl⟩

theorem witness_MacrostoreReturns :
    within.calm ∧ within.inMs = true ∧ ∀ r, 13#4 ≤ r → within.reads (within.regLoc r) :=
  ⟨within_calm, rfl, fun r _ => (within_registers r).1⟩

theorem witness_OnlyExitsLeaveMacrostore :
    within.inMs = true ∧ ∃ t, exec .rtwpQuiet within = .next t ∧ t.inMs = false := ⟨rfl, _, rfl, rfl⟩

/-- The ROM of a TMS99110A answers. -/
theorem extended_answers (s : State) (hm : s.inMs = false) (ha : s.pins.appMid = false) (hb : s.bus = []) :
    (extended s).romAnswers := by
  refine ⟨hm, ?_, hb, rfl⟩
  simp [State.midRoute, extended, ha, Params.default, Params.defaultFor]

theorem witness_LongDistancePrefixes :
    (extended privileged).romAnswers ∧ stBit (extended privileged).st 7 = false ∧ (extended user).romAnswers ∧
    stBit (extended user).st 7 = true := ⟨extended_answers _ rfl rfl rfl, rfl, extended_answers _ rfl rfl rfl, rfl⟩

/-- For the addition: an exact sum, a sum of 16^63, and a difference below 16^(-65). -/
theorem witness_RealArithmetic :
    (extended privileged).romAnswers ∧ fpValid 0x41100000#32 = true ∧ fpValid 0xC1100000#32 = true ∧
    fpInt 0x41100000#32 + fpInt 0xC1100000#32 = fpInt 0x00000000#32 ∧
    fpInt 0x7FF00000#32 + fpInt 0x7F100000#32 = 16 ^ 133 ∧
    fpInt 0x00100001#32 + fpInt 0x80100000#32 = 1 ∧ fpValid 0x00100001#32 = true ∧ (0x41200000#32 ≠ 0#32) ∧
    (extended privileged).fpacInRam :=
  ⟨extended_answers _ rfl rfl rfl, rfl, rfl, by decide +kernel, by decide +kernel, by decide +kernel, rfl, by decide,
    rfl, rfl⟩

theorem witness_RealMoves :
    (extended user).romAnswers ∧ fpValid (extended user).fpac = true ∧ (extended user).fpacInRam :=
  ⟨extended_answers _ rfl rfl rfl, rfl, rfl, rfl⟩

/-- Integers at both ends, and reals just outside. -/
theorem witness_RealConversions :
    (extended privileged).romAnswers ∧ fpInt 0xC4800000#32 = -32768 * 16 ^ 70 ∧ fpInt 0x447FFF00#32 = 32767 * 16 ^ 70 ∧
    fpInt 0x44800000#32 = 32768 * 16 ^ 70 ∧ fpInt 0xC4800100#32 = -32769 * 16 ^ 70 ∧
    fpInt 0xC8800000#32 = -2147483648 * 16 ^ 70 ∧ fpInt 0x48800000#32 = 2147483648 * 16 ^ 70 ∧
    fpValid 0xC4800100#32 = true ∧ (16777216 : Int).natAbs ≤ 2 ^ 24 ∧ (extended privileged).fpacInRam :=
  ⟨extended_answers _ rfl rfl rfl, by decide +kernel, by decide +kernel, by decide +kernel, by decide +kernel,
    by decide +kernel, by decide +kernel, rfl, by decide, rfl, rfl⟩

theorem witness_RealCompareAndLongMultiply :
    (extended privileged).romAnswers ∧ fpValid 0x00000000#32 = true ∧ fpValid 0xFFFFFFFF#32 = true :=
  ⟨extended_answers _ rfl rfl rfl, rfl, rfl⟩

theorem witness_ContextSwitchAndItsReturn :
    privileged.calm ∧ privileged.inMs = false ∧ privileged.pc.getLsbD 0 = false ∧ privileged.wp.getLsbD 0 = false ∧
    ∃ t, contextSwitch 0x0008#16 1#4 privileged = .ok ((), t) ∧ t.savedInRam :=
  ⟨privileged_calm, rfl, rfl, rfl, _, rfl, by unfold State.savedInRam; decide⟩

/-- NMI with every mask; AF with mask 2; level 4 with mask 4 and no AF; each with the others absent or present. -/
theorem witness_InterruptsAreTakenByPriority :
    (let s := { start 0x000F#16 [] [] with nmiPending := true, af := true, inhibit := .maskable }
     s.ready ∧ s.inMs = false ∧ (sampleInputs s).inhibit ≠ .all ∧ (sampleInputs s).nmiPending = true) ∧
    (let s := { start 0x0002#16 [] [] with af := true, pins := request 0#4 }
     s.ready ∧ (sampleInputs s).inhibit = .none ∧ (sampleInputs s).st.toNat % 16 = 2 ∧ (sampleInputs s).af = true ∧
     (sampleInputs s).nmiPending = false) ∧
    (let s := { start 0x0001#16 [] [] with af := true, pins := request 1#4 }
     s.ready ∧ (sampleInputs s).inhibit = .none ∧ (sampleInputs s).pins.intreq = true ∧
     (sampleInputs s).pins.ic.toNat = (sampleInputs s).st.toNat % 16 ∧ ¬ 2 ≤ (sampleInputs s).st.toNat % 16) ∧
    (let s := { start 0x0001#16 [] [] with af := true, pins := request 2#4 }
     s.ready ∧ s.inMs = false ∧ (sampleInputs s).nmiPending = false ∧
     ¬ (sampleInputs s).pins.ic.toNat ≤ (sampleInputs s).st.toNat % 16 ∧ ¬ 2 ≤ (sampleInputs s).st.toNat % 16) ∧
    (let s := { start 0x000F#16 [] [] with inhibit := .all, af := true, pins := { request 1#4 with nmi := true } }
     s.ready ∧ s.inMs = false ∧ (sampleInputs s).inhibit = .all ∧ (sampleInputs s).nmiPending = true) ∧
    (let s := { start 0x000F#16 [] [] with inhibit := .maskable, af := true, pins := request 1#4 }
     s.ready ∧ s.inMs = false ∧ (sampleInputs s).inhibit = .maskable ∧ (sampleInputs s).nmiPending = false) :=
  ⟨⟨⟨⟨rfl, rfl, rfl, rfl, rfl⟩, rfl, rfl⟩, rfl, by decide, rfl⟩,
    ⟨⟨⟨rfl, rfl, rfl, rfl, rfl⟩, rfl, rfl⟩, rfl, rfl, rfl, rfl⟩,
    ⟨⟨⟨rfl, rfl, rfl, rfl, rfl⟩, rfl, rfl⟩, rfl, rfl, rfl, by decide⟩,
    ⟨⟨⟨rfl, rfl, rfl, rfl, rfl⟩, rfl, rfl⟩, rfl, rfl, by decide, by decide⟩,
    ⟨⟨⟨rfl, rfl, rfl, rfl, rfl⟩, rfl, rfl⟩, rfl, rfl, rfl⟩,
    ⟨⟨rfl, rfl, rfl, rfl, rfl⟩, rfl, rfl⟩, rfl, rfl, rfl⟩

/-- A MID first word, one of LDS, and an illegal second word. -/
theorem witness_BaselineMidTrapsToLevelTwo :
    (∀ w ∈ [0x0FFF#16, 0x0780#16],
      let s := start 0x0000#16 [w] []
      s.inMs = false ∧ (sampleInputs s).msMode = .baseline ∧
      decode .main (sampleInputs s).codeBytes = .error .mid) ∧
    (let s := start 0x0000#16 [0x0780#16] []
     s.ready ∧ (sampleInputs s).quiet) ∧
    (let s := start 0x0000#16 [0x0C0B#16, 0x0030#16] []
     s.ready ∧ s.inMs = false ∧ (sampleInputs s).quiet ∧ (sampleInputs s).msMode = .baseline ∧
     decode .main (sampleInputs s).codeBytes = .error .midSecond) := by
  refine ⟨by simp only [List.forall_mem_cons, List.not_mem_nil]; exact ⟨⟨rfl, rfl, rfl⟩, ⟨rfl, rfl, rfl⟩, nofun⟩,
    ⟨⟨⟨rfl, rfl, rfl, rfl, rfl⟩, rfl, rfl⟩, ⟨.inr rfl, .inr ⟨rfl, rfl⟩⟩, rfl, rfl⟩,
    ⟨⟨rfl, rfl, rfl, rfl, rfl⟩, rfl, rfl⟩, rfl, ⟨⟨.inr rfl, .inr ⟨rfl, rfl⟩⟩, rfl, rfl⟩, rfl, rfl⟩

/-- The lowest and highest first-word vectors, and those of second words and of XOP; a step on a first word and on an
illegal second word; an XOP under emulation; a first instruction that can be read and one that cannot; a vector that
cannot. -/
theorem witness_MidTrapEntersMacrostore :
    let s := prototyping privileged []
    let l := fun v : Word => ({ space := .macrostore, addr := v, code := .aums } : Loc)
    s.calm ∧ s.inMs = false ∧ s.midRoute = .macrostore ∧
    BitVec.ofNat 16 (0x0800 + 2 * ((0x0000#16).toNat / 256 % 8)) = 0x0800#16 ∧
    BitVec.ofNat 16 (0x0800 + 2 * ((0x0FFF#16).toNat / 256 % 8)) = 0x080E#16 ∧
    s.reads (l 0x0800#16) ∧ s.reads (l 0x080E#16) ∧ s.reads (l 0x0810#16) ∧ s.reads (l 0x0812#16) ∧
    (let s := prototyping (start 0x0000#16 [0x0FFF#16] []) []
     s.ready ∧ s.inMs = false ∧ (sampleInputs s).quiet ∧ (sampleInputs s).midRoute = .macrostore ∧
     decode .main (sampleInputs s).codeBytes = .error .mid ∧ (sampleInputs s).reads (l 0x080E#16)) ∧
    (let s := prototyping (start 0x0000#16 [0x001C#16, 0x4400#16] []) []
     s.ready ∧ s.inMs = false ∧ (sampleInputs s).quiet ∧ (sampleInputs s).midRoute = .macrostore ∧
     decode .main (sampleInputs s).codeBytes = .error .midSecond ∧ (sampleInputs s).reads (l 0x0810#16)) ∧
    (let s := prototyping (start 0x0010#16 [] []) []
     s.calm ∧ s.inMs = false ∧ stBit s.st 11 = true ∧ s.midRoute = .macrostore ∧ s.reads (l 0x0812#16)) ∧
    (let s := fun v : Word => prototyping privileged [(0x0810, v)]
     let u := fun v : Word => ((s v).withInMs true).withPc (Mem.readWord (s v).ms 0x0810).even
     (u 0x1300#16).reads (u 0x1300#16).opcodeLoc ∧ ¬ (u 0x0021#16).reads (u 0x0021#16).opcodeLoc) ∧
    (let s := { privileged with msMode := .prototyping }
     s.midRoute = .macrostore ∧ ¬ s.reads (l 0x0812#16)) :=
  ⟨⟨rfl, rfl⟩, rfl, rfl, rfl, rfl, fun _ => by decide, fun _ => by decide, fun _ => by decide, fun _ => by decide,
    ⟨⟨⟨rfl, rfl, rfl, rfl, rfl⟩, rfl, rfl⟩, rfl, ⟨⟨.inr rfl, .inr ⟨rfl, rfl⟩⟩, rfl, rfl⟩, rfl, rfl, fun _ => by decide⟩,
    ⟨⟨⟨rfl, rfl, rfl, rfl, rfl⟩, rfl, rfl⟩, rfl, ⟨⟨.inr rfl, .inr ⟨rfl, rfl⟩⟩, rfl, rfl⟩, rfl, rfl, fun _ => by decide⟩,
    ⟨⟨rfl, rfl⟩, rfl, by decide, rfl, fun _ => by decide⟩, ⟨fun _ => by decide, fun h => (h rfl).1 (by decide)⟩, rfl,
    fun h => (h rfl).1 rfl⟩

/-- A first word that the ROM does not implement, an unknown one, an unknown second word of CR, and an illegal second
word; with external Macrostore that answers, with >1002 beside it and without, and with none. -/
theorem witness_UnimplementedMidOpcodes :
    (extended privileged).romAnswers ∧ ¬ (extended privileged).externalAnswers ∧
    (let s := fun last : Nat =>
      { extended privileged with
        params := { (extended privileged).params with extMs := [fitted 0x1000 last true] },
        ms := put [] [(0x1000, 0xAAAA#16)] }
     let u := fun last : Nat => ((s last).withInMs true).withPc 0x1002#16
     (s 0xFFFF).externalAnswers ∧ (u 0xFFFF).reads (u 0xFFFF).opcodeLoc ∧
     (s 0x1001).externalAnswers ∧ ¬ (u 0x1001).reads (u 0x1001).opcodeLoc) ∧
    romUnknown 0x0000#16 = false ∧
    (let s := extended (start 0x0010#16 [] [])
     s.romAnswers ∧ stBit s.st 11 = true) ∧
    (let s := fun code : List Word => extended (start 0x0000#16 code [])
     (s [0x0000#16]).ready ∧ (sampleInputs (s [0x0000#16])).romAnswers ∧ (sampleInputs (s [0x0000#16])).quiet ∧
     decode .main (sampleInputs (s [0x0000#16])).codeBytes = .error .mid ∧ decodeRom 0x0000#16 = .mid ∧
     decode .main (sampleInputs (s [0x0C01#16])).codeBytes = .error .mid ∧ decodeRom 0x0C01#16 = .undefined ∧
     decode .main (sampleInputs (s [0x0301#16, 0x1000#16])).codeBytes = .error .mid ∧
     decodeRom 0x0301#16 = .two .cr ∧ decodeSecond .cr 0x1000#16 = none ∧
     decode .main (sampleInputs (s [0x0C09#16, 0x0030#16])).codeBytes = .error .midSecond) := by
  refine ⟨extended_answers _ rfl rfl rfl, fun h => h.1 rfl,
    ⟨⟨by decide, by decide⟩, fun _ => by decide, ⟨by decide, by decide⟩, fun h => (h rfl).1 (by decide)⟩, rfl,
    ⟨extended_answers _ rfl rfl rfl, by decide⟩, ⟨⟨rfl, rfl, rfl, rfl, rfl⟩, rfl, rfl⟩, ⟨rfl, rfl, rfl, rfl⟩,
    ⟨⟨.inr rfl, .inr ⟨rfl, rfl⟩⟩, rfl, rfl⟩,
    rfl, rfl, rfl, rfl, rfl, rfl, rfl, rfl⟩

/-- Every way in, and the way back. -/
theorem witness_AttachedProcessorTakesOverAndReturns :
    ((prototyping privileged []).calm ∧ (prototyping privileged []).inMs = false) ∧
    (let s := { prototyping (start 0x0010#16 [] []) [] with pins := { idle with appMid := true } }
     s.calm ∧ s.inMs = false ∧ s.midRoute = .attached ∧ stBit s.st 11 = true) ∧
    (let s := { prototyping (start 0x0000#16 [0x0780#16] []) [] with pins := { idle with appMid := true } }
     s.ready ∧ s.inMs = false ∧ (sampleInputs s).quiet ∧ (sampleInputs s).midRoute = .attached ∧
     decode .main (sampleInputs s).codeBytes = .error .mid) ∧
    (let s := { prototyping (start 0x0000#16 [0x0029#16, 0x5000#16] []) [] with pins := { idle with appMid := true } }
     s.ready ∧ s.inMs = false ∧ (sampleInputs s).quiet ∧ (sampleInputs s).midRoute = .attached ∧
     decode .main (sampleInputs s).codeBytes = .error .midSecond) ∧
    (∀ i : Bool, let s := { prototyping privileged [] with pins := { idle with appIaq := true }, idle := i }
     s.ready ∧ s.inMs = false ∧ s.idle = i ∧ (sampleInputs s).breakpoint = true ∧ (sampleInputs s).uninterrupted) ∧
    (let s := { privileged with apHold := true }
     s.pins.reset = .inactive ∧ s.resetDue = false ∧ s.pins.hold = false ∧ s.pins.appHigh = false) ∧
    (let s := { privileged with apHold := true, pins := { idle with appHigh := true } }
     s.pins.reset = .inactive ∧ s.resetDue = false ∧ s.pins.hold = false ∧ s.inMs = false ∧ s.pins.appHigh = true ∧
     s.calm) :=
  ⟨⟨⟨rfl, rfl⟩, rfl⟩, ⟨⟨rfl, rfl⟩, rfl, rfl, by decide⟩,
    ⟨⟨⟨rfl, rfl, rfl, rfl, rfl⟩, rfl, rfl⟩, rfl, ⟨⟨.inr rfl, .inr ⟨rfl, rfl⟩⟩, rfl, rfl⟩, rfl, rfl⟩,
    ⟨⟨⟨rfl, rfl, rfl, rfl, rfl⟩, rfl, rfl⟩, rfl, ⟨⟨.inr rfl, .inr ⟨rfl, rfl⟩⟩, rfl, rfl⟩, rfl, rfl⟩,
    fun _ => ⟨⟨⟨rfl, rfl, rfl, rfl, rfl⟩, rfl, rfl⟩, rfl, rfl, rfl, .inr rfl, .inr ⟨rfl, rfl⟩⟩,
    ⟨rfl, rfl, rfl, rfl⟩, rfl, rfl, rfl, rfl, rfl, rfl, rfl⟩

theorem witness_UserModeKeepsPrivilegedStatus :
    (Instr.lst 1#4).wf = true ∧ (Instr.lst 1#4).context = .main ∧ (∀ src n, Instr.lst 1#4 ≠ .xop src n) ∧
    user.inMs = false ∧ stBit user.st 7 = true ∧ ∃ t, exec (.lst 1#4) user = .next t :=
  ⟨rfl, rfl, fun _ _ => by simp, rfl, rfl, _, rfl⟩

theorem witness_FewInstructionsMoveTheWorkspace :
    (Instr.xop .sym 15#4).wf = true ∧ (Instr.xop .sym 15#4).context = .main ∧
    ∃ t, exec (.xop .sym 15#4) (prototyping (start 0x0010#16 [] []) []) = .next t ∧ t.inMs = true :=
  ⟨rfl, rfl, _, rfl, rfl⟩

/-- A storing form in main memory, and one inside Macrostore. -/
theorem witness_OperandInstructionFrames :
    privileged.calm ∧ within.calm ∧
    (∃ sl dl s1 s2 t, srcLoc (.inc 1#4) 2#16 privileged = .ok (sl, s1) ∧ dstLoc (.inc 2#4) 2#16 s1 = .ok (dl, s2) ∧
      exec (.a (.inc 1#4) (.inc 2#4)) privileged = .next t) ∧
    (∃ sl s1 t, srcLoc (.ind 13#4) 2#16 within = .ok (sl, s1) ∧ exec (.clr (.ind 13#4)) within = .next t) ∧
    (∃ t, exec (.tmb (.ind 13#4) 0#4) within = .next t) ∧ (∃ t, exec (.divs (.reg 2#4)) privileged = .next t) ∧
    (Operand.ind 13#4).notInc = true :=
  ⟨privileged_calm, within_calm, ⟨_, _, _, _, _, rfl, rfl, rfl⟩, ⟨_, _, _, rfl, rfl⟩, ⟨_, rfl⟩, ⟨_, rfl⟩, rfl⟩

end Sys2Proof.Tests
end

section
/-! SUPPORT. What a computation takes and leaves: a calculus of state predicates that a computation keeps where it
answers and where RESET cuts it, on every bus. -/

namespace Sys2Proof.Machine

/-! ### The calculus -/

/-- A computation that answers ends in a state as `Q` says, and one that RESET cuts in a state as `C` says. -/
def Ends {α : Type} (Q C : State → Prop) : Except Stop (α × State) → Prop
  | .ok r => Q r.2
  | .error (.cut t) => C t
  | .error (.refused _) => True

/-- From every state as `P` says the computation ends as `Q` and `C` say. -/
structure Takes {α : Type} (P : State → Prop) (m : M α) (Q C : State → Prop) : Prop where
  ends : ∀ s, P s → Ends Q C (m s)

/-- The computation keeps a predicate, where it answers and where it is cut. -/
abbrev Keeps {α : Type} (P : State → Prop) (m : M α) : Prop := Takes P m P P

section
variable {α β : Type} {P Q R C D : State → Prop}

theorem Ends.mono {r : Except Stop (α × State)} (h : Ends Q C r) (hQ : ∀ s, Q s → R s) (hC : ∀ s, C s → D s) :
    Ends R D r :=
  match r, h with
  | .ok _, h => hQ _ h
  | .error (.cut _), h => hC _ h
  | .error (.refused _), _ => trivial

theorem Takes.mono {m : M α} {P' : State → Prop} (h : Takes P m Q C) (hP : ∀ s, P' s → P s) (hQ : ∀ s, Q s → R s)
    (hC : ∀ s, C s → D s) : Takes P' m R D := ⟨fun s hs => (h.ends s (hP s hs)).mono hQ hC⟩

/-- A computation that keeps a predicate may be cut wherever less is asked of the cut. -/
theorem Takes.weaken_cut {m : M α} (h : Keeps P m) (hC : ∀ s, P s → C s) : Takes P m P C :=
  h.mono (fun _ => id) (fun _ => id) hC

theorem Takes.bind {m : M α} {k : α → M β} (h : Takes P m Q C) (hk : ∀ a, Takes Q (k a) R C) :
    Takes P (m >>= k) R C := by
  refine ⟨fun s hs => ?_⟩
  have hm := h.ends s hs
  rw [M.bind_apply]
  cases hr : m s with
  | ok r => rw [hr] at hm; exact (hk r.1).ends r.2 hm
  | error e => cases e with
    | refused x => trivial
    | cut t => rw [hr] at hm; exact hm

theorem Takes.read {f : State → α} {k : α → M β} (h : ∀ a, Takes P (k a) Q C) : Takes P (gets f >>= k) Q C :=
  ⟨fun s hs => (h (f s)).ends s hs⟩

theorem Takes.pure (a : α) : Takes P (pure a : M α) P C := ⟨fun _ => id⟩

theorem Takes.refuse (r : Refusal) : Takes P (refuse r : M α) Q C := ⟨fun _ _ => trivial⟩

theorem Takes.update {f : State → State} (h : ∀ s, P s → Q (f s)) : Takes P (update f) Q C := ⟨h⟩

/-- What is read of the state is known of it afterwards. -/
theorem Takes.gets_bind {f : State → α} {k : α → M β} (h : ∀ a, Takes (fun s => P s ∧ f s = a) (k a) Q C) :
    Takes P (gets f >>= k) Q C := ⟨fun s hs => (h (f s)).ends s ⟨hs, rfl⟩⟩

/-- Of what is read of the state, what the predicate says of it is known. -/
theorem Takes.gets_of {f : State → α} {k : α → M β} (φ : α → Prop) (hf : ∀ s, P s → φ (f s))
    (h : ∀ a, φ a → Takes P (k a) Q C) : Takes P (gets f >>= k) Q C :=
  ⟨fun s hs => (h (f s) (hf s hs)).ends s hs⟩

theorem Takes.ite {c : Prop} [Decidable c] {m n : M α} (ht : c → Takes P m Q C) (hf : ¬ c → Takes P n Q C) :
    Takes P (if c then m else n) Q C := by
  split
  · exact ht ‹c›
  · exact hf ‹¬ c›

/-- A choice between two first parts of a computation. -/
theorem Takes.ite_bind {c : Prop} [Decidable c] {m n : M α} {k : α → M β} (ht : c → Takes P m Q C)
    (hf : ¬ c → Takes P n Q C) (hk : ∀ a, Takes Q (k a) R C) : Takes P (if c then m >>= k else n >>= k) R C :=
  .ite (fun h => (ht h).bind hk) fun h => (hf h).bind hk

/-- A first part that is done only in some cases. -/
theorem Takes.when_bind {c : Prop} [Decidable c] {m : M Unit} {k : Unit → M β} (ht : c → Takes P m P C)
    (hk : Takes P (k ()) R C) : Takes P (if c then m >>= k else k ()) R C :=
  .ite (fun h => (ht h).bind fun _ => hk) fun _ => hk

/-- What goes on only where a refusal does not come first. -/
theorem Takes.unless_refused {c : Prop} [Decidable c] {r : Refusal} {k : Unit → M β}
    (hk : ¬ c → Takes P (k ()) Q C) : Takes P (if c then Machine.refuse r >>= k else k ()) Q C :=
  .ite (fun _ => ⟨fun _ _ => trivial⟩) hk

theorem Takes.gets (f : State → α) : Takes P (gets f) P C := ⟨fun _ => id⟩

/-- A computation that answers has left what it takes the state to. -/
theorem Takes.ok {m : M α} {s t : State} {a : α} (h : Takes P m Q C) (hs : P s) (e : m s = .ok (a, t)) : Q t := by
  have := h.ends s hs
  rwa [e] at this

end

/-! ### Outcomes -/

/-- An outcome that is a next state is one as `Q` says, or what is left of an instruction cut in a state as `C`
says. -/
def Leaves (Q C : State → Prop) (o : Host.Outcome State Fault Refusal) : Prop :=
  ∀ t, o = .next t → Q t ∨ ∃ u, C u ∧ t = u.cutShort

theorem Takes.leaves {P Q C : State → Prop} {m : M Unit} (h : Takes P m Q C) {s : State} (hs : P s) :
    Leaves Q C (outcome m s) := by
  intro t ht
  have hm := h.ends s hs
  rcases outcome_next.1 ht with e | ⟨u, e, rfl⟩ <;> rw [e] at hm
  · exact .inl hm
  · exact .inr ⟨u, hm, rfl⟩

theorem Leaves.mono {Q C R D : State → Prop} {o : Host.Outcome State Fault Refusal} (h : Leaves Q C o)
    (hQ : ∀ s, Q s → R s) (hC : ∀ s, C s → D s) : Leaves R D o := fun t ht =>
  (h t ht).imp (hQ t) fun ⟨u, hu, e⟩ => ⟨u, hC u hu, e⟩

/-! ### The status bits that results leave alone -/

/-- ST6 to ST15, the status bits that no result changes (spec/10_state.md R43 to R49). -/
def modesOf (st : Word) : Word := st &&& 0x03FF#16

theorem modesOf_stSet (st : Word) {n : Nat} (hn : n < 6) (b : Bool) : modesOf (stSet st n b) = modesOf st := by
  have h0 : ∀ n < 6, stMask n &&& 0x03FF#16 = 0#16 := by decide
  have h1 : ∀ n < 6, ~~~ stMask n &&& 0x03FF#16 = 0x03FF#16 := by decide
  cases b
  · simp [modesOf, stSet, BitVec.and_assoc, h1 n hn]
  · simp [modesOf, stSet, BitVec.and_or_distrib_right, h0 n hn]

@[simp] theorem modesOf_setLae {n : Nat} (r : BitVec n) (st : Word) : modesOf (setLae r st) = modesOf st := by
  simp [setLae, modesOf_stSet]
@[simp] theorem modesOf_cmpLae {n : Nat} (x y : BitVec n) (st : Word) : modesOf (cmpLae x y st) = modesOf st := by
  simp [cmpLae, modesOf_stSet]
@[simp] theorem modesOf_setCarry (b : Bool) (st : Word) : modesOf (setCarry b st) = modesOf st := by
  simp [setCarry, modesOf_stSet]
@[simp] theorem modesOf_setOverflow (b : Bool) (st : Word) : modesOf (setOverflow b st) = modesOf st := by
  simp [setOverflow, modesOf_stSet]
@[simp] theorem modesOf_setParity (b : Byte) (st : Word) : modesOf (setParity b st) = modesOf st := by
  simp [setParity, modesOf_stSet]
@[simp] theorem modesOf_setArith {n : Nat} (a : Arith n) (st : Word) : modesOf (setArith a st) = modesOf st := by
  simp [setArith]
@[simp] theorem modesOf_setByteLogic (r : Byte) (st : Word) : modesOf (setByteLogic r st) = modesOf st := by
  simp [setByteLogic]
@[simp] theorem modesOf_shiftFlags {n : Nat} (r : Shift n) (st : Word) : modesOf (shiftFlags r st) = modesOf st := by
  simp [shiftFlags]
@[simp] theorem modesOf_shiftLeftFlags {n : Nat} (r : Shift n) (st : Word) :
    modesOf (shiftLeftFlags r st) = modesOf st := by
  simp [shiftLeftFlags]
@[simp] theorem modesOf_transferFlags (cnt : Nibble) (v st : Word) : modesOf (transferFlags cnt v st) = modesOf st := by
  unfold transferFlags; split <;> simp

/-! ### Work, and moves -/

/-- What no ordinary instruction changes: the state with PC, the result bits of ST, the error flags, the memories, the
prefetched opcode, the EVAD latches and the traffic with the outside left out. -/
def State.controls (s : State) : State :=
  { s with
    pc := 0#16, st := modesOf s.st, privop := false, illop := false, af := false, mem := [], ms := [],
    prefetch := none, wr7Ws := false, wr8Ws := false, bus := [], ioIn := [], ioOut := [], devIn := [], devOut := [],
    draws := 0 }

/-- From `s` to `t` nothing has changed that an ordinary instruction leaves alone; PC is even and the memories have
their canonical form if they were and had it. -/
structure Worked (s t : State) : Prop where
  controls : t.controls = s.controls
  pc : s.pc.getLsbD 0 = false → t.pc.getLsbD 0 = false
  mem : Mem.wf s.mem = true → Mem.wf t.mem = true
  ms : Mem.wf s.ms = true → Mem.wf t.ms = true

theorem Worked.refl (s : State) : Worked s s := ⟨rfl, id, id, id⟩

theorem Worked.trans {s t u : State} (h : Worked s t) (k : Worked t u) : Worked s u :=
  ⟨k.controls.trans h.controls, k.pc ∘ h.pc, k.mem ∘ h.mem, k.ms ∘ h.ms⟩

/-- The long-distance flags never hold 101 or 001 (spec/10_state.md R59). -/
def ldfOk (f : BitVec 3) : Prop := f ≠ 0b101#3 ∧ f ≠ 0b001#3

/-- From `s` to `t` a context may have been taken, left or loaded: WP, ST and the long-distance flags may have changed
too, the processor may have left Macrostore, and the idle state may have ended. -/
structure Moved (s t : State) : Prop where
  mode : t.msMode = s.msMode
  hold : t.apHold = s.apHold
  target : t.xTarget = s.xTarget
  due : t.resetDue = s.resetDue
  ioInhibit : t.ioInhibit = s.ioInhibit
  space : t.inMs = true → s.inMs = true
  idle : t.idle = true → s.idle = true
  ldf : ldfOk s.ldf → ldfOk t.ldf
  pc : s.pc.getLsbD 0 = false → t.pc.getLsbD 0 = false
  wp : s.wp.getLsbD 0 = false → t.wp.getLsbD 0 = false
  mem : Mem.wf s.mem = true → Mem.wf t.mem = true
  ms : Mem.wf s.ms = true → Mem.wf t.ms = true

section
variable {s t : State} (h : Worked s t)
include h

theorem Worked.field {α : Type} (f : State → α) : f t.controls = f s.controls := congrArg f h.controls
theorem Worked.wp : t.wp = s.wp := h.field State.wp
theorem Worked.modes : modesOf t.st = modesOf s.st := h.field State.st
theorem Worked.inMs : t.inMs = s.inMs := h.field State.inMs
theorem Worked.msMode : t.msMode = s.msMode := h.field State.msMode
theorem Worked.idle : t.idle = s.idle := h.field State.idle
theorem Worked.ldf : t.ldf = s.ldf := h.field State.ldf

/-- Work is a move. -/
theorem Worked.moved : Moved s t :=
  { mode := h.msMode
    hold := h.field State.apHold
    target := h.field State.xTarget
    due := h.field State.resetDue
    ioInhibit := h.field State.ioInhibit
    space := fun hi => h.inMs ▸ hi
    idle := fun hi => h.idle ▸ hi
    ldf := fun hl => by rw [h.ldf]; exact hl
    pc := h.pc
    wp := fun hw => by rw [h.wp]; exact hw
    mem := h.mem
    ms := h.ms }

end

/-- A predicate that work does not disturb. -/
def Steady (P : State → Prop) : Prop := ∀ s t, Worked s t → P s → P t

/-- A predicate that not even a move disturbs. -/
def Firm (P : State → Prop) : Prop := ∀ s t, Moved s t → P s → P t

/-- A predicate that a violation of privilege does not disturb (spec/60_exceptions.md R612). -/
def Lenient (P : State → Prop) : Prop := ∀ s, P s → P ((s.withPrivop true).withIoInhibit true)

theorem Firm.steady {P : State → Prop} (h : Firm P) : Steady P := fun s t hw => h s t hw.moved

theorem Steady.and {P Q : State → Prop} (h : Steady P) (k : Steady Q) : Steady fun s => P s ∧ Q s :=
  fun s t hw hs => ⟨h s t hw hs.1, k s t hw hs.2⟩

theorem Firm.and {P Q : State → Prop} (h : Firm P) (k : Firm Q) : Firm fun s => P s ∧ Q s :=
  fun s t hw hs => ⟨h s t hw hs.1, k s t hw hs.2⟩

theorem Lenient.and {P Q : State → Prop} (h : Lenient P) (k : Lenient Q) : Lenient fun s => P s ∧ Q s :=
  fun s hs => ⟨h s hs.1, k s hs.2⟩

theorem steady_inMs (b : Bool) : Steady fun s => s.inMs = b := fun _ _ hw hs => hw.inMs.trans hs

/-! ### Single changes that are work -/

theorem Worked.masterWrite (s : State) (w : MasterWrite) : Worked s (s.masterWrite w) := by
  simp only [State.masterWrite]
  split
  · exact ⟨rfl, id, Mem.wf_writeWord _ _, id⟩
  · exact .refl s

theorem Worked.masterWrites (l : List MasterWrite) (s : State) : Worked s (l.foldl State.masterWrite s) := by
  induction l generalizing s with
  | nil => exact .refl s
  | cons w l ih => exact (Worked.masterWrite s w).trans (ih _)

theorem Worked.setMainWord (s : State) (high : Bool) (code : BusCode) (a v : Word) :
    Worked s (s.setMainWord high code a v) := by
  simp only [State.setMainWord]
  split
  · exact ⟨rfl, id, Mem.wf_writeWord _ _, id⟩
  · exact ⟨rfl, id, id, id⟩
  · exact .refl s

theorem Worked.setMsWord (s : State) (a v : Word) : Worked s (s.setMsWord a v) := by
  simp only [State.setMsWord]
  split
  · exact ⟨rfl, id, id, Mem.wf_writeWord _ _⟩
  · exact .refl s

theorem Worked.clearFlagAt (s : State) (ioa : Word) : Worked s (s.clearFlagAt ioa) := by
  unfold State.clearFlagAt
  split_ifs <;> exact ⟨rfl, id, id, id⟩

theorem Worked.setFlagsAt (s : State) (table : List FlagSetEntry) (ioa : Word) : Worked s (s.setFlagsAt table ioa) := by
  unfold State.setFlagsAt
  induction table generalizing s with
  | nil => exact .refl s
  | cons e table ih =>
    refine Worked.trans ?_ (ih _)
    dsimp only
    split
    · exact ⟨rfl, id, id, id⟩
    · exact .refl s

theorem Worked.withSt {s : State} {st : Word} (h : modesOf st = modesOf s.st) : Worked s (s.withSt st) :=
  ⟨by simp [State.controls, State.withSt, h], id, id, id⟩

theorem Worked.withPc (s : State) (v : Word) : Worked s (s.withPc v.even) :=
  ⟨rfl, fun _ => Word.even_getLsbD_zero v, id, id⟩

end Sys2Proof.Machine
end

section
/-! SUPPORT. What each shared operation keeps, on every bus: accesses and result flags disturb no steady predicate,
contexts taken and left no firm one. -/

namespace Sys2Proof.Machine

section Steady
variable {P : State → Prop} (hP : Steady P)
include hP

theorem Steady.update_keeps {f : State → State} (h : ∀ s, Worked s (f s)) : Keeps P (update f) :=
  .update fun s => hP s _ (h s)

/-! ### Bus cycles and memory -/

theorem Steady.busCycle_keeps : Keeps P busCycle := by
  refine ⟨fun s hs => ?_⟩
  unfold busCycle
  split
  · exact hs
  · rename_i e rest hb
    have hw : P (e.writes.foldl State.masterWrite (s.withBus rest)) :=
      hP _ _ (Worked.masterWrites _ _) (hP s _ ⟨rfl, id, id, id⟩ hs)
    dsimp only
    split
    · exact hw
    · split
      · exact hw
      · trivial

theorem Steady.drawWord_keeps : Keeps P drawWord :=
  .read fun _ => .bind (hP.update_keeps fun _ => ⟨rfl, id, id, id⟩) fun _ => .pure _

theorem Steady.drawBit_keeps : Keeps P drawBit :=
  .read fun _ => .bind (hP.update_keeps fun _ => ⟨rfl, id, id, id⟩) fun _ => .pure _

theorem Steady.deviceAnswer_keeps : Keeps P deviceAnswer :=
  .read fun l => by
    cases l with
    | nil => exact hP.drawWord_keeps
    | cons w rest => exact .bind (hP.update_keeps fun _ => ⟨rfl, id, id, id⟩) fun _ => .pure _

theorem Steady.mainAnswer_keeps (high : Bool) (code : BusCode) (a : Word) : Keeps P (mainAnswer high code a) := by
  refine ⟨fun s hs => ?_⟩
  unfold mainAnswer
  split
  · exact hs
  · exact hs
  · exact hP.deviceAnswer_keeps.ends s hs
  · exact hP.drawWord_keeps.ends s hs

theorem Steady.mainReadAs_keeps (high : Bool) (code : BusCode) (a : Word) : Keeps P (mainReadAs high code a) :=
  .bind hP.busCycle_keeps fun _ => hP.mainAnswer_keeps _ _ _

theorem Steady.mainRead_keeps (code : BusCode) (a : Word) : Keeps P (mainRead code a) :=
  .read fun _ => hP.mainReadAs_keeps _ _ _

theorem Steady.mainWrite_keeps (code : BusCode) (a v : Word) : Keeps P (mainWrite code a v) :=
  .bind hP.busCycle_keeps fun _ => hP.update_keeps fun s => Worked.setMainWord s _ _ _ _

theorem Steady.msRead_keeps (a : Word) : Keeps P (msRead a) :=
  .bind hP.busCycle_keeps fun _ => ⟨fun s hs => by
    split
    · trivial
    · trivial
    · exact hs⟩

theorem Steady.msWrite_keeps (a v : Word) : Keeps P (msWrite a v) :=
  .bind hP.busCycle_keeps fun _ => ⟨fun s hs => by
    split
    · trivial
    · trivial
    · trivial
    · exact hP s _ (Worked.setMsWord s a v) hs⟩

theorem Steady.readLoc_keeps (l : Loc) : Keeps P (readLoc l) := by
  unfold readLoc
  split
  · exact hP.mainRead_keeps _ _
  · exact hP.msRead_keeps _

theorem Steady.writeLoc_keeps (l : Loc) (v : Word) : Keeps P (writeLoc l v) := by
  unfold writeLoc
  split
  · exact hP.mainWrite_keeps _ _ _
  · exact hP.msWrite_keeps _ _

theorem Steady.readLong_keeps (l : Loc) : Keeps P (readLong l) :=
  .bind (hP.readLoc_keeps _) fun _ => .bind (hP.readLoc_keeps _) fun _ => .pure _

/-! ### Registers, the instruction stream and operands -/

theorem Steady.setPc_keeps (v : Word) : Keeps P (setPc v) := hP.update_keeps fun s => Worked.withPc s v

theorem Steady.updateSt_keeps {f : Word → Word} (hf : ∀ st, modesOf (f st) = modesOf st) : Keeps P (updateSt f) :=
  hP.update_keeps fun s => Worked.withSt (hf s.st)

theorem Steady.stCycle_keeps {f : Word → Word} (hf : ∀ st, modesOf (f st) = modesOf st) : Keeps P (stCycle f) :=
  .bind hP.busCycle_keeps fun _ => hP.updateSt_keeps hf

theorem Steady.settle_keeps {f : Word → Word} (hf : ∀ st, modesOf (f st) = modesOf st) : Keeps P (settle f) :=
  .bind hP.busCycle_keeps fun _ => hP.updateSt_keeps hf

theorem Steady.readReg_keeps (r : Nibble) : Keeps P (readReg r) :=
  .read fun _ => hP.readLoc_keeps _

theorem Steady.writeReg_keeps (r : Nibble) (v : Word) : Keeps P (writeReg r v) :=
  .read fun _ => hP.writeLoc_keeps _ _

theorem Steady.fetchWord_keeps (code : BusCode) : Keeps P (fetchWord code) :=
  .read fun _ => .read fun _ => .bind (hP.readLoc_keeps _) fun _ =>
    .bind (hP.setPc_keeps _) fun _ => .pure _

theorem Steady.immediate_keeps : Keeps P immediate := hP.fetchWord_keeps _

theorem Steady.discardPrefetch_keeps : Keeps P discardPrefetch := hP.update_keeps fun _ => ⟨rfl, id, id, id⟩

theorem Steady.fetchOpcode_keeps : Keeps P fetchOpcode :=
  .read fun p => by
    cases p with
    | none => exact hP.fetchWord_keeps _
    | some w =>
      exact .bind (hP.update_keeps fun _ => ⟨rfl, id, id, id⟩) fun _ => .read fun _ =>
        .bind (hP.setPc_keeps _) fun _ => .pure _

theorem Steady.prefetchAt_keeps (a : Word) : Keeps P (prefetchAt a) :=
  .read fun _ => .bind (hP.readLoc_keeps _) fun _ => hP.update_keeps fun _ => ⟨rfl, id, id, id⟩

theorem Steady.prefetchNext_keeps : Keeps P prefetchNext := .read fun _ => hP.prefetchAt_keeps _

theorem Steady.continueAt_keeps (a : Word) : Keeps P (continueAt a) :=
  .bind (hP.prefetchAt_keeps _) fun _ => hP.setPc_keeps _

theorem Steady.operandLoc_keeps (op : Operand) (n : Word) (role : BusCode) : Keeps P (operandLoc op n role) := by
  cases op with
  | reg r => exact .gets _
  | ind r => exact .bind (hP.readReg_keeps _) fun _ => .gets _
  | sym => exact .bind (hP.fetchWord_keeps _) fun _ => .gets _
  | idx r => exact .bind (hP.readReg_keeps _) fun _ => .bind (hP.fetchWord_keeps _) fun _ => .gets _
  | inc r => exact .bind (hP.readReg_keeps _) fun _ => .bind (hP.writeReg_keeps _ _) fun _ => .gets _

theorem Steady.srcLoc_keeps (op : Operand) (n : Word) : Keeps P (srcLoc op n) := hP.operandLoc_keeps _ _ _
theorem Steady.dstLoc_keeps (op : Operand) (n : Word) : Keeps P (dstLoc op n) := hP.operandLoc_keeps _ _ _

/-! ### Free values and I/O -/

theorem Steady.drawLae_keeps : Keeps P drawLae :=
  .bind hP.drawBit_keeps fun _ => .bind hP.drawBit_keeps fun _ => .bind hP.drawBit_keeps fun _ =>
    hP.updateSt_keeps fun st => by simp [modesOf_stSet]

theorem Steady.ioAnswer_keeps : Keeps P ioAnswer :=
  .bind hP.busCycle_keeps fun _ => .read fun l => by
    cases l with
    | nil => exact hP.drawWord_keeps
    | cons w rest => exact .bind (hP.update_keeps fun _ => ⟨rfl, id, id, id⟩) fun _ => .pure _

theorem Steady.ioIn1_keeps (ioa : Word) : Keeps P (ioIn1 ioa) :=
  .read fun f => by
    cases f with
    | none => exact .bind hP.ioAnswer_keeps fun _ => .pure _
    | some b => exact .bind hP.busCycle_keeps fun _ => .pure _

theorem Steady.ioInByte_keeps (ioa : Word) : Keeps P (ioInByte ioa) := .bind hP.ioAnswer_keeps fun _ => .pure _

theorem Steady.ioWrite_keeps (e : IoWrite) : Keeps P (ioWrite e) := hP.update_keeps fun _ => ⟨rfl, id, id, id⟩

theorem Steady.flagOutput_keeps (ioa : Word) (b : Bool) : Keeps P (flagOutput ioa b) := by
  refine ⟨fun s hs => ?_⟩
  unfold flagOutput
  split
  · split
    · split
      · trivial
      · exact hs
    · exact hP s _ (Worked.setFlagsAt s _ ioa) hs
  · exact hP s _ (Worked.clearFlagAt s ioa) hs

theorem Steady.ioOut1_keeps (ioa : Word) (b : Bool) : Keeps P (ioOut1 ioa b) :=
  .read fun _ => .ite (fun _ => .pure _) fun _ => .ite
    (fun _ => .bind hP.busCycle_keeps fun _ => .bind hP.drawWord_keeps fun _ => hP.ioWrite_keeps _)
    fun _ => .bind hP.busCycle_keeps fun _ => .bind (hP.flagOutput_keeps _ _) fun _ => hP.ioWrite_keeps _

theorem Steady.ioOutByte_keeps (ioa : Word) (v : Byte) : Keeps P (ioOutByte ioa v) :=
  .read fun _ => .ite (fun _ => .pure _) fun _ => .bind hP.busCycle_keeps fun _ => hP.ioWrite_keeps _

theorem Steady.ioOutWord_keeps (ioa v : Word) : Keeps P (ioOutWord ioa v) :=
  .read fun _ => .ite (fun _ => .pure _) fun _ => .bind hP.busCycle_keeps fun _ => hP.ioWrite_keeps _

theorem Steady.evalAf_keeps : Keeps P evalAf :=
  hP.update_keeps fun s => by
    split
    · exact ⟨rfl, id, id, id⟩
    · exact .refl s

/-! ### Saved contexts -/

theorem Steady.readRegHigh_keeps (r : Nibble) : Keeps P (readRegHigh r) :=
  .read fun l => by
    split
    · exact hP.mainReadAs_keeps _ _ _
    · exact hP.msRead_keeps _

theorem Steady.readSavedContext_keeps : Keeps P readSavedContext :=
  .bind (hP.readRegHigh_keeps _) fun _ => .bind (hP.readRegHigh_keeps _) fun _ => .bind (hP.readRegHigh_keeps _) fun _ =>
    .pure _

end Steady

theorem Lenient.setPrivop_keeps {P : State → Prop} (h : Lenient P) : Keeps P setPrivop := .update h

/-! ### Single changes that are moves -/

theorem Moved.withSt (s : State) (v : Word) : Moved s (s.withSt v) :=
  ⟨rfl, rfl, rfl, rfl, rfl, id, id, id, id, id, id, id⟩
theorem Moved.withWp (s : State) (v : Word) : Moved s (s.withWp v.even) :=
  ⟨rfl, rfl, rfl, rfl, rfl, id, id, id, id, fun _ => Word.even_getLsbD_zero v, id, id⟩
theorem Moved.withInMs (s : State) : Moved s (s.withInMs false) :=
  ⟨rfl, rfl, rfl, rfl, rfl, nofun, id, id, id, id, id, id⟩
theorem Moved.withIdle (s : State) : Moved s (s.withIdle false) :=
  ⟨rfl, rfl, rfl, rfl, rfl, id, nofun, id, id, id, id, id⟩
theorem Moved.withInhibit (s : State) (i : Inhibit) : Moved s (s.withInhibit i) :=
  ⟨rfl, rfl, rfl, rfl, rfl, id, id, id, id, id, id, id⟩
theorem Moved.withLdf {f : BitVec 3} (h : ldfOk f) (s : State) : Moved s (s.withLdf f) :=
  ⟨rfl, rfl, rfl, rfl, rfl, id, id, fun _ => h, id, id, id, id⟩
theorem Moved.trans {s t u : State} (h : Moved s t) (k : Moved t u) : Moved s u :=
  ⟨k.mode.trans h.mode, k.hold.trans h.hold, k.target.trans h.target, k.due.trans h.due,
    k.ioInhibit.trans h.ioInhibit, h.space ∘ k.space, h.idle ∘ k.idle, k.ldf ∘ h.ldf, k.pc ∘ h.pc, k.wp ∘ h.wp,
    k.mem ∘ h.mem, k.ms ∘ h.ms⟩

/-- Flags of 111 are flags a machine may hold. -/
theorem ldfOk_none : ldfOk 0b111#3 := by unfold ldfOk; decide

section Firm
variable {P : State → Prop} (hP : Firm P)
include hP

theorem Firm.update_keeps {f : State → State} (h : ∀ s, Moved s (f s)) : Keeps P (update f) :=
  .update fun s => hP s _ (h s)

theorem Firm.updateSt_keeps (f : Word → Word) : Keeps P (updateSt f) := hP.update_keeps fun s => Moved.withSt s _

theorem Firm.stCycle_keeps (f : Word → Word) : Keeps P (stCycle f) :=
  .bind hP.steady.busCycle_keeps fun _ => hP.updateSt_keeps f

theorem Firm.setWp_keeps (v : Word) : Keeps P (setWp v) := hP.update_keeps fun s => Moved.withWp s v

theorem Firm.wpCycle_keeps (v : Word) : Keeps P (wpCycle v) :=
  .bind hP.steady.busCycle_keeps fun _ => hP.setWp_keeps v

/-- The old context saved in the workspace the processor has gone to. -/
theorem Firm.contextSwitchSaving_keeps (pc vec : Word) (mask : BitVec 4) :
    Keeps P (contextSwitchSaving pc vec mask) :=
  have hS := hP.steady
  .read fun _ => .read fun _ => .bind hS.discardPrefetch_keeps fun _ =>
    .bind (hP.stCycle_keeps _) fun _ => .bind (hS.mainRead_keeps _ _) fun _ => .bind (hS.mainRead_keeps _ _) fun _ =>
    .bind (hP.wpCycle_keeps _) fun _ => .bind (hS.writeReg_keeps _ _) fun _ => .bind (hS.writeReg_keeps _ _) fun _ =>
    .bind (hS.writeReg_keeps _ _) fun _ => .bind (hP.updateSt_keeps _) fun _ =>
    .bind (hP.update_keeps fun s => (Moved.withInhibit s _).trans (Moved.withIdle _)) fun _ => hS.continueAt_keeps _

theorem Firm.contextSwitch_keeps (vec : Word) (mask : BitVec 4) : Keeps P (contextSwitch vec mask) :=
  .read fun _ => hP.contextSwitchSaving_keeps _ _ _

theorem Firm.illopTrap_keeps (pc : Word) : Keeps P (illopTrap pc) :=
  .bind (hP.steady.update_keeps fun _ => ⟨rfl, id, id, id⟩) fun _ => hP.contextSwitchSaving_keeps _ _ _

theorem Firm.returnContext_keeps : Keeps P returnContext :=
  .bind hP.steady.readSavedContext_keeps fun _ => .bind (hP.stCycle_keeps _) fun _ =>
    .bind (hP.steady.continueAt_keeps _) fun _ => hP.wpCycle_keeps _

theorem Firm.macrostoreExit_keeps : Keeps P macrostoreExit :=
  .bind hP.steady.readSavedContext_keeps fun _ => .bind hP.steady.busCycle_keeps fun _ =>
    .bind (hP.update_keeps Moved.withInMs) fun _ => .bind (hP.updateSt_keeps _) fun _ =>
    .bind (hP.setWp_keeps _) fun _ => .bind (hP.steady.continueAt_keeps _) fun _ => hP.steady.evalAf_keeps

/-- The long-distance flags and the inhibit as an exit from Macrostore leaves them. -/
theorem Firm.clearAfterExit_keeps (i : Inhibit) :
    Keeps P (update fun s => (s.withLdf 0b111#3).withInhibit i) :=
  hP.update_keeps fun s => (Moved.withLdf ldfOk_none s).trans (Moved.withInhibit _ i)

theorem Firm.macrostoreExitIllop_keeps : Keeps P macrostoreExitIllop :=
  .bind (hP.steady.update_keeps fun _ => ⟨rfl, id, id, id⟩) fun _ => .bind hP.macrostoreExit_keeps fun _ =>
    .bind (hP.clearAfterExit_keeps _) fun _ => .read fun _ => hP.illopTrap_keeps _

end Firm

end Sys2Proof.Machine
end

section
/-! SUPPORT. The ordinary instructions, which change no control register: each keeps every steady predicate that a
violation of privilege does not disturb. -/

namespace Sys2Proof

/-- The instruction changes at most PC, the result bits of ST, the error flags, the memories, the opcode read ahead and
the EVAD latches, in every state: all but those that load ST or WP, take or leave a context, idle, stand before another
instruction, or may raise a MID trap. -/
def Instr.ordinary : Instr → Bool
  | .xop _ _ | .blwp _ | .x _ | .lwpi | .limi | .lst _ | .lwp _ | .idle | .rset | .rtwp => false
  | .tmb p _ | .tcmb p _ | .tsmb p _ => p.notInc
  | .evad _ | .rtwpExit | .rtwpStay | .rtwpIllop | .rtwpQuiet => false
  | .lds | .ldd | .ar _ | .cir _ | .sr _ | .mr _ | .dr _ | .lr _ | .str _ | .cri | .negr | .cre | .cer | .cr _ _
  | .mm _ _ => false
  | _ => true

end Sys2Proof

namespace Sys2Proof.Machine

section
variable {P : State → Prop} (hP : Steady P)
include hP

/-! ### Frames -/

theorem Steady.jumpIf_keeps (cond : Word → Bool) (d : Byte) : Keeps P (jumpIf cond d) :=
  .read fun _ => .read fun _ => .ite (fun _ => hP.continueAt_keeps _) fun _ => hP.prefetchNext_keeps

theorem Steady.shiftCount_keeps (sc : Nibble) : Keeps P (shiftCount sc) :=
  .ite (fun _ => .bind (hP.readReg_keeps _) fun _ => .pure _) fun _ => .pure _

theorem Steady.shiftReg_keeps (step : Shift 16 → Shift 16) {fl : Shift 16 → Word → Word}
    (hf : ∀ r st, modesOf (fl r st) = modesOf st) (w : Reg) (sc : Nibble) : Keeps P (shiftReg step fl w sc) :=
  .bind (hP.readReg_keeps _) fun _ => .bind (hP.shiftCount_keeps _) fun _ => .bind hP.prefetchNext_keeps fun _ =>
    .bind (hP.writeReg_keeps _ _) fun _ => hP.updateSt_keeps (hf _)

theorem Steady.testBit_keeps (w : Word) (store : Option (Word → Word → Word)) {src : Operand}
    (h : src.notInc = true) (bd : Nibble) : Keeps P (testBit w store src bd) :=
  .ite
    (fun _ => .bind (hP.srcLoc_keeps _ _) fun _ => .bind (hP.readLoc_keeps _) fun _ =>
      have hend : ∀ x : Word, Keeps P (do prefetchNext; settle fun st => stSet st 2 (x.getMsbD bd.toNat)) := fun x =>
        .bind hP.prefetchNext_keeps fun _ => hP.settle_keeps fun st => modesOf_stSet st (by decide) _
      match store with
      | some _ => .bind (hP.writeLoc_keeps _ _) fun _ => hend _
      | none => hend _)
    fun hn => absurd h hn

theorem Steady.dualLong_keeps (op : BitVec 32 → BitVec 32 → Arith 32) (src dst : Operand) :
    Keeps P (dualLong op src dst) :=
  .bind (hP.srcLoc_keeps _ _) fun _ => .bind (hP.readLoc_keeps _) fun _ => .bind (hP.dstLoc_keeps _ _) fun _ =>
    .bind (hP.readLoc_keeps _) fun _ => .bind (hP.readLoc_keeps _) fun _ => .bind (hP.writeLoc_keeps _ _) fun _ =>
    .bind (hP.readLoc_keeps _) fun _ => .bind hP.prefetchNext_keeps fun _ => .bind (hP.writeLoc_keeps _ _) fun _ =>
    hP.updateSt_keeps (modesOf_setArith _)

theorem Steady.longShiftCount_keeps (sc : Nibble) : Keeps P (longShiftCount sc) :=
  .ite (fun _ => .bind (hP.readReg_keeps _) fun _ => .pure _) fun _ => .pure _

theorem Steady.shiftLong_keeps (step : Shift 32 → Shift 32) {fl : Shift 32 → Word → Word}
    (hf : ∀ r st, modesOf (fl r st) = modesOf st) (src : Operand) (sc : Nibble) :
    Keeps P (shiftLong step fl src sc) :=
  .bind (hP.srcLoc_keeps _ _) fun _ => .bind (hP.readLoc_keeps _) fun _ => .bind (hP.longShiftCount_keeps _) fun _ =>
    .bind (hP.readLoc_keeps _) fun _ => .bind (hP.writeLoc_keeps _ _) fun _ => .bind hP.prefetchNext_keeps fun _ =>
    .bind (hP.writeLoc_keeps _ _) fun _ => hP.updateSt_keeps (hf _)

theorem Steady.dualWord_keeps (res : Word → Word → Word) {fl : Word → Word → Word → Word}
    (hf : ∀ x y st, modesOf (fl x y st) = modesOf st) (src dst : Operand) : Keeps P (dualWord res fl src dst) :=
  .bind (hP.srcLoc_keeps _ _) fun _ => .bind (hP.readLoc_keeps _) fun _ => .bind (hP.dstLoc_keeps _ _) fun _ =>
    .bind (hP.readLoc_keeps _) fun _ => .bind hP.prefetchNext_keeps fun _ => .bind (hP.writeLoc_keeps _ _) fun _ =>
    hP.updateSt_keeps (hf _ _)

theorem Steady.dualByte_keeps (res : Byte → Byte → Byte) {fl : Byte → Byte → Word → Word}
    (hf : ∀ x y st, modesOf (fl x y st) = modesOf st) (src dst : Operand) : Keeps P (dualByte res fl src dst) :=
  .bind (hP.srcLoc_keeps _ _) fun _ => .bind (hP.readLoc_keeps _) fun _ => .bind (hP.dstLoc_keeps _ _) fun _ =>
    .bind (hP.readLoc_keeps _) fun _ => .bind hP.prefetchNext_keeps fun _ => .bind (hP.writeLoc_keeps _ _) fun _ =>
    hP.updateSt_keeps (hf _ _)

theorem Steady.immediateReg_keeps (res : Word → Word → Word) {fl : Word → Word → Word → Word}
    (hf : ∀ x y st, modesOf (fl x y st) = modesOf st) (w : Reg) : Keeps P (immediateReg res fl w) :=
  .bind (hP.readReg_keeps _) fun _ => .bind hP.immediate_keeps fun _ => .bind hP.prefetchNext_keeps fun _ =>
    .bind (hP.writeReg_keeps _ _) fun _ => hP.updateSt_keeps (hf _ _)

theorem Steady.modifyWord_keeps (res : Word → Word) {fl : Word → Word → Word}
    (hf : ∀ x st, modesOf (fl x st) = modesOf st) (src : Operand) : Keeps P (modifyWord res fl src) :=
  .bind (hP.srcLoc_keeps _ _) fun _ => .bind (hP.readLoc_keeps _) fun _ => .bind hP.prefetchNext_keeps fun _ =>
    .bind (hP.writeLoc_keeps _ _) fun _ => hP.updateSt_keeps (hf _)

theorem Steady.storeWord_keeps (v : Word) (src : Operand) : Keeps P (storeWord v src) :=
  .bind (hP.srcLoc_keeps _ _) fun _ => .bind hP.prefetchNext_keeps fun _ => hP.writeLoc_keeps _ _

theorem Steady.macrostoreJump_keeps (cond : State → Bool) (d : Byte) : Keeps P (macrostoreJump cond d) :=
  .read fun _ => .ite
    (fun _ => .read fun _ => .read fun _ => .ite (fun _ => hP.continueAt_keeps _) fun _ => hP.prefetchNext_keeps)
    fun _ => .refuse _

/-- A comparison of two words or registers that sets flags in the cycle after the prefetch. -/
theorem Steady.prefetchSettle_keeps {f : Word → Word} (hf : ∀ st, modesOf (f st) = modesOf st) :
    Keeps P (do prefetchNext; settle f) := .bind hP.prefetchNext_keeps fun _ => hP.settle_keeps hf

theorem Steady.prefetchWriteReg_keeps (r : Nibble) (v : Word) : Keeps P (do prefetchNext; writeReg r v) :=
  .bind hP.prefetchNext_keeps fun _ => hP.writeReg_keeps _ _

omit hP in
theorem inMainOnly_keeps {m : M Unit} (h : Keeps P m) : Keeps P (inMainOnly m) :=
  .read fun _ => .ite (fun _ => .refuse _) fun _ => h

/-! ### I/O -/

theorem Steady.inBits_keeps (base : Word) (i n : Nat) : Keeps P (inBits base i n) := by
  induction n generalizing i with
  | zero => exact .pure _
  | succ n ih => exact .bind (hP.ioIn1_keeps _) fun _ => .bind (ih _) fun _ => .pure _

theorem Steady.bumpBase_keeps (base : Word) (cnt : Nibble) : Keeps P (bumpBase base cnt) :=
  .bind hP.prefetchNext_keeps fun _ => .read fun k => by
    cases k with
    | none => exact hP.busCycle_keeps
    | some k => exact hP.writeReg_keeps _ _

theorem Steady.bitAddr_keeps (d : Byte) : Keeps P (bitAddr d) := .bind (hP.readReg_keeps _) fun _ => .pure _

variable (hv : Lenient P)
include hv

omit hP in
theorem Lenient.guardOutput_keeps (ioa : Word) : Keeps P (guardOutput ioa) :=
  .read fun _ => .ite (fun _ => hv.setPrivop_keeps) fun _ => .pure _

omit hP in
theorem Lenient.stcrViolation_keeps (used : List Word) : Keeps P (stcrViolation used) :=
  .read fun _ => .ite (fun _ => hv.setPrivop_keeps) fun _ => .pure _

omit hP in
theorem Lenient.tbViolation_keeps (ioa : Word) : Keeps P (tbViolation ioa) :=
  .read fun _ => .ite (fun _ => hv.setPrivop_keeps) fun _ => .pure _

theorem Steady.outBits_keeps (v base : Word) (i n : Nat) : Keeps P (outBits v base i n) := by
  induction n generalizing i with
  | zero => exact .pure _
  | succ n ih =>
    exact .bind (hv.guardOutput_keeps _) fun _ => .bind (hP.ioOut1_keeps _ _) fun _ => ih _

theorem Steady.outputBit_keeps (d : Byte) (b : Bool) : Keeps P (outputBit d b) :=
  .bind (hP.bitAddr_keeps _) fun _ => .bind (hv.guardOutput_keeps _) fun _ => .bind (hP.ioOut1_keeps _ _) fun _ =>
    hP.prefetchNext_keeps

theorem Steady.external_keeps (ioa : Word) {effect : M Unit} (he : Keeps P effect) : Keeps P (external ioa effect) :=
  .read fun _ => .ite (fun _ => .bind hv.setPrivop_keeps fun _ => hP.prefetchNext_keeps) fun _ =>
    .bind (hP.ioOut1_keeps _ _) fun _ => .bind he fun _ => hP.prefetchNext_keeps

/-! ### Instructions with a meaning of their own -/

section
variable {s : State} (hs : P s)
include hs

omit hv

theorem Steady.execC_leaves (src dst : Operand) : Leaves P P (execC src dst s) :=
  Takes.leaves (.bind (hP.srcLoc_keeps _ _) fun _ => .bind (hP.readLoc_keeps _) fun _ =>
    .bind (hP.dstLoc_keeps _ _) fun _ => .bind (hP.readLoc_keeps _) fun _ => hP.prefetchSettle_keeps (by simp)) hs

theorem Steady.execCb_leaves (src dst : Operand) : Leaves P P (execCb src dst s) :=
  Takes.leaves (.bind (hP.srcLoc_keeps _ _) fun _ => .bind (hP.readLoc_keeps _) fun _ =>
    .bind (hP.dstLoc_keeps _ _) fun _ => .bind (hP.readLoc_keeps _) fun _ => hP.prefetchSettle_keeps (by simp)) hs

theorem Steady.execMov_leaves (src dst : Operand) : Leaves P P (execMov src dst s) :=
  Takes.leaves (.bind (hP.srcLoc_keeps _ _) fun _ => .bind (hP.readLoc_keeps _) fun _ =>
    .bind (hP.dstLoc_keeps _ _) fun _ => .bind hP.prefetchNext_keeps fun _ => .bind (hP.writeLoc_keeps _ _) fun _ =>
    hP.updateSt_keeps (by simp)) hs

theorem Steady.execCoc_leaves (src : Operand) (d : Reg) : Leaves P P (execCoc src d s) :=
  Takes.leaves (.bind (hP.srcLoc_keeps _ _) fun _ => .bind (hP.readLoc_keeps _) fun _ =>
    .bind (hP.readReg_keeps _) fun _ => hP.prefetchSettle_keeps (by simp [modesOf_stSet])) hs

theorem Steady.execCzc_leaves (src : Operand) (d : Reg) : Leaves P P (execCzc src d s) :=
  Takes.leaves (.bind (hP.srcLoc_keeps _ _) fun _ => .bind (hP.readLoc_keeps _) fun _ =>
    .bind (hP.readReg_keeps _) fun _ => hP.prefetchSettle_keeps (by simp [modesOf_stSet])) hs

theorem Steady.execXor_leaves (src : Operand) (d : Reg) : Leaves P P (execXor src d s) :=
  Takes.leaves (.bind (hP.srcLoc_keeps _ _) fun _ => .bind (hP.readLoc_keeps _) fun _ =>
    .bind (hP.readReg_keeps _) fun _ => .bind hP.prefetchNext_keeps fun _ => .bind (hP.writeReg_keeps _ _) fun _ =>
    hP.updateSt_keeps (by simp)) hs

theorem Steady.execMpy_leaves (src : Operand) (d : Reg) : Leaves P P (execMpy src d s) :=
  Takes.leaves (.bind (hP.srcLoc_keeps _ _) fun _ => .bind (hP.readLoc_keeps _) fun _ =>
    .bind (hP.readReg_keeps _) fun _ => .bind (hP.writeReg_keeps _ _) fun _ => .bind hP.prefetchNext_keeps fun _ =>
    .read fun _ => hP.writeLoc_keeps _ _) hs

theorem Steady.execDiv_leaves (src : Operand) (d : Reg) : Leaves P P (execDiv src d s) :=
  Takes.leaves (.bind (hP.srcLoc_keeps _ _) fun _ => .bind (hP.readLoc_keeps _) fun _ =>
    .bind (hP.readReg_keeps _) fun _ => .ite (fun _ => hP.prefetchSettle_keeps (by simp)) fun _ =>
    .read fun _ => .bind (hP.readLoc_keeps _) fun _ => .ite (fun _ => hP.prefetchSettle_keeps (by simp)) fun _ =>
    .bind (hP.writeReg_keeps _ _) fun _ => .bind hP.prefetchNext_keeps fun _ => .bind (hP.writeLoc_keeps _ _) fun _ =>
    hP.updateSt_keeps (by simp)) hs

theorem Steady.execMpys_leaves (src : Operand) : Leaves P P (execMpys src s) :=
  Takes.leaves (.bind (hP.srcLoc_keeps _ _) fun _ => .bind (hP.readLoc_keeps _) fun _ =>
    .bind (hP.readReg_keeps _) fun _ => .bind (hP.writeReg_keeps _ _) fun _ => .bind hP.prefetchNext_keeps fun _ =>
    .bind (hP.writeReg_keeps _ _) fun _ => hP.updateSt_keeps (by simp)) hs

theorem Steady.execDivs_leaves (src : Operand) : Leaves P P (execDivs src s) :=
  Takes.leaves (.bind (hP.srcLoc_keeps _ _) fun _ => .bind (hP.readLoc_keeps _) fun _ =>
    .bind (hP.readReg_keeps _) fun _ => .bind (hP.readReg_keeps _) fun _ => .ite
    (fun _ => .bind hP.prefetchNext_keeps fun _ => .bind (hP.settle_keeps (by simp)) fun _ => hP.drawLae_keeps)
    fun _ => .bind (hP.writeReg_keeps _ _) fun _ => .bind hP.prefetchNext_keeps fun _ =>
      .bind (hP.writeReg_keeps _ _) fun _ => hP.updateSt_keeps (by simp)) hs

theorem Steady.execAbs_leaves (src : Operand) : Leaves P P (execAbs src s) :=
  Takes.leaves (.bind (hP.srcLoc_keeps _ _) fun _ => .bind (hP.readLoc_keeps _) fun _ =>
    .bind (hP.writeLoc_keeps _ _) fun _ => hP.prefetchSettle_keeps (by simp)) hs

theorem Steady.execB_leaves (src : Operand) : Leaves P P (execB src s) :=
  Takes.leaves (.bind (hP.srcLoc_keeps _ _) fun _ => hP.continueAt_keeps _) hs

theorem Steady.execBl_leaves (src : Operand) : Leaves P P (execBl src s) :=
  Takes.leaves (.bind (hP.srcLoc_keeps _ _) fun _ => .bind (hP.readLoc_keeps _) fun _ => .read fun _ =>
    .bind (hP.continueAt_keeps _) fun _ => hP.writeReg_keeps _ _) hs

theorem Steady.execBind_leaves (src : Operand) : Leaves P P (execBind src s) :=
  Takes.leaves (.bind (hP.srcLoc_keeps _ _) fun _ => .bind (hP.readLoc_keeps _) fun _ => hP.continueAt_keeps _) hs

theorem Steady.execLi_leaves (w : Reg) : Leaves P P (execLi w s) :=
  Takes.leaves (.bind hP.immediate_keeps fun _ => .bind hP.prefetchNext_keeps fun _ =>
    .bind (hP.writeReg_keeps _ _) fun _ => hP.updateSt_keeps (by simp)) hs

theorem Steady.execCi_leaves (w : Reg) : Leaves P P (execCi w s) :=
  Takes.leaves (.bind (hP.readReg_keeps _) fun _ => .bind hP.immediate_keeps fun _ =>
    hP.prefetchSettle_keeps (by simp)) hs

theorem Steady.execBlsk_leaves (w : Reg) : Leaves P P (execBlsk w s) :=
  Takes.leaves (.bind (hP.readReg_keeps _) fun _ => .bind (hP.writeReg_keeps _ _) fun _ =>
    .bind hP.immediate_keeps fun _ => .read fun _ => .read fun _ => .bind (hP.writeLoc_keeps _ _) fun _ =>
    hP.continueAt_keeps _) hs

theorem Steady.execStst_leaves (w : Reg) : Leaves P P (execStst w s) :=
  Takes.leaves (.read fun _ => hP.prefetchWriteReg_keeps _ _) hs

theorem Steady.execStwp_leaves (w : Reg) : Leaves P P (execStwp w s) :=
  Takes.leaves (.read fun _ => hP.prefetchWriteReg_keeps _ _) hs

include hv

theorem Steady.execLdcr_leaves (src : Operand) (cnt : Nibble) : Leaves P P (execLdcr src cnt s) :=
  Takes.leaves (.bind (hP.srcLoc_keeps _ _) fun _ => .bind (hP.readLoc_keeps _) fun _ =>
    .bind (hP.readReg_keeps _) fun _ => .ite
    (fun _ => .ite
      (fun _ => .bind (hv.guardOutput_keeps _) fun _ =>
        .ite_bind (fun _ => hP.ioOutByte_keeps _ _) (fun _ => hP.ioOutWord_keeps _ _) fun _ =>
        .bind (hP.bumpBase_keeps _ _) fun _ => hP.updateSt_keeps (by simp))
      fun _ => .refuse _)
    fun _ => .bind (hP.outBits_keeps hv _ _ _ _) fun _ => hP.prefetchSettle_keeps (by simp)) hs

theorem Steady.execStcr_leaves (src : Operand) (cnt : Nibble) : Leaves P P (execStcr src cnt s) :=
  Takes.leaves (.bind (hP.srcLoc_keeps _ _) fun _ =>
    .ite_bind (fun _ => hP.readLoc_keeps _) (fun _ => .pure _) fun _ =>
    .bind (hP.readReg_keeps _) fun _ => .ite
    (fun _ => .ite
      (fun _ =>
        .ite_bind (fun _ => .bind (hP.ioInByte_keeps _) fun _ => .pure _) (fun _ => hP.ioAnswer_keeps) fun _ =>
        .bind (hP.writeLoc_keeps _ _) fun _ => .bind (hP.bumpBase_keeps _ _) fun _ =>
        .bind (hP.updateSt_keeps (by simp)) fun _ => hv.stcrViolation_keeps _)
      fun _ => .refuse _)
    fun _ => .bind (hP.inBits_keeps _ _ _) fun _ => .bind hP.prefetchNext_keeps fun _ =>
      .bind (hP.writeLoc_keeps _ _) fun _ => .bind (hP.updateSt_keeps (by simp)) fun _ =>
      hv.stcrViolation_keeps _) hs

theorem Steady.execTb_leaves (d : Byte) : Leaves P P (execTb d s) :=
  Takes.leaves (inMainOnly_keeps (.bind (hP.bitAddr_keeps _) fun _ => .bind (hP.ioIn1_keeps _) fun _ =>
    .bind hP.prefetchNext_keeps fun _ => .bind (hP.settle_keeps (by simp [modesOf_stSet])) fun _ =>
    hv.tbViolation_keeps _)) hs

end
end

/-- An ordinary instruction keeps every steady and lenient predicate. -/
theorem exec_ordinary {P : State → Prop} (hP : Steady P) (hv : Lenient P) {i : Instr} (hi : i.ordinary = true)
    {s : State} (hs : P s) : Leaves P P (exec i s) := by
  cases i with
  | szc | s | a | soc => exact Takes.leaves (hP.dualWord_keeps _ (by simp) _ _) hs
  | szcb | sb | ab | movb | socb => exact Takes.leaves (hP.dualByte_keeps _ (by simp) _ _) hs
  | c => exact hP.execC_leaves hs _ _
  | cb => exact hP.execCb_leaves hs _ _
  | mov => exact hP.execMov_leaves hs _ _
  | coc => exact hP.execCoc_leaves hs _ _
  | czc => exact hP.execCzc_leaves hs _ _
  | xor => exact hP.execXor_leaves hs _ _
  | mpy => exact hP.execMpy_leaves hs _ _
  | div => exact hP.execDiv_leaves hs _ _
  | ldcr => exact hP.execLdcr_leaves hv hs _ _
  | stcr => exact hP.execStcr_leaves hv hs _ _
  | mpys => exact hP.execMpys_leaves hs _
  | divs => exact hP.execDivs_leaves hs _
  | bind => exact hP.execBind_leaves hs _
  | b => exact hP.execB_leaves hs _
  | bl => exact hP.execBl_leaves hs _
  | clr | seto => exact Takes.leaves (hP.storeWord_keeps _ _) hs
  | neg | inv | inc | inct | dec | dect | swpb => exact Takes.leaves (hP.modifyWord_keeps _ (by simp) _) hs
  | abs => exact hP.execAbs_leaves hs _
  | jmp | jlt | jle | jeq | jhe | jgt | jne | jnc | joc | jno | jl | jh | jop =>
    exact Takes.leaves (hP.jumpIf_keeps _ _) hs
  | sbo | sbz => exact Takes.leaves (inMainOnly_keeps (hP.outputBit_keeps hv _ _)) hs
  | tb => exact hP.execTb_leaves hv hs _
  | sra | srl | sla | src => exact Takes.leaves (hP.shiftReg_keeps _ (by simp) _ _) hs
  | li => exact hP.execLi_leaves hs _
  | ai | andi | ori => exact Takes.leaves (hP.immediateReg_keeps _ (by simp) _) hs
  | ci => exact hP.execCi_leaves hs _
  | blsk => exact hP.execBlsk_leaves hs _
  | stwp => exact hP.execStwp_leaves hs _
  | stst => exact hP.execStst_leaves hs _
  | ckon | ckof | lrex => exact Takes.leaves (hP.external_keeps hv _ (hP.stCycle_keeps fun _ => rfl)) hs
  | tmb | tcmb | tsmb => exact Takes.leaves (hP.testBit_keeps _ _ hi _) hs
  | slam | sram => exact Takes.leaves (hP.shiftLong_keeps _ (by simp) _ _) hs
  | am | sm => exact Takes.leaves (hP.dualLong_keeps _ _ _) hs
  | jip | jnep => exact Takes.leaves (hP.macrostoreJump_keeps _ _) hs
  | _ => nomatch hi

end Sys2Proof.Machine
end

section
/-! SUPPORT. The main-memory instructions that are not ordinary, and with them what no instruction of main memory
changes: the privileged status bits in user mode, WP but by five, and the space executed from. -/

namespace Sys2Proof.Machine

/-- A predicate that says nothing of ST. -/
def StFree (P : State → Prop) : Prop := ∀ s v, P s → P (s.withSt v)

/-- A predicate that says of WP at most that it is even. -/
def WpFree (P : State → Prop) : Prop := ∀ s (v : Word), P s → P (s.withWp v.even)

theorem Firm.stFree {P : State → Prop} (h : Firm P) : StFree P := fun s v => h s _ (Moved.withSt s v)
theorem Firm.wpFree {P : State → Prop} (h : Firm P) : WpFree P := fun s v => h s _ (Moved.withWp s v)

section
variable {P : State → Prop} (hP : Steady P)
include hP

theorem StFree.stCycle_keeps (h : StFree P) (f : Word → Word) : Keeps P (stCycle f) :=
  .bind hP.busCycle_keeps fun _ => .update fun s => h s _

theorem WpFree.wpCycle_keeps (h : WpFree P) (v : Word) : Keeps P (wpCycle v) :=
  .bind hP.busCycle_keeps fun _ => .update fun s => h s _

theorem Steady.readTarget_keeps (l : Loc) : Keeps P (readTarget l) :=
  .read fun _ => .ite (fun _ => .read fun _ => hP.mainReadAs_keeps _ _ _) fun _ => hP.readLoc_keeps _

/-- In user mode an external instruction has no effect but the violation (spec/45_immediate_and_control.md R415). -/
theorem Steady.external_user_keeps (hv : Lenient P) (hu : ∀ s, P s → s.userMode = true) (ioa : Word)
    (effect : M Unit) : Keeps P (external ioa effect) :=
  .gets_of (· = true) hu fun _ ha => .ite (fun _ => .bind hv.setPrivop_keeps fun _ => hP.prefetchNext_keeps)
    fun hn => absurd ha hn

/-- In user mode LIMI only consumes its immediate word (spec/45_immediate_and_control.md R401). -/
theorem Steady.execLimi_user_leaves (hv : Lenient P) (hu : ∀ s, P s → s.userMode = true) {s : State} (hs : P s) :
    Leaves P P (execLimi s) :=
  Takes.leaves (.bind hP.immediate_keeps fun _ => .bind hP.busCycle_keeps fun _ =>
    .gets_of (· = true) hu fun _ ha => .ite (fun _ => .bind hv.setPrivop_keeps fun _ => hP.prefetchNext_keeps)
      fun hn => absurd ha hn) hs

variable {s : State} (hs : P s)
include hs

theorem Steady.execX_leaves {Q : State → Prop} (hPQ : ∀ t w, P t → Q (t.withXTarget (some w))) (src : Operand) :
    Leaves Q P (execX src s) :=
  Takes.leaves (.bind (hP.srcLoc_keeps _ _) fun _ => .bind (hP.readTarget_keeps _) fun _ =>
    .update fun t => hPQ t _) hs

theorem StFree.execLimi_leaves (h : StFree P) (hv : Lenient P) : Leaves P P (execLimi s) :=
  Takes.leaves (.bind hP.immediate_keeps fun _ => .bind hP.busCycle_keeps fun _ => .read fun _ =>
    .ite_bind (fun _ => hv.setPrivop_keeps) (fun _ => .update fun t => h t _) fun _ => hP.prefetchNext_keeps) hs

theorem StFree.execLst_leaves (h : StFree P) (w : Reg) : Leaves P P (execLst w s) :=
  Takes.leaves (.bind (hP.readReg_keeps _) fun _ => .read fun _ => .bind (h.stCycle_keeps hP _) fun _ =>
    hP.prefetchNext_keeps) hs

theorem StFree.execRset_leaves (h : StFree P) (hv : Lenient P) : Leaves P P (execRset s) :=
  have he : Keeps P (do
      let p ← gets State.params
      stCycle (rsetSt p)
      update fun t => ((t.withAf false).withIllop false).withPrivop false) :=
    .read fun _ => .bind (h.stCycle_keeps hP _) fun _ => hP.update_keeps fun _ => ⟨rfl, id, id, id⟩
  Takes.leaves (hP.external_keeps hv _ he) hs

theorem WpFree.execLwpi_leaves (h : WpFree P) : Leaves P P (execLwpi s) :=
  Takes.leaves (.bind hP.immediate_keeps fun _ => .bind hP.prefetchNext_keeps fun _ => h.wpCycle_keeps hP _) hs

theorem WpFree.execLwp_leaves (h : WpFree P) (w : Reg) : Leaves P P (execLwp w s) :=
  Takes.leaves (.bind (hP.readReg_keeps _) fun _ => .bind hP.prefetchNext_keeps fun _ => h.wpCycle_keeps hP _) hs

theorem WpFree.execBlwp_leaves (h : WpFree P) (hi : ∀ t i, P t → P (t.withInhibit i)) (src : Operand) :
    Leaves P P (execBlwp src s) :=
  Takes.leaves (.bind (hP.srcLoc_keeps _ _) fun _ => .bind (hP.readLoc_keeps _) fun _ =>
    .bind (hP.readLoc_keeps _) fun _ => .read fun _ => .read fun _ => .read fun _ =>
    .bind (h.wpCycle_keeps hP _) fun _ => .bind (hP.writeReg_keeps _ _) fun _ =>
    .bind (hP.writeReg_keeps _ _) fun _ => .bind (hP.writeReg_keeps _ _) fun _ =>
    .bind (.update fun t => hi t _) fun _ => hP.continueAt_keeps _) hs

/-- IDLE enters the idle state in main memory only (spec/45_immediate_and_control.md R420). -/
theorem Steady.execIdle_leaves (hv : Lenient P) {Q : State → Prop} (hQ : Steady Q) (hPQ : ∀ t, P t → Q t)
    (hi : ∀ t, P t → t.inMs = false → Q (t.withIdle true)) : Leaves Q Q (execIdle s) :=
  have hR : Steady fun t => P t ∧ t.inMs = false := hP.and (steady_inMs false)
  have hRv : Lenient fun t => P t ∧ t.inMs = false := fun t ht => ⟨hv t ht.1, ht.2⟩
  Takes.leaves (P := P) (.gets_bind fun _ => .ite (fun _ => .refuse _) fun hn =>
    .mono (P := fun t => P t ∧ t.inMs = false) (Q := Q) (C := Q)
      (.read fun _ => .ite
        (fun _ => .bind (.mono hRv.setPrivop_keeps (fun _ => id) (fun t ht => hPQ t ht.1) fun t ht => hPQ t ht.1)
          fun _ => hQ.prefetchNext_keeps)
        fun _ => .bind (.weaken_cut (hR.ioOut1_keeps _ _) fun t ht => hPQ t ht.1) fun _ =>
          .bind (.update fun t ht => hi t ht.1 ht.2) fun _ => hQ.prefetchNext_keeps)
      (fun t ht => ⟨ht.1, by simpa [ht.2] using hn⟩) (fun _ => id) fun _ => id) hs

end

section
variable {P : State → Prop} (hP : Firm P)
include hP

theorem Firm.execRtwp_leaves {s : State} (hs : P s) : Leaves P P (execRtwp s) :=
  Takes.leaves (inMainOnly_keeps hP.returnContext_keeps) hs

theorem Firm.xopTrap_keeps (src : Operand) (n : Nibble) : Keeps P (xopTrap src n) :=
  have hS := hP.steady
  .bind (hS.srcLoc_keeps _ _) fun _ => .read fun _ => .read fun _ => .read fun _ =>
    .bind (hP.stCycle_keeps _) fun _ => .bind (hS.mainRead_keeps _ _) fun _ => .bind (hP.wpCycle_keeps _) fun _ =>
    .bind (hS.writeReg_keeps _ _) fun _ => .bind (hS.mainRead_keeps _ _) fun _ =>
    .bind (hS.writeReg_keeps _ _) fun _ => .bind (hS.writeReg_keeps _ _) fun _ =>
    .bind (hS.writeReg_keeps _ _) fun _ => .bind (hP.updateSt_keeps _) fun _ =>
    .bind (hP.update_keeps fun s => Moved.withInhibit s _) fun _ => hS.continueAt_keeps _

/-- Without emulation XOP is a trap in main memory (spec/42_xop_single_operand.md R281). -/
theorem Firm.execXop_leaves {s : State} (hs : P s) (h : stBit s.st 11 = false) (src : Operand) (n : Nibble) :
    Leaves P P (execXop src n s) :=
  Takes.leaves (P := fun t => P t ∧ stBit t.st 11 = false)
    (.read fun _ => .ite (fun _ => .refuse _) fun _ =>
      .gets_of (· = false) (fun _ ht => ht.2) fun _ ha => .ite (fun hn => by simp [ha] at hn) fun _ =>
      .mono (hP.xopTrap_keeps src n) (fun _ ht => ht.1) (fun _ => id) fun _ => id) ⟨hs, h⟩

end

/-- The outcome of an instruction that keeps a predicate, as does a cut of it. -/
theorem Leaves.next {P : State → Prop} {o : Host.Outcome State Fault Refusal} {t : State} (h : Leaves P P o)
    (ht : o = .next t) (hc : ∀ u, P u → P u.cutShort) : P t := by
  rcases h t ht with hP | ⟨u, hu, rfl⟩
  · exact hP
  · exact hc u hu

/-! ### Which instructions of main memory are not ordinary -/

/-- The instructions of main memory that load WP. -/
def LoadsWp (i : Instr) : Prop :=
  (∃ p, i = .blwp p) ∨ (∃ p n, i = .xop p n) ∨ i = .lwpi ∨ (∃ w, i = .lwp w) ∨ i = .rtwp

/-- A test of memory bits with an autoincrement source, which no opcode stands for (spec/30_encoding.md R164). -/
def TestsInc (i : Instr) : Prop := ∃ p n, p.notInc = false ∧ (i = .tmb p n ∨ i = .tcmb p n ∨ i = .tsmb p n)

theorem not_testsInc_of_wf {i : Instr} (hw : i.wf = true) : ¬ TestsInc i := by
  rintro ⟨p, n, hp, rfl | rfl | rfl⟩ <;> simp [Instr.wf, hp] at hw

theorem ordinary_or_special {i : Instr} (hm : i.context = .main) :
    i.ordinary = true ∨ LoadsWp i ∨ (∃ p, i = .x p) ∨ i = .limi ∨ (∃ w, i = .lst w) ∨ i = .idle ∨ i = .rset ∨
      TestsInc i := by
  cases i with
  | tmb p n | tcmb p n | tsmb p n => cases h : p.notInc <;> simp [Instr.ordinary, TestsInc, h]
  | xop | blwp | x | lwpi | limi | lst | lwp | idle | rset | rtwp => simp [LoadsWp]
  | evad | rtwpExit | rtwpStay | rtwpIllop | rtwpQuiet => nomatch hm
  | lds | ldd | ar | cir | sr | mr | dr | lr | str | cri | negr | cre | cer | cr | mm => nomatch hm
  | _ => exact .inl rfl

/-! ### Privileged status in user mode -/

/-- ST7, ST8, ST9, ST11 and the interrupt mask (spec/10_state.md R67). -/
def privilegedOf (st : Word) : Word := st &&& 0x01DF#16

theorem privilegedOf_of_modes {a b : Word} (h : modesOf a = modesOf b) : privilegedOf a = privilegedOf b := by
  have e : ∀ x : Word, privilegedOf x = modesOf x &&& 0x01DF#16 := fun x => by
    simp [privilegedOf, modesOf, BitVec.and_assoc]
  rw [e, e, h]

theorem privilegedOf_loadedSt {st : Word} (h : stBit st 7 = true) (v : Word) :
    privilegedOf (loadedSt st v) = privilegedOf st := by
  simp [privilegedOf, loadedSt, h, BitVec.and_or_distrib_right, BitVec.and_assoc]

theorem stBit_of_privileged {a b : Word} (h : privilegedOf a = privilegedOf b) {n : Nat}
    (hn : n ∈ [7, 8, 9, 11, 12, 13, 14, 15]) : stBit a n = stBit b n := by
  have hm : ∀ n ∈ [7, 8, 9, 11, 12, 13, 14, 15], stBit 0x01DF#16 n = true := by decide
  have := congrArg (stBit · n) h
  simpa [privilegedOf, stBit_and, hm n hn] using this

/-- User mode with given privileged status bits. -/
def InUserMode (st : Word) (s : State) : Prop := s.inMs = false ∧ privilegedOf s.st = privilegedOf st

section
variable {st : Word} (hst : stBit st 7 = true)

theorem inUserMode_steady : Steady (InUserMode st) := fun _ _ h hs =>
  ⟨h.inMs.trans hs.1, (privilegedOf_of_modes h.modes).trans hs.2⟩

theorem inUserMode_lenient : Lenient (InUserMode st) := fun _ => id

theorem inUserMode_wpFree : WpFree (InUserMode st) := fun _ _ => id

include hst

theorem InUserMode.stBit_seven {s : State} (h : InUserMode st s) : stBit s.st 7 = true :=
  (stBit_of_privileged h.2 (by decide)).trans hst

theorem InUserMode.userMode {s : State} (h : InUserMode st s) : s.userMode = true := by
  simp [State.userMode, h.1, h.stBit_seven hst]

theorem inUserMode_loadedSt (v : Word) : Keeps (InUserMode st) (stCycle fun old => loadedSt old v) :=
  .bind inUserMode_steady.busCycle_keeps fun _ => .update fun _ hs =>
    ⟨hs.1, (privilegedOf_loadedSt (hs.stBit_seven hst) v).trans hs.2⟩

theorem inUserMode_execLst {s : State} (hs : InUserMode st s) (w : Reg) :
    Leaves (InUserMode st) (InUserMode st) (execLst w s) :=
  have hP := inUserMode_steady (st := st)
  Takes.leaves (.bind (hP.readReg_keeps _) fun _ => .gets_of (· = false) (fun _ ht => ht.1) fun _ ha => by
    subst ha
    exact .bind (inUserMode_loadedSt hst _) fun _ => hP.prefetchNext_keeps) hs

theorem inUserMode_execRtwp {s : State} (hs : InUserMode st s) :
    Leaves (InUserMode st) (InUserMode st) (execRtwp s) :=
  have hP := inUserMode_steady (st := st)
  Takes.leaves (inMainOnly_keeps (.bind hP.readSavedContext_keeps fun _ => .bind (inUserMode_loadedSt hst _) fun _ =>
    .bind (hP.continueAt_keeps _) fun _ => inUserMode_wpFree.wpCycle_keeps hP _)) hs

/-- In user mode an instruction of main memory but XOP keeps the privileged status bits. -/
theorem inUserMode_exec {i : Instr} (hw : i.wf = true) (hm : i.context = .main) (hx : ∀ src n, i ≠ .xop src n)
    {s : State} (hs : InUserMode st s) : Leaves (InUserMode st) (InUserMode st) (exec i s) := by
  have hP := inUserMode_steady (st := st)
  have hv := inUserMode_lenient (st := st)
  have hu : ∀ s, InUserMode st s → s.userMode = true := fun _ h => h.userMode hst
  rcases ordinary_or_special hm with ho | hl | ⟨p, rfl⟩ | rfl | ⟨w, rfl⟩ | rfl | rfl | hi
  · exact exec_ordinary hP hv ho hs
  · rcases hl with ⟨p, rfl⟩ | ⟨p, n, rfl⟩ | rfl | ⟨w, rfl⟩ | rfl
    · exact inUserMode_wpFree.execBlwp_leaves hP hs (fun _ _ => id) p
    · exact absurd rfl (hx p n)
    · exact inUserMode_wpFree.execLwpi_leaves hP hs
    · exact inUserMode_wpFree.execLwp_leaves hP hs w
    · exact inUserMode_execRtwp hst hs
  · exact hP.execX_leaves hs (fun _ _ => id) p
  · exact hP.execLimi_user_leaves hv hu hs
  · exact inUserMode_execLst hst hs w
  · exact hP.execIdle_leaves hs hv hP (fun _ => id) fun _ ht _ => ht
  · exact Takes.leaves (hP.external_user_keeps hv hu _ _) hs
  · exact absurd hi (not_testsInc_of_wf hw)

end

/-! ### The workspace and the space executed from -/

/-- Execution from main memory with a given WP. -/
def InWorkspace (wp : Word) (s : State) : Prop := s.inMs = false ∧ s.wp = wp

theorem inWorkspace_steady (wp : Word) : Steady (InWorkspace wp) := fun _ _ h hs =>
  ⟨h.inMs.trans hs.1, h.wp.trans hs.2⟩

theorem inWorkspace_lenient (wp : Word) : Lenient (InWorkspace wp) := fun _ => id

theorem inWorkspace_stFree (wp : Word) : StFree (InWorkspace wp) := fun _ _ => id

theorem inMain_firm : Firm fun s => s.inMs = false := fun _ _ h hs =>
  Bool.eq_false_iff.2 fun ht => Bool.false_ne_true (hs.symm.trans (h.space ht))

theorem inWorkspace_exec {i : Instr} (hw : i.wf = true) (hm : i.context = .main) (hl : ¬ LoadsWp i) {wp : Word}
    {s : State} (hs : InWorkspace wp s) : Leaves (InWorkspace wp) (InWorkspace wp) (exec i s) := by
  have hP := inWorkspace_steady wp
  have hv := inWorkspace_lenient wp
  rcases ordinary_or_special hm with ho | h | ⟨p, rfl⟩ | rfl | ⟨w, rfl⟩ | rfl | rfl | hi
  · exact exec_ordinary hP hv ho hs
  · exact absurd h hl
  · exact hP.execX_leaves hs (fun _ _ => id) p
  · exact (inWorkspace_stFree wp).execLimi_leaves hP hs hv
  · exact (inWorkspace_stFree wp).execLst_leaves hP hs w
  · exact hP.execIdle_leaves hs hv hP (fun _ => id) fun _ ht _ => ht
  · exact (inWorkspace_stFree wp).execRset_leaves hP hs hv
  · exact absurd hi (not_testsInc_of_wf hw)

/-- An instruction that loads WP stays in main memory, but for an XOP under emulation. -/
theorem loadsWp_stays {i : Instr} (hl : LoadsWp i) {s t : State} (hm : s.inMs = false) (ht : exec i s = .next t) :
    t.inMs = false ∨ ∃ p n, i = .xop p n ∧ stBit s.st 11 = true := by
  have hP := inMain_firm
  have hc : ∀ u : State, u.inMs = false → u.cutShort.inMs = false := fun _ => id
  rcases hl with ⟨p, rfl⟩ | ⟨p, n, rfl⟩ | rfl | ⟨w, rfl⟩ | rfl
  · exact .inl ((hP.wpFree.execBlwp_leaves hP.steady hm (fun t _ => hP t _ (Moved.withInhibit t _)) p).next ht hc)
  · cases h : stBit s.st 11 with
    | true => exact .inr ⟨p, n, rfl, rfl⟩
    | false => exact .inl ((hP.execXop_leaves hm h p n).next ht hc)
  · exact .inl ((hP.wpFree.execLwpi_leaves hP.steady hm).next ht hc)
  · exact .inl ((hP.wpFree.execLwp_leaves hP.steady hm w).next ht hc)
  · exact .inl ((hP.execRtwp_leaves hm).next ht hc)

end Sys2Proof.Machine

open Sys2Proof Sys2Proof.Machine

/-- Settles O58: the privileged bits of the state before are kept by every instruction in user mode. -/
theorem userModeKeepsPrivilegedStatus : Obligations.UserModeKeepsPrivilegedStatus := by
  intro i s t hw hm hx hi h7 ht n hn
  have h := (inUserMode_exec h7 hw hm hx ⟨hi, rfl⟩).next ht fun _ => id
  exact stBit_of_privileged h.2 hn

/-- Settles O59: an instruction that does not load WP keeps it and the space, one that does keeps the space but for an
XOP under emulation. -/
theorem fewInstructionsMoveTheWorkspace : Obligations.FewInstructionsMoveTheWorkspace := by
  intro i s t hw hm hi ht
  by_cases hl : LoadsWp i
  · exact ⟨.inr hl, loadsWp_stays hl hi ht⟩
  · have h := (inWorkspace_exec hw hm hl ⟨hi, rfl⟩).next ht fun _ => id
    exact ⟨.inl h.2, .inl h.1⟩

end

section
/-! SUPPORT. The invariant of the machine: what an instruction, a trap, the reset sequence and a step keep of it, on
every bus. -/

namespace Sys2Proof.Machine

/-! ### The parts of the invariant -/

/-- The invariant but for what an instruction in progress may leave open: a target of X and the I/O write inhibit. -/
structure State.Sound (s : State) : Prop where
  pc : s.pc.getLsbD 0 = false
  wp : s.wp.getLsbD 0 = false
  mem : Mem.wf s.mem = true
  ms : Mem.wf s.ms = true
  ldf : ldfOk s.ldf
  enabled : s.inMs = true → s.msMode ≠ .baseline
  held : s.apHold = true → s.inMs = false ∧ s.idle = false
  idles : s.idle = true → s.inMs = false

/-- The part of the state that this is about. -/
def State.soundPart (s : State) : Word × Word × Mem × Mem × BitVec 3 × Bool × MsMode × Bool × Bool :=
  (s.pc, s.wp, s.mem, s.ms, s.ldf, s.inMs, s.msMode, s.apHold, s.idle)

theorem State.Sound.congr {s t : State} (h : s.Sound) (e : t.soundPart = s.soundPart) : t.Sound := by
  simp only [State.soundPart, Prod.mk.injEq] at e
  obtain ⟨e1, e2, e3, e4, e5, e6, e7, e8, e9⟩ := e
  exact ⟨e1 ▸ h.pc, e2 ▸ h.wp, e3 ▸ h.mem, e4 ▸ h.ms, e5 ▸ h.ldf, by rw [e6, e7]; exact h.enabled,
    by rw [e6, e8, e9]; exact h.held, by rw [e6, e9]; exact h.idles⟩

theorem inv_iff (s : State) : s.Inv ↔ s.Sound ∧ s.xTarget = none ∧ s.ioInhibit = false :=
  ⟨fun ⟨h1, h2, h3, h4, h5, h6, h7, h8, h9, h10, h11⟩ => ⟨⟨h1, h2, h3, h4, ⟨h5, h6⟩, h7, h8, h9⟩, h10, h11⟩,
    fun ⟨⟨h1, h2, h3, h4, ⟨h5, h6⟩, h7, h8, h9⟩, h10, h11⟩ => ⟨h1, h2, h3, h4, h5, h6, h7, h8, h9, h10, h11⟩⟩

/-- An instruction may run: the processor neither holds nor idles, no target of X waits and no reset is due. -/
def State.Live (s : State) : Prop :=
  s.Sound ∧ s.apHold = false ∧ s.idle = false ∧ s.xTarget = none ∧ s.resetDue = false

/-- What a cut instruction leaves, and one that has not read a target of X. -/
def State.Rests (s : State) : Prop := s.Sound ∧ s.xTarget = none

/-- What an instruction that is not cut leaves: at rest, or with a target of X that may run. -/
def State.Ran (s : State) : Prop :=
  s.Sound ∧ s.resetDue = false ∧ (s.xTarget = none ∨ (s.apHold = false ∧ s.idle = false))

theorem State.Live.rests {s : State} (h : s.Live) : s.Rests := ⟨h.1, h.2.2.2.1⟩

theorem State.Live.ran {s : State} (h : s.Live) : s.Ran := ⟨h.1, h.2.2.2.2, .inl h.2.2.2.1⟩

theorem State.Inv.rests {s : State} (h : s.Inv) : s.Rests := ⟨((inv_iff s).1 h).1, ((inv_iff s).1 h).2.1⟩

/-- A state at rest is one of the machine once its I/O write inhibit has ended. -/
theorem State.Rests.inv {s : State} (h : s.Rests) : (s.withIoInhibit false).Inv :=
  (inv_iff _).2 ⟨h.1.congr rfl, h.2, rfl⟩

/-- What a cut leaves is a state of the machine. -/
theorem State.Rests.cutShort {s : State} (h : s.Rests) : s.cutShort.Inv := h.inv

theorem sound_firm : Firm State.Sound := fun _ _ h hs =>
  { pc := h.pc hs.pc
    wp := h.wp hs.wp
    mem := h.mem hs.mem
    ms := h.ms hs.ms
    ldf := h.ldf hs.ldf
    enabled := fun hi => by rw [h.mode]; exact hs.enabled (h.space hi)
    held := fun hh =>
      have hi := hs.held (h.hold ▸ hh)
      ⟨inMain_firm _ _ h hi.1, Bool.eq_false_iff.2 fun ht => by simpa [hi.2] using h.idle ht⟩
    idles := fun hi => inMain_firm _ _ h (hs.idles (h.idle hi)) }

theorem target_firm (x : Option Word) : Firm fun s => s.xTarget = x := fun _ _ h hs => h.target.trans hs
theorem due_firm (b : Bool) : Firm fun s => s.resetDue = b := fun _ _ h hs => h.due.trans hs
theorem hold_firm (b : Bool) : Firm fun s => s.apHold = b := fun _ _ h hs => h.hold.trans hs
theorem ioInhibit_firm (b : Bool) : Firm fun s => s.ioInhibit = b := fun _ _ h hs => h.ioInhibit.trans hs
theorem awake_firm : Firm fun s => s.idle = false := fun _ _ h hs =>
  Bool.eq_false_iff.2 fun ht => Bool.false_ne_true (hs.symm.trans (h.idle ht))
theorem enabled_firm : Firm fun s => s.msMode ≠ .baseline := fun _ _ h hs => by
  show _ ≠ _; rw [h.mode]; exact hs

theorem live_firm : Firm State.Live :=
  sound_firm.and ((hold_firm _).and (awake_firm.and ((target_firm _).and (due_firm _))))

theorem rests_firm : Firm State.Rests := sound_firm.and (target_firm _)

theorem inv_firm : Firm State.Inv := fun s t h hs =>
  (inv_iff t).2 (sound_firm.and ((target_firm _).and (ioInhibit_firm _)) s t h ((inv_iff s).1 hs))

theorem sound_lenient : Lenient State.Sound := fun _ h => h.congr rfl

theorem live_lenient : Lenient State.Live := sound_lenient.and fun _ => id

/-- An attached processor may take over in main memory from a processor that does not idle
(spec/60_exceptions.md R586). -/
theorem State.Sound.withApHold {s : State} (h : s.Sound) (hm : s.inMs = false) (hi : s.idle = false) :
    (s.withApHold true).Sound :=
  ⟨h.pc, h.wp, h.mem, h.ms, h.ldf, h.enabled, fun _ => ⟨hm, hi⟩, h.idles⟩

/-- The processor in Macrostore, with the EVAD latches clear (spec/60_exceptions.md R572). -/
def State.entering (s : State) : State := ((s.withInMs true).withWr7Ws false).withWr8Ws false

/-- Where it is enabled, a processor that neither holds nor idles may enter Macrostore
(spec/60_exceptions.md R575). -/
theorem State.Sound.entering {s : State} (h : s.Sound) (he : s.msMode ≠ .baseline) (hh : s.apHold = false)
    (hi : s.idle = false) : s.entering.Sound :=
  ⟨h.pc, h.wp, h.mem, h.ms, h.ldf, fun _ => he, fun ht => absurd (hh.symm.trans ht) Bool.false_ne_true,
    fun ht => absurd (hi.symm.trans ht) Bool.false_ne_true⟩

/-! ### The MID trap -/

theorem ldfOk_afterLds {f : BitVec 3} (h : ldfOk f) : ldfOk (ldfAfterLds f) := by
  unfold ldfOk at *; revert f; decide

theorem ldfOk_afterLdd {f : BitVec 3} (h : ldfOk f) : ldfOk (ldfAfterLdd f) := by
  unfold ldfOk at *; revert f; decide

theorem Moved.withLdfOf (s : State) {f : BitVec 3} (h : ldfOk s.ldf → ldfOk f) : Moved s (s.withLdf f) :=
  ⟨rfl, rfl, rfl, rfl, rfl, id, id, h, id, id, id, id⟩

theorem Firm.ldfHardware_keeps {P : State → Prop} (hP : Firm P) (w : Word) : Keeps P (ldfHardware w) :=
  hP.update_keeps fun s => by
    split
    · exact Moved.withLdfOf s ldfOk_afterLds
    · split
      · exact Moved.withLdfOf s ldfOk_afterLdd
      · exact (Worked.refl s).moved

/-- An accept by an attached processor: the old context saved, and then the hold. -/
theorem Firm.apAccept_takes {P Q : State → Prop} (hP : Firm P) (h : ∀ s, P s → Q (s.withApHold true)) (pc : Word) :
    Takes P (apAccept pc) Q P :=
  have hS := hP.steady
  .read fun _ => .read fun _ => .bind hS.discardPrefetch_keeps fun _ => .bind (hP.stCycle_keeps _) fun _ =>
    .bind (hS.mainRead_keeps _ _) fun _ => .bind (hP.wpCycle_keeps _) fun _ => .bind (hS.writeReg_keeps _ _) fun _ =>
    .bind (hS.writeReg_keeps _ _) fun _ => .bind (hS.writeReg_keeps _ _) fun _ => .update h

section
variable {P : State → Prop} (hP : Firm P) (he : ∀ s, P s → s.msMode ≠ .baseline → P s.entering)
include hP he

/-- The entry to Macrostore, where it is enabled. -/
theorem Firm.macrostoreSave_takes (w : Word) (kind : MidKind) (upc : Word) {vector : M Word}
    (hv : Keeps (fun s => P s ∧ s.msMode ≠ .baseline) vector) :
    Takes (fun s => P s ∧ s.msMode ≠ .baseline) (macrostoreSave w kind upc vector) P P :=
  have hR : Firm fun s => P s ∧ s.msMode ≠ .baseline := hP.and enabled_firm
  have hS := hR.steady
  have hsave : Keeps (fun s => P s ∧ s.msMode ≠ .baseline) (saveSecondPc upc kind) := by
    cases kind with
    | second w1 => exact hS.msWrite_keeps _ _
    | first | xop => exact .pure _
  .mono (Q := P) (C := fun s => P s ∧ s.msMode ≠ .baseline)
    (.read fun _ => .read fun _ => .read fun _ => .bind (hS.msWrite_keeps _ _) fun _ => .bind hsave fun _ =>
    .bind (hS.msWrite_keeps _ _) fun _ => .bind hv fun _ => .bind (hS.msWrite_keeps _ _) fun _ =>
    .bind (hS.msWrite_keeps _ _) fun _ => .bind (hS.msWrite_keeps _ _) fun _ => .bind hS.busCycle_keeps fun _ =>
    .bind (hR.setWp_keeps _) fun _ => .bind (.update fun s hs => he s hs.1 hs.2) fun _ =>
    .when_bind (fun _ => .update fun s => hP.stFree s _) (.bind (.update fun s =>
      hP.steady s _ ⟨rfl, id, id, id⟩) fun _ => .pure _))
    (fun _ => id) (fun _ => id) fun _ h => h.1

theorem Firm.macrostoreEntry_takes (w : Word) (kind : MidKind) (upc : Word) {vector : M Word}
    (hv : Keeps (fun s => P s ∧ s.msMode ≠ .baseline) vector) :
    Takes (fun s => P s ∧ s.msMode ≠ .baseline) (macrostoreEntry w kind upc vector) P P :=
  .bind (hP.macrostoreSave_takes he _ _ _ hv) fun _ => hP.steady.continueAt_keeps _

omit he in
theorem Firm.externalPresent_keeps : Keeps P externalPresent :=
  .read fun _ => .ite (fun _ => .pure _) fun _ => .bind (hP.steady.msRead_keeps _) fun _ => .pure _

theorem Firm.romUnimplemented_takes (w : Word) (kind : MidKind) (upc : Word) :
    Takes (fun s => P s ∧ s.msMode ≠ .baseline) (romUnimplemented w kind upc) P P := by
  unfold romUnimplemented
  exact .unless_refused fun _ => .bind (hP.macrostoreSave_takes he _ _ _ (.pure _)) fun _ =>
    .bind (hP.steady.setPc_keeps _) fun _ => .bind hP.externalPresent_keeps fun _ =>
    .ite (fun _ => hP.steady.continueAt_keeps _) fun _ => hP.macrostoreExitIllop_keeps

omit hP he in
theorem midRoute_enabled {s : State} (h : s.midRoute ≠ .baseline) : s.msMode ≠ .baseline := fun e =>
  h (by simp [State.midRoute, e])

/-- A MID trap keeps a firm predicate where the entry to Macrostore does and the hold for an attached processor leaves
what is asked (spec/60_exceptions.md R570). -/
theorem Firm.raiseMid_takes {Q : State → Prop} (hPQ : ∀ s, P s → Q s)
    (hh : ∀ s, P s → s.inMs = false → Q (s.withApHold true)) (w : Word) (kind : MidKind) :
    Takes P (raiseMid w kind) Q Q := by
  have hM : Firm fun s => P s ∧ s.inMs = false := hP.and inMain_firm
  have hq : ∀ s, P s ∧ s.inMs = false → Q s := fun s hs => hPQ s hs.1
  unfold raiseMid
  refine .gets_bind fun inMs => .unless_refused fun hi => .mono (P := fun s => P s ∧ s.inMs = false) (Q := Q) (C := Q)
    ?_ (fun s hs => ⟨hs.1, by simpa [hs.2] using hi⟩) (fun _ => id) fun _ => id
  refine .when_bind (fun _ => .weaken_cut (hM.ldfHardware_keeps w) hq) (.read fun upc => .gets_bind fun r => ?_)
  cases r with
  | baseline => exact .mono (hP.illopTrap_keeps upc) (fun s hs => hs.1.1) hPQ hPQ
  | attached => exact .mono (hM.apAccept_takes (fun s hs => hh s hs.1 hs.2) upc) (fun s hs => hs.1) (fun _ => id) hq
  | rom =>
    exact .mono (hP.romUnimplemented_takes he w kind upc)
      (fun s hs => ⟨hs.1.1, midRoute_enabled (by rw [hs.2]; decide)⟩) hPQ hPQ
  | macrostore =>
    exact .mono (hP.macrostoreEntry_takes he w kind upc ((hP.and enabled_firm).steady.msRead_keeps _))
      (fun s hs => ⟨hs.1.1, midRoute_enabled (by rw [hs.2]; decide)⟩) hPQ hPQ

end

end Sys2Proof.Machine
end

section
/-! SUPPORT. What every instruction, in main memory, inside Macrostore and of the TMS99110A's ROM, leaves of a live
state of the machine. -/

namespace Sys2Proof.Machine

/-! ### Extension instructions -/

section
variable {P : State → Prop} (hS : Steady P)
include hS

theorem Steady.scrambleWords_keeps (l : List Nat) : Keeps P (scrambleWords l) := by
  induction l with
  | nil => exact .pure _
  | cons a l ih =>
    exact .bind hS.drawWord_keeps fun _ =>
      .bind (hS.update_keeps fun _ => ⟨rfl, id, id, Mem.wf_writeWord _ _⟩) fun _ => ih

theorem Steady.scrambleMram_keeps : Keeps P scrambleMram := by
  unfold scrambleMram
  exact hS.scrambleWords_keeps _

theorem Steady.readFpac_keeps : Keeps P readFpac :=
  .bind (hS.readReg_keeps _) fun _ => .bind (hS.readReg_keeps _) fun _ => .pure _

theorem Steady.writeFpac_keeps (v : BitVec 32) : Keeps P (writeFpac v) :=
  .bind (hS.writeReg_keeps _ _) fun _ => hS.writeReg_keeps _ _

theorem Steady.drawFpac_keeps : Keeps P drawFpac :=
  .bind hS.drawWord_keeps fun _ => .bind hS.drawWord_keeps fun _ => hS.writeFpac_keeps _

theorem Steady.setFault_keeps (c v : Bool) : Keeps P (setFault c v) := hS.updateSt_keeps (by simp)

theorem Steady.drawStatus_keeps : Keeps P drawStatus :=
  .bind hS.drawLae_keeps fun _ => .bind hS.drawBit_keeps fun _ => .bind hS.drawBit_keeps fun _ => hS.setFault_keeps _ _

/-- An accumulator and result bits that are free, but for ST3 and ST4. -/
theorem Steady.drawFault_keeps (c v : Bool) : Keeps P (do drawFpac; drawLae; setFault c v) :=
  .bind hS.drawFpac_keeps fun _ => .bind hS.drawLae_keeps fun _ => hS.setFault_keeps _ _

theorem Steady.deliver_keeps (r : FpResult) : Keeps P (deliver r) := by
  cases r with
  | value x =>
    exact .bind (hS.writeFpac_keeps _) fun _ => .bind (hS.updateSt_keeps (by simp)) fun _ => hS.setFault_keeps _ _
  | overflow | underflow => exact hS.drawFault_keeps _ _

theorem Steady.deliverAny_keeps : Keeps P deliverAny := .bind hS.drawFpac_keeps fun _ => hS.drawStatus_keeps

end

section
variable {P : State → Prop} (hP : Firm P)
include hP

/-- The exit of a ROM routine. -/
theorem Firm.romExit_keeps : Keeps P romExit := by
  unfold romExit
  exact .bind hP.steady.scrambleMram_keeps fun _ => .bind hP.steady.prefetchNext_keeps fun _ =>
    .bind hP.steady.evalAf_keeps fun _ => hP.clearAfterExit_keeps _

theorem Firm.longDistance_keeps (hv : Lenient P) (hl : ∀ s, P s → ldfOk s.ldf) {after : BitVec 3 → BitVec 3}
    (ha : ∀ f, ldfOk f → ldfOk (after f)) : Keeps P (longDistance after) := by
  have hS := hP.steady
  unfold longDistance
  exact .read fun _ => .ite (fun _ => .bind hv.setPrivop_keeps fun _ => hP.romExit_keeps) fun _ =>
    .bind hS.scrambleMram_keeps fun _ => .gets_of ldfOk hl fun f hf => .read fun _ =>
    .when_bind (fun _ => hS.update_keeps fun _ => ⟨rfl, id, id, Mem.wf_writeWord _ _⟩)
    (.bind hS.prefetchNext_keeps fun _ =>
      hP.update_keeps fun s => (Moved.withLdf (ha f hf) s).trans (Moved.withInhibit _ _))

theorem Firm.realOp_keeps (op : BitVec 32 → BitVec 32 → FpResult) (divides : Bool) (src : Operand) :
    Keeps P (realOp op divides src) := by
  have hS := hP.steady
  unfold realOp
  exact .bind (hS.srcLoc_keeps _ _) fun _ => .bind (hS.readLong_keeps _) fun _ => .bind hS.readFpac_keeps fun _ =>
    .ite_bind (fun _ => hS.deliver_keeps _) (fun _ => hS.deliverAny_keeps) fun _ => hP.romExit_keeps

theorem Firm.convertToInt_keeps : Keeps P convertToInt := by
  have hS := hP.steady
  unfold convertToInt
  exact .bind hS.readFpac_keeps fun _ => .bind hS.drawWord_keeps fun _ => .ite
    (fun _ => .ite
      (fun _ => .bind (hS.writeReg_keeps _ _) fun _ => .bind (hS.writeReg_keeps _ _) fun _ =>
        .bind (hS.updateSt_keeps (by simp)) fun _ => .bind (hS.setFault_keeps _ _) fun _ => hP.romExit_keeps)
      fun _ => .bind hS.drawFpac_keeps fun _ => .bind hS.drawLae_keeps fun _ =>
        .bind (hS.setFault_keeps _ _) fun _ => hP.romExit_keeps)
    fun _ => .bind hS.deliverAny_keeps fun _ => hP.romExit_keeps

end

/-! ### Inside Macrostore -/

section
variable {P : State → Prop} (hS : Steady P)
include hS

theorem Steady.evalField_keeps (t : BitVec 2) (r park : Nibble) (uwp upc : Word) :
    Keeps P (evalField t r park uwp upc) :=
  .ite (fun _ => .pure _) fun _ => .ite (fun _ => .bind (hS.mainRead_keeps _ _) fun _ => .pure _) fun _ => .ite
    (fun _ => .ite (fun _ => .bind (hS.mainRead_keeps _ _) fun _ => .pure _) fun _ =>
      .bind (hS.mainRead_keeps _ _) fun _ => .bind (hS.mainRead_keeps _ _) fun _ => .pure _)
    fun _ => .bind (hS.mainRead_keeps _ _) fun _ => .bind (hS.writeReg_keeps _ _) fun _ => .pure _

theorem Steady.evaluateAddress_keeps (src : Operand) : Keeps P (evaluateAddress src) :=
  .bind (hS.srcLoc_keeps _ _) fun _ => .bind (hS.readLoc_keeps _) fun _ => .bind hS.drawWord_keeps fun _ =>
    .bind (hS.writeReg_keeps _ _) fun _ => .bind (hS.readReg_keeps _) fun _ => .bind (hS.readReg_keeps _) fun _ =>
    .bind (hS.evalField_keeps _ _ _ _ _) fun _ => .bind (hS.evalField_keeps _ _ _ _ _) fun _ =>
    .bind (hS.writeReg_keeps _ _) fun _ => .bind (hS.writeReg_keeps _ _) fun _ =>
    .bind (hS.updateSt_keeps fun st => by simp [modesOf_stSet]) fun _ =>
    .bind (hS.update_keeps fun _ => ⟨rfl, id, id, id⟩) fun _ => .bind hS.prefetchNext_keeps fun _ =>
    hS.writeReg_keeps _ _

end

/-! ### A live state -/

/-- What a MID trap leaves of a live state: the processor may now hold. -/
def State.Settled (s : State) : Prop := s.Rests ∧ s.resetDue = false

theorem State.Live.settled {s : State} (h : s.Live) : s.Settled := ⟨h.rests, h.2.2.2.2⟩
theorem State.Settled.ran {s : State} (h : s.Settled) : s.Ran := ⟨h.1.1, h.2, .inl h.1.2⟩

theorem settled_firm : Firm State.Settled := rests_firm.and (due_firm _)

theorem raiseMid_live (w : Word) (kind : MidKind) : Takes State.Live (raiseMid w kind) State.Settled State.Settled :=
  live_firm.raiseMid_takes
    (fun _ ⟨hs, hh, hi, hr⟩ he => ⟨hs.entering he hh hi, hh, hi, hr⟩)
    (fun _ => State.Live.settled)
    (fun _ ⟨hs, _, hi, hx, hr⟩ hm => ⟨⟨hs.withApHold hm hi, hx⟩, hr⟩) w kind

/-- What a live state is kept by leaves it settled. -/
theorem Takes.settled {α : Type} {m : M α} (h : Keeps State.Live m) : Takes State.Live m State.Settled State.Settled :=
  h.mono (fun _ => id) (fun _ => State.Live.settled) fun _ => State.Live.settled

theorem extension_live (w extra : Word) {body : M Unit} (h : Keeps State.Live body) :
    Takes State.Live (extension w extra body) State.Settled State.Settled :=
  .read fun _ => .ite (fun _ => .refuse _) fun _ => .read fun _ => .ite (fun _ => .settled h) fun _ =>
    .read fun _ => .bind (.mono (live_firm.steady.setPc_keeps _) (fun _ => id) (fun _ => id)
      fun _ => State.Live.settled) fun _ => raiseMid_live _ _

/-- An instruction that exists inside Macrostore only, and whose word is a MID opcode in main memory. -/
theorem macrostoreElseMid_live (w : Word) {body : M Unit} (h : Keeps State.Live body) :
    Takes State.Live (do if ← gets State.inMs then body else raiseMid w .first) State.Settled State.Settled :=
  .read fun _ => .ite (fun _ => .settled h) fun _ => raiseMid_live _ _

section
variable {s : State} (hs : s.Live)
include hs

/-- An extension instruction leaves a live state settled. -/
theorem exec_rom_live {i : Instr} (h : i.context = .rom) : Leaves State.Settled State.Settled (exec i s) := by
  have hP := live_firm
  have hS := hP.steady
  have hl : ∀ s : State, s.Live → ldfOk s.ldf := fun _ h => h.1.ldf
  cases i with
  | lds => exact Takes.leaves (extension_live _ _ (hP.longDistance_keeps live_lenient hl fun _ => ldfOk_afterLds)) hs
  | ldd => exact Takes.leaves (extension_live _ _ (hP.longDistance_keeps live_lenient hl fun _ => ldfOk_afterLdd)) hs
  | ar | sr | mr | dr => exact Takes.leaves (extension_live _ _ (hP.realOp_keeps _ _ _)) hs
  | cir =>
    exact Takes.leaves (extension_live _ _ (.bind (hS.srcLoc_keeps _ _) fun _ => .bind (hS.readLoc_keeps _) fun _ =>
      .bind (hS.deliver_keeps _) fun _ => .bind (hS.setFault_keeps _ _) fun _ => hP.romExit_keeps)) hs
  | lr =>
    exact Takes.leaves (extension_live _ _ (.bind (hS.srcLoc_keeps _ _) fun _ => .bind (hS.readLong_keeps _) fun _ =>
      .bind (hS.writeFpac_keeps _) fun _ => .bind (hS.updateSt_keeps (by simp)) fun _ => hP.romExit_keeps)) hs
  | str =>
    exact Takes.leaves (extension_live _ _ (.bind (hS.srcLoc_keeps _ _) fun _ => .bind (hS.readReg_keeps _) fun _ =>
      .bind (hS.writeLoc_keeps _ _) fun _ => .bind (hS.readReg_keeps _) fun _ =>
      .bind (hS.writeLoc_keeps _ _) fun _ => .bind (hS.updateSt_keeps (by simp)) fun _ => hP.romExit_keeps)) hs
  | cri => exact Takes.leaves (extension_live _ _ hP.convertToInt_keeps) hs
  | negr =>
    exact Takes.leaves (extension_live _ _ (.bind hS.readFpac_keeps fun _ => .ite
      (fun _ => .bind (hS.writeReg_keeps _ _) fun _ => .bind (hS.updateSt_keeps (by simp)) fun _ => hP.romExit_keeps)
      fun _ => .bind hS.drawFpac_keeps fun _ => .bind hS.drawLae_keeps fun _ => hP.romExit_keeps)) hs
  | cre =>
    exact Takes.leaves (extension_live _ _ (.bind hS.readFpac_keeps fun _ => .ite
      (fun _ => .ite
        (fun _ => .bind (hS.writeFpac_keeps _) fun _ => .bind (hS.updateSt_keeps (by simp)) fun _ =>
          .bind (hS.setFault_keeps _ _) fun _ => hP.romExit_keeps)
        fun _ => .bind hS.drawFpac_keeps fun _ => .bind hS.drawLae_keeps fun _ =>
          .bind (hS.setFault_keeps _ _) fun _ => hP.romExit_keeps)
      fun _ => .bind hS.deliverAny_keeps fun _ => hP.romExit_keeps)) hs
  | cer =>
    exact Takes.leaves (extension_live _ _ (.bind hS.readFpac_keeps fun _ => .bind (hS.deliver_keeps _) fun _ =>
      .bind (hS.setFault_keeps _ _) fun _ => hP.romExit_keeps)) hs
  | cr =>
    exact Takes.leaves (extension_live _ _ (.bind (hS.srcLoc_keeps _ _) fun _ => .bind (hS.readLong_keeps _) fun _ =>
      .bind (hS.dstLoc_keeps _ _) fun _ => .bind (hS.readLong_keeps _) fun _ =>
      .ite_bind (fun _ => hS.updateSt_keeps fun st => by simp [modesOf_stSet]) (fun _ => hS.drawLae_keeps) fun _ =>
      .bind (hS.setFault_keeps _ _) fun _ => hP.romExit_keeps)) hs
  | mm =>
    exact Takes.leaves (extension_live _ _ (.bind (hS.srcLoc_keeps _ _) fun _ => .bind (hS.readLong_keeps _) fun _ =>
      .bind (hS.dstLoc_keeps _ _) fun _ => .bind (hS.readLong_keeps _) fun _ =>
      .bind (hS.writeLoc_keeps _ _) fun _ => .bind (hS.writeLoc_keeps _ _) fun _ =>
      .bind (hS.writeLoc_keeps _ _) fun _ => .bind (hS.writeLoc_keeps _ _) fun _ =>
      .bind (hS.updateSt_keeps fun st => by simp [modesOf_stSet]) fun _ => .bind (hS.setFault_keeps _ _) fun _ =>
      hP.romExit_keeps)) hs
  | _ => nomatch h

/-- So does an instruction of Macrostore. -/
theorem exec_macrostore_live {i : Instr} (h : i.context = .macrostore) :
    Leaves State.Settled State.Settled (exec i s) := by
  have hP := live_firm
  have hS := hP.steady
  cases i with
  | evad =>
    exact Takes.leaves (macrostoreElseMid_live _ (.read fun _ => .ite (fun _ => .refuse _) fun _ =>
      .ite (fun _ => .refuse _) fun _ => hS.evaluateAddress_keeps _)) hs
  | rtwpExit =>
    exact Takes.leaves (.settled (.read fun _ => .ite
      (fun _ => .bind hP.macrostoreExit_keeps fun _ => hP.clearAfterExit_keeps _) fun _ => .refuse _)) hs
  | rtwpStay =>
    exact Takes.leaves (macrostoreElseMid_live _ (.bind hS.readSavedContext_keeps fun _ =>
      .bind hS.busCycle_keeps fun _ => .bind (hP.updateSt_keeps _) fun _ => .bind (hP.setWp_keeps _) fun _ =>
      hS.continueAt_keeps _)) hs
  | rtwpIllop => exact Takes.leaves (macrostoreElseMid_live _ hP.macrostoreExitIllop_keeps) hs
  | rtwpQuiet =>
    exact Takes.leaves (macrostoreElseMid_live _ (.bind hP.macrostoreExit_keeps fun _ =>
      hP.update_keeps fun s => Moved.withInhibit s _)) hs
  | jip | jnep => exact Takes.leaves (.settled (hS.macrostoreJump_keeps _ _)) hs
  | _ => nomatch h

end

end Sys2Proof.Machine
end

section
/-! SUPPORT. What a step keeps: an opcode and a chain of X run from a live state, the boundary, the returns, the reset
sequence, and so the whole cycle. -/

namespace Sys2Proof.Machine

/-! ### One instruction -/

/-- TMB, TCMB and TSMB with an autoincrement source are illegal second words, and trap. -/
theorem testBit_live (w : Word) (store : Option (Word → Word → Word)) (src : Operand) (bd : Nibble) :
    Takes State.Live (testBit w store src bd) State.Settled State.Settled := by
  by_cases h : src.notInc = true
  · exact .settled (live_firm.steady.testBit_keeps w store h bd)
  · unfold testBit
    exact .ite (fun h' => absurd h' h) fun _ => raiseMid_live _ _

theorem execXop_live {s : State} (hs : s.Live) (src : Operand) (n : Nibble) :
    Leaves State.Settled State.Settled (execXop src n s) :=
  Takes.leaves (.read fun _ => .ite (fun _ => .refuse _) fun _ => .read fun _ => .ite (fun _ => raiseMid_live _ _)
    fun _ => .settled (live_firm.xopTrap_keeps _ _)) hs

/-- The idle state begins in main memory and without a hold. -/
theorem State.Live.withIdle {s : State} (h : s.Live) (hm : s.inMs = false) : (s.withIdle true).Settled :=
  have ⟨hs, hh, _, hx, hr⟩ := h
  ⟨⟨⟨hs.pc, hs.wp, hs.mem, hs.ms, hs.ldf, hs.enabled, fun ht => absurd (hh.symm.trans ht) Bool.false_ne_true,
    fun _ => hm⟩, hx⟩, hr⟩

theorem State.Live.withXTarget {s : State} (h : s.Live) (w : Word) : (s.withXTarget (some w)).Ran :=
  have ⟨hs, hh, hi, _, hr⟩ := h
  ⟨hs.congr rfl, hr, .inr ⟨hh, hi⟩⟩

/-- A target of X that is taken to run leaves a live state. -/
theorem State.Ran.withXTarget {s : State} (h : s.Ran) {w : Word} (hx : s.xTarget = some w) :
    (s.withXTarget none).Live := by
  obtain ⟨hs, hr, hn | ⟨hh, hi⟩⟩ := h
  · simp [hn] at hx
  · exact ⟨hs.congr rfl, hh, hi, rfl, hr⟩

theorem exec_main_live {i : Instr} (hm : i.context = .main) (hx : ∀ src, i ≠ .x src) {s : State} (hs : s.Live) :
    Leaves State.Settled State.Settled (exec i s) := by
  have hP := live_firm
  have hS := hP.steady
  have hl {o} (h : Leaves State.Live State.Live o) : Leaves State.Settled State.Settled o :=
    h.mono (fun _ => State.Live.settled) fun _ => State.Live.settled
  rcases ordinary_or_special hm with ho | h | ⟨p, rfl⟩ | rfl | ⟨w, rfl⟩ | rfl | rfl | ⟨p, n, -, rfl | rfl | rfl⟩
  · exact hl (exec_ordinary hS live_lenient ho hs)
  · rcases h with ⟨p, rfl⟩ | ⟨p, n, rfl⟩ | rfl | ⟨w, rfl⟩ | rfl
    · exact hl (hP.wpFree.execBlwp_leaves hS hs (fun t i => hP t _ (Moved.withInhibit t i)) p)
    · exact execXop_live hs p n
    · exact hl (hP.wpFree.execLwpi_leaves hS hs)
    · exact hl (hP.wpFree.execLwp_leaves hS hs w)
    · exact hl (hP.execRtwp_leaves hs)
  · exact absurd rfl (hx p)
  · exact hl (hP.stFree.execLimi_leaves hS hs live_lenient)
  · exact hl (hP.stFree.execLst_leaves hS hs w)
  · exact hS.execIdle_leaves hs live_lenient settled_firm.steady (fun _ => State.Live.settled) fun _ =>
      State.Live.withIdle
  · exact hl (hP.stFree.execRset_leaves hS hs live_lenient)
  all_goals exact Takes.leaves (testBit_live _ _ p n) hs

/-- All an instruction leaves of a live state, wherever RESET cuts it. -/
theorem exec_live (i : Instr) {s : State} (hs : s.Live) : Leaves State.Ran State.Rests (exec i s) := by
  have hl (h : Leaves State.Settled State.Settled (exec i s)) : Leaves State.Ran State.Rests (exec i s) :=
    h.mono (fun _ => State.Settled.ran) fun _ h => h.1
  cases hc : i.context with
  | rom => exact hl (exec_rom_live hs hc)
  | macrostore => exact hl (exec_macrostore_live hs hc)
  | main =>
    by_cases hx : ∀ src, i ≠ .x src
    · exact hl (exec_main_live hc hx hs)
    · simp only [not_forall, not_not] at hx
      obtain ⟨src, rfl⟩ := hx
      exact (live_firm.steady.execX_leaves hs (fun _ w h => h.withXTarget w) src).mono (fun _ => id)
        fun _ => State.Live.rests

/-! ### An opcode and a chain of them -/

theorem runInstr_live (i : Instr) : Takes State.Live (runInstr i) State.Ran State.Rests := by
  refine ⟨fun s hs => ?_⟩
  have hl := exec_live i hs
  unfold runInstr
  cases he : exec i s with
  | fault f => nomatch f
  | refused r => trivial
  | next t =>
    rcases hl t he with ht | ⟨u, hu, rfl⟩
    · show Ends State.Ran State.Rests (if t.resetDue = true then .error (.cut t) else .ok ((), t))
      rw [if_neg (by simp [ht.2.1])]
      exact ht
    · have := (inv_iff _).1 hu.cutShort
      exact ⟨this.1, this.2.1⟩

theorem raiseMid_ran (w : Word) (kind : MidKind) : Takes State.Live (raiseMid w kind) State.Ran State.Rests :=
  (raiseMid_live w kind).mono (fun _ => id) (fun _ => State.Settled.ran) fun _ h => h.1

/-- What keeps a live state may be cut where a cut may be. -/
theorem Takes.live {α : Type} {m : M α} (h : Keeps State.Live m) : Takes State.Live m State.Live State.Rests :=
  h.weaken_cut fun _ => State.Live.rests

theorem runMid_live (w : Word) : Takes State.Live (runMid w) State.Ran State.Rests := by
  have htrap : ∀ k : Bool, Takes State.Live (do raiseMid w .first; pure k) State.Ran State.Rests := fun _ =>
    .bind (raiseMid_ran _ _) fun _ => .pure _
  refine .read fun r => ?_
  cases r with
  | baseline | attached | macrostore => exact htrap _
  | rom =>
    cases decodeRom w with
    | instr i => exact .bind (runInstr_live i) fun _ => .pure _
    | undefined => exact .refuse _
    | mid => exact htrap _
    | two k =>
      refine .bind (.live (live_firm.steady.fetchWord_keeps _)) fun w2 => ?_
      cases decodeSecond k w2 with
      | none => exact .refuse _
      | some i => exact .bind (runInstr_live i) fun _ => .pure _

theorem runOpcode_live (w : Word) : Takes State.Live (runOpcode w) State.Ran State.Rests := by
  refine .read fun b => ?_
  cases decodeFirst b w with
  | instr i => exact .bind (runInstr_live i) fun _ => .pure _
  | mid => exact runMid_live w
  | undefined => exact .refuse _
  | two k =>
    refine .bind (.live (live_firm.steady.fetchWord_keeps _)) fun w2 => ?_
    cases decodeSecond k w2 with
    | none => exact .bind (raiseMid_ran _ _) fun _ => .pure _
    | some i => exact .bind (runInstr_live i) fun _ => .pure _

/-- A chain of X and the opcode it comes to leave no target to run. -/
theorem runChain_live (n : Nat) (w : Word) : Takes State.Live (runChain n w) State.Rests State.Rests := by
  induction n generalizing w with
  | zero => exact .refuse _
  | succ n ih =>
    refine .bind (runOpcode_live w) fun _ => .gets_bind fun x => ?_
    cases x with
    | none => exact .mono (.pure _) (fun s hs => ⟨hs.1.1, hs.2⟩) (fun _ => id) fun _ => id
    | some v => exact .bind (.update fun s hs => hs.1.withXTarget hs.2) fun _ => ih v

/-- The completion of an instruction ends its I/O write inhibit. -/
theorem State.Rests.finished {s : State} (h : s.Rests) (keep : Bool) : (s.finished keep).Inv := by
  unfold State.finished
  dsimp only
  split
  · exact h.inv
  · have hl : ldfOk (if keep then s.ldf else 0b111#3) := by
      split
      · exact h.1.ldf
      · exact ldfOk_none
    exact (inv_iff _).2 ⟨⟨h.1.pc, h.1.wp, h.1.mem, h.1.ms, hl, h.1.enabled, h.1.held, h.1.idles⟩, h.2, rfl⟩

theorem finish_rests (keep : Bool) : Takes State.Rests (finish keep) State.Inv State.Rests :=
  ⟨fun s hs => by rw [finish_apply]; exact hs.finished keep⟩

theorem runAndFinish_live (w : Word) : Takes State.Live (runAndFinish w) State.Inv State.Rests :=
  .read fun _ => .bind (runChain_live _ w) fun _ =>
    .ite (fun _ => .update fun _ => State.Rests.inv) fun _ => finish_rests _

theorem fetchAndFinish_live :
    Takes State.Live (do let w ← fetchOpcode; runAndFinish w) State.Inv State.Rests :=
  .bind (.live live_firm.steady.fetchOpcode_keeps) fun _ => runAndFinish_live _

/-! ### The boundary and the returns -/

/-- A state of the machine that waits for nothing: no reset is due and the processor does not hold. -/
def State.Free (s : State) : Prop := s.Inv ∧ s.apHold = false ∧ s.resetDue = false

theorem free_firm : Firm State.Free := inv_firm.and ((hold_firm _).and (due_firm _))

theorem State.Free.live {s : State} (h : s.Free) (hi : s.idle = false) : s.Live :=
  have ⟨hinv, hh, hr⟩ := h
  ⟨((inv_iff s).1 hinv).1, hh, hi, ((inv_iff s).1 hinv).2.1, hr⟩

/-- Inside Macrostore the processor does not idle. -/
theorem State.Free.live_macrostore {s : State} (h : s.Free) (hm : s.inMs = true) : s.Live :=
  h.live (Bool.eq_false_iff.2 fun hi =>
    Bool.false_ne_true ((((inv_iff s).1 h.1).1.idles hi).symm.trans hm))

theorem State.Inv.withApHold {s : State} (h : s.Inv) (hm : s.inMs = false) (hi : s.idle = false) :
    (s.withApHold true).Inv :=
  have hs := (inv_iff s).1 h
  (inv_iff _).2 ⟨hs.1.withApHold hm hi, hs.2⟩

/-- An accept by an attached processor, at a breakpoint in main memory. -/
theorem apAccept_inv (pc : Word) :
    Takes (fun s => s.Inv ∧ s.inMs = false ∧ s.idle = false) (apAccept pc) State.Inv State.Rests :=
  .mono ((inv_firm.and (inMain_firm.and awake_firm)).apAccept_takes (fun _ ⟨h, hm, hi⟩ => h.withApHold hm hi) pc)
    (fun _ => id) (fun _ => id) fun _ h => h.1.rests

/-- What keeps the invariant may be cut where a cut may be. -/
theorem Takes.inv {α : Type} {m : M α} {P : State → Prop} (hP : ∀ s, P s → s.Inv) (h : Keeps State.Inv m) :
    Takes P m State.Inv State.Rests := h.mono hP (fun _ => id) fun _ => State.Inv.rests

theorem idleStep_inv :
    Takes (fun s => s.Inv ∧ s.inMs = false) idleStep State.Inv State.Rests :=
  .read fun _ => .ite
    (fun _ => .bind (Q := fun s => s.Inv ∧ s.inMs = false ∧ s.idle = false)
      (.update fun s ⟨h, hm⟩ => ⟨inv_firm s _ (Moved.withIdle s) h, hm, rfl⟩) fun _ =>
      .read fun _ => apAccept_inv _)
    fun _ => .inv (fun _ h => h.1) (inv_firm.steady.ioOut1_keeps _ _)

theorem fetchAndRun_inv :
    Takes (fun s => s.Free ∧ s.inMs = false ∧ s.idle = false) fetchAndRun State.Inv State.Rests := by
  have hP := free_firm.and (inMain_firm.and awake_firm)
  have hcut : ∀ s : State, s.Free ∧ s.inMs = false ∧ s.idle = false → s.Rests := fun _ h => h.1.1.rests
  exact .read fun _ => .bind (.weaken_cut hP.steady.fetchOpcode_keeps hcut) fun _ => .read fun _ => .ite
    (fun _ => .bind (.weaken_cut (hP.steady.setPc_keeps _) hcut) fun _ =>
      .mono (apAccept_inv _) (fun _ h => ⟨h.1.1, h.2⟩) (fun _ => id) fun _ => id)
    fun _ => .mono (runAndFinish_live _) (fun _ h => h.1.live h.2.2) (fun _ => id) fun _ => id

theorem boundary_inv : Takes (fun s => s.Free ∧ s.inMs = false) boundary State.Inv State.Rests := by
  have hP := free_firm.and inMain_firm
  have hi : ∀ s : State, s.Free ∧ s.inMs = false → s.Inv := fun _ h => h.1.1
  have hswitch vec mask := Takes.inv hi (inv_firm.contextSwitch_keeps vec mask)
  refine .read fun _ => .bind (.update fun s h => hP s _ (Moved.withInhibit s _) h) fun _ => .read fun _ => .ite
    (fun _ => .bind (.update fun s h => hP s _ ?_ h) fun _ => hswitch _ _)
    fun _ => .read fun _ => .ite (fun _ => hswitch _ _)
    fun _ => .read fun _ => .ite (fun _ => .read fun _ => hswitch _ _)
    fun _ => .gets_bind fun idle => .ite
      (fun _ => .mono idleStep_inv (fun s h => ⟨h.1.1.1, h.1.2⟩) (fun _ => id) fun _ => id)
      fun hn => .mono fetchAndRun_inv (fun s h => ⟨h.1.1, h.1.2, by simpa [h.2] using hn⟩) (fun _ => id) fun _ => id
  exact ⟨rfl, rfl, rfl, rfl, rfl, id, nofun, id, id, id, id, id⟩

/-- The end of a hold (spec/60_exceptions.md R588). -/
theorem State.Inv.apReturned {s : State} (h : s.Inv) :
    (((s.withInhibit .none).withLdf 0b111#3).withApHold false).Inv := by
  obtain ⟨hs, hx, hio⟩ := (inv_iff s).1 h
  exact (inv_iff _).2 ⟨⟨hs.pc, hs.wp, hs.mem, hs.ms, ldfOk_none, hs.enabled, nofun, hs.idles⟩, hx, hio⟩

theorem apReturn_inv : Keeps State.Inv apReturn :=
  have hP := inv_firm
  .bind hP.steady.readSavedContext_keeps fun _ => .bind (hP.stCycle_keeps _) fun _ =>
    .bind (hP.steady.continueAt_keeps _) fun _ => .bind (hP.wpCycle_keeps _) fun _ =>
    .bind hP.steady.evalAf_keeps fun _ => .update fun _ => State.Inv.apReturned

theorem proceed_inv : Takes (fun s => s.Inv ∧ s.resetDue = false) proceed State.Inv State.Rests := by
  refine .gets_bind fun hold => .ite
    (fun _ => .read fun _ => .ite (fun _ => .inv (fun _ h => h.1.1) apReturn_inv)
      fun _ => .inv (fun _ h => h.1.1) inv_firm.steady.busCycle_keeps)
    fun hn => .mono (P := State.Free) ?_ (fun s h => ⟨h.1.1, by simpa [h.2] using hn, h.1.2⟩) (fun _ => id) fun _ => id
  refine .gets_of (· = none) (fun s h => ((inv_iff s).1 h.1).2.1) fun x hx => ?_
  subst hx
  exact .gets_bind fun inMs => .ite
    (fun hi => .mono fetchAndFinish_live (fun s h => h.1.live_macrostore (h.2.trans hi)) (fun _ => id) fun _ => id)
    fun hn => .mono boundary_inv (fun s h => ⟨h.1, by simpa [h.2] using hn⟩) (fun _ => id) fun _ => id

/-! ### Reset, and the whole step -/

/-- Where the reset sequence begins (spec/70_reset_and_hazards.md R630). -/
theorem State.Inv.resetting {s : State} (h : s.Inv) :
    ((((s.withInMs false).withIdle false).withApHold false).withMsMode s.pins.modeAtReset).Inv := by
  obtain ⟨hs, hx, hio⟩ := (inv_iff s).1 h
  refine (inv_iff _).2 ⟨?_, by simpa using hx, by simpa using hio⟩
  exact
    { pc := by simpa using hs.pc
      wp := by simpa using hs.wp
      mem := by simpa using hs.mem
      ms := by simpa using hs.ms
      ldf := by simpa using hs.ldf
      enabled := by simp
      held := by simp
      idles := by simp }

theorem resetSequence_inv : Keeps State.Inv resetSequence := by
  have hP := inv_firm
  have hS := hP.steady
  refine .read fun _ => .read fun _ => .read fun _ => .bind (.update fun _ => State.Inv.resetting) fun _ =>
    .bind (Q := State.Inv) (.update fun s h => ?_) fun _ => .bind (Q := State.Inv) (.update fun s h => ?_) fun _ =>
    .bind hS.discardPrefetch_keeps fun _ =>
    .bind (hP.stCycle_keeps _) fun _ => .bind (hS.mainRead_keeps _ _) fun _ => .bind (hS.mainRead_keeps _ _) fun _ =>
    .bind (hP.wpCycle_keeps _) fun _ => .bind (hS.writeReg_keeps _ _) fun _ => .bind (hS.writeReg_keeps _ _) fun _ =>
    .bind (hS.writeReg_keeps _ _) fun _ => .bind (hS.update_keeps fun _ => ⟨rfl, id, id, id⟩) fun _ =>
    .bind (hP.clearAfterExit_keeps _) fun _ => .bind (hP.update_keeps fun _ =>
      ⟨rfl, rfl, rfl, rfl, rfl, id, id, id, id, id, id, id⟩) fun _ => hS.continueAt_keeps _
  · obtain ⟨hs, -, hio⟩ := (inv_iff s).1 h
    exact (inv_iff _).2 ⟨hs.congr rfl, rfl, hio⟩
  · obtain ⟨hs, hx, -⟩ := (inv_iff s).1 h
    exact (inv_iff _).2 ⟨hs.congr rfl, hx, rfl⟩

theorem resetStep_inv : Keeps State.Inv resetStep :=
  .read fun _ => .ite (fun _ => .bind (.update fun _ => id) fun _ => inv_firm.steady.busCycle_keeps)
    fun _ => resetSequence_inv

/-- Sampling may enable Macrostore, and never disables it (spec/60_exceptions.md R600). -/
theorem sampleInputs_enabled {s : State} (h : s.msMode ≠ .baseline) : (sampleInputs s).msMode ≠ .baseline := by
  simp [sampleInputs, h]

theorem sampleInputs_inv {s : State} (h : s.Inv) : (sampleInputs s).Inv := by
  obtain ⟨hs, hx, hio⟩ := (inv_iff s).1 h
  refine (inv_iff _).2 ⟨?_, by simpa using hx, by simpa using hio⟩
  exact
    { pc := by simpa using hs.pc
      wp := by simpa using hs.wp
      mem := by simpa using hs.mem
      ms := by simpa using hs.ms
      ldf := by simpa using hs.ldf
      enabled := fun hi => sampleInputs_enabled (hs.enabled (by simpa using hi))
      held := by simpa using hs.held
      idles := by simpa using hs.idles }

theorem cycle_inv : Takes State.Inv cycle State.Inv State.Rests := by
  refine .read fun r => ?_
  cases r with
  | short => exact .refuse _
  | full => exact .inv (fun _ => id) resetStep_inv
  | inactive =>
    refine .gets_bind fun due => .ite (fun _ => .inv (fun _ h => h.1) resetStep_inv) fun hn => ?_
    refine .bind (Q := fun s => s.Inv ∧ s.resetDue = false)
      (.update fun s h => ⟨sampleInputs_inv h.1, by simpa [h.2] using hn⟩) fun _ => .read fun _ =>
      .ite (fun _ => .inv (fun _ h => h.1) inv_firm.steady.busCycle_keeps) fun _ => proceed_inv

/-- A step ends in a state of the machine, and so does one that is cut. -/
theorem step_inv {s t : State} (hs : s.Inv) (ht : step s = .next t) : t.Inv := by
  rcases cycle_inv.leaves hs t ht with h | ⟨u, hu, rfl⟩
  · exact h
  · exact hu.cutShort

end Sys2Proof.Machine
end

section
open Sys2Proof Sys2Proof.Machine

/-- Settles O1: every field by evaluation, the vector words being read from the empty memory. -/
theorem resetLeavesStatedValues : Obligations.ResetLeavesStatedValues := by
  have hvec : ∀ n, (0x0000#16 : Word) = (Mem.readWord [] n).even := fun _ => by
    simp only [Mem.readWord, Mem.read_nil]; rfl
  exact ⟨rfl, fun _ => ⟨rfl, rfl, rfl, rfl, rfl, rfl, rfl, rfl, rfl, rfl, rfl, rfl, rfl, rfl, hvec 0, hvec 2, rfl, rfl,
    rfl⟩⟩

/-- The state after reset is sound, of either family member. -/
theorem sound_resetFor (v : Variant) : (State.resetFor v).Sound where
  pc := Word.even_getLsbD_zero 0x0000#16
  wp := Word.even_getLsbD_zero 0x0000#16
  mem := rfl
  ms := rfl
  ldf := ldfOk_none
  enabled := nofun
  held := nofun
  idles := nofun

/-- Settles O2: after reset the processor executes main memory and neither holds nor idles. -/
theorem resetMeetsMachineInvariant : Obligations.ResetMeetsMachineInvariant :=
  have h v : (State.resetFor v).Inv := (inv_iff _).2 ⟨sound_resetFor v, rfl, rfl⟩
  ⟨h _, h⟩

/-- Settles O3: each part of a step keeps the invariant, and a cut leaves all of it but the I/O write inhibit, which
ends there. -/
theorem everyStepKeepsMachineInvariant : Obligations.EveryStepKeepsMachineInvariant := fun _ _ => step_inv

end

section
/-! SUPPORT. A step that runs a chain of X to its last target: what each kind of target comes to, on every bus. -/

namespace Sys2Proof.Machine

/-! ### No target waits where a chain of X has been chased to -/

theorem State.begun_xTarget (s : State) : s.begun.xTarget = s.xTarget := by
  unfold State.begun; dsimp only; split <;> simp

theorem comesToRun_xTarget {s u : State} {w : Word} (h : s.comesToRun u w) : u.xTarget = none := by
  obtain ⟨-, -, -, -, ⟨-, rfl⟩ | ⟨hx, -, rfl, -⟩⟩ := h
  · rfl
  · simpa [State.begun_xTarget] using hx

theorem chased_xTarget {n : Nat} {s t : State} {w v : Word} (hs : s.xTarget = none) (h : s.chased n w t v) :
    t.xTarget = none := by
  induction n generalizing s w with
  | zero => obtain ⟨rfl, -⟩ := h; exact hs
  | succ n ih =>
    obtain ⟨src, u, x, -, -, -, -, h⟩ := h
    exact ih rfl h

/-- A MID trap leaves no target of X to run. -/
theorem raiseMid_xTarget (w : Word) (kind : MidKind) : Keeps (fun s => s.xTarget = none) (raiseMid w kind) :=
  (target_firm none).raiseMid_takes (fun _ h _ => h) (fun _ => id) (fun _ h _ => h) w kind

/-- Inside Macrostore there is no MID trap (spec/93_implementation_defined.md U11). -/
theorem raiseMid_macrostore {s : State} (h : s.inMs = true) (w : Word) (kind : MidKind) :
    raiseMid w kind s = .error (.refused (.undefinedInMacrostore w)) := by
  simp only [raiseMid, gets_bind, h, if_true, refuse_bind]

/-! ### An opcode that is a MID opcode -/

theorem runOpcode_mid {t : State} {v : Word} (h : decodeFirst t.inMs v = .mid) : runOpcode v t = runMid v t := by
  simp only [runOpcode, gets_bind, h]

theorem runOpcode_undefined {t : State} {v : Word} (h : decodeFirst t.inMs v = .undefined) :
    runOpcode v t = .error (.refused (.undefinedInMacrostore v)) := by
  simp only [runOpcode, gets_bind, h, refuse_apply]

/-- An illegal second word traps, with PC past it. -/
theorem runOpcode_second {t : State} {v : Word} {k : TwoWord} (hc : t.calm) (hr : t.reads t.streamLoc)
    (h : decodeFirst t.inMs v = .two k) (h2 : decodeSecond k t.streamWord = none) :
    runOpcode v t = (raiseMid t.streamWord (.second v) >>= fun _ => pure false) t.skipWord := by
  simp only [runOpcode, gets_bind, h]
  rw [M.bind_ok (fetchWord_calm hc hr)]
  simp only [h2]

theorem runMid_trap {t : State} {v : Word} (h : t.midRoute ≠ .rom) :
    runMid v t = (raiseMid v .first >>= fun _ => pure (isLongDistance v)) t := by
  cases hr : t.midRoute with
  | rom => exact absurd hr h
  | baseline | attached | macrostore => simp only [runMid, gets_bind, hr]

section
variable {t : State} {v : Word} (h : t.midRoute = .rom)
include h

theorem runMid_rom_mid (hd : decodeRom v = .mid) : runMid v t = (raiseMid v .first >>= fun _ => pure false) t := by
  simp only [runMid, gets_bind, h, hd]

theorem runMid_rom_undefined (hd : decodeRom v = .undefined) : runMid v t = .error (.refused (.romUnknown v)) := by
  simp only [runMid, gets_bind, h, hd, refuse_apply]

theorem runMid_rom_instr {i : Instr} (hd : decodeRom v = .instr i) :
    runMid v t = (runInstr i >>= fun _ => pure (keepsLdf i)) t := by
  simp only [runMid, gets_bind, h, hd]

variable {k : TwoWord} (hd : decodeRom v = .two k) (hc : t.calm) (hr : t.reads t.streamLoc)
include hd hc hr

theorem runMid_rom_two {i : Instr} (h2 : decodeSecond k t.streamWord = some i) :
    runMid v t = (runInstr i >>= fun _ => pure false) t.skipWord := by
  simp only [runMid, gets_bind, h, hd]
  rw [M.bind_ok (fetchWord_calm hc hr)]
  simp only [h2]

theorem runMid_rom_second (h2 : decodeSecond k t.streamWord = none) :
    runMid v t = .error (.refused (.romUnknown t.streamWord)) := by
  simp only [runMid, gets_bind, h, hd]
  rw [M.bind_ok (fetchWord_calm hc hr)]
  simp only [h2, refuse_apply]

end

theorem keepsLdf_eq (i : Instr) : keepsLdf i = decide (i = .lds ∨ i = .ldd) := by
  cases i <;> simp [keepsLdf]

/-! ### The step that runs the last opcode of a chain -/

section
variable {s t : State} {v : Word} {m : Nat} (hs : step s = outcome (do
  let keep ← runChain (m + 1) v
  if t.inMs then update fun s => s.withIoInhibit false else finish keep) t)
include hs

theorem step_of_refused {r : Refusal} (h : runOpcode v t = .error (.refused r)) : step s = .refused r := by
  rw [hs, outcome, M.bind_apply, runChain_error h]

/-- A MID trap ends the chain and completes the instruction. -/
theorem step_of_trap {u : State} {w : Word} {kind : MidKind} {k : Bool} (hm : t.inMs = false) (hx : u.xTarget = none)
    (h : runOpcode v t = (raiseMid w kind >>= fun _ => pure k) u) :
    step s = outcome (do raiseMid w kind; finish k) u := by
  rw [hs]
  apply outcome_congr
  simp only [hm, Bool.false_eq_true, if_false]
  cases hr : raiseMid w kind u with
  | error e =>
    have he : runOpcode v t = .error e := by rw [h, M.bind_apply, hr]
    simp only [M.bind_apply, runChain_error he, hr]
  | ok r =>
    have ho : runOpcode v t = .ok (k, r.2) := by rw [h, M.bind_apply, hr]; rfl
    have hn : r.2.xTarget = none := (raiseMid_xTarget w kind).ok hx hr
    simp only [M.bind_apply, runChain_done ho hn, hr]

end

/-- What a completed instruction leaves, in main memory or inside Macrostore. -/
def State.ended (inMs keep : Bool) (x : State) : State := if inMs then x.withIoInhibit false else x.finished keep

section
variable {s t : State} {v : Word} {m : Nat} (hs : step s = outcome (do
  let keep ← runChain (m + 1) v
  if t.inMs then update fun s => s.withIoInhibit false else finish keep) t) (hi : t.inMs = s.inMs)
include hs hi

theorem stepIs_of_instr {u : State} {i : Instr} {k : Bool}
    (h : runOpcode v t = (runInstr i >>= fun _ => pure k) u) : StepIs s (State.ended s.inMs k) (exec i u) :=
  stepIs_chain hs h fun x => by rw [State.ended, hi]

variable (hx : t.xTarget = none)
include hx

/-- A two-word opcode, with PC past its second word, or the illegal second word. -/
theorem step_of_two {k : TwoWord} (hd : decodeFirst s.inMs v = .two k) (hc : t.calm) (hr : t.reads t.streamLoc) :
    (∀ i, decodeSecond k t.streamWord = some i → StepIs s (State.ended s.inMs false) (exec i t.skipWord)) ∧
    (decodeSecond k t.streamWord = none →
      (s.inMs = true → step s = .refused (.undefinedInMacrostore t.streamWord)) ∧
      (s.inMs = false → step s = outcome (do raiseMid t.streamWord (.second v); finish false) t.skipWord)) := by
  rw [← hi] at hd
  refine ⟨fun i h2 => stepIs_of_instr hs hi (runOpcode_two hc hr hd h2), fun h2 => ?_⟩
  have hrun := runOpcode_second hc hr hd h2
  refine ⟨fun hm => step_of_refused hs ?_, fun hm => step_of_trap hs (hi.trans hm) hx hrun⟩
  rw [hrun, M.bind_apply, raiseMid_macrostore (s := t.skipWord) (hi.trans hm)]

/-- A MID opcode on every route, with what the TMS99110A's ROM makes of it. -/
theorem step_of_mid (hm : s.inMs = false) (hd : decodeFirst s.inMs v = .mid) :
    (t.midRoute ≠ .rom → step s = outcome (do raiseMid v .first; finish (isLongDistance v)) t) ∧
    (t.midRoute = .rom →
      (decodeRom v = .mid → step s = outcome (do raiseMid v .first; finish false) t) ∧
      (decodeRom v = .undefined → step s = .refused (.romUnknown v)) ∧
      (∀ i, decodeRom v = .instr i → StepIs s (State.ended s.inMs (decide (i = .lds ∨ i = .ldd))) (exec i t)) ∧
      (∀ k, decodeRom v = .two k → t.calm →
        (∀ i, decodeSecond k t.streamWord = some i → StepIs s (State.ended s.inMs false) (exec i t.skipWord)) ∧
        (decodeSecond k t.streamWord = none → step s = .refused (.romUnknown t.streamWord)))) := by
  have htm : t.inMs = false := hi.trans hm
  have hr : t.reads t.streamLoc := State.reads_streamLoc htm
  rw [← hi] at hd
  have hrun := runOpcode_mid hd
  refine ⟨fun h => step_of_trap hs htm hx (hrun.trans (runMid_trap h)), fun h => ⟨fun hv => ?_, fun hv => ?_,
    fun i hv => ?_, fun k hv hc => ⟨fun i h2 => ?_, fun h2 => ?_⟩⟩⟩
  · exact step_of_trap hs htm hx (hrun.trans (runMid_rom_mid h hv))
  · exact step_of_refused hs (hrun.trans (runMid_rom_undefined h hv))
  · rw [← keepsLdf_eq]
    exact stepIs_of_instr hs hi (hrun.trans (runMid_rom_instr h hv))
  · exact stepIs_of_instr hs hi (hrun.trans (runMid_rom_two h hv hc hr h2))
  · exact step_of_refused hs (hrun.trans (runMid_rom_second h hv hc hr h2))

end

end Sys2Proof.Machine

open Sys2Proof Sys2Proof.Machine

/-- Settles O15: an endless chain outlasts the limit, and any other is run to its last target, which is then run as a
first word is. -/
theorem latchedOpcodesRun : Obligations.LatchedOpcodesRun := by
  intro s u t w v n hu
  refine ⟨fun hc => (comesToRun_step hu).trans (runAndFinish_endless hc), fun hn hc => ?_⟩
  obtain ⟨m, hs⟩ := chased_step hu hn hc
  have hi : t.inMs = s.inMs := (chased_space hc).trans (comesToRun_space hu)
  have hx : t.xTarget = none := chased_xTarget (comesToRun_xTarget hu) hc
  refine ⟨hi, fun i hd => ?_, fun k hd hcalm hr => step_of_two hs hi hx hd hcalm hr, fun hm hd => ?_,
    step_of_mid hs hi hx⟩
  · exact stepIs_of_instr hs hi (runOpcode_instr (hi ▸ hd))
  · exact step_of_refused hs (runOpcode_undefined (hi ▸ hd))

end

section
/-! SUPPORT. A store and a read by what stands at the location: the whole word at either of its addresses, and the
answers of RAM, ROM, a device and nothing on a bus without other masters. -/

namespace Sys2Proof.Machine

/-! ### A stored word, at either of its byte addresses -/

/-- Both byte addresses of a word come to its even address. -/
theorem Word.even_or_one (a : Word) : (a ||| 1#16).even = a.even := by
  have h : 0x0001#16 &&& 0xFFFE#16 = 0x0000#16 := rfl
  rw [Word.even, Word.even, BitVec.and_or_distrib_right, h, BitVec.or_zero]

theorem wordBase_withAddr (s : State) {l : Loc} {a : Word} (h : a.even = l.addr.even) :
    s.wordBase { l with addr := a } = s.wordBase l := by
  simp only [State.wordBase, h]

/-- Where RAM stands a stored word is read back at every address with the same even address. -/
theorem wordAt_putWord_withAddr {s : State} {l : Loc} (hr : s.ramAt l = true) (v : Word) {a : Word}
    (h : a.even = l.addr.even) : (s.putWord l v).wordAt { l with addr := a } = v := by
  rw [wordAt_putWord, if_pos ⟨hr, rfl, (wordBase_withAddr s h).symm⟩]

/-- RAM takes a word, and no device is handed it. -/
theorem putWord_ram_devOut {s : State} {l : Loc} (hr : s.ramAt l = true) (v : Word) :
    (s.putWord l v).devOut = s.devOut := by
  rw [putWord_ram hr]; split <;> rfl

theorem Worked.putWord (s : State) (l : Loc) (v : Word) : Worked s (s.putWord l v) := by
  unfold State.putWord
  split
  · exact Worked.setMainWord s _ _ _ _
  · exact Worked.setMsWord s _ _

/-! ### Answers to a read -/

theorem busCycle_idle {s : State} (hb : s.bus = []) : busCycle s = .ok ((), s) := by simp [busCycle, hb]

theorem drawWord_apply (s : State) : drawWord s = .ok (Config.freeWord s.draws, s.withDraws (s.draws + 1)) := rfl

theorem deviceAnswer_queued {s : State} {w : Word} {rest : List Word} (h : s.devIn = w :: rest) :
    deviceAnswer s = .ok (w, s.withDevIn rest) := by
  simp [deviceAnswer, h, M.map_apply]

theorem deviceAnswer_free {s : State} (h : s.devIn = []) :
    deviceAnswer s = .ok (Config.freeWord s.draws, s.withDraws (s.draws + 1)) := by
  simp [deviceAnswer, h, drawWord_apply]

/-! ### Main memory on a bus without other masters -/

section
variable {s : State} {l : Loc} (hm : l.space = .main)
include hm

theorem wordBase_main : s.wordBase l = physAddr s.params (psel s l.code) l.code l.addr.even := by
  simp only [State.wordBase, hm]

/-- A device is handed the word, with its physical address. -/
theorem putWord_device (hk : mainKind s.params (s.wordBase l) = .device) (v : Word) :
    s.putWord l v = s.withDevOut (s.devOut ++ [(s.wordBase l, v)]) := by
  rw [wordBase_main hm] at hk ⊢
  simp only [State.putWord, hm, State.setMainWord, hk]

variable (hb : s.bus = [])
include hb

theorem writeLoc_idle (v : Word) : writeLoc l v s = .ok ((), s.putWord l v) := by
  simp only [writeLoc, hm, mainWrite, M.bind_ok (busCycle_idle hb), update_apply, State.putWord]

/-- A read is answered at once by what stands at the location. -/
theorem readLoc_idle : readLoc l s = mainAnswer (psel s l.code) l.code l.addr s := by
  simp only [readLoc, hm, mainRead, gets_bind, mainReadAs, M.bind_ok (busCycle_idle hb)]

/-- RAM and ROM answer with their word. -/
theorem readLoc_memory (hk : mainKind s.params (s.wordBase l) = .ram ∨ mainKind s.params (s.wordBase l) = .rom) :
    readLoc l s = .ok (s.wordAt l, s) := by
  rw [readLoc_idle hm hb]
  rcases hk with hk | hk <;> simp only [mainAnswer, ← wordBase_main hm, hk, State.wordAt, hm]

theorem readLoc_device (hk : mainKind s.params (s.wordBase l) = .device) : readLoc l s = deviceAnswer s := by
  simp only [readLoc_idle hm hb, mainAnswer, ← wordBase_main hm, hk]

/-- Where nothing stands a read gives a free word. -/
theorem readLoc_absent (hk : mainKind s.params (s.wordBase l) = .absent) :
    readLoc l s = .ok (Config.freeWord s.draws, s.withDraws (s.draws + 1)) := by
  simp only [readLoc_idle hm hb, mainAnswer, ← wordBase_main hm, hk, drawWord_apply]

end

end Sys2Proof.Machine

open Sys2Proof Sys2Proof.Machine

/-- Settles O10: a store by what it does to the memories, and a read of main memory by what stands there. -/
theorem storedWordIsReadBack : Obligations.StoredWordIsReadBack := by
  intro s l v
  refine ⟨fun hr => ⟨?same, ?even, ?odd, putWord_ram_devOut hr v⟩, fun hr => putWord_lost hr v, ?frame,
    fun hmem hms => ⟨(Worked.putWord s l v).mem hmem, (Worked.putWord s l v).ms hms⟩,
    fun hb hm => ⟨writeLoc_idle hm hb v, readLoc_memory hm hb, fun hk => ⟨putWord_device hm hk v, ?queued, ?free⟩,
      fun hk => ⟨_, readLoc_absent hm hb hk⟩⟩⟩
  case same => exact wordAt_putWord_withAddr hr v rfl
  case even => exact wordAt_putWord_withAddr hr v (Word.even_even _)
  case odd => exact wordAt_putWord_withAddr hr v (Word.even_or_one _)
  case frame => exact fun sp a h => byteOf_putWord s l v sp a (h l (List.mem_singleton.2 rfl))
  case queued => exact fun w rest h => (readLoc_device hm hb hk).trans (deviceAnswer_queued h)
  case free => exact fun h => ⟨_, (readLoc_device hm hb hk).trans (deviceAnswer_free h)⟩

end

section
/-! SUPPORT. The formats of opcode words: a word is its opcode and the fields beside it, no more and no less
(spec/30_encoding.md R141 to R143). -/

namespace Sys2Proof

/-! ### Operand fields -/

theorem Operand.ofFields_t_r {p : Operand} (hp : p.wf = true) : Operand.ofFields p.t p.r = p := by
  cases p <;> simp_all [Operand.ofFields, Operand.t, Operand.r, Operand.wf]

theorem Operand.wf_ofFields (t : BitVec 2) (r : Nibble) : (Operand.ofFields t r).wf = true := by
  unfold Operand.ofFields; split_ifs <;> simp_all [Operand.wf]

@[simp] theorem Operand.t_ofFields (t : BitVec 2) (r : Nibble) : (Operand.ofFields t r).t = t := by
  have h : t ≠ 0#2 → t ≠ 1#2 → t ≠ 2#2 → t = 3#2 := by decide +revert
  unfold Operand.ofFields; split_ifs <;> simp_all [Operand.t]

@[simp] theorem Operand.r_ofFields (t : BitVec 2) (r : Nibble) : (Operand.ofFields t r).r = r := by
  unfold Operand.ofFields; split_ifs <;> simp_all [Operand.r]

theorem Operand.notInc_eq (p : Operand) : p.notInc = decide (p.t ≠ 3#2) := by cases p <;> rfl

@[simp] theorem srcField_wf (w : Word) : (srcField w).wf = true := Operand.wf_ofFields _ _

@[simp] theorem dstField_wf (w : Word) : (dstField w).wf = true := Operand.wf_ofFields _ _

/-- An operand stands in a field when its T and register fields do. -/
theorem Operand.ofFields_eq_iff {p : Operand} (hp : p.wf = true) {t : BitVec 2} {r : Nibble} :
    Operand.ofFields t r = p ↔ t = p.t ∧ r = p.r := by
  constructor
  · rintro rfl; simp
  · rintro ⟨rfl, rfl⟩; exact ofFields_t_r hp

/-! ### Words of each format -/

/-- The lowest `m` bits are zero. -/
abbrev Word.Clear (b : Word) (m : Nat) : Prop := ∀ j < m, b.getLsbD j = false

/-- A field put at or above bit `m` leaves the bits below clear. -/
theorem Word.Clear.place {b : Word} {m n : Nat} (hb : b.Clear m) (k : Nat) (v : BitVec n) (h : m ≤ k) :
    Word.Clear (b ||| (v.setWidth 16 <<< k)) m := by
  intro j hj
  simp [hb j hj, show j < k by omega]

/-- Two fields agree when their bits do. -/
theorem extract_eq_iff {b w : Word} {k m : Nat} :
    w.extractLsb' k m = b.extractLsb' k m ↔ ∀ j < m, w.getLsbD (k + j) = b.getLsbD (k + j) := by
  simp +contextual [BitVec.eq_of_getLsbD_eq_iff]

/-- A field `v` put at bit `k` of a word that is clear there: a word agrees with that from bit `k` up if and only if it
has `v` there and agrees with the clear word above. -/
theorem place_eq_iff {b w : Word} {k n u l m : Nat} (v : BitVec n) (hb : b.Clear u) (hu : k + n = u) (hl : n + l = m)
    (hm : k + m ≤ 16) :
    w.extractLsb' k m = (b ||| (v.setWidth 16 <<< k)).extractLsb' k m ↔
      w.extractLsb' u l = b.extractLsb' u l ∧ w.extractLsb' k n = v := by
  subst hu hl
  have hlow (j : Nat) (hj : j < n) : (b ||| (v.setWidth 16 <<< k)).getLsbD (k + j) = v.getLsbD j := by
    rw [BitVec.getLsbD_or, hb (k + j) (by omega)]
    simp [show k + j < 16 by omega]
  have hhigh (j : Nat) : (b ||| (v.setWidth 16 <<< k)).getLsbD (k + n + j) = b.getLsbD (k + n + j) := by
    simp [show k + n + j - k = n + j by omega]
  have hv : w.extractLsb' k n = v ↔ ∀ j < n, w.getLsbD (k + j) = v.getLsbD j := by
    simp +contextual [BitVec.eq_of_getLsbD_eq_iff]
  rw [extract_eq_iff, extract_eq_iff, hv]
  refine ⟨fun h => ⟨fun j hj => ?_, fun j hj => ?_⟩, fun ⟨ht, hf⟩ j hj => ?_⟩
  · rw [← hhigh, Nat.add_assoc, h (n + j) (by omega)]
  · rw [← hlow j hj, h j (by omega)]
  · by_cases hn : j < n
    · rw [hf j hn, hlow j hn]
    · obtain ⟨i, rfl⟩ := Nat.exists_eq_add_of_le (Nat.le_of_not_lt hn)
      rw [← Nat.add_assoc, hhigh, ht i (by omega)]

/-- The same for a field at the bottom. -/
theorem place_low_eq_iff {b w : Word} {n l : Nat} (v : BitVec n) (hb : b.Clear n) (hl : n + l = 16) :
    b ||| v.setWidth 16 = w ↔ w.extractLsb' n l = b.extractLsb' n l ∧ w.extractLsb' 0 n = v := by
  have h := place_eq_iff (w := w) (k := 0) (m := 16) v hb (Nat.zero_add n) hl (by omega)
  rw [BitVec.extractLsb'_eq_self, BitVec.extractLsb'_eq_self, BitVec.shiftLeft_zero] at h
  rw [← h, eq_comm]

section
variable {b w : Word}

theorem encDisp_eq_iff {d : Byte} (hb : b.Clear 8) :
    encDisp b d = w ↔ w.extractLsb' 8 8 = b.extractLsb' 8 8 ∧ dispField w = d :=
  place_low_eq_iff d hb rfl

theorem encReg_eq_iff {r : Reg} (hb : b.Clear 4) :
    encReg b r = w ↔ w.extractLsb' 4 12 = b.extractLsb' 4 12 ∧ regField w = r :=
  place_low_eq_iff r hb rfl

theorem encShift_eq_iff {r : Reg} {n : Nibble} (hb : b.Clear 8) :
    encShift b r n = w ↔ w.extractLsb' 8 8 = b.extractLsb' 8 8 ∧ regField w = r ∧ countField w = n := by
  have h4 : b.Clear 4 := fun j hj => hb j (by omega)
  rw [encShift, place_low_eq_iff r (h4.place 4 n (by omega)) (l := 12) rfl,
    place_eq_iff n hb (l := 8) rfl rfl (by omega), and_assoc, regField, countField, and_comm (a := _ = n)]

/-- The source operand is the low six bits. -/
theorem encSingle_eq_iff {p : Operand} (hp : p.wf = true) (hb : b.Clear 6) :
    encSingle b p = w ↔ w.extractLsb' 6 10 = b.extractLsb' 6 10 ∧ srcField w = p := by
  have h4 : b.Clear 4 := fun j hj => hb j (by omega)
  rw [encSingle, place_low_eq_iff p.r (h4.place 4 p.t (by omega)) (l := 12) rfl,
    place_eq_iff p.t hb (l := 10) rfl rfl (by omega), and_assoc, srcField, Operand.ofFields_eq_iff hp]

theorem encField_eq_iff {p : Operand} {d : Nibble} (hp : p.wf = true) (hb : b.Clear 10) :
    encField b p d = w ↔ w.extractLsb' 10 6 = b.extractLsb' 10 6 ∧ srcField w = p ∧ midField w = d := by
  have h6 : b.Clear 6 := fun j hj => hb j (by omega)
  rw [show encField b p d = encSingle (b ||| (d.setWidth 16 <<< 6)) p from rfl,
    encSingle_eq_iff hp (h6.place 6 d (by omega)), place_eq_iff d hb (l := 6) rfl rfl (by omega), and_assoc, midField,
    and_comm (a := _ = d)]

theorem encDual_eq_iff {p q : Operand} (hp : p.wf = true) (hq : q.wf = true) (hb : b.Clear 12) :
    encDual b p q = w ↔ w.extractLsb' 12 4 = b.extractLsb' 12 4 ∧ srcField w = p ∧ dstField w = q := by
  have h10 : b.Clear 10 := fun j hj => hb j (by omega)
  rw [show encDual b p q = encField (b ||| (q.t.setWidth 16 <<< 10)) p q.r from rfl,
    encField_eq_iff hp (h10.place 10 q.t (by omega)), place_eq_iff q.t hb (l := 4) rfl rfl (by omega), and_assoc,
    dstField, Operand.ofFields_eq_iff hq, midField]
  tauto

end

end Sys2Proof
end

section
/-! SUPPORT. The opcode tables of main memory: which words have a row in each, and that no word has a row in two
(spec/30_encoding.md R160, R161, R163). -/

namespace Sys2Proof

/-! ### Where the opcode tables have no row -/

theorem toNat_extract (w : Word) (k m : Nat) : (w.extractLsb' k m).toNat = w.toNat / 2 ^ k % 2 ^ m := by
  rw [BitVec.extractLsb'_toNat, Nat.shiftRight_eq_div_pow]

section
variable (w : Word)

theorem dualOp_eq_none_iff : dualOp (w.extractLsb' 12 4) = none ↔ w.toNat < 0x4000 := by
  have hk := toNat_extract w 12 4
  unfold dualOp
  split <;> simp only [reduceCtorEq, false_iff, true_iff, imp_false] at * <;> omega

theorem fieldOp_eq_none_iff : fieldOp (w.extractLsb' 10 6) = none ↔ w.toNat < 0x2000 ∨ 0x4000 ≤ w.toNat := by
  have hk := toNat_extract w 10 6
  unfold fieldOp
  split <;> simp only [reduceCtorEq, false_iff, true_iff, imp_false] at * <;> omega

theorem dispOp_eq_none_iff : dispOp (w.extractLsb' 8 8) = none ↔ w.toNat < 0x1000 ∨ 0x2000 ≤ w.toNat := by
  have hk := toNat_extract w 8 8
  unfold dispOp
  split <;> simp only [reduceCtorEq, false_iff, true_iff, imp_false] at * <;> omega

theorem shiftOp_eq_none_iff : shiftOp (w.extractLsb' 8 8) = none ↔ w.toNat < 0x0800 ∨ 0x0C00 ≤ w.toNat := by
  have hk := toNat_extract w 8 8
  unfold shiftOp
  split <;> simp only [reduceCtorEq, false_iff, true_iff, imp_false] at * <;> omega

theorem singleOp_eq_none_iff :
    singleOp (w.extractLsb' 6 10) = none ↔
      w.toNat < 0x0140 ∨ (0x0200 ≤ w.toNat ∧ w.toNat < 0x0400) ∨ 0x0780 ≤ w.toNat := by
  have hk := toNat_extract w 6 10
  unfold singleOp
  split <;> simp only [reduceCtorEq, false_iff, true_iff, imp_false] at * <;> omega

theorem regOp_eq_none_iff :
    regOp (w.extractLsb' 4 12) = none ↔
      w.toNat / 16 ∉ [0x008, 0x009, 0x00B, 0x020, 0x022, 0x024, 0x026, 0x028, 0x02A, 0x02C] := by
  have hk := toNat_extract w 4 12
  simp only [List.mem_cons, List.not_mem_nil, or_false]
  unfold regOp
  split <;> simp only [reduceCtorEq, false_iff, true_iff, imp_false] at * <;> omega

theorem fixedOp_eq_none_iff :
    fixedOp w = none ↔ w.toNat ∉ [0x02E0, 0x0300, 0x0340, 0x0360, 0x0380, 0x03A0, 0x03C0, 0x03E0] := by
  unfold fixedOp
  split <;> simp_all

theorem twoWordOp_eq_none_iff :
    twoWordOp w = none ↔ w.toNat ∉ [0x001C, 0x001D, 0x0029, 0x002A, 0x0C09, 0x0C0A, 0x0C0B] := by
  unfold twoWordOp
  split <;> simp_all

end

/-- The MID opcodes of main memory, first and last word of each range (spec/30_encoding.md R163). -/
def midRanges : List (Nat × Nat) :=
  [(0x0000, 0x001B), (0x001E, 0x0028), (0x002B, 0x007F), (0x00A0, 0x00AF), (0x00C0, 0x013F), (0x0210, 0x021F),
    (0x0230, 0x023F), (0x0250, 0x025F), (0x0270, 0x027F), (0x0290, 0x029F), (0x02B0, 0x02BF), (0x02D0, 0x02DF),
    (0x02E1, 0x02FF), (0x0301, 0x033F), (0x0341, 0x035F), (0x0361, 0x037F), (0x0381, 0x039F), (0x03A1, 0x03BF),
    (0x03C1, 0x03DF), (0x03E1, 0x03FF), (0x0780, 0x07FF), (0x0C00, 0x0C08), (0x0C0C, 0x0FFF)]

/-! ### Words of main memory -/

section
variable {w : Word}

/-- A MID opcode is a word in none of the tables. -/
theorem decodeMain_eq_mid_iff_none :
    decodeMain w = .mid ↔ dualOp (w.extractLsb' 12 4) = none ∧ fieldOp (w.extractLsb' 10 6) = none ∧
      dispOp (w.extractLsb' 8 8) = none ∧ shiftOp (w.extractLsb' 8 8) = none ∧ singleOp (w.extractLsb' 6 10) = none ∧
      regOp (w.extractLsb' 4 12) = none ∧ fixedOp w = none ∧ twoWordOp w = none := by
  unfold decodeMain
  repeat' split
  all_goals simp [*]

theorem decodeMain_eq_mid_iff : decodeMain w = .mid ↔ ∃ r ∈ midRanges, r.1 ≤ w.toNat ∧ w.toNat ≤ r.2 := by
  rw [decodeMain_eq_mid_iff_none, dualOp_eq_none_iff, fieldOp_eq_none_iff, dispOp_eq_none_iff, shiftOp_eq_none_iff,
    singleOp_eq_none_iff, regOp_eq_none_iff, fixedOp_eq_none_iff, twoWordOp_eq_none_iff]
  simp only [midRanges, List.mem_cons, List.not_mem_nil, or_false, exists_eq_or_imp, exists_eq_left, not_or]
  omega

/-! A word has a row in at most one table, so the order in which decoding tries them is of no account. -/

theorem decodeMain_of_dualOp {mk} (h : dualOp (w.extractLsb' 12 4) = some mk) :
    decodeMain w = .instr (mk (srcField w) (dstField w)) := by
  simp only [decodeMain, h]

theorem decodeMain_of_fieldOp {mk} (h : fieldOp (w.extractLsb' 10 6) = some mk) :
    decodeMain w = .instr (mk (srcField w) (midField w)) := by
  have hr := mt (fieldOp_eq_none_iff w).2 (by simp [h])
  simp only [decodeMain, h, (dualOp_eq_none_iff w).2 (by omega)]

theorem decodeMain_of_dispOp {mk} (h : dispOp (w.extractLsb' 8 8) = some mk) :
    decodeMain w = .instr (mk (dispField w)) := by
  have hr := mt (dispOp_eq_none_iff w).2 (by simp [h])
  simp only [decodeMain, h, (dualOp_eq_none_iff w).2 (by omega), (fieldOp_eq_none_iff w).2 (by omega)]

theorem decodeMain_of_shiftOp {mk} (h : shiftOp (w.extractLsb' 8 8) = some mk) :
    decodeMain w = .instr (mk (regField w) (countField w)) := by
  have hr := mt (shiftOp_eq_none_iff w).2 (by simp [h])
  simp only [decodeMain, h, (dualOp_eq_none_iff w).2 (by omega), (fieldOp_eq_none_iff w).2 (by omega),
    (dispOp_eq_none_iff w).2 (by omega)]

theorem decodeMain_of_singleOp {mk} (h : singleOp (w.extractLsb' 6 10) = some mk) :
    decodeMain w = .instr (mk (srcField w)) := by
  have hr := mt (singleOp_eq_none_iff w).2 (by simp [h])
  simp only [decodeMain, h, (dualOp_eq_none_iff w).2 (by omega), (fieldOp_eq_none_iff w).2 (by omega),
    (dispOp_eq_none_iff w).2 (by omega), (shiftOp_eq_none_iff w).2 (by omega)]

theorem decodeMain_of_regOp {mk} (h : regOp (w.extractLsb' 4 12) = some mk) :
    decodeMain w = .instr (mk (regField w)) := by
  have hr := mt (regOp_eq_none_iff w).2 (by simp [h])
  simp only [List.mem_cons, List.not_mem_nil, or_false, not_not] at hr
  simp only [decodeMain, h, (dualOp_eq_none_iff w).2 (by omega), (fieldOp_eq_none_iff w).2 (by omega),
    (dispOp_eq_none_iff w).2 (by omega), (shiftOp_eq_none_iff w).2 (by omega), (singleOp_eq_none_iff w).2 (by omega)]

/-- What a first word of main memory is where it is no MID opcode: a row of one of the tables. -/
inductive MainRow (w : Word) : First → Prop
  | dual {mk} (h : dualOp (w.extractLsb' 12 4) = some mk) : MainRow w (.instr (mk (srcField w) (dstField w)))
  | field {mk} (h : fieldOp (w.extractLsb' 10 6) = some mk) : MainRow w (.instr (mk (srcField w) (midField w)))
  | disp {mk} (h : dispOp (w.extractLsb' 8 8) = some mk) : MainRow w (.instr (mk (dispField w)))
  | shift {mk} (h : shiftOp (w.extractLsb' 8 8) = some mk) : MainRow w (.instr (mk (regField w) (countField w)))
  | single {mk} (h : singleOp (w.extractLsb' 6 10) = some mk) : MainRow w (.instr (mk (srcField w)))
  | reg {mk} (h : regOp (w.extractLsb' 4 12) = some mk) : MainRow w (.instr (mk (regField w)))
  | fixed {i} (h : fixedOp w = some i) : MainRow w (.instr i)
  | two {k} (h : twoWordOp w = some k) : MainRow w (.two k)

theorem mainRow_of_decodeMain {f : First} (h : decodeMain w = f) (hf : f ≠ .mid) : MainRow w f := by
  subst h
  unfold decodeMain at hf ⊢
  split at hf
  · exact .dual ‹_›
  split at hf
  · exact .field ‹_›
  split at hf
  · exact .disp ‹_›
  split at hf
  · exact .shift ‹_›
  split at hf
  · exact .single ‹_›
  split at hf
  · exact .reg ‹_›
  split at hf
  · exact .fixed ‹_›
  split at hf
  · exact .two ‹_›
  · exact absurd rfl hf

end

end Sys2Proof
end

section
/-! SUPPORT. From words to instructions: whatever a table names at a word is well formed and is encoded as that word
(spec/30_encoding.md R162). -/

namespace Sys2Proof

/-! ### The encoding of what a table names -/

/-- The instruction is well formed and these are its opcode words. -/
def Instr.HasWords (i : Instr) (ws : List Word) : Prop := i.wf = true ∧ encode i = ws

section
variable {w b : Word}

theorem encDual_fields (hb : b.Clear 12) (hk : (w.extractLsb' 12 4).toNat = (b.extractLsb' 12 4).toNat) :
    encDual b (srcField w) (dstField w) = w :=
  (encDual_eq_iff (srcField_wf w) (dstField_wf w) hb).2 ⟨BitVec.eq_of_toNat_eq hk, rfl, rfl⟩

theorem encField_fields (hb : b.Clear 10) (hk : (w.extractLsb' 10 6).toNat = (b.extractLsb' 10 6).toNat) :
    encField b (srcField w) (midField w) = w :=
  (encField_eq_iff (srcField_wf w) hb).2 ⟨BitVec.eq_of_toNat_eq hk, rfl, rfl⟩

theorem encDisp_fields (hb : b.Clear 8) (hk : (w.extractLsb' 8 8).toNat = (b.extractLsb' 8 8).toNat) :
    encDisp b (dispField w) = w :=
  (encDisp_eq_iff hb).2 ⟨BitVec.eq_of_toNat_eq hk, rfl⟩

theorem encShift_fields (hb : b.Clear 8) (hk : (w.extractLsb' 8 8).toNat = (b.extractLsb' 8 8).toNat) :
    encShift b (regField w) (countField w) = w :=
  (encShift_eq_iff hb).2 ⟨BitVec.eq_of_toNat_eq hk, rfl, rfl⟩

theorem encSingle_fields (hb : b.Clear 6) (hk : (w.extractLsb' 6 10).toNat = (b.extractLsb' 6 10).toNat) :
    encSingle b (srcField w) = w :=
  (encSingle_eq_iff (srcField_wf w) hb).2 ⟨BitVec.eq_of_toNat_eq hk, rfl⟩

theorem encReg_fields (hb : b.Clear 4) (hk : (w.extractLsb' 4 12).toNat = (b.extractLsb' 4 12).toNat) :
    encReg b (regField w) = w :=
  (encReg_eq_iff hb).2 ⟨BitVec.eq_of_toNat_eq hk, rfl⟩

theorem hasWords_of_eq {i : Instr} {v : Word} (hw : i.wf = true) (he : encode i = [v]) (h : v = w) :
    i.HasWords [w] := ⟨hw, h ▸ he⟩

theorem hasWords_of_dualOp {mk} (h : dualOp (w.extractLsb' 12 4) = some mk) :
    (mk (srcField w) (dstField w)).HasWords [w] := by
  unfold dualOp at h
  split at h
  all_goals cases h
  all_goals exact hasWords_of_eq (by simp [Instr.wf]) rfl (encDual_fields (by decide) ‹_›)

theorem hasWords_of_fieldOp {mk} (h : fieldOp (w.extractLsb' 10 6) = some mk) :
    (mk (srcField w) (midField w)).HasWords [w] := by
  unfold fieldOp at h
  split at h
  all_goals cases h
  all_goals exact hasWords_of_eq (srcField_wf w) rfl (encField_fields (by decide) ‹_›)

theorem hasWords_of_dispOp {mk} (h : dispOp (w.extractLsb' 8 8) = some mk) : (mk (dispField w)).HasWords [w] := by
  unfold dispOp at h
  split at h
  all_goals cases h
  all_goals exact hasWords_of_eq rfl rfl (encDisp_fields (by decide) ‹_›)

theorem hasWords_of_shiftOp {mk} (h : shiftOp (w.extractLsb' 8 8) = some mk) :
    (mk (regField w) (countField w)).HasWords [w] := by
  unfold shiftOp at h
  split at h
  all_goals cases h
  all_goals exact hasWords_of_eq rfl rfl (encShift_fields (by decide) ‹_›)

theorem hasWords_of_singleOp {mk} (h : singleOp (w.extractLsb' 6 10) = some mk) :
    (mk (srcField w)).HasWords [w] := by
  unfold singleOp at h
  split at h
  all_goals cases h
  all_goals exact hasWords_of_eq (srcField_wf w) rfl (encSingle_fields (by decide) ‹_›)

theorem hasWords_of_regOp {mk} (h : regOp (w.extractLsb' 4 12) = some mk) : (mk (regField w)).HasWords [w] := by
  unfold regOp at h
  split at h
  all_goals cases h
  all_goals exact hasWords_of_eq rfl rfl (encReg_fields (by decide) ‹_›)

theorem hasWords_of_fixedOp {i : Instr} (h : fixedOp w = some i) : i.HasWords [w] := by
  unfold fixedOp at h
  split at h
  all_goals cases h
  all_goals exact hasWords_of_eq rfl rfl (BitVec.eq_of_toNat_eq (Eq.symm ‹_›))

theorem hasWords_of_romSingleOp {mk} (h : romSingleOp (w.extractLsb' 6 10) = some mk) :
    (mk (srcField w)).HasWords [w] := by
  unfold romSingleOp at h
  split at h
  all_goals cases h
  all_goals exact hasWords_of_eq (srcField_wf w) rfl (encSingle_fields (by decide) ‹_›)

theorem hasWords_of_romFixedOp {i : Instr} (h : romFixedOp w = some (.instr i)) : i.HasWords [w] := by
  unfold romFixedOp at h
  split at h
  all_goals cases h
  all_goals exact hasWords_of_eq rfl rfl (BitVec.eq_of_toNat_eq (Eq.symm ‹_›))

theorem hasWords_of_macrostoreOp {i : Instr} (h : macrostoreOp w = some (.instr i)) : i.HasWords [w] := by
  unfold macrostoreOp at h
  split at h
  all_goals cases h
  all_goals exact hasWords_of_eq rfl rfl (BitVec.eq_of_toNat_eq (Eq.symm ‹_›))

theorem hasWords_of_macrostoreDispOp {i : Instr}
    (h : macrostoreDispOp (w.extractLsb' 8 8) (dispField w) = some (.instr i)) : i.HasWords [w] := by
  unfold macrostoreDispOp at h
  split at h
  all_goals cases h
  all_goals exact hasWords_of_eq rfl rfl (encDisp_fields (by decide) ‹_›)

theorem hasWords_of_decodeMain {i : Instr} (h : decodeMain w = .instr i) : i.HasWords [w] := by
  cases mainRow_of_decodeMain h nofun with
  | dual hk => exact hasWords_of_dualOp hk
  | field hk => exact hasWords_of_fieldOp hk
  | disp hk => exact hasWords_of_dispOp hk
  | shift hk => exact hasWords_of_shiftOp hk
  | single hk => exact hasWords_of_singleOp hk
  | reg hk => exact hasWords_of_regOp hk
  | fixed hk => exact hasWords_of_fixedOp hk

theorem hasWords_of_decodeMacrostore {i : Instr} (h : decodeMacrostore w = .instr i) : i.HasWords [w] := by
  unfold decodeMacrostore at h
  split at h
  · exact hasWords_of_macrostoreOp (h ▸ ‹_›)
  split at h
  · exact hasWords_of_macrostoreDispOp (h ▸ ‹_›)
  split at h
  case isTrue hk =>
    cases h
    exact hasWords_of_eq (srcField_wf w) rfl (encSingle_fields (by decide) (congrArg BitVec.toNat hk))
  split at h
  · cases h
  · exact hasWords_of_decodeMain h

theorem hasWords_of_decodeRom {i : Instr} (h : decodeRom w = .instr i) : i.HasWords [w] := by
  unfold decodeRom at h
  split at h
  · cases h; exact hasWords_of_romSingleOp ‹_›
  split at h
  · exact hasWords_of_romFixedOp (h ▸ ‹_›)
  · split at h <;> cases h

/-! ### Two-word opcodes -/

/-- The first word of a two-word opcode (spec/30_encoding.md R161, R166). -/
def TwoWord.opcode : TwoWord → Word
  | .tmb => 0x0C09#16 | .tcmb => 0x0C0A#16 | .tsmb => 0x0C0B#16
  | .slam => 0x001D#16 | .sram => 0x001C#16 | .am => 0x002A#16 | .sm => 0x0029#16
  | .cr => 0x0301#16 | .mm => 0x0302#16

theorem eq_opcode_of_twoWordOp {k : TwoWord} (h : twoWordOp w = some k) : w = k.opcode := by
  unfold twoWordOp at h
  split at h
  all_goals cases h
  all_goals exact BitVec.eq_of_toNat_eq ‹_›

theorem eq_opcode_of_romFixedOp {k : TwoWord} (h : romFixedOp w = some (.two k)) : w = k.opcode := by
  unfold romFixedOp at h
  split at h
  all_goals cases h
  all_goals exact BitVec.eq_of_toNat_eq ‹_›

theorem eq_opcode_of_decodeMain {k : TwoWord} (h : decodeMain w = .two k) : w = k.opcode := by
  cases mainRow_of_decodeMain h nofun with
  | two hk => exact eq_opcode_of_twoWordOp hk

theorem eq_opcode_of_decodeMacrostore {k : TwoWord} (h : decodeMacrostore w = .two k) : w = k.opcode := by
  unfold decodeMacrostore at h
  split at h
  case h_1 f hf => subst h; unfold macrostoreOp at hf; split at hf <;> cases hf
  split at h
  case h_1 f hf => subst h; unfold macrostoreDispOp at hf; split at hf <;> cases hf
  split at h
  · cases h
  split at h
  · cases h
  · exact eq_opcode_of_decodeMain h

theorem eq_opcode_of_decodeRom {k : TwoWord} (h : decodeRom w = .two k) : w = k.opcode := by
  unfold decodeRom at h
  split at h
  · cases h
  split at h
  · exact eq_opcode_of_romFixedOp (h ▸ ‹_›)
  · split at h <;> cases h

theorem hasWords_of_first {c : Context} {i : Instr} (h : c.first w = .instr i) : i.HasWords [w] := by
  cases c with
  | main => exact hasWords_of_decodeMain h
  | macrostore => exact hasWords_of_decodeMacrostore h
  | rom =>
    simp only [Context.first] at h
    split at h
    · exact hasWords_of_decodeRom h
    · exact hasWords_of_decodeMain h

theorem eq_opcode_of_first {c : Context} {k : TwoWord} (h : c.first w = .two k) : w = k.opcode := by
  cases c with
  | main => exact eq_opcode_of_decodeMain h
  | macrostore => exact eq_opcode_of_decodeMacrostore h
  | rom =>
    simp only [Context.first] at h
    split at h
    · exact eq_opcode_of_decodeRom h
    · exact eq_opcode_of_decodeMain h

/-! ### Second words -/

theorem srcField_notInc (w : Word) : (srcField w).notInc = decide (w.extractLsb' 4 2 ≠ 3#2) := by
  rw [Operand.notInc_eq, srcField, Operand.t_ofFields]

theorem hasWords_of_decodeSecond {k : TwoWord} {i : Instr} (h : decodeSecond k w = some i) :
    i.HasWords [k.opcode, w] := by
  have test (hk : w.extractLsb' 10 6 = 0#6) : encField 0x0000#16 (srcField w) (midField w) = w :=
    encField_fields (by decide) (congrArg BitVec.toNat hk)
  have shift (hk : w.extractLsb' 10 6 = 0x10#6) : encField 0x4000#16 (srcField w) (midField w) = w :=
    encField_fields (by decide) (congrArg BitVec.toNat hk)
  have pair (hk : w.extractLsb' 12 4 = 0x4#4) : encDual 0x4000#16 (srcField w) (dstField w) = w :=
    encDual_fields (by decide) (congrArg BitVec.toNat hk)
  have rom (hk : w.extractLsb' 12 4 = 0x0#4) : encDual 0x0000#16 (srcField w) (dstField w) = w :=
    encDual_fields (by decide) (congrArg BitVec.toNat hk)
  cases k with
  | tmb | tcmb | tsmb =>
    obtain ⟨⟨hk, hs⟩, ⟨⟩⟩ := Option.ite_none_right_eq_some.1 h
    exact ⟨by simp [Instr.wf, srcField_notInc, hs], congrArg (fun v => [_, v]) (test hk)⟩
  | slam | sram =>
    obtain ⟨hk, ⟨⟩⟩ := Option.ite_none_right_eq_some.1 h
    exact ⟨srcField_wf w, congrArg (fun v => [_, v]) (shift hk)⟩
  | am | sm =>
    obtain ⟨hk, ⟨⟩⟩ := Option.ite_none_right_eq_some.1 h
    exact ⟨by simp [Instr.wf], congrArg (fun v => [_, v]) (pair hk)⟩
  | cr | mm =>
    obtain ⟨hk, ⟨⟩⟩ := Option.ite_none_right_eq_some.1 h
    exact ⟨by simp [Instr.wf], congrArg (fun v => [_, v]) (rom hk)⟩

end

end Sys2Proof
end

section
/-! SUPPORT. From instructions to words: the words an instruction is encoded as decode to it where it belongs
(spec/30_encoding.md R160, R165, R166). -/

namespace Sys2Proof

/-! ### Decoding the encoding -/

section
variable {b : Word} {p q : Operand}

theorem decodeMain_encDual {mk} (hw : (p.wf && q.wf) = true) (hb : b.Clear 12)
    (h : dualOp (b.extractLsb' 12 4) = some mk) : decodeMain (encDual b p q) = .instr (mk p q) := by
  obtain ⟨hp, hq⟩ := Bool.and_eq_true_iff.1 hw
  obtain ⟨hk, hs, hd⟩ := (encDual_eq_iff hp hq hb).1 rfl
  rw [decodeMain_of_dualOp ((congrArg dualOp hk).trans h), hs, hd]

theorem decodeMain_encField {mk} {d : Nibble} (hp : p.wf = true) (hb : b.Clear 10)
    (h : fieldOp (b.extractLsb' 10 6) = some mk) : decodeMain (encField b p d) = .instr (mk p d) := by
  obtain ⟨hk, hs, hd⟩ := (encField_eq_iff hp hb).1 rfl
  rw [decodeMain_of_fieldOp ((congrArg fieldOp hk).trans h), hs, hd]

theorem decodeMain_encDisp {mk} {d : Byte} (hb : b.Clear 8) (h : dispOp (b.extractLsb' 8 8) = some mk) :
    decodeMain (encDisp b d) = .instr (mk d) := by
  obtain ⟨hk, hd⟩ := (encDisp_eq_iff hb).1 rfl
  rw [decodeMain_of_dispOp ((congrArg dispOp hk).trans h), hd]

theorem decodeMain_encShift {mk} {r : Reg} {n : Nibble} (hb : b.Clear 8)
    (h : shiftOp (b.extractLsb' 8 8) = some mk) : decodeMain (encShift b r n) = .instr (mk r n) := by
  obtain ⟨hk, hr, hn⟩ := (encShift_eq_iff hb).1 rfl
  rw [decodeMain_of_shiftOp ((congrArg shiftOp hk).trans h), hr, hn]

theorem decodeMain_encSingle {mk} (hp : p.wf = true) (hb : b.Clear 6)
    (h : singleOp (b.extractLsb' 6 10) = some mk) : decodeMain (encSingle b p) = .instr (mk p) := by
  obtain ⟨hk, hs⟩ := (encSingle_eq_iff hp hb).1 rfl
  rw [decodeMain_of_singleOp ((congrArg singleOp hk).trans h), hs]

theorem decodeMain_encReg {mk} {r : Reg} (hb : b.Clear 4) (h : regOp (b.extractLsb' 4 12) = some mk) :
    decodeMain (encReg b r) = .instr (mk r) := by
  obtain ⟨hk, hr⟩ := (encReg_eq_iff hb).1 rfl
  rw [decodeMain_of_regOp ((congrArg regOp hk).trans h), hr]

end

/-! ### Inside Macrostore -/

section
variable (w : Word)

theorem macrostoreOp_eq_none_iff : macrostoreOp w = none ↔ w.toNat ∉ [0x0380, 0x0381, 0x0382, 0x0384] := by
  unfold macrostoreOp
  split <;> simp_all

theorem macrostoreDispOp_eq_none_iff (d : Byte) :
    macrostoreDispOp (w.extractLsb' 8 8) d = none ↔ w.toNat < 0x1D00 ∨ 0x2000 ≤ w.toNat := by
  have hk := toNat_extract w 8 8
  unfold macrostoreDispOp
  split <;> simp only [reduceCtorEq, false_iff, true_iff, imp_false] at * <;> omega

theorem evad_opcode_iff : w.extractLsb' 6 10 = 0x004#10 ↔ 0x0100 ≤ w.toNat ∧ w.toNat ≤ 0x013F := by
  rw [← BitVec.toNat_inj, toNat_extract, BitVec.toNat_ofNat]
  omega

end

section
variable {w : Word}

/-- EVAD and its operand field are the words >0100 to >013F. -/
theorem decodeMacrostore_evad (h : w.extractLsb' 6 10 = 0x004#10) :
    decodeMacrostore w = .instr (.evad (srcField w)) := by
  have hr := (evad_opcode_iff w).1 h
  have hop : macrostoreOp w = none := (macrostoreOp_eq_none_iff w).2 (by simp; omega)
  simp only [decodeMacrostore, hop, (macrostoreDispOp_eq_none_iff w _).2 (by omega), h, if_true]

theorem decodeMacrostore_of_dispOp {f : First}
    (h : macrostoreDispOp (w.extractLsb' 8 8) (dispField w) = some f) : decodeMacrostore w = f := by
  have hr := mt (macrostoreDispOp_eq_none_iff w (dispField w)).2 (by simp [h])
  have hop : macrostoreOp w = none := (macrostoreOp_eq_none_iff w).2 (by simp; omega)
  simp only [decodeMacrostore, hop, h]

theorem decodeMacrostore_encDisp {b : Word} {d : Byte} {f : First} (hb : b.Clear 8)
    (h : macrostoreDispOp (b.extractLsb' 8 8) d = some f) : decodeMacrostore (encDisp b d) = f := by
  obtain ⟨hk, hd⟩ := (encDisp_eq_iff hb).1 rfl
  exact decodeMacrostore_of_dispOp (by rw [hk, hd, h])

/-- No other word of main memory means anything else there. -/
theorem decodeMacrostore_eq_decodeMain (hm : decodeMain w ≠ .mid) (hr : w ≠ 0x0380#16)
    (hd : ¬ (0x1D00 ≤ w.toNat ∧ w.toNat ≤ 0x1FFF)) : decodeMacrostore w = decodeMain w := by
  have hmid (v : Word) (hv : decodeMain v = .mid) : w.toNat ≠ v.toNat := by
    intro h
    exact hm (BitVec.eq_of_toNat_eq h ▸ hv)
  have hop : macrostoreOp w = none := by
    have h0 : w.toNat ≠ 0x0380 := fun h => hr (BitVec.eq_of_toNat_eq h)
    have h1 : w.toNat ≠ 0x0381 := hmid 0x0381#16 rfl
    have h2 : w.toNat ≠ 0x0382 := hmid 0x0382#16 rfl
    have h4 : w.toNat ≠ 0x0384 := hmid 0x0384#16 rfl
    simp [macrostoreOp_eq_none_iff, h0, h1, h2, h4]
  have hev : w.extractLsb' 6 10 ≠ 0x004#10 := by
    rw [Ne, evad_opcode_iff]
    exact fun h => hm (decodeMain_eq_mid_iff.2 ⟨(0x00C0, 0x013F), by decide, by omega, h.2⟩)
  simp only [decodeMacrostore, hop, (macrostoreDispOp_eq_none_iff w _).2 (by omega), hev, if_false]

/-- The first words that mean something else there but for RTWP are SBO, SBZ and TB of main memory. -/
theorem decodeMain_redefined (h : 0x1D00 ≤ w.toNat ∧ w.toNat ≤ 0x1FFF) :
    ∃ d, decodeMain w = .instr (.sbo d) ∨ decodeMain w = .instr (.sbz d) ∨ decodeMain w = .instr (.tb d) := by
  have hk : w.extractLsb' 8 8 = 0x1D#8 ∨ w.extractLsb' 8 8 = 0x1E#8 ∨ w.extractLsb' 8 8 = 0x1F#8 := by
    simp only [← BitVec.toNat_inj, toNat_extract, BitVec.toNat_ofNat]
    omega
  refine ⟨dispField w, ?_⟩
  rcases hk with hk | hk | hk
  · exact .inl (decodeMain_of_dispOp (congrArg dispOp hk))
  · exact .inr (.inl (decodeMain_of_dispOp (congrArg dispOp hk)))
  · exact .inr (.inr (decodeMain_of_dispOp (congrArg dispOp hk)))

/-! ### In the ROM -/

theorem romSingleOp_eq_none_iff (w : Word) :
    romSingleOp (w.extractLsb' 6 10) = none ↔ w.toNat < 0x0C40 ∨ 0x0E00 ≤ w.toNat := by
  have hk := toNat_extract w 6 10
  unfold romSingleOp
  split <;> simp only [reduceCtorEq, false_iff, true_iff, imp_false] at * <;> omega

theorem romFixedOp_eq_none_iff (w : Word) :
    romFixedOp w = none ↔ w.toNat ∉ [0x0301, 0x0302, 0x0780, 0x07C0, 0x0C00, 0x0C02, 0x0C04, 0x0C06] := by
  unfold romFixedOp
  split <;> simp_all

/-- The ROM gives a meaning, or has one that is not knowable, to MID opcodes alone. -/
theorem decodeMain_mid_of_decodeRom (h : decodeRom w ≠ .mid) : decodeMain w = .mid := by
  rw [decodeMain_eq_mid_iff]
  contrapose! h
  have h3 : 0x0301 ≤ w.toNat → 0x033F < w.toNat := h (0x0301, 0x033F) (by decide)
  have h7 : 0x0780 ≤ w.toNat → 0x07FF < w.toNat := h (0x0780, 0x07FF) (by decide)
  have hc : 0x0C00 ≤ w.toNat → 0x0C08 < w.toNat := h (0x0C00, 0x0C08) (by decide)
  have hr : 0x0C0C ≤ w.toNat → 0x0FFF < w.toNat := h (0x0C0C, 0x0FFF) (by decide)
  have hs : romSingleOp (w.extractLsb' 6 10) = none := (romSingleOp_eq_none_iff w).2 (by omega)
  have hf : romFixedOp w = none :=
    (romFixedOp_eq_none_iff w).2 (by simp only [List.mem_cons, List.not_mem_nil, or_false]; omega)
  have hu : romUnknown w = false := by
    simp only [romUnknown, Bool.or_eq_false_iff, Bool.and_eq_false_iff, decide_eq_false_iff_not, beq_eq_false_iff_ne]
    omega
  simp only [decodeRom, hs, hf, hu, Bool.false_eq_true, if_false]

theorem first_rom_eq {f : First} (h : decodeRom w = f) (hf : f ≠ .mid) : Context.first .rom w = f := by
  simp only [Context.first, decodeMain_mid_of_decodeRom (h ▸ hf), h]

theorem first_rom_encSingle {b : Word} {p : Operand} {mk} (hp : p.wf = true) (hb : b.Clear 6)
    (h : romSingleOp (b.extractLsb' 6 10) = some mk) : Context.first .rom (encSingle b p) = .instr (mk p) := by
  obtain ⟨hk, hs⟩ := (encSingle_eq_iff hp hb).1 rfl
  refine first_rom_eq ?_ nofun
  simp only [decodeRom, (congrArg romSingleOp hk).trans h, hs]

end

/-! ### Second words -/

section
variable {p q : Operand}

theorem testWord_fields {d : Nibble} (hw : (p.wf && p.notInc) = true) :
    let w := encField 0x0000 p d
    (w.extractLsb' 10 6 = 0#6 ∧ w.extractLsb' 4 2 ≠ 3#2) ∧ srcField w = p ∧ midField w = d := by
  obtain ⟨hp, hn⟩ := Bool.and_eq_true_iff.1 hw
  obtain ⟨hk, hs, hd⟩ := (encField_eq_iff (b := 0x0000) (d := d) hp (by decide)).1 rfl
  refine ⟨⟨hk, ?_⟩, hs, hd⟩
  rw [← hs, srcField_notInc] at hn
  exact of_decide_eq_true hn

theorem shiftWord_fields {d : Nibble} (hp : p.wf = true) :
    let w := encField 0x4000 p d
    w.extractLsb' 10 6 = 0x10#6 ∧ srcField w = p ∧ midField w = d :=
  (encField_eq_iff hp (by decide)).1 rfl

theorem pairWord_fields (hw : (p.wf && q.wf) = true) :
    let w := encDual 0x4000 p q
    w.extractLsb' 12 4 = 0x4#4 ∧ srcField w = p ∧ dstField w = q := by
  obtain ⟨hp, hq⟩ := Bool.and_eq_true_iff.1 hw
  exact (encDual_eq_iff hp hq (by decide)).1 rfl

theorem romWord_fields (hw : (p.wf && q.wf) = true) :
    let w := encDual 0x0000 p q
    w.extractLsb' 12 4 = 0x0#4 ∧ srcField w = p ∧ dstField w = q := by
  obtain ⟨hp, hq⟩ := Bool.and_eq_true_iff.1 hw
  exact (encDual_eq_iff hp hq (by decide)).1 rfl

end

/-- The second words that a two-word opcode does not take (spec/30_encoding.md R164; for CR and MM,
spec/48_tms99110a_extensions.md R536). -/
def TwoWord.Illegal (n : Nat) : TwoWord → Prop
  | .tmb | .tcmb | .tsmb => 0x0400 ≤ n ∨ n / 16 % 4 = 3
  | .am | .sm => n < 0x4000 ∨ 0x5000 ≤ n
  | .slam | .sram => n < 0x4000 ∨ 0x4400 ≤ n
  | .cr | .mm => 0x1000 ≤ n

theorem decodeSecond_eq_none_iff {k : TwoWord} {w : Word} : decodeSecond k w = none ↔ k.Illegal w.toNat := by
  have hlt := w.isLt
  cases k with
  | tmb | tcmb | tsmb | slam | sram | am | sm | cr | mm =>
    simp only [decodeSecond, TwoWord.Illegal, ite_eq_right_iff, reduceCtorEq, imp_false, ← BitVec.toNat_inj,
      toNat_extract, BitVec.toNat_ofNat, ne_eq]
    omega

/-! ### Whole instructions -/

/-- The opcode words decode in the context to the instruction. -/
inductive Context.Decodes (c : Context) (i : Instr) : List Word → Prop
  | one {w : Word} (h : c.first w = .instr i) : c.Decodes i [w]
  | two {w v : Word} {k : TwoWord} (h : c.first w = .two k) (h2 : decodeSecond k v = some i) : c.Decodes i [w, v]

/-- Whatever decodes is well formed and is its own encoding. -/
theorem hasWords_of_decodes {c : Context} {i : Instr} {ws : List Word} (h : c.Decodes i ws) : i.HasWords ws := by
  cases h with
  | one h => exact hasWords_of_first h
  | two h h2 => exact eq_opcode_of_first h ▸ hasWords_of_decodeSecond h2

/-- An instruction's words decode to it, format by format. -/
theorem decodes_encode {i : Instr} (hw : i.wf = true) : i.context.Decodes i (encode i) := by
  cases i with
  | szc | szcb | s | sb | c | cb | a | ab | mov | movb | soc | socb =>
    exact .one (decodeMain_encDual hw (by decide) rfl)
  | coc | czc | xor | mpy | div | xop | ldcr | stcr => exact .one (decodeMain_encField hw (by decide) rfl)
  | mpys | divs | bind | blwp | b | x | clr | neg | inv | inc | inct | dec | dect | bl | swpb | seto | abs =>
    exact .one (decodeMain_encSingle hw (by decide) rfl)
  | jmp | jlt | jle | jeq | jhe | jgt | jne | jnc | joc | jno | jl | jh | jop | sbo | sbz | tb =>
    exact .one (decodeMain_encDisp (by decide) rfl)
  | sra | srl | sla | src => exact .one (decodeMain_encShift (by decide) rfl)
  | li | ai | andi | ori | ci | blsk | stwp | stst | lst | lwp => exact .one (decodeMain_encReg (by decide) rfl)
  | lwpi | limi | idle | rset | rtwp | ckon | ckof | lrex | rtwpExit | rtwpStay | rtwpIllop | rtwpQuiet
  | lds | ldd | cri | negr | cre | cer => exact .one rfl
  | tmb p d | tcmb p d | tsmb p d =>
    obtain ⟨hk, hs, hd⟩ := testWord_fields (d := d) hw
    exact .two rfl ((if_pos hk).trans (by rw [hs, hd]))
  | slam p d | sram p d =>
    obtain ⟨hk, hs, hd⟩ := shiftWord_fields (d := d) hw
    exact .two rfl ((if_pos hk).trans (by rw [hs, hd]))
  | am p q | sm p q =>
    obtain ⟨hk, hs, hd⟩ := pairWord_fields hw
    exact .two rfl ((if_pos hk).trans (by rw [hs, hd]))
  | cr p q | mm p q =>
    obtain ⟨hk, hs, hd⟩ := romWord_fields hw
    exact .two rfl ((if_pos hk).trans (by rw [hs, hd]))
  | evad p =>
    obtain ⟨hk, hs⟩ := (encSingle_eq_iff (b := 0x0100#16) hw (by decide)).1 rfl
    exact .one ((decodeMacrostore_evad hk).trans (by rw [hs]))
  | jip | jnep => exact .one (decodeMacrostore_encDisp (by decide) rfl)
  | ar | cir | sr | mr | dr | lr | str => exact .one (first_rom_encSingle hw (by decide) rfl)

end Sys2Proof
end

section
/-! SUPPORT. Decoding from bytes and inside Macrostore, and the MID opcodes; with these the statements on encoding are
settled. -/

namespace Sys2Proof.Machine

/-! ### Decoding bytes -/

theorem bytesOfWord_wordOfBytes (h l : Byte) : bytesOfWord (wordOfBytes h l) = [h, l] := by
  simp [bytesOfWord]

section
variable {c : Context} {w v : Word} {rest : List Byte}

theorem decode_of_instr {i : Instr} (h : c.first w = .instr i) :
    decode c (bytesOfWord w ++ rest) = .ok (i, rest) := by
  simp only [bytesOfWord, List.cons_append, List.nil_append, decode, wordOfBytes_hi8_lo8, h]

theorem decode_of_mid (h : c.first w = .mid) : decode c (bytesOfWord w ++ rest) = .error .mid := by
  simp only [bytesOfWord, List.cons_append, List.nil_append, decode, wordOfBytes_hi8_lo8, h]

theorem decode_of_undefined (h : c.first w = .undefined) :
    decode c (bytesOfWord w ++ rest) = .error .undefined := by
  simp only [bytesOfWord, List.cons_append, List.nil_append, decode, wordOfBytes_hi8_lo8, h]

theorem decode_of_two {k : TwoWord} (h : c.first w = .two k) :
    decode c (bytesOfWord w ++ bytesOfWord v ++ rest) =
      (decodeSecond k v).elim (.error .midSecond) fun i => .ok (i, rest) := by
  simp only [bytesOfWord, List.cons_append, List.nil_append, decode, wordOfBytes_hi8_lo8, h]
  cases decodeSecond k v <;> rfl

theorem decode_eq_midSecond_iff :
    decode c (bytesOfWord w ++ bytesOfWord v) = .error .midSecond ↔
      ∃ k, c.first w = .two k ∧ decodeSecond k v = none := by
  cases h : c.first w with
  | instr => simp [decode_of_instr h]
  | mid => simp [decode_of_mid h]
  | undefined => simp [decode_of_undefined h]
  | two k =>
    have hk := decode_of_two (v := v) (rest := []) h
    rw [List.append_nil] at hk
    cases h2 : decodeSecond k v <;> simp [hk, h2]

theorem decode_of_decodes {i : Instr} {ws : List Word} (h : c.Decodes i ws) :
    decode c (ws.flatMap bytesOfWord ++ rest) = .ok (i, rest) := by
  cases h with
  | @one w h => simpa using decode_of_instr h
  | @two w v k h h2 => simpa [h2] using decode_of_two (v := v) (rest := rest) h

theorem decodes_of_decode {bytes : List Byte} {i : Instr} (h : decode c bytes = .ok (i, rest)) :
    ∃ ws, c.Decodes i ws ∧ bytes = ws.flatMap bytesOfWord ++ rest := by
  obtain ⟨hi, lo, r, rfl, ⟨h1, rfl⟩ | ⟨k, hi2, lo2, h1, rfl, h2⟩⟩ := decode_ok h
  · exact ⟨_, .one h1, by simp [bytesOfWord_wordOfBytes]⟩
  · exact ⟨_, .two h1 h2, by simp [bytesOfWord_wordOfBytes]⟩

end

theorem decode_encodeBytes {i : Instr} (hw : i.wf = true) (rest : List Byte) :
    decode i.context (encodeBytes i ++ rest) = .ok (i, rest) :=
  decode_of_decodes (decodes_encode hw)

/-! ### Inside Macrostore -/

/-- A word with a meaning in main memory keeps it inside Macrostore, but for RTWP, SBO, SBZ and TB. -/
theorem decodeMacrostore_of_decodeMain {w : Word} {f : First} (h : decodeMain w = f) (hm : f ≠ .mid)
    (hr : f ≠ .instr .rtwp) (ho : ∀ d, f ≠ .instr (.sbo d)) (hz : ∀ d, f ≠ .instr (.sbz d))
    (ht : ∀ d, f ≠ .instr (.tb d)) : decodeMacrostore w = f := by
  subst h
  refine decodeMacrostore_eq_decodeMain hm (fun h => hr (h ▸ rfl)) fun h => ?_
  obtain ⟨d, h | h | h⟩ := decodeMain_redefined h
  · exact ho d h
  · exact hz d h
  · exact ht d h

/-- The same for an instruction with all its words. -/
theorem decodes_macrostore_of_main {i : Instr} {ws : List Word} (h : Context.main.Decodes i ws) (hr : i ≠ .rtwp)
    (ho : ∀ d, i ≠ .sbo d) (hz : ∀ d, i ≠ .sbz d) (ht : ∀ d, i ≠ .tb d) : Context.macrostore.Decodes i ws := by
  cases h with
  | one h =>
    exact .one (decodeMacrostore_of_decodeMain h nofun (by simpa using hr) (by simpa using ho) (by simpa using hz)
      (by simpa using ht))
  | two h h2 => exact .two (decodeMacrostore_of_decodeMain h nofun nofun nofun nofun nofun) h2

/-! ### MID opcodes -/

theorem illegal_second_main_iff {w1 w2 : Word} :
    decode .main (bytesOfWord w1 ++ bytesOfWord w2) = .error .midSecond ↔
      (w1 ∈ [0x0C09#16, 0x0C0A#16, 0x0C0B#16] ∧ TwoWord.tmb.Illegal w2.toNat) ∨
      (w1 ∈ [0x002A#16, 0x0029#16] ∧ TwoWord.am.Illegal w2.toNat) ∨
      (w1 ∈ [0x001D#16, 0x001C#16] ∧ TwoWord.slam.Illegal w2.toNat) := by
  simp only [decode_eq_midSecond_iff, decodeSecond_eq_none_iff]
  constructor
  · rintro ⟨k, hk, hn⟩
    obtain rfl := eq_opcode_of_decodeMain hk
    cases k with
    | tmb | tcmb | tsmb => exact .inl ⟨by decide, hn⟩
    | am | sm => exact .inr (.inl ⟨by decide, hn⟩)
    | slam | sram => exact .inr (.inr ⟨by decide, hn⟩)
    | cr | mm => nomatch hk
  · simp only [List.mem_cons, List.not_mem_nil, or_false]
    rintro (⟨rfl | rfl | rfl, hn⟩ | ⟨rfl | rfl, hn⟩ | ⟨rfl | rfl, hn⟩)
    exacts [⟨.tmb, rfl, hn⟩, ⟨.tcmb, rfl, hn⟩, ⟨.tsmb, rfl, hn⟩, ⟨.am, rfl, hn⟩, ⟨.sm, rfl, hn⟩, ⟨.slam, rfl, hn⟩,
      ⟨.sram, rfl, hn⟩]

/-- XOP under emulation raises a MID trap (spec/42_xop_single_operand.md R280). -/
theorem exec_xop_emulated {s : State} (hm : s.inMs = false) (he : stBit s.st 11 = true) (src : Operand) (n : Nibble) :
    exec (.xop src n) s = outcome (raiseMid (encField 0x2C00#16 src n) .xop) s := by
  simp only [exec, execXop, outcome, gets_bind, hm, he, if_true, Bool.false_eq_true, if_false]

theorem midRoute_baseline_iff (s : State) : s.midRoute = .baseline ↔ s.msMode = .baseline := by
  unfold State.midRoute; split_ifs <;> simp [*]

theorem midRoute_attached_iff (s : State) :
    s.midRoute = .attached ↔ s.msMode ≠ .baseline ∧ s.pins.appMid = true := by
  unfold State.midRoute; split_ifs <;> simp [*]

end Sys2Proof.Machine

open Sys2Proof Sys2Proof.Machine

/-- Settles O5: the words of each format decode to the instruction by the table its opcode stands in. -/
theorem decodeInvertsEncode : Obligations.DecodeInvertsEncode := fun _ rest hw => decode_encodeBytes hw rest

/-- Settles O6: what a table names at a word is encoded as that word, its fields put back beside its opcode. -/
theorem decodedBytesAreTheEncoding : Obligations.DecodedBytesAreTheEncoding := by
  intro c bytes rest i h
  obtain ⟨ws, hd, rfl⟩ := decodes_of_decode h
  obtain ⟨hw, rfl⟩ := hasWords_of_decodes hd
  exact ⟨hw, rfl⟩

/-- Settles O7: the words with a meaning of their own inside Macrostore are MID opcodes in main memory or RTWP, SBO, SBZ
and TB, and every other word is decoded there as in main memory. -/
theorem macrostoreDecodesAsMainMemory : Obligations.MacrostoreDecodesAsMainMemory := by
  refine ⟨fun w => decodeMacrostore_eq_decodeMain, fun p hp => ?evad, ?evadWord, rfl, rfl, rfl, rfl, ?same, ?other⟩
  case evad =>
    cases decodes_encode (i := .evad p) hp with
    | one h => exact h
  case evadWord =>
    exact fun w hl hu => ⟨_, decodeMacrostore_evad ((evad_opcode_iff w).2 ⟨hl, hu⟩)⟩
  case same =>
    intro i rest hw hc hr ho hz ht
    exact decode_of_decodes (decodes_macrostore_of_main (hc ▸ decodes_encode hw) hr ho hz ht)
  case other =>
    intro d rest
    refine ⟨decode_encodeBytes (i := .rtwpExit) rfl rest, decode_encodeBytes (i := .jip d) rfl rest,
      decode_encodeBytes (i := .jnep d) rfl rest,
      decode_of_undefined (decodeMacrostore_encDisp (b := 0x1F00) (d := d) (by decide) rfl)⟩

/-- Settles O9: a first word in none of the opcode tables, by the range of words each table has rows for; and a second
word outside the range its opcode takes. -/
theorem midOpcodesAreTheListedRanges : Obligations.MidOpcodesAreTheListedRanges :=
  ⟨fun _ => decodeMain_eq_mid_iff, by decide, by decide, rfl, rfl, fun src n _ hm he => exec_xop_emulated hm he src n,
    fun _ _ => illegal_second_main_iff, fun s => ⟨midRoute_baseline_iff s, midRoute_attached_iff s⟩⟩

/-- Settles O8, by evaluation. -/
theorem writtenOutWordsDecode : Obligations.WrittenOutWordsDecode := by
  unfold Obligations.WrittenOutWordsDecode
  decide

end

section
/-! SUPPORT. What an instruction on general operands leaves alone on a calm bus, in main memory and inside Macrostore: a
relation between the state before it and every state on its way, which each shared operation keeps that stores at no
other location and sets no other status bit. -/

namespace Sys2Proof.Machine

/-! ### Status bits left alone -/

/-- Every status bit but those listed is unchanged. -/
def StatusKept (bits : List Nat) (old new : Word) : Prop := ∀ n, n < 16 → n ∉ bits → stBit new n = stBit old n

/-- A status known bit by bit has every other bit as it was. -/
theorem StatusIs.kept {old new : Word} {vals : List (Nat × Bool)} (h : StatusIs old new vals) :
    StatusKept (vals.map Prod.fst) old new := by
  intro n hn hb
  have hl : vals.lookup n = none := by
    rw [List.lookup_eq_none_iff]
    intro p hp
    simpa using fun e : n = p.1 => hb (e ▸ List.mem_map_of_mem hp)
  rw [h n hn, hl, Option.getD_none]

theorem StatusKept.refl (bits : List Nat) (st : Word) : StatusKept bits st st := fun _ _ _ => rfl

theorem StatusKept.trans {bits : List Nat} {a b c : Word} (h : StatusKept bits a b) (k : StatusKept bits b c) :
    StatusKept bits a c := fun n hn hb => (k n hn hb).trans (h n hn hb)

theorem StatusKept.mono {bits more : List Nat} {a b : Word} (h : StatusKept bits a b) (hm : bits ⊆ more) :
    StatusKept more a b := fun n hn hb => h n hn fun hi => hb (hm hi)

theorem statusKept_stSet {k : Nat} (hk : k < 16) (b : Bool) (st : Word) : StatusKept [k] st (stSet st k b) :=
  ((StatusIs.refl st).set hk rfl b).kept

theorem statusKept_setLae {n : Nat} (r : BitVec n) (st : Word) : StatusKept [0, 1, 2] st (setLae r st) :=
  (StatusIs_setLae r st).kept

theorem statusKept_add {n : Nat} (x y : BitVec (n + 1)) (st : Word) :
    StatusKept [0, 1, 2, 3, 4] st (setArith (addN x y) st) := (StatusIs_setArith_add x y st).kept

theorem statusKept_sub {n : Nat} (x y : BitVec (n + 1)) (st : Word) :
    StatusKept [0, 1, 2, 3, 4] st (setArith (subN x y) st) := (StatusIs_setArith_sub x y st).kept

theorem statusKept_addParity {n : Nat} (x y : BitVec (n + 1)) (b : Byte) (st : Word) :
    StatusKept [0, 1, 2, 3, 4, 5] st (setParity b (setArith (addN x y) st)) :=
  ((StatusIs_setArith_add x y st).parity rfl b).kept

theorem statusKept_subParity {n : Nat} (x y : BitVec (n + 1)) (b : Byte) (st : Word) :
    StatusKept [0, 1, 2, 3, 4, 5] st (setParity b (setArith (subN x y) st)) :=
  ((StatusIs_setArith_sub x y st).parity rfl b).kept

/-- Negation and absolute value give the carry and the overflow apart from the result. -/
theorem statusKept_laeCarryOverflow {n : Nat} (r : BitVec n) (c v : Bool) (st : Word) :
    StatusKept [0, 1, 2, 3, 4] st (setOverflow v (setCarry c (setLae r st))) :=
  (((StatusIs_setLae r st).set (k := 3) (by decide) rfl c).set (k := 4) (by decide) rfl v).kept

theorem statusKept_setByteLogic (r : Byte) (st : Word) : StatusKept [0, 1, 2, 5] st (setByteLogic r st) :=
  ((StatusIs_setLae r st).parity rfl r).kept

theorem statusKept_compareParity {n : Nat} (x y : BitVec n) (b : Byte) (st : Word) :
    StatusKept [0, 1, 2, 5] st (setParity b (cmpLae x y st)) := ((StatusIs_cmpLae x y st).parity rfl b).kept

/-! ### The frame -/

theorem SameControl.inMs {s t : State} (h : SameControl s t) : t.inMs = s.inMs := by simp_all [SameControl]
theorem SameControl.ldf {s t : State} (h : SameControl s t) : t.ldf = s.ldf := by simp_all [SameControl]
theorem SameControl.bus {s t : State} (h : SameControl s t) : t.bus = s.bus := by simp_all [SameControl]
theorem SameControl.draws {s t : State} (h : SameControl s t) : t.draws = s.draws := by simp_all [SameControl]
theorem SameControl.params {s t : State} (h : SameControl s t) : t.params = s.params := by simp_all [SameControl]
theorem SameControl.withDraws {s t : State} (h : SameControl s t) (n : Nat) :
    SameControl (s.withDraws n) (t.withDraws n) := by simp_all [SameControl]

/-- From `s` to `t` nothing has changed but PC, the opcode read ahead, the status bits listed, and the bytes of the
words at the locations listed, as `s` maps them. -/
structure Framed (s : State) (ls : List Loc) (bits : List Nat) (t : State) : Prop where
  bytes : SameBytesExcept s s t ls
  wp : t.wp = s.wp
  control : SameControl s t
  status : StatusKept bits s.st t.st

/-- Where frames are kept: on a calm bus, with ST8, which has a part in where words lie, not among the bits listed. -/
structure Framing (s : State) (bits : List Nat) : Prop where
  calm : s.calm
  mapSelect : 8 ∉ bits

theorem Framed.refl (s : State) (ls : List Loc) (bits : List Nat) : Framed s ls bits s :=
  ⟨fun _ _ _ => rfl, rfl, SameControl.refl s, StatusKept.refl bits s.st⟩

section
variable {s t : State} {ls : List Loc} {bits : List Nat} (h : Framed s ls bits t)
include h

/-- The frame, part by part. -/
theorem Framed.parts : SameBytesExcept s s t ls ∧ t.wp = s.wp ∧ SameControl s t ∧
    ∀ n, n < 16 → n ∉ bits → stBit t.st n = stBit s.st n := ⟨h.bytes, h.wp, h.control, h.status⟩

theorem Framed.calm (hc : s.calm) : t.calm := hc.of_eq h.control.bus h.control.params

theorem Framed.regLoc (r : Nibble) : t.regLoc r = s.regLoc r := by
  simp only [State.regLoc, State.space, State.regAddr, h.control.inMs, h.wp]

theorem Framed.nextRegLoc (r : Nibble) : t.nextRegLoc r = s.nextRegLoc r := by
  rw [State.nextRegLoc, h.regLoc, State.nextRegLoc]

theorem Framed.withPc (v : Word) : Framed s ls bits (t.withPc v) := ⟨h.bytes, h.wp, h.control, h.status⟩

theorem Framed.withPrefetch (v : Option Word) : Framed s ls bits (t.withPrefetch v) :=
  ⟨h.bytes, h.wp, h.control, h.status⟩

theorem Framed.withSt {v : Word} (hv : StatusKept bits t.st v) : Framed s ls bits (t.withSt v) :=
  ⟨h.bytes, h.wp, h.control, h.status.trans hv⟩

/-- A store at a location of the frame: the words of the frame lie where they lay before. -/
theorem Framed.putWord (hF : Framing s bits) {l : Loc} (hl : l ∈ ls) (v : Word) : Framed s ls bits (t.putWord l v) where
  bytes sp a ha := by
    have hcov : t.covers l sp a ↔ s.covers l sp a :=
      covers_congr h.control.params (h.status 8 (by decide) hF.mapSelect) h.control.ldf l sp a
    rw [byteOf_putWord t l v sp a (hcov.not.2 (ha l hl)), h.bytes sp a ha]
  wp := (State.putWord_wp t l v).trans h.wp
  control := h.control.trans (SameControl.putWord (h.calm hF.calm) l v)
  status := by rw [State.putWord_st]; exact h.status

end

/-! ### Computations within a frame -/

/-- From every state of the frame the computation ends in one, or is refused; it is never cut. -/
abbrev Within {α : Type} (s : State) (ls : List Loc) (bits : List Nat) (m : M α) : Prop :=
  Takes (Framed s ls bits) m (Framed s ls bits) fun _ => False

/-- A first part whose answer is known. -/
theorem Takes.known_bind {α β : Type} {m : M α} {k : α → M β} {s u : State} {a : α} {Q C : State → Prop}
    (h : m s = .ok (a, u)) (hk : Takes (· = u) (k a) Q C) : Takes (· = s) (m >>= k) Q C := by
  refine ⟨fun v hv => ?_⟩
  rw [hv, M.bind_ok h]
  exact hk.ends u rfl

/-- A computation that is never cut has a next state only where it ends. -/
theorem Takes.next {P Q : State → Prop} {m : M Unit} {s t : State} (h : Takes P m Q fun _ => False) (hs : P s)
    (ht : outcome m s = .next t) : Q t :=
  (h.leaves hs t ht).elim id fun ⟨_, hu, _⟩ => hu.elim

/-- On a calm bus a read is refused or changes nothing. -/
theorem ends_readLoc {s : State} (hc : s.calm) {Q C : State → Prop} (hs : Q s) (l : Loc) : Ends Q C (readLoc l s) := by
  by_cases hr : s.reads l
  · rw [readLoc_calm hc hr]; exact hs
  · rw [readLoc_unread hc hr]; trivial

/-- On a calm bus a write is refused or stores. -/
theorem ends_writeLoc {s : State} (hc : s.calm) {Q C : State → Prop} {l : Loc} {v : Word} (hs : Q (s.putWord l v)) :
    Ends Q C (writeLoc l v s) := by
  by_cases hw : s.writes l
  · rw [writeLoc_calm hc hw]; exact hs
  · obtain ⟨hm, hram, hext⟩ : l.space = .macrostore ∧ msRegion s l.addr ≠ .ram ∧ msRegion s l.addr ≠ .extRom := by
      simpa [State.writes] using hw
    simp only [writeLoc, hm, msWrite, M.bind_ok (busCycle_calm hc)]
    cases hr : msRegion s l.addr with
    | ram => exact absurd hr hram
    | extRom => exact absurd hr hext
    | absent | mrom | mromUnknown => trivial

section
variable {s : State} {bits : List Nat} (hF : Framing s bits) {ls : List Loc}
include hF

theorem Framing.readLoc_within (l : Loc) : Within s ls bits (readLoc l) :=
  ⟨fun _ ht => ends_readLoc (ht.calm hF.calm) ht l⟩

theorem Framing.writeLoc_within {l : Loc} (hl : l ∈ ls) (v : Word) : Within s ls bits (writeLoc l v) :=
  ⟨fun _ ht => ends_writeLoc (ht.calm hF.calm) (ht.putWord hF hl v)⟩

theorem Framing.readReg_within (r : Nibble) : Within s ls bits (readReg r) := .read fun _ => hF.readLoc_within _

theorem Framing.writeReg_within {r : Nibble} (hr : s.regLoc r ∈ ls) (v : Word) : Within s ls bits (writeReg r v) :=
  .gets_of (· = s.regLoc r) (fun _ ht => ht.regLoc r) fun _ hl => hF.writeLoc_within (hl.symm ▸ hr) v

omit hF in
theorem setPc_within (v : Word) : Within s ls bits (setPc v) := .update fun _ ht => ht.withPc _

omit hF in
theorem updateSt_within {f : Word → Word} (hf : ∀ st, StatusKept bits st (f st)) : Within s ls bits (updateSt f) :=
  .update fun _ ht => ht.withSt (hf _)

theorem Framing.settle_within {f : Word → Word} (hf : ∀ st, StatusKept bits st (f st)) : Within s ls bits (settle f) :=
  ⟨fun t ht => by rw [settle_calm (ht.calm hF.calm)]; exact ht.withSt (hf t.st)⟩

theorem Framing.fetchWord_within (code : BusCode) : Within s ls bits (fetchWord code) :=
  .read fun _ => .read fun _ => .bind (hF.readLoc_within _) fun _ => .bind (setPc_within _) fun _ => .pure _

theorem Framing.prefetchAt_within (a : Word) : Within s ls bits (prefetchAt a) :=
  .read fun _ => .bind (hF.readLoc_within _) fun _ => .update fun _ ht => ht.withPrefetch _

theorem Framing.prefetchNext_within : Within s ls bits prefetchNext := .read fun _ => hF.prefetchAt_within _

theorem Framing.continueAt_within (a : Word) : Within s ls bits (continueAt a) :=
  .bind (hF.prefetchAt_within _) fun _ => setPc_within a

/-- A derivation writes the register of an autoincrement and nothing else (spec/40_addressing_modes.md R206). -/
theorem Framing.operandLoc_within {op : Operand} (ho : s.stepped op ⊆ ls) (n : Word) (role : BusCode) :
    Within s ls bits (operandLoc op n role) := by
  cases op with
  | reg r => exact .gets _
  | ind r => exact .bind (hF.readReg_within r) fun _ => .gets _
  | sym => exact .bind (hF.fetchWord_within _) fun _ => .gets _
  | idx r => exact .bind (hF.readReg_within r) fun _ => .bind (hF.fetchWord_within _) fun _ => .gets _
  | inc r =>
    exact .bind (hF.readReg_within r) fun _ =>
      .bind (hF.writeReg_within (ho (List.mem_singleton.2 rfl)) _) fun _ => .gets _

theorem Framing.srcLoc_within {op : Operand} (ho : s.stepped op ⊆ ls) (n : Word) : Within s ls bits (srcLoc op n) :=
  hF.operandLoc_within ho n .sop
theorem Framing.dstLoc_within {op : Operand} (ho : s.stepped op ⊆ ls) (n : Word) : Within s ls bits (dstLoc op n) :=
  hF.operandLoc_within ho n .dop

/-- The end of an instruction that stores nothing after the prefetch. -/
theorem Framing.prefetchSettle_within {f : Word → Word} (hf : ∀ st, StatusKept bits st (f st)) :
    Within s ls bits (do prefetchNext; settle f) := .bind hF.prefetchNext_within fun _ => hF.settle_within hf

/-- The end of an instruction that stores its result after the prefetch. -/
theorem Framing.prefetchStore_within {l : Loc} (hl : l ∈ ls) (v : Word) {f : Word → Word}
    (hf : ∀ st, StatusKept bits st (f st)) : Within s ls bits (do prefetchNext; writeLoc l v; updateSt f) :=
  .bind hF.prefetchNext_within fun _ => .bind (hF.writeLoc_within hl v) fun _ => updateSt_within hf

/-- The same with a register to store in. -/
theorem Framing.prefetchStoreReg_within {r : Nibble} (hr : s.regLoc r ∈ ls) (v : Word) {f : Word → Word}
    (hf : ∀ st, StatusKept bits st (f st)) : Within s ls bits (do prefetchNext; writeReg r v; updateSt f) :=
  .bind hF.prefetchNext_within fun _ => .bind (hF.writeReg_within hr v) fun _ => updateSt_within hf

/-! ### Operands derived and read -/

variable {src dst : Operand} {n : Word}

/-- A source derived and read, and what comes after it. -/
theorem Framing.source_within {k : Loc → Word → M Unit} (hs : s.stepped src ⊆ ls)
    (hk : ∀ l x, Within s ls bits (k l x)) : Within s ls bits (srcLoc src n >>= fun l => readLoc l >>= k l) :=
  .bind (hF.srcLoc_within hs n) fun l => .bind (hF.readLoc_within l) (hk l)

/-- Both operands derived and read, and what comes after that. -/
theorem Framing.operands_within {k : Loc → Word → Loc → Word → M Unit} (hs : s.stepped src ⊆ ls)
    (hd : s.stepped dst ⊆ ls) (hk : ∀ l x m y, Within s ls bits (k l x m y)) :
    Within s ls bits
      (srcLoc src n >>= fun l => readLoc l >>= fun x => dstLoc dst n >>= fun m => readLoc m >>= k l x m) :=
  hF.source_within hs fun l x => .bind (hF.dstLoc_within hd n) fun m => .bind (hF.readLoc_within m) (hk l x m)

variable {sl dl : Loc} {s1 s2 t : State} {stored : List Loc}

/-- What comes after the derivation of the source knows the location derived. -/
theorem Framing.after_srcLoc {k : Loc → M Unit} (hsl : srcLoc src n s = .ok (sl, s1))
    (hk : Within s (stored ++ s.stepped src) bits (k sl)) (ht : outcome (srcLoc src n >>= k) s = .next t) :
    Framed s (stored ++ s.stepped src) bits t := by
  have h1 : Framed s (stored ++ s.stepped src) bits s1 :=
    (hF.srcLoc_within (List.subset_append_right _ _) n).ok (Framed.refl s _ bits) hsl
  exact (Takes.known_bind hsl (hk.mono (fun _ e => e ▸ h1) (fun _ => id) fun _ => id)).next rfl ht

/-- What comes after the derivation of both operands, the source read between, knows both locations. -/
theorem Framing.after_dstLoc {k : Loc → Word → Loc → M Unit} (hsl : srcLoc src n s = .ok (sl, s1))
    (hdl : dstLoc dst n s1 = .ok (dl, s2))
    (hk : ∀ x, Within s (stored ++ s.stepped dst ++ s.stepped src) bits (k sl x dl))
    (ht : outcome (srcLoc src n >>= fun l => readLoc l >>= fun x => dstLoc dst n >>= k l x) s = .next t) :
    Framed s (stored ++ s.stepped dst ++ s.stepped src) bits t := by
  have h1 : Framed s (stored ++ s.stepped dst ++ s.stepped src) bits s1 :=
    (hF.srcLoc_within (List.subset_append_right _ _) n).ok (Framed.refl s _ bits) hsl
  have h2 : Framed s (stored ++ s.stepped dst ++ s.stepped src) bits s2 :=
    (hF.dstLoc_within (List.subset_append_of_subset_left _ (List.subset_append_right _ _)) n).ok h1 hdl
  have hread : Takes (· = s1) (readLoc sl) (· = s1) fun _ => False :=
    ⟨fun u (e : u = s1) => ends_readLoc (Q := (· = s1)) (e ▸ h1.calm hF.calm) e sl⟩
  refine (Takes.known_bind hsl (.bind hread fun x => .known_bind hdl ?_)).next rfl ht
  exact (hk x).mono (fun _ e => e ▸ h2) (fun _ => id) fun _ => id

end

end Sys2Proof.Machine
end

section
/-! SUPPORT. The frame of each instruction on general operands, in main memory and inside Macrostore; with these the
statement on them is settled. -/

namespace Sys2Proof.Machine

/-! ### Frames that several instructions share -/

section
variable {s t s1 s2 : State} {bits : List Nat} (hF : Framing s bits) {src dst : Operand} {sl dl : Loc}
include hF

theorem dualWord_framed {res : Word → Word → Word} {fl : Word → Word → Word → Word}
    (hf : ∀ x y st, StatusKept bits st (fl x y st)) (hsl : srcLoc src wordStep s = .ok (sl, s1))
    (hdl : dstLoc dst wordStep s1 = .ok (dl, s2)) (ht : outcome (dualWord res fl src dst) s = .next t) :
    Framed s ([dl] ++ s.stepped dst ++ s.stepped src) bits t :=
  hF.after_dstLoc hsl hdl
    (fun _ => .bind (hF.readLoc_within _) fun _ => hF.prefetchStore_within (by simp) _ (hf _ _)) ht

theorem dualByte_framed {res : Byte → Byte → Byte} {fl : Byte → Byte → Word → Word}
    (hf : ∀ x y st, StatusKept bits st (fl x y st)) (hsl : srcLoc src byteStep s = .ok (sl, s1))
    (hdl : dstLoc dst byteStep s1 = .ok (dl, s2)) (ht : outcome (dualByte res fl src dst) s = .next t) :
    Framed s ([dl] ++ s.stepped dst ++ s.stepped src) bits t :=
  hF.after_dstLoc hsl hdl
    (fun _ => .bind (hF.readLoc_within _) fun _ => hF.prefetchStore_within (by simp) _ (hf _ _)) ht

theorem dualLong_framed {op : BitVec 32 → BitVec 32 → Arith 32}
    (hf : ∀ x y st, StatusKept bits st (setArith (op x y) st)) (hsl : srcLoc src longStep s = .ok (sl, s1))
    (hdl : dstLoc dst longStep s1 = .ok (dl, s2)) (ht : outcome (dualLong op src dst) s = .next t) :
    Framed s ([dl, dl.offset 2#16] ++ s.stepped dst ++ s.stepped src) bits t :=
  hF.after_dstLoc hsl hdl
    (fun _ => .bind (hF.readLoc_within _) fun _ => .bind (hF.readLoc_within _) fun _ =>
      .bind (hF.writeLoc_within (by simp) _) fun _ => .bind (hF.readLoc_within _) fun _ =>
      hF.prefetchStore_within (by simp) _ (hf _ _)) ht

theorem modifyWord_framed {res : Word → Word} {fl : Word → Word → Word} (hf : ∀ x st, StatusKept bits st (fl x st))
    (hsl : srcLoc src wordStep s = .ok (sl, s1)) (ht : outcome (modifyWord res fl src) s = .next t) :
    Framed s ([sl] ++ s.stepped src) bits t :=
  hF.after_srcLoc hsl (.bind (hF.readLoc_within _) fun _ => hF.prefetchStore_within (by simp) _ (hf _)) ht

theorem storeWord_framed {v : Word} (hsl : srcLoc src wordStep s = .ok (sl, s1))
    (ht : outcome (storeWord v src) s = .next t) : Framed s ([sl] ++ s.stepped src) bits t :=
  hF.after_srcLoc hsl (.bind hF.prefetchNext_within fun _ => hF.writeLoc_within (by simp) v) ht

theorem shiftLong_framed {step : Shift 32 → Shift 32} {fl : Shift 32 → Word → Word} {k : Nibble}
    (hf : ∀ r st, StatusKept bits st (fl r st)) (hsl : srcLoc src longStep s = .ok (sl, s1))
    (ht : outcome (shiftLong step fl src k) s = .next t) :
    Framed s ([sl, sl.offset 2#16] ++ s.stepped src) bits t := by
  have hcount : Within s ([sl, sl.offset 2#16] ++ s.stepped src) bits (longShiftCount k) :=
    .ite (fun _ => .bind (hF.readReg_within _) fun _ => .pure _) fun _ => .pure _
  exact hF.after_srcLoc hsl
    (.bind (hF.readLoc_within _) fun _ => .bind hcount fun _ => .bind (hF.readLoc_within _) fun _ =>
      .bind (hF.writeLoc_within (by simp) _) fun _ => hF.prefetchStore_within (by simp) _ (hf _)) ht

end

/-! ### Instructions with a meaning of their own -/

section
variable {s t : State} (hc : s.calm) {src dst : Operand} {d : Reg} {k : Nibble} {sl dl : Loc} {s1 s2 : State}
include hc

/-- MOV does not read its destination. -/
theorem execMov_framed (hsl : srcLoc src wordStep s = .ok (sl, s1)) (hdl : dstLoc dst wordStep s1 = .ok (dl, s2))
    (ht : execMov src dst s = .next t) : Framed s ([dl] ++ s.stepped dst ++ s.stepped src) [0, 1, 2] t :=
  have hF : Framing s [0, 1, 2] := ⟨hc, by decide⟩
  hF.after_dstLoc hsl hdl (fun x => hF.prefetchStore_within (by simp) x (statusKept_setLae x)) ht

/-- ABS stores before the prefetch. -/
theorem execAbs_framed (hsl : srcLoc src wordStep s = .ok (sl, s1)) (ht : execAbs src s = .next t) :
    Framed s ([sl] ++ s.stepped src) [0, 1, 2, 3, 4] t :=
  have hF : Framing s [0, 1, 2, 3, 4] := ⟨hc, by decide⟩
  hF.after_srcLoc hsl
    (.bind (hF.readLoc_within _) fun x => .bind (hF.writeLoc_within (by simp) _) fun _ =>
      hF.prefetchSettle_within (statusKept_laeCarryOverflow x false _)) ht

/-- TCMB and TSMB. -/
theorem testBit_store_framed {w : Word} {f : Word → Word → Word} (hi : src.notInc = true)
    (hsl : srcLoc src wordStep s = .ok (sl, s1)) (ht : outcome (testBit w (some f) src k) s = .next t) :
    Framed s ([sl] ++ s.stepped src) [2] t := by
  have hF : Framing s [2] := ⟨hc, by decide⟩
  rw [testBit, if_pos hi] at ht
  exact hF.after_srcLoc hsl
    (.bind (hF.readLoc_within _) fun _ => .bind (hF.writeLoc_within (by simp) _) fun _ =>
      hF.prefetchSettle_within (statusKept_stSet (by decide) _)) ht

theorem execC_framed (ht : execC src dst s = .next t) :
    Framed s ([] ++ s.stepped dst ++ s.stepped src) [0, 1, 2] t :=
  have hF : Framing s [0, 1, 2] := ⟨hc, by decide⟩
  (hF.operands_within (by simp) (by simp) fun _ x _ y =>
    hF.prefetchSettle_within fun st => (StatusIs_cmpLae x y st).kept).next (Framed.refl s _ _) ht

theorem execCb_framed (ht : execCb src dst s = .next t) :
    Framed s ([] ++ s.stepped dst ++ s.stepped src) [0, 1, 2, 5] t :=
  have hF : Framing s [0, 1, 2, 5] := ⟨hc, by decide⟩
  (hF.operands_within (by simp) (by simp) fun _ _ _ _ =>
    hF.prefetchSettle_within (statusKept_compareParity _ _ _)).next (Framed.refl s _ _) ht

/-- COC and CZC. -/
theorem testReg_framed {test : Word → Word → Bool}
    (ht : outcome (do
      let sl ← srcLoc src wordStep
      let x ← readLoc sl
      let y ← readReg d
      prefetchNext
      settle fun st => stSet st 2 (test x y)) s = .next t) : Framed s ([] ++ s.stepped src) [2] t :=
  have hF : Framing s [2] := ⟨hc, by decide⟩
  (hF.source_within (by simp) fun _ _ => .bind (hF.readReg_within d) fun _ =>
    hF.prefetchSettle_within (statusKept_stSet (by decide) _)).next (Framed.refl s _ _) ht

theorem execXor_framed (ht : execXor src d s = .next t) : Framed s ([s.regLoc d] ++ s.stepped src) [0, 1, 2] t :=
  have hF : Framing s [0, 1, 2] := ⟨hc, by decide⟩
  (hF.source_within (by simp) fun _ _ => .bind (hF.readReg_within d) fun _ =>
    hF.prefetchStoreReg_within (by simp) _ (statusKept_setLae _)).next (Framed.refl s _ _) ht

theorem execMpy_framed (ht : execMpy src d s = .next t) :
    Framed s ([s.regLoc d, s.nextRegLoc d] ++ s.stepped src) [] t :=
  have hF : Framing s [] := ⟨hc, by decide⟩
  (hF.source_within (by simp) fun _ _ => .bind (hF.readReg_within d) fun _ =>
    .bind (hF.writeReg_within (by simp) _) fun _ => .bind hF.prefetchNext_within fun _ =>
    .gets_of (· = s.nextRegLoc d) (fun _ h => h.nextRegLoc d) fun _ e =>
      hF.writeLoc_within (by simp [e]) _).next (Framed.refl s _ _) ht

theorem execDiv_framed (ht : execDiv src d s = .next t) :
    Framed s ([s.regLoc d, s.nextRegLoc d] ++ s.stepped src) [4] t :=
  have hF : Framing s [4] := ⟨hc, by decide⟩
  have hoverflow : Within s ([s.regLoc d, s.nextRegLoc d] ++ s.stepped src) [4]
      (do prefetchNext; settle (setOverflow true)) :=
    hF.prefetchSettle_within (statusKept_stSet (by decide) _)
  (hF.source_within (by simp) fun _ _ => .bind (hF.readReg_within d) fun _ => .ite (fun _ => hoverflow) fun _ =>
    .gets_of (· = s.nextRegLoc d) (fun _ h => h.nextRegLoc d) fun _ e => .bind (hF.readLoc_within _) fun _ =>
    .ite (fun _ => hoverflow) fun _ => .bind (hF.writeReg_within (by simp) _) fun _ =>
      hF.prefetchStore_within (by simp [e]) _ (statusKept_stSet (by decide) _)).next (Framed.refl s _ _) ht

theorem execMpys_framed (ht : execMpys src s = .next t) :
    Framed s ([s.regLoc 0#4, s.regLoc 1#4] ++ s.stepped src) [0, 1, 2] t :=
  have hF : Framing s [0, 1, 2] := ⟨hc, by decide⟩
  (hF.source_within (by simp) fun _ _ => .bind (hF.readReg_within _) fun _ =>
    .bind (hF.writeReg_within (by simp) _) fun _ =>
    hF.prefetchStoreReg_within (by simp) _ (statusKept_setLae _)).next (Framed.refl s _ _) ht

theorem execTmb_framed (hi : src.notInc = true) (ht : execTmb src k s = .next t) :
    Framed s ([] ++ s.stepped src) [2] t := by
  have hF : Framing s [2] := ⟨hc, by decide⟩
  rw [execTmb, testBit, if_pos hi] at ht
  exact (hF.source_within (by simp) fun _ _ =>
    hF.prefetchSettle_within (statusKept_stSet (by decide) _)).next (Framed.refl s _ _) ht

theorem execB_framed (ht : execB src s = .next t) : Framed s ([] ++ s.stepped src) [] t :=
  have hF : Framing s [] := ⟨hc, by decide⟩
  Takes.next (.bind (hF.srcLoc_within (by simp) _) fun _ => hF.continueAt_within _) (Framed.refl s _ _) ht

theorem execBl_framed (ht : execBl src s = .next t) : Framed s ([s.regLoc 11#4] ++ s.stepped src) [] t :=
  have hF : Framing s [] := ⟨hc, by decide⟩
  (hF.source_within (by simp) fun _ _ => .read fun _ => .bind (hF.continueAt_within _) fun _ =>
    hF.writeReg_within (by simp) _).next (Framed.refl s _ _) ht

theorem execBind_framed (ht : execBind src s = .next t) : Framed s ([] ++ s.stepped src) [] t :=
  have hF : Framing s [] := ⟨hc, by decide⟩
  (hF.source_within (by simp) fun _ _ => hF.continueAt_within _).next (Framed.refl s _ _) ht

end

/-! ### DIVS, which may draw free status bits -/

/-- The frame of `s` but for the free values drawn. -/
def Drawn (s : State) (ls : List Loc) (bits : List Nat) (t : State) : Prop := Framed (s.withDraws t.draws) ls bits t

section
variable {s t : State} {ls : List Loc} {bits : List Nat}

theorem Framed.drawn (h : Framed s ls bits t) : Drawn s ls bits t := by
  rw [Drawn, h.control.draws]; exact h

theorem Drawn.withDraws (h : Drawn s ls bits t) (n : Nat) : Drawn s ls bits (t.withDraws n) :=
  ⟨h.bytes, h.wp, h.control.withDraws n, h.status⟩

theorem drawBit_drawn : Takes (Drawn s ls bits) drawBit (Drawn s ls bits) fun _ => False :=
  .read fun _ => .bind (.update fun _ h => h.withDraws _) fun _ => .pure _

theorem drawLae_drawn (hb : [0, 1, 2] ⊆ bits) : Takes (Drawn s ls bits) drawLae (Drawn s ls bits) fun _ => False := by
  have hset : ∀ k ∈ [0, 1, 2], ∀ b st, StatusKept bits st (stSet st k b) := fun k hk b st =>
    (statusKept_stSet (by simp at hk; omega) b st).mono (by simpa using hb hk)
  exact .bind drawBit_drawn fun _ => .bind drawBit_drawn fun _ => .bind drawBit_drawn fun _ => .update fun _ h =>
    Framed.withSt h (((hset 0 (by simp) _ _).trans (hset 1 (by simp) _ _)).trans (hset 2 (by simp) _ _))

theorem execDivs_drawn (hc : s.calm) {src : Operand} (ht : execDivs src s = .next t) :
    Drawn s ([s.regLoc 0#4, s.regLoc 1#4] ++ s.stepped src) [0, 1, 2, 4] t := by
  have hF : Framing s [0, 1, 2, 4] := ⟨hc, by decide⟩
  have hoverflow : ∀ b st, StatusKept [0, 1, 2, 4] st (setOverflow b st) := fun b st =>
    (statusKept_stSet (by decide) b st).mono (by simp)
  have hlae : ∀ (q : Word) st, StatusKept [0, 1, 2, 4] st (setLae q st) := fun q st =>
    (statusKept_setLae q st).mono (by simp)
  have hquotient : ∀ q r : Word, Within s ([s.regLoc 0#4, s.regLoc 1#4] ++ s.stepped src) [0, 1, 2, 4] (do
      writeReg 0#4 q
      prefetchNext
      writeReg 1#4 r
      updateSt fun st => setLae q (setOverflow false st)) := fun q r =>
    .bind (hF.writeReg_within (by simp) _) fun _ => hF.prefetchStoreReg_within (by simp) _ fun st =>
      (hoverflow false st).trans (hlae q _)
  have hsrc : s.stepped src ⊆ [s.regLoc 0#4, s.regLoc 1#4] ++ s.stepped src := List.subset_append_right _ _
  refine Takes.next (.bind (hF.srcLoc_within hsrc _) fun _ => .bind (hF.readLoc_within _) fun _ =>
    .bind (hF.readReg_within _) fun _ => .bind (hF.readReg_within _) fun _ => .ite (fun _ => ?overflow) fun _ => ?fits)
    (Framed.refl s _ _) ht
  case overflow =>
    exact .bind hF.prefetchNext_within fun _ => .bind (hF.settle_within (hoverflow true)) fun _ =>
      (drawLae_drawn (by simp)).mono (fun _ h => h.drawn) (fun _ => id) fun _ => id
  case fits => exact (hquotient _ _).mono (fun _ => id) (fun _ h => h.drawn) fun _ => id

end

end Sys2Proof.Machine

open Sys2Proof Sys2Proof.Machine

/-- Settles O60: every state on the way of such an instruction is in its frame, as each shared operation of its meaning
stays within it; a store hits the operand's location because that derivation runs from the state named. -/
theorem operandInstructionFrames : Obligations.OperandInstructionFrames := by
  intro src dst d k s t s1 s2 sl dl hc keeps keepsTwo next
  have hnone : Framing s [] := ⟨hc, by decide⟩
  have hlae : Framing s [0, 1, 2] := ⟨hc, by decide⟩
  have harith : Framing s [0, 1, 2, 3, 4] := ⟨hc, by decide⟩
  refine ⟨?words, fun ht => (execC_framed hc ht).parts, ?bytes, fun ht => (execCb_framed hc ht).parts, ?singles,
    ?registers, fun ht => (execDivs_drawn hc ht).parts, ?tests, ?longs, ?longShifts⟩ <;>
    simp only [List.forall_mem_cons, List.not_mem_nil, false_imp_iff, implies_true, and_true]
  case words =>
    refine ⟨fun hs hd ht => ?a, fun hs hd ht => ?s, fun hs hd ht => ?soc, fun hs hd ht => ?szc, fun hs hd ht => ?mov⟩
    case a => exact (dualWord_framed harith (fun x y => statusKept_add y x) hs hd ht).parts
    case s => exact (dualWord_framed harith (fun x y => statusKept_sub y x) hs hd ht).parts
    case soc => exact (dualWord_framed hlae (fun x y => statusKept_setLae (y ||| x)) hs hd ht).parts
    case szc => exact (dualWord_framed hlae (fun x y => statusKept_setLae (y &&& ~~~ x)) hs hd ht).parts
    case mov => exact (execMov_framed hc hs hd ht).parts
  case bytes =>
    have hparity : Framing s [0, 1, 2, 3, 4, 5] := ⟨hc, by decide⟩
    have hlogic : Framing s [0, 1, 2, 5] := ⟨hc, by decide⟩
    refine ⟨fun hs hd ht => ?ab, fun hs hd ht => ?sb, fun hs hd ht => ?socb, fun hs hd ht => ?szcb,
      fun hs hd ht => ?movb⟩
    case ab => exact (dualByte_framed hparity (fun x y => statusKept_addParity y x _) hs hd ht).parts
    case sb => exact (dualByte_framed hparity (fun x y => statusKept_subParity y x _) hs hd ht).parts
    case socb => exact (dualByte_framed hlogic (fun x y => statusKept_setByteLogic (y ||| x)) hs hd ht).parts
    case szcb => exact (dualByte_framed hlogic (fun x y => statusKept_setByteLogic (y &&& ~~~ x)) hs hd ht).parts
    case movb => exact (dualByte_framed hlogic (fun x _ => statusKept_setByteLogic x) hs hd ht).parts
  case singles =>
    refine ⟨fun hs ht => ?clr, fun hs ht => ?seto, fun hs ht => ?swpb, fun hs ht => ?inv, fun hs ht => ?neg,
      fun hs ht => ?abs, fun hs ht => ?inc, fun hs ht => ?inct, fun hs ht => ?dec, fun hs ht => ?dect⟩
    case clr => exact (storeWord_framed hnone hs ht).parts
    case seto => exact (storeWord_framed hnone hs ht).parts
    case swpb => exact (modifyWord_framed hnone (fun _ => StatusKept.refl []) hs ht).parts
    case inv => exact (modifyWord_framed hlae (fun x => statusKept_setLae (~~~ x)) hs ht).parts
    case neg => exact (modifyWord_framed harith (fun _ => statusKept_laeCarryOverflow _ _ _) hs ht).parts
    case abs => exact (execAbs_framed hc hs ht).parts
    case inc => exact (modifyWord_framed harith (fun x => statusKept_add x 1#16) hs ht).parts
    case inct => exact (modifyWord_framed harith (fun x => statusKept_add x 2#16) hs ht).parts
    case dec => exact (modifyWord_framed harith (fun x => statusKept_sub x 1#16) hs ht).parts
    case dect => exact (modifyWord_framed harith (fun x => statusKept_sub x 2#16) hs ht).parts
  case registers =>
    exact ⟨fun _ ht => (testReg_framed hc ht).parts, fun _ ht => (testReg_framed hc ht).parts,
      fun _ ht => (execXor_framed hc ht).parts, fun _ ht => (execMpy_framed hc ht).parts,
      fun _ ht => (execDiv_framed hc ht).parts, fun _ ht => (execMpys_framed hc ht).parts,
      fun hi ht => (execTmb_framed hc (hi.resolve_right fun hne => hne rfl) ht).parts,
      fun _ ht => (execB_framed hc ht).parts, fun _ ht => (execBl_framed hc ht).parts,
      fun _ ht => (execBind_framed hc ht).parts⟩
  case tests =>
    exact ⟨fun hi hs ht => (testBit_store_framed hc hi hs ht).parts,
      fun hi hs ht => (testBit_store_framed hc hi hs ht).parts⟩
  case longs =>
    exact ⟨fun hs hd ht => (dualLong_framed harith statusKept_add hs hd ht).parts,
      fun hs hd ht => (dualLong_framed harith statusKept_sub hs hd ht).parts⟩
  case longShifts =>
    have hshift : Framing s [0, 1, 2, 3] := ⟨hc, by decide⟩
    exact ⟨fun hs ht => (shiftLong_framed harith (fun r st => (StatusIs_shiftLeftFlags r st).kept) hs ht).parts,
      fun hs ht => (shiftLong_framed hshift (fun r st => (StatusIs_shiftFlags r st).kept) hs ht).parts⟩

end

section
/-! SUPPORT. How an instruction that reads the next opcode ahead completes on a calm bus: what stands before the
prefetch is run state by state, and what stands after it gives the state named. -/

namespace Sys2Proof.Machine

/-- From `s` to `u` nothing but PC, the opcode read ahead and the memories has changed. -/
structure StoresOnly (s u : State) : Prop where
  wp : u.wp = s.wp
  st : u.st = s.st
  control : SameControl s u

section
variable {s u : State} (h : StoresOnly s u)
include h

theorem StoresOnly.calm (hc : s.calm) : u.calm := hc.of_eq h.control.bus h.control.params

theorem StoresOnly.putWord (hc : s.calm) (l : Loc) (v : Word) : StoresOnly s (u.putWord l v) :=
  ⟨by simpa using h.wp, by simpa using h.st, h.control.trans (SameControl.putWord (h.calm hc) l v)⟩

theorem StoresOnly.putWr (hc : s.calm) (r : Nibble) (v : Word) : StoresOnly s (u.putWr r v) := h.putWord hc _ v

theorem StoresOnly.operand (hc : s.calm) (op : Operand) (n : Word) (role : BusCode) :
    StoresOnly s (u.operand op n role).2 :=
  ⟨by simpa using h.wp, by simpa using h.st, h.control.trans (State.operand_control (h.calm hc) op n role)⟩

end

theorem StoresOnly.refl (s : State) : StoresOnly s s := ⟨rfl, rfl, SameControl.refl s⟩

/-- A derivation from the state the instruction starts in. -/
theorem storesOnly_operand {s : State} (hc : s.calm) (op : Operand) (n : Word) (role : BusCode) :
    StoresOnly s (s.operand op n role).2 := (StoresOnly.refl s).operand hc op n role

/-! ### Status changed twice -/

/-- The later values count. -/
theorem StatusIs.trans {a b c : Word} {first second : List (Nat × Bool)} (h : StatusIs a b first)
    (k : StatusIs b c second) : StatusIs a c (second ++ first) := by
  intro n hn
  rw [k n hn, h n hn, List.lookup_append]
  cases second.lookup n <;> rfl

/-! ### Operands read -/

/-- Both operands derived and read. -/
theorem operands_run {β : Type} {s : State} (hc : s.calm) {src dst : Operand} {n : Word} (hs : s.readable src n .sop)
    (hd : (s.operand src n .sop).2.readable dst n .dop) (k : Loc → Word → Loc → Word → M β) :
    (srcLoc src n >>= fun l => readLoc l >>= fun x => dstLoc dst n >>= fun m => readLoc m >>= k l x m) s =
      (let a := s.operand src n .sop
       let b := a.2.operand dst n .dop
       k a.1 (a.2.wordAt a.1) b.1 (b.2.wordAt b.1) b.2) := by
  rw [srcLoc_readLoc hc hs, dstLoc_readLoc (by simpa using hc) hd]

/-- A source derived and read, then a register read. -/
theorem srcLoc_readLoc_readReg {β : Type} {s : State} (hc : s.calm) {src : Operand} {n : Word}
    (hs : s.readable src n .sop) {r : Reg} (hr : s.reads (s.regLoc r)) (k : Loc → Word → Word → M β) :
    (srcLoc src n >>= fun l => readLoc l >>= fun x => readReg r >>= k l x) s =
      (let a := s.operand src n .sop; k a.1 (a.2.wordAt a.1) (a.2.wr r) a.2) := by
  rw [srcLoc_readLoc hc hs, M.bind_ok (readReg_calm (by simpa using hc) (by simpa using hr))]

/-! ### From a computation to the statement -/

/-- A meaning that reads the opcode at the PC of `v` ahead and leaves the memories and PC of `w` completes so. -/
theorem Answers.completes {i : Instr} {m : M Unit} {s w v : State} {st : Word} {bits : List (Nat × Bool)}
    (h : Answers (m s) v ((w.withPrefetch (some v.opcodeWord)).withSt st)) (hexec : exec i s = outcome m s)
    (hw : StoresOnly s w) (hst : StatusIs s.st st bits) : Completes i s w v bits := by
  rw [Completes, hexec]
  exact h.reaches ⟨rfl, rfl, rfl, hw.wp, rfl, hst, hw.control⟩

/-- A store finds the same location whether or not the next opcode has been read ahead. -/
theorem writeLoc_latched {u : State} (hc : u.calm) {l : Loc} (hl : u.writes l) (v : Word) :
    writeLoc l v u.latched = .ok ((), (u.putWord l v).withPrefetch (some u.opcodeWord)) := by
  rw [writeLoc_calm (by simpa using hc) (by simpa using hl), latched_putWord]

theorem writeReg_latched {u : State} (hc : u.calm) {r : Reg} (hr : u.writes (u.regLoc r)) (v : Word) :
    writeReg r v u.latched = .ok ((), (u.putWr r v).withPrefetch (some u.opcodeWord)) := by
  rw [writeReg_calm (by simpa using hc) (by simpa using hr), latched_putWr]

section
variable {i : Instr} {m : M Unit} {s u : State} {bits : List (Nat × Bool)} (hc : s.calm)
  (hexec : exec i s = outcome m s) (hu : StoresOnly s u)
include hc hexec hu

/-- A meaning that comes to its prefetch in `u`, and goes on to `w`. -/
theorem completes_prefetch {w : State} {st : Word} {tail : Unit → M Unit} (hrun : m s = (prefetchNext >>= tail) u)
    (htail : tail () u.latched = .ok ((), (w.withPrefetch (some u.opcodeWord)).withSt st)) (hw : StoresOnly s w)
    (hst : StatusIs s.st st bits) : Completes i s w u bits :=
  Answers.completes (hrun ▸ prefetchNext_then (hu.calm hc) htail) hexec hw hst

/-- A meaning that comes to its prefetch in `u` and only stores after it. -/
theorem completes_store {w : State} {store : Unit → M Unit} (hrun : m s = (prefetchNext >>= store) u)
    (hstore : store () u.latched = .ok ((), w.withPrefetch (some u.opcodeWord))) (hw : StoresOnly s w) :
    Completes i s w u [] :=
  completes_prefetch (st := w.st) hc hexec hu hrun hstore hw (hw.st ▸ StatusIs.refl s.st)

/-- A meaning that stores nothing after the prefetch. -/
theorem completes_settle {f : Word → Word} (hrun : m s = (do prefetchNext; settle f : M Unit) u)
    (hst : StatusIs s.st (f s.st) bits) : Completes i s u u bits := by
  refine completes_prefetch hc hexec hu hrun ?_ hu hst
  rw [settle_calm (by simpa using hu.calm hc), State.latched_st, hu.st]; rfl

/-- A meaning that stores a word after the prefetch. -/
theorem completes_writeLoc {l : Loc} {v : Word} {f : Word → Word}
    (hrun : m s = (do prefetchNext; writeLoc l v; updateSt f : M Unit) u) (hl : u.writes l)
    (hst : StatusIs s.st (f s.st) bits) : Completes i s (u.putWord l v) u bits := by
  refine completes_prefetch hc hexec hu hrun ?_ (hu.putWord hc l v) hst
  rw [M.bind_ok (writeLoc_latched (hu.calm hc) hl v)]
  simp [hu.st]

/-- A meaning that stores a register after the prefetch. -/
theorem completes_writeReg {r : Reg} {v : Word} {f : Word → Word}
    (hrun : m s = (do prefetchNext; writeReg r v; updateSt f : M Unit) u) (hr : u.writes (u.regLoc r))
    (hst : StatusIs s.st (f s.st) bits) : Completes i s (u.putWr r v) u bits := by
  refine completes_prefetch hc hexec hu hrun ?_ (hu.putWr hc r v) hst
  rw [M.bind_ok (writeReg_latched (hu.calm hc) hr v)]
  simp [hu.st]

end

end Sys2Proof.Machine
end

section
/-! SUPPORT. The dual-operand instructions that store a result: the two frames that most of them share, and the
statements on them (spec/41_dual_operand.md R230 to R243, R253). -/

open Sys2Proof Sys2Proof.Machine Sys2Proof.Claims

namespace Sys2Proof.Machine

/-- What an instruction with the frame of a word instruction does is what the statement's shape says. -/
theorem dualWord_of_exec {mk : Operand → Operand → Instr} {base : Word} {res : Word → Word → Word}
    {fl : Word → Word → Word → Word} {bits : Word → Word → List (Nat × Bool)}
    (henc : ∀ src dst, encode (mk src dst) = [encDual base src dst])
    (hexec : ∀ src dst s, exec (mk src dst) s = outcome (dualWord res fl src dst) s)
    (hst : ∀ x y st, StatusIs st (fl x y st) (bits x y)) : DualWord mk base res bits := by
  intro src dst s hc hs a x b y hd
  refine ⟨henc src dst, (dualWord_calm hc res fl hs hd).completes (hexec src dst s) ?_ (hst x y s.st)⟩
  exact ((storesOnly_operand hc src _ _).operand hc dst _ _).putWord hc _ _

/-- The byte counterpart of `dualWord_of_exec`. -/
theorem dualByte_of_exec {mk : Operand → Operand → Instr} {base : Word} {res : Byte → Byte → Byte}
    {fl : Byte → Byte → Word → Word} {bits : Byte → Byte → List (Nat × Bool)}
    (henc : ∀ src dst, encode (mk src dst) = [encDual base src dst])
    (hexec : ∀ src dst s, exec (mk src dst) s = outcome (dualByte res fl src dst) s)
    (hst : ∀ x y st, StatusIs st (fl x y st) (bits x y)) : DualByte mk base res bits := by
  intro src dst s hc hs a x b w y hd
  refine ⟨henc src dst, (dualByte_calm hc res fl hs hd).completes (hexec src dst s) ?_ (hst x y s.st)⟩
  exact ((storesOnly_operand hc src _ _).operand hc dst _ _).putWord hc _ _

/-! ### Meanings with their results as the statements write them -/

theorem exec_a (src dst : Operand) (s : State) :
    exec (.a src dst) s = outcome (dualWord (fun x y => y + x) (fun x y => setArith (addN y x)) src dst) s := by
  simp only [← addN_r]; rfl

theorem exec_s (src dst : Operand) (s : State) :
    exec (.s src dst) s = outcome (dualWord (fun x y => y - x) (fun x y => setArith (subN y x)) src dst) s := by
  simp only [← subN_r]; rfl

theorem exec_ab (src dst : Operand) (s : State) : exec (.ab src dst) s =
    outcome (dualByte (fun x y => y + x) (fun x y st => setParity (y + x) (setArith (addN y x) st)) src dst) s := by
  simp only [← addN_r]; rfl

theorem exec_sb (src dst : Operand) (s : State) : exec (.sb src dst) s =
    outcome (dualByte (fun x y => y - x) (fun x y st => setParity (y - x) (setArith (subN y x) st)) src dst) s := by
  simp only [← subN_r]; rfl

theorem exec_szcb (src dst : Operand) (s : State) : exec (.szcb src dst) s = outcome
    (dualByte (fun x y => y &&& (x ^^^ 0xFF#8)) (fun x y => setByteLogic (y &&& (x ^^^ 0xFF#8))) src dst) s := by
  have hcomplement (x : Byte) : x ^^^ 0xFF#8 = ~~~ x := BitVec.xor_allOnes
  simp only [hcomplement]; rfl

theorem StatusIs_setByteLogic (r : Byte) (st : Word) : StatusIs st (setByteLogic r st) (resultBits r ++ parityBit r) :=
  (StatusIs_setLae r st).parity rfl r

/-! ### MOV -/

/-- MOV derives its destination and does not read it (spec/41_dual_operand.md R242). -/
theorem mov_dualWord : DualWord .mov 0xC000#16 (fun x _ => x) (fun x _ => resultBits x) := by
  intro src dst s hc hs a x b _ hd
  have ha : StoresOnly s a.2 := storesOnly_operand hc src _ _
  have hrun := (srcLoc_readLoc hc hs fun _ x => do
    let dl ← dstLoc dst wordStep
    prefetchNext
    writeLoc dl x
    updateSt (setLae x)).trans (M.bind_ok (dstLoc_calm (ha.calm hc) hd.1 wordStep))
  exact ⟨rfl, completes_writeLoc hc rfl (ha.operand hc dst _ _) hrun (by simpa [b] using hd.2)
    (StatusIs_setLae x s.st)⟩

end Sys2Proof.Machine

/-- Settles O18: A and S have the frame of a word instruction, with the adder's flags. -/
theorem addAndSubtractWords : Obligations.AddAndSubtractWords :=
  ⟨dualWord_of_exec (fun _ _ => rfl) exec_a fun x y => StatusIs_setArith_add y x,
    dualWord_of_exec (fun _ _ => rfl) exec_s fun x y => StatusIs_setArith_sub y x⟩

/-- Settles O19: SOC and SZC have the frame of a word instruction, MOV that frame without the read of the destination,
and XOR a register in place of the destination. -/
theorem logicAndMoveWords : Obligations.LogicAndMoveWords := by
  refine ⟨dualWord_of_exec (fun _ _ => rfl) (fun _ _ _ => rfl) fun x y => StatusIs_setLae (y ||| x),
    dualWord_of_exec (fun _ _ => rfl) (fun _ _ _ => rfl) fun x y => StatusIs_setLae (y &&& ~~~ x), mov_dualWord, ?xor⟩
  intro src d s hc hs hw a r
  exact ⟨rfl, completes_writeReg hc rfl (storesOnly_operand hc src _ _)
    (srcLoc_readLoc_readReg hc hs hw.reads _) (by simpa using hw) (StatusIs_setLae r s.st)⟩

/-- Settles O20: all five have the frame of a byte instruction, with the parity of the result set last. -/
theorem byteInstructions : Obligations.ByteInstructions :=
  ⟨dualByte_of_exec (fun _ _ => rfl) exec_ab fun x y st => (StatusIs_setArith_add y x st).parity rfl _,
    dualByte_of_exec (fun _ _ => rfl) exec_sb fun x y st => (StatusIs_setArith_sub y x st).parity rfl _,
    dualByte_of_exec (fun _ _ => rfl) (fun _ _ _ => rfl) fun x y => StatusIs_setByteLogic (y ||| x),
    dualByte_of_exec (fun _ _ => rfl) exec_szcb fun x y => StatusIs_setByteLogic (y &&& (x ^^^ 0xFF#8)),
    dualByte_of_exec (fun _ _ => rfl) (fun _ _ _ => rfl) fun x _ => StatusIs_setByteLogic x⟩

end

section
/-! SUPPORT. The comparisons, which store nothing (spec/41_dual_operand.md R234, R235, R251, R252). -/

open Sys2Proof Sys2Proof.Machine

namespace Sys2Proof.Machine

/-- The frame of COC and CZC: a test of the source with a register gives ST2. -/
def testRegister (test : Word → Word → Bool) (src : Operand) (d : Reg) : M Unit := do
  let sl ← srcLoc src wordStep
  let x ← readLoc sl
  let y ← readReg d
  prefetchNext
  settle fun st => stSet st 2 (test x y)

theorem exec_coc (src : Operand) (d : Reg) (s : State) :
    exec (.coc src d) s = outcome (testRegister (fun x y => decide (x &&& ~~~ y = 0#16)) src d) s := rfl

theorem exec_czc (src : Operand) (d : Reg) (s : State) :
    exec (.czc src d) s = outcome (testRegister (fun x y => decide (x &&& y = 0#16)) src d) s := rfl

theorem testRegister_completes {i : Instr} {test : Word → Word → Bool} {src : Operand} {d : Reg} {s : State}
    (hexec : exec i s = outcome (testRegister test src d) s) (hc : s.calm) (hs : s.readable src 2#16 .sop)
    (hd : s.reads (s.regLoc d)) :
    let a := s.operand src 2#16 .sop
    Completes i s a.2 a.2 [(2, test (a.2.wordAt a.1) (a.2.wr d))] :=
  completes_settle hc hexec (storesOnly_operand hc src _ _) (srcLoc_readLoc_readReg hc hs hd _)
    ((StatusIs.refl s.st).set (by decide) rfl _)

end Sys2Proof.Machine

/-- Settles O21: each reads its operands, then the next opcode, and stores nothing after it. -/
theorem compareInstructions : Obligations.CompareInstructions := by
  refine ⟨?c, ?cb, ?registers⟩
  case c =>
    intro src dst s hc hs a b hd
    exact ⟨rfl, completes_settle hc rfl ((storesOnly_operand hc src _ _).operand hc dst _ _)
      (operands_run hc hs hd _) (StatusIs_cmpLae _ _ s.st)⟩
  case cb =>
    intro src dst s hc hs a x b hd
    exact ⟨rfl, completes_settle hc rfl ((storesOnly_operand hc src _ _).operand hc dst _ _)
      (operands_run hc hs hd _) ((StatusIs_cmpLae _ _ s.st).parity rfl x)⟩
  case registers =>
    intro src d s hc hs hd a x
    exact ⟨rfl, testRegister_completes (exec_coc src d s) hc hs hd, rfl,
      testRegister_completes (exec_czc src d s) hc hs hd⟩

end

section
/-! SUPPORT. Multiply and divide: the halves of a product as the statements write them, the part of each meaning after
its operands have been read, and the statements (spec/41_dual_operand.md R254, R255, R260 to R262). -/

open Sys2Proof Sys2Proof.Machine

namespace Sys2Proof.Machine

/-! ### Halves of a product -/

theorem hiWord_ofNat (n : Nat) : hiWord (BitVec.ofNat 32 n) = BitVec.ofNat 16 (n / 65536) := by
  apply BitVec.eq_of_toNat_eq
  simp only [hiWord, BitVec.extractLsb'_toNat, BitVec.toNat_ofNat, Nat.shiftRight_eq_div_pow]
  omega

theorem loWord_ofNat (n : Nat) : loWord (BitVec.ofNat 32 n) = BitVec.ofNat 16 (n % 65536) := by
  apply BitVec.eq_of_toNat_eq
  simp only [loWord, BitVec.extractLsb'_toNat, BitVec.toNat_ofNat, Nat.shiftRight_zero]
  omega

theorem hiWord_ofInt (z : Int) : hiWord (BitVec.ofInt 32 z) = BitVec.ofInt 16 (z / 65536) := by
  apply BitVec.eq_of_toNat_eq
  simp only [hiWord, BitVec.extractLsb'_toNat, BitVec.toNat_ofInt, Nat.shiftRight_eq_div_pow]
  omega

theorem loWord_ofInt (z : Int) : loWord (BitVec.ofInt 32 z) = BitVec.ofInt 16 z := by
  apply BitVec.eq_of_toNat_eq
  simp only [loWord, BitVec.extractLsb'_toNat, BitVec.toNat_ofInt, Nat.shiftRight_zero]
  omega

/-- A product of two signed words fits in 32 bits. -/
theorem toInt_ofInt_product (x y : Word) : (BitVec.ofInt 32 (x.toInt * y.toInt)).toInt = x.toInt * y.toInt := by
  have hle : x.toInt * y.toInt ≤ 2 ^ 30 := BitVec.toInt_mul_toInt_le
  have hge : -2 ^ 30 ≤ x.toInt * y.toInt := BitVec.le_toInt_mul_toInt
  exact BitVec.toInt_ofInt_eq_self (by decide) (by omega) (by omega)

/-- The flags of a result whose integer value is known. -/
theorem resultBits_of_toInt {n : Nat} {r : BitVec n} {z : Int} (h : r.toInt = z) :
    resultBits r = [(0, decide (z ≠ 0)), (1, decide (0 < z)), (2, decide (z = 0))] := by
  rw [← h, resultBits]

theorem fitsWord_iff (q : Int) : fitsWord q = true ↔ -32768 ≤ q ∧ q ≤ 32767 := by simp [fitsWord]

/-! ### The word after a register -/

@[simp] theorem State.nextRegLoc_operand (s : State) (op : Operand) (n : Word) (role : BusCode) (d : Reg) :
    (s.operand op n role).2.nextRegLoc d = s.nextRegLoc d := by simp [State.nextRegLoc]

@[simp] theorem State.nextRegLoc_putWr (s : State) (r : Nibble) (v : Word) (d : Reg) :
    (s.putWr r v).nextRegLoc d = s.nextRegLoc d := by simp [State.nextRegLoc]

@[simp] theorem State.nextRegLoc_latched (s : State) (d : Reg) : s.latched.nextRegLoc d = s.nextRegLoc d := by
  simp [State.nextRegLoc]

/-! ### After the operands of MPY and DIV -/

/-- MPY, its operands read. -/
def multiplyInto (d : Reg) (x y : Word) : M Unit := do
  let p := BitVec.ofNat 32 (y.toNat * x.toNat)
  writeReg d (hiWord p)
  prefetchNext
  let nl ← gets fun t => t.nextRegLoc d
  writeLoc nl (loWord p)

/-- DIV, its operands read. -/
def divideInto (d : Reg) (x y : Word) : M Unit := do
  if 0 < x.toNat ∧ x.toNat ≤ y.toNat then
    prefetchNext
    settle (setOverflow true)
  else
    let nl ← gets fun t => t.nextRegLoc d
    let lo ← readLoc nl
    if x = 0#16 then
      prefetchNext
      settle (setOverflow true)
    else
      let n := y.toNat * 65536 + lo.toNat
      writeReg d (BitVec.ofNat 16 (n / x.toNat))
      prefetchNext
      writeLoc nl (BitVec.ofNat 16 (n % x.toNat))
      updateSt (setOverflow false)

/-- An instruction that reads a source and a register and goes on as the given computation says. -/
def withRegister (rest : Reg → Word → Word → M Unit) (src : Operand) (d : Reg) : M Unit := do
  let sl ← srcLoc src wordStep
  let x ← readLoc sl
  let y ← readReg d
  rest d x y

theorem exec_mpy (src : Operand) (d : Reg) (s : State) :
    exec (.mpy src d) s = outcome (withRegister multiplyInto src d) s := rfl

theorem exec_div (src : Operand) (d : Reg) (s : State) :
    exec (.div src d) s = outcome (withRegister divideInto src d) s := rfl

theorem withRegister_run {s : State} (hc : s.calm) {src : Operand} (hs : s.readable src wordStep .sop) {d : Reg}
    (hd : s.reads (s.regLoc d)) (rest : Reg → Word → Word → M Unit) :
    withRegister rest src d s =
      (let a := s.operand src wordStep .sop; rest d (a.2.wordAt a.1) (a.2.wr d) a.2) :=
  srcLoc_readLoc_readReg hc hs hd fun _ => rest d

section
variable {u : State} (hc : u.calm) {d : Reg} {next : Loc} (hnext : u.nextRegLoc d = next) {x y : Word}
include hc hnext

theorem storeNext_latched (hn : u.writes next) (v : Word) :
    (gets (fun t => t.nextRegLoc d) >>= fun nl => writeLoc nl v : M Unit) u.latched =
      .ok ((), (u.putWord next v).withPrefetch (some u.opcodeWord)) := by
  rw [gets_bind, State.nextRegLoc_latched, hnext, writeLoc_latched hc hn]

/-- The early exit on overflow, and the late one of a divisor of zero, where the low word has been read (log 49). -/
theorem divideInto_overflow (hxy : x.toNat ≤ y.toNat) (hn : x.toNat = 0 → u.reads next) :
    divideInto d x y u = (do prefetchNext; settle (setOverflow true) : M Unit) u := by
  rw [divideInto]
  by_cases hx : x.toNat = 0
  · have hzero : x = 0#16 := BitVec.eq_of_toNat_eq hx
    rw [if_neg (by omega), gets_bind, hnext, M.bind_ok (readLoc_calm hc (hn hx)), if_pos hzero]
  · rw [if_pos ⟨Nat.pos_of_ne_zero hx, hxy⟩]

theorem divideInto_fits (hyx : y.toNat < x.toNat) (hd : u.writes (u.regLoc d)) (hn : u.reads next) :
    let n := y.toNat * 65536 + (u.wordAt next).toNat
    divideInto d x y u = (do
      prefetchNext
      writeLoc next (BitVec.ofNat 16 (n % x.toNat))
      updateSt (setOverflow false) : M Unit) (u.putWr d (BitVec.ofNat 16 (n / x.toNat))) := by
  have hzero : x ≠ 0#16 := by rintro rfl; exact absurd hyx (by simp)
  rw [divideInto, if_neg (by omega), gets_bind, hnext, M.bind_ok (readLoc_calm hc hn), if_neg hzero,
    M.bind_ok (writeReg_calm hc hd _)]

end

/-- The quotient and the remainder fit where the divisor is greater than the high word. -/
theorem quotient_lt {x y l : Nat} (hyx : y < x) (hx : x < 65536) (hl : l < 65536) :
    (y * 65536 + l) / x < 65536 ∧ (y * 65536 + l) % x < 65536 := by
  refine ⟨Nat.div_lt_of_lt_mul ?_, (Nat.mod_lt _ (by omega)).trans hx⟩
  omega

/-! ### After the operands of MPYS and DIVS -/

/-- MPYS, its operands read. -/
def multiplySigned (x y : Word) : M Unit := do
  let p := BitVec.ofInt 32 (y.toInt * x.toInt)
  writeReg 0#4 (hiWord p)
  prefetchNext
  writeReg 1#4 (loWord p)
  updateSt (setLae p)

theorem exec_mpys (src : Operand) (s : State) :
    exec (.mpys src) s = outcome (withRegister (fun _ => multiplySigned) src 0#4) s := rfl

/-- DIVS, its operands read. -/
def divideSigned (x lo hi : Word) : M Unit := do
  let d := x.toInt
  let n := (longOf hi lo).toInt
  if d = 0 ∨ fitsWord (n.tdiv d) = false then
    prefetchNext
    settle (setOverflow true)
    drawLae
  else
    let q := BitVec.ofInt 16 (n.tdiv d)
    writeReg 0#4 q
    prefetchNext
    writeReg 1#4 (BitVec.ofInt 16 (n.tmod d))
    updateSt fun st => setLae q (setOverflow false st)

/-- DIVS reads the low word of its dividend first. -/
def divideSignedBy (src : Operand) : M Unit :=
  withRegister (fun _ x lo => readReg 0#4 >>= divideSigned x lo) src 1#4

theorem exec_divs (src : Operand) (s : State) : exec (.divs src) s = outcome (divideSignedBy src) s := rfl

theorem divideSignedBy_run {s : State} (hc : s.calm) {src : Operand} (hs : s.readable src wordStep .sop)
    (h0 : s.reads (s.regLoc 0#4)) (h1 : s.reads (s.regLoc 1#4)) :
    divideSignedBy src s =
      (let a := s.operand src wordStep .sop
       divideSigned (a.2.wordAt a.1) (a.2.wr 1#4) (a.2.wr 0#4) a.2) :=
  (withRegister_run hc hs h1 _).trans (M.bind_ok (readReg_calm (by simpa using hc) (by simpa using h0)))

/-- The free status bits of a DIVS that overflows (log 18). -/
theorem drawLae_apply (s : State) : drawLae s = .ok ((), (s.withDraws (s.draws + 3)).withSt
    (stSet (stSet (stSet s.st 0 (Config.freeBit s.draws)) 1 (Config.freeBit (s.draws + 1))) 2
      (Config.freeBit (s.draws + 2)))) := rfl

/-- Overflow, and free bits for the result. -/
theorem StatusIs_overflow_free (st : Word) (b0 b1 b2 : Bool) :
    StatusIs st (stSet (stSet (stSet (setOverflow true st) 0 b0) 1 b1) 2 b2) [(4, true), (0, b0), (1, b1), (2, b2)] :=
  ((((StatusIs.refl st).set (by decide) rfl true).set (by decide) rfl b0).set (by decide) rfl b1).set (by decide) rfl b2

section
variable {u : State} {x lo hi : Word}

theorem divideSigned_fits (hc : u.calm) (hx : x.toInt ≠ 0)
    (hq : fitsWord ((longOf hi lo).toInt.tdiv x.toInt) = true) (h0 : u.writes (u.regLoc 0#4)) :
    let q := BitVec.ofInt 16 ((longOf hi lo).toInt.tdiv x.toInt)
    divideSigned x lo hi u = (do
      prefetchNext
      writeReg 1#4 (BitVec.ofInt 16 ((longOf hi lo).toInt.tmod x.toInt))
      updateSt fun st => setLae q (setOverflow false st) : M Unit) (u.putWr 0#4 q) := by
  intro q
  rw [divideSigned, if_neg (by simp [hx, hq]), M.bind_ok (writeReg_calm hc h0 _)]

theorem divideSigned_overflow (hc : u.calm)
    (hq : x.toInt = 0 ∨ fitsWord ((longOf hi lo).toInt.tdiv x.toInt) = false) :
    ∃ b0 b1 b2, Answers (divideSigned x lo hi u) u ((u.latched.withDraws (u.draws + 3)).withSt
      (stSet (stSet (stSet (setOverflow true u.st) 0 b0) 1 b1) 2 b2)) := by
  rw [divideSigned, if_pos hq]
  refine ⟨Config.freeBit u.draws, Config.freeBit (u.draws + 1), Config.freeBit (u.draws + 2),
    prefetchNext_then hc ?_⟩
  rw [M.bind_ok (settle_calm (by simpa using hc) _)]
  exact drawLae_apply _

end

end Sys2Proof.Machine

/-- Settles O22: each comes to its prefetch with the high result stored, or with nothing stored where DIV overflows. -/
theorem unsignedMultiplyAndDivide : Obligations.UnsignedMultiplyAndDivide := by
  intro src d s hc hs a x y next
  have ha : StoresOnly s a.2 := storesOnly_operand hc src _ _
  have hac : a.2.calm := ha.calm hc
  have hnext : a.2.nextRegLoc d = next := State.nextRegLoc_operand s src _ _ d
  refine ⟨rfl, rfl, fun hd hn => ?product, fun hxy hd hn => ?overflow, fun hyx hd hn => ?quotient⟩
  case product =>
    rw [← hiWord_ofNat, ← loWord_ofNat]
    intro u
    have hrun := (withRegister_run hc hs hd.reads multiplyInto).trans
      (M.bind_ok (writeReg_calm hac (by simpa [a] using hd) _))
    have hu : StoresOnly s u := ha.putWr hc d _
    have hstore := storeNext_latched (hu.calm hc) ((State.nextRegLoc_putWr a.2 d _ d).trans hnext)
      (by simpa [u, a] using hn) (loWord (BitVec.ofNat 32 (y * x)))
    exact completes_store hc (exec_mpy src d s) hu hrun hstore (hu.putWord hc next _)
  case overflow =>
    have hrun := (withRegister_run hc hs hd divideInto).trans
      (divideInto_overflow hac hnext hxy fun hx => by simpa [a] using hn hx)
    exact completes_settle hc (exec_div src d s) ha hrun ((StatusIs.refl s.st).set (by decide) rfl true)
  case quotient =>
    intro n u
    have hrun := (withRegister_run hc hs hd.reads divideInto).trans
      (divideInto_fits hac hnext hyx (by simpa [a] using hd) (by simpa [a] using hn.reads))
    obtain ⟨hq, hr⟩ := quotient_lt hyx (a.2.wordAt a.1).isLt (a.2.wordAt next).isLt
    refine ⟨hq, hr, completes_writeLoc hc (exec_div src d s) (ha.putWr hc d _) (l := next) hrun ?_ ?_⟩
    · simpa [a] using hn
    · exact (StatusIs.refl s.st).set (by decide) rfl false

/-- Settles O23: each comes to its prefetch with the high result stored, or with nothing stored where DIVS overflows and
then draws the free bits. -/
theorem signedMultiplyAndDivide : Obligations.SignedMultiplyAndDivide := by
  intro src s hc hs a x p n q stores
  have ha : StoresOnly s a.2 := storesOnly_operand hc src _ _
  have hac : a.2.calm := ha.calm hc
  refine ⟨rfl, rfl, fun ⟨h0, h1⟩ => ?product, fun hx hl hh ⟨h0, h1⟩ => ?quotient, fun hq h0 h1 => ?overflow⟩
  case product =>
    rw [← hiWord_ofInt, ← loWord_ofInt, ← resultBits_of_toInt (toInt_ofInt_product (a.2.wr 0#4) (a.2.wordAt a.1))]
    intro u
    have hrun := (withRegister_run hc hs h0.reads fun _ => multiplySigned).trans
      (M.bind_ok (writeReg_calm hac (by simpa [a] using h0) _))
    exact completes_writeReg hc (exec_mpys src s) (ha.putWr hc _ _) hrun (by simpa [u, a] using h1)
      (StatusIs_setLae _ s.st)
  case quotient =>
    intro u
    have hrun := (divideSignedBy_run hc hs h0.reads h1.reads).trans
      (divideSigned_fits hac hx ((fitsWord_iff q).2 ⟨hl, hh⟩) (by simpa [a] using h0))
    have hval : (BitVec.ofInt 16 q).toInt = q := BitVec.toInt_ofInt_eq_self (by decide) (by omega) (by omega)
    refine completes_writeReg hc (exec_divs src s) (ha.putWr hc _ _) hrun (by simpa [u, a] using h1) ?_
    have hst := ((StatusIs.refl s.st).set (k := 4) (by decide) rfl false).trans (StatusIs_setLae (BitVec.ofInt 16 q) _)
    rwa [resultBits_of_toInt hval] at hst
  case overflow =>
    have hfit : x = 0 ∨ fitsWord q = false := by
      rw [← Bool.not_eq_true, fitsWord_iff]; omega
    obtain ⟨b0, b1, b2, hans⟩ := divideSigned_overflow hac hfit
    have hrun : divideSignedBy src s = divideSigned (a.2.wordAt a.1) (a.2.wr 1#4) (a.2.wr 0#4) a.2 :=
      divideSignedBy_run hc hs h0 h1
    rw [← hrun, ha.st] at hans
    have hst := StatusIs_overflow_free s.st b0 b1 b2
    exact hans.reaches ⟨rfl, rfl, rfl, ha.wp, rfl, hst 4 (by decide),
      fun k hk hlt hne => hst.kept k hlt (by simp; omega), ha.control.withDraws _⟩

end

section
/-! SUPPORT. The single-operand instructions that store at their operand: the two frames they share, and ABS, whose
store comes before the prefetch (spec/42_xop_single_operand.md R290, R294 to R303). -/

open Sys2Proof Sys2Proof.Machine Sys2Proof.Claims

namespace Sys2Proof.Machine

/-- What an instruction with the frame of a read-modify-write does is what the statement's shape says. -/
theorem singleStore_of_modifyWord {mk : Operand → Instr} {base : Word} {res : Word → Word}
    {fl : Word → Word → Word} {bits : Word → List (Nat × Bool)} (henc : ∀ src, encode (mk src) = [encSingle base src])
    (hexec : ∀ src s, exec (mk src) s = outcome (modifyWord res fl src) s)
    (hst : ∀ x st, StatusIs st (fl x st) (bits x)) : SingleStore mk base res bits := by
  intro src s hc hs a x
  refine ⟨henc src, (modifyWord_calm hc res fl hs).completes (hexec src s) ?_ (hst x s.st)⟩
  exact (storesOnly_operand hc src _ _).putWord hc _ _

/-- The same of an instruction that does not read its operand. -/
theorem singleStore_of_storeWord {mk : Operand → Instr} {base v : Word}
    (henc : ∀ src, encode (mk src) = [encSingle base src])
    (hexec : ∀ src s, exec (mk src) s = outcome (storeWord v src) s) :
    SingleStore mk base (fun _ => v) fun _ => [] := by
  intro src s hc hs a x
  have hw : StoresOnly s (a.2.putWord a.1 v) := (storesOnly_operand hc src _ _).putWord hc _ _
  exact ⟨henc src, Answers.completes (st := (a.2.putWord a.1 v).st) (storeWord_calm hc v hs) (hexec src s) hw
    (hw.st ▸ StatusIs.refl s.st)⟩

/-! ### Meanings with their results as the statements write them -/

theorem exec_neg (src : Operand) (s : State) : exec (.neg src) s = outcome (modifyWord (fun x => -x)
    (fun x st => setOverflow (decide (x = 0x8000#16)) (setCarry (decide (x = 0x0000#16)) (setLae (-x) st))) src) s := by
  have hr (x : Word) : (subN 0#16 x).r = -x := by rw [subN_r, BitVec.zero_sub]
  have hcarry (x : Word) : (subN 0#16 x).c = decide (x = 0x0000#16) := by
    rw [subN_c, decide_eq_decide, ← BitVec.toNat_inj]; exact Nat.le_zero
  simp only [← hr, ← hcarry]; rfl

theorem exec_swpb (src : Operand) (s : State) :
    exec (.swpb src) s = outcome (modifyWord (fun x => x.rotateLeft 8) (fun _ st => st) src) s := by
  have hswap (x : Word) : x.rotateLeft 8 = wordOfBytes (lo8 x) (hi8 x) := by
    apply BitVec.eq_of_getLsbD_eq
    intro k hk
    interval_cases k <;> simp [wordOfBytes, lo8, hi8]
  simp only [hswap]; rfl

theorem exec_inc (src : Operand) (s : State) :
    exec (.inc src) s = outcome (modifyWord (fun x => x + 1#16) (fun x => setArith (addN x 1#16)) src) s := by
  simp only [← addN_r]; rfl

theorem exec_inct (src : Operand) (s : State) :
    exec (.inct src) s = outcome (modifyWord (fun x => x + 2#16) (fun x => setArith (addN x 2#16)) src) s := by
  simp only [← addN_r]; rfl

theorem exec_dec (src : Operand) (s : State) :
    exec (.dec src) s = outcome (modifyWord (fun x => x - 1#16) (fun x => setArith (subN x 1#16)) src) s := by
  simp only [← subN_r]; rfl

theorem exec_dect (src : Operand) (s : State) :
    exec (.dect src) s = outcome (modifyWord (fun x => x - 2#16) (fun x => setArith (subN x 2#16)) src) s := by
  simp only [← subN_r]; rfl

/-- The absolute value of >8000 is taken modulo 2^16 and is >8000 again. -/
theorem ofInt_natAbs_toInt (x : Word) :
    BitVec.ofInt 16 (Int.natAbs x.toInt) = if x.msb then (subN 0#16 x).r else x := by
  rw [subN_r, BitVec.zero_sub, BitVec.msb_eq_toInt]
  by_cases hneg : x.toInt < 0
  · rw [if_pos (by simpa using hneg), Int.ofNat_natAbs_of_nonpos hneg.le, BitVec.ofInt_neg, BitVec.ofInt_toInt]
  · rw [if_neg (by simpa using hneg), Int.natAbs_of_nonneg (not_lt.1 hneg), BitVec.ofInt_toInt]

/-- ABS, its operand derived and read. -/
def absInto (sl : Loc) (x : Word) : M Unit := do
  writeLoc sl (BitVec.ofInt 16 (Int.natAbs x.toInt))
  prefetchNext
  settle fun st => setOverflow (decide (x = 0x8000#16)) (setCarry false (setLae x st))

theorem exec_abs (src : Operand) (s : State) :
    exec (.abs src) s = outcome (do let sl ← srcLoc src wordStep; let x ← readLoc sl; absInto sl x) s := by
  simp only [absInto, ofInt_natAbs_toInt]; rfl

/-! ### Status -/

/-- ST0 to ST2 of a result, with ST3 and ST4 of any origin. -/
theorem StatusIs_laeCarryOverflow (r : Word) (c v : Bool) (st : Word) :
    StatusIs st (setOverflow v (setCarry c (setLae r st))) (resultBits r ++ [(3, c), (4, v)]) := by
  simpa [setOverflow, setCarry] using
    ((StatusIs_setLae r st).set (k := 3) (by decide) rfl c).set (k := 4) (by decide) rfl v

end Sys2Proof.Machine

/-- Settles O24: CLR and SETO store without a read, the others but ABS have the frame of a read-modify-write, and ABS
has stored when it comes to its prefetch. -/
theorem singleOperandStores : Obligations.SingleOperandStores := by
  refine ⟨singleStore_of_storeWord (fun _ => rfl) fun _ _ => rfl,
    singleStore_of_storeWord (fun _ => rfl) fun _ _ => rfl,
    singleStore_of_modifyWord (fun _ => rfl) (fun _ _ => rfl) fun x => StatusIs_setLae (~~~ x),
    singleStore_of_modifyWord (fun _ => rfl) exec_neg fun x => StatusIs_laeCarryOverflow (-x) _ _,
    singleStore_of_modifyWord (fun _ => rfl) exec_swpb fun _ => StatusIs.refl,
    singleStore_of_modifyWord (fun _ => rfl) exec_inc fun x => StatusIs_setArith_add x 1#16,
    singleStore_of_modifyWord (fun _ => rfl) exec_inct fun x => StatusIs_setArith_add x 2#16,
    singleStore_of_modifyWord (fun _ => rfl) exec_dec fun x => StatusIs_setArith_sub x 1#16,
    singleStore_of_modifyWord (fun _ => rfl) exec_dect fun x => StatusIs_setArith_sub x 2#16, ?abs⟩
  intro src s hc hs a x u
  have ha : StoresOnly s a.2 := storesOnly_operand hc src _ _
  have hrun := (srcLoc_readLoc hc hs.readable absInto).trans
    (M.bind_ok (writeLoc_calm (ha.calm hc) (by simpa [a] using hs.2) _))
  exact ⟨rfl, completes_settle hc (exec_abs src s) (ha.putWord hc _ _) hrun
    (StatusIs_laeCarryOverflow x false (decide (x = 0x8000#16)) s.st)⟩

end

section
/-! SUPPORT. The instructions that go on elsewhere: how an instruction that reads the opcode at a new PC ahead
completes, and where B, BL, BIND, BLSK and X go on (spec/42_xop_single_operand.md R291, R292, R310, R315,
spec/45_immediate_and_control.md R396). -/

open Sys2Proof Sys2Proof.Machine

namespace Sys2Proof.Machine

/-! ### The push of BLSK -/

/-- Where an access through a register goes does not depend on what was stored. -/
@[simp] theorem State.baseLoc_putWr (s : State) (q : Nibble) (v : Word) (r : Nibble) (addr : Word) (role : BusCode) :
    (s.putWr q v).baseLoc r addr role = s.baseLoc r addr role := by
  simp [State.baseLoc, macrostoreBase, State.regAddr]

@[simp] theorem State.baseLoc_skipWord (s : State) (r : Nibble) (addr : Word) (role : BusCode) :
    s.skipWord.baseLoc r addr role = s.baseLoc r addr role := (rfl)

theorem State.baseLoc_main {s : State} (h : s.inMs = false) (r : Nibble) (addr : Word) (role : BusCode) :
    s.baseLoc r addr role = { space := .main, addr := addr, code := role } := by
  simp [State.baseLoc, h]

/-- The instruction stream lies at the same address whatever was stored. -/
@[simp] theorem State.streamLoc_putWr (s : State) (r : Nibble) (v : Word) :
    (s.putWr r v).streamLoc = s.streamLoc := by
  simp [State.streamLoc, State.space]

/-! ### Going on at a new PC -/

@[simp] theorem writes_withPc (s : State) (v : Word) (l : Loc) : (s.withPc v).writes l ↔ s.writes l := ⟨id, id⟩

@[simp] theorem State.regLoc_withPc (s : State) (v : Word) (r : Nibble) : (s.withPc v).regLoc r = s.regLoc r := (rfl)

theorem StoresOnly.withPc {s u : State} (h : StoresOnly s u) (v : Word) : StoresOnly s (u.withPc v) :=
  ⟨h.wp, h.st, h.control⟩

theorem StoresOnly.skipWord {s u : State} (h : StoresOnly s u) : StoresOnly s u.skipWord := h.withPc _

section
variable {i : Instr} {m : M Unit} {s u : State} {addr : Word} (hc : s.calm) (hexec : exec i s = outcome m s)
  (hu : StoresOnly s u)
include hc hexec hu

/-- A meaning that goes on at a new PC from `u`, and stores after the prefetch there. -/
theorem completes_continueAt_store {w : State} {store : Unit → M Unit}
    (hrun : m s = (continueAt addr >>= store) u)
    (hstore : store () (u.withPc addr.even).latched =
      .ok ((), w.withPrefetch (some (u.withPc addr.even).opcodeWord))) (hw : StoresOnly s w) :
    Completes i s w (u.withPc addr.even) [] :=
  Answers.completes (st := w.st) (hrun ▸ continueAt_then (hu.calm hc) hstore) hexec hw (hw.st ▸ StatusIs.refl s.st)

/-- A meaning that goes on at a new PC from `u`. -/
theorem completes_continueAt (hrun : m s = continueAt addr u) :
    Completes i s (u.withPc addr.even) (u.withPc addr.even) [] := by
  have hw : StoresOnly s (u.withPc addr.even) := hu.withPc _
  exact Answers.completes (st := (u.withPc addr.even).st) (hrun ▸ continueAt_answers (hu.calm hc) addr) hexec hw
    (hw.st ▸ StatusIs.refl s.st)

end

/-! ### The target of X -/

/-- The word that X takes as the next opcode, as the parameter of log 47 says. -/
theorem State.targetAt_eq (s : State) (l : Loc) : s.targetAt l =
    if s.params.xFromInstructionSegment = true ∧ l.space = .main then s.mainWord (psel s l.code) .iop l.addr
    else s.wordAt l := by
  simp only [State.targetAt, Bool.and_eq_true, beq_iff_eq]

/-- X holds the word at its operand as the opcode to run next, and changes nothing else but what deriving the operand
does. -/
theorem exec_x_calm {s : State} (hc : s.calm) {src : Operand} (hs : s.readable src wordStep .sop) :
    let a := s.operand src wordStep .sop
    exec (.x src) s = .next (a.2.withXTarget (some (a.2.targetAt a.1))) := by
  intro a
  refine outcome_ok ?_
  rw [M.bind_ok (srcLoc_calm hc hs.1 wordStep),
    M.bind_ok (readTarget_calm (by simpa using hc) (by simpa using hs.2)), update_apply]

/-! ### BLSK -/

/-- BLSK stores its register before it fetches the immediate, and the address after that before it goes on. -/
theorem blsk_completes {w : Reg} {s : State} (hc : s.calm) (hw : s.writes (s.regLoc w)) (hi : s.reads s.streamLoc) :
    let sp := s.wr w - 2#16
    let u := s.putWr w sp
    let l := s.baseLoc w sp .sop
    let v := (u.skipWord.putWord l u.skipWord.pc).withPc u.streamWord.even
    s.writes l → Completes (.blsk w) s v v [] := by
  intro sp u l v hl
  have hu : StoresOnly s u := (StoresOnly.refl s).putWr hc w sp
  have hread := immediate_calm (hu.calm hc) (show u.reads u.streamLoc by simpa [u] using hi)
  have hpush := writeLoc_calm (hu.skipWord.calm hc) (show u.skipWord.writes l by simpa [u] using hl) u.skipWord.pc
  have hbase : u.skipWord.baseLoc w sp .sop = l := by simp [u, l]
  refine completes_continueAt hc rfl (hu.skipWord.putWord hc l _) ?_
  rw [M.bind_ok (readReg_calm hc hw.reads), M.bind_ok (writeReg_calm hc hw _), M.bind_ok hread, gets_bind, gets_bind,
    hbase, M.bind_ok hpush]

end Sys2Proof.Machine

/-- Settles O25: each but X goes on at a new PC, BLSK with its two stores made before that and BL with its one after
it; X only holds its target. -/
theorem branchInstructions : Obligations.BranchInstructions := by
  refine ⟨?blsk, ?operand⟩
  case blsk =>
    intro w s hc hw hi sp u l v hl
    exact ⟨rfl, fun hm => State.baseLoc_main hm _ _ _, blsk_completes hc hw hi hl⟩
  intro src s hc hd a u v
  have ha : StoresOnly s a.2 := storesOnly_operand hc src _ _
  refine ⟨rfl, ?b, rfl, fun hr hw => ?bl, rfl, fun hr => ?bind, rfl, fun hr => ?x⟩
  case b =>
    exact completes_continueAt hc rfl ha (M.bind_ok (srcLoc_calm hc hd wordStep))
  case bl =>
    have hu : StoresOnly s u := ha.withPc _
    have hstore : writeReg 11#4 a.2.pc u.latched = .ok ((), (u.putWr 11#4 a.2.pc).withPrefetch (some u.opcodeWord)) :=
      writeReg_latched (hu.calm hc) (by simpa [u, a] using hw) _
    exact completes_continueAt_store (store := fun _ => writeReg 11#4 a.2.pc) hc rfl ha
      (srcLoc_readLoc hc ⟨hd, hr⟩ fun sl _ => do
        let oldPc ← gets State.pc
        continueAt sl.addr
        writeReg 11#4 oldPc) hstore (hu.putWr hc _ _)
  case bind =>
    exact completes_continueAt hc rfl ha (srcLoc_readLoc hc ⟨hd, hr⟩ fun _ => continueAt)
  case x =>
    rw [exec_x_calm hc ⟨hd, hr⟩, State.targetAt_eq, State.operand_params]
    rfl

end

section
/-! SUPPORT. The instructions that save a context: the three stores that BLWP, XOP and the trap of a MID opcode share,
what BLWP and XOP leave, and XOP under emulation in baseline mode (spec/42_xop_single_operand.md R280 to R282, R293,
spec/60_exceptions.md R548, R575). -/

open Sys2Proof Sys2Proof.Machine

namespace Sys2Proof.Machine

/-! ### Saving a context -/

theorem State.writes_savedLocs {n : State} :
    (∀ l ∈ n.savedLocs, n.writes l) ↔
      n.writes (n.regLoc 13#4) ∧ n.writes (n.regLoc 14#4) ∧ n.writes (n.regLoc 15#4) := by
  simp [State.savedLocs]

/-- The old WP, PC and ST stored in registers 13, 14 and 15, and what comes after. -/
theorem saving_run {β : Type} {n : State} (hc : n.calm) (hw : ∀ l ∈ n.savedLocs, n.writes l) (wp pc st : Word)
    (k : M β) :
    (do writeReg 13#4 wp; writeReg 14#4 pc; writeReg 15#4 st; k : M β) n = k (n.saving wp pc st) := by
  obtain ⟨h13, h14, h15⟩ := State.writes_savedLocs.1 hw
  rw [M.bind_ok (writeReg_calm hc h13 wp), M.bind_ok (writeReg_calm (by simpa using hc) (by simpa using h14) pc),
    M.bind_ok (writeReg_calm (by simpa using hc) (by simpa using h15) st), State.saving]

theorem State.writes_savedLocs_main {n : State} (h : n.inMs = false) : ∀ l ∈ n.savedLocs, n.writes l :=
  State.writes_savedLocs.2 ⟨State.writes_regLoc h _, State.writes_regLoc h _, State.writes_regLoc h _⟩

/-- Saving a context leaves every register below 13 alone. -/
theorem wr_saving {n : State} (hi : n.inMs = false) (he : n.wp.getLsbD 0 = false) {r : Nibble} (hr : r < 13#4)
    (a b c : Word) : (n.saving a b c).wr r = n.wr r := by
  have h13 : 13#4 ≠ r := by rintro rfl; exact absurd hr (by decide)
  have h14 : 14#4 ≠ r := by rintro rfl; exact absurd hr (by decide)
  have h15 : 15#4 ≠ r := by rintro rfl; exact absurd hr (by decide)
  rw [State.saving, wr_putWr _ (by simpa using hi) (by simpa using he), if_neg (fun h => h15 h.2),
    wr_putWr _ (by simpa using hi) (by simpa using he), if_neg (fun h => h14 h.2), wr_putWr _ hi he,
    if_neg (fun h => h13 h.2)]

/-- A register below 13 keeps its value in every state with the memories and the workspace that a save leaves. -/
theorem wr_of_saved {n t : State} {a b c : Word} (hm : t.mem = (n.saving a b c).mem)
    (hms : t.ms = (n.saving a b c).ms) (hp : t.params = n.params) (h8 : stBit t.st 8 = stBit n.st 8)
    (hw : t.wp = n.wp) (hi : n.inMs = false) (hti : t.inMs = false) (he : n.wp.getLsbD 0 = false) {r : Nibble}
    (hr : r < 13#4) : t.wr r = n.wr r := by
  rw [← wr_saving hi he hr a b c]
  exact wr_congr hm hms (by simpa using hp) (by simpa using h8) (by simpa using hw) (by simp [hi, hti]) r

/-- Which register of a workspace lies in RAM depends on WP, the platform and the page the workspace is in. -/
theorem ramAt_regLoc_congr {s t : State} (hs : s.inMs = false) (ht : t.inMs = false) (hw : s.wp = t.wp)
    (hp : s.params = t.params) (h8 : stBit s.st 8 = stBit t.st 8) (r : Nibble) :
    s.ramAt (s.regLoc r) = t.ramAt (t.regLoc r) := by
  rw [State.regLoc_main hs, State.regLoc_main ht]
  simp only [State.ramAt, State.wordBase, State.regAddr, psel, State.mapSelect, hw, hp, h8]

/-- The opcode read ahead is the one at PC in the state that holds it, too. -/
@[simp] theorem State.opcodeWord_latched (s : State) : s.latched.opcodeWord = s.opcodeWord :=
  opcodeWord_congr rfl rfl rfl rfl rfl rfl

theorem SameControl.withInhibit {s t : State} (h : SameControl s t) (i : Inhibit) :
    SameControl (s.withInhibit i) (t.withInhibit i) := by
  simp_all [SameControl]

theorem SameControl.withIdle {s t : State} (h : SameControl s t) (b : Bool) :
    SameControl (s.withIdle b) (t.withIdle b) := by
  simp_all [SameControl]

/-- With ST8 at 0 every access but those of operands has PSEL high. -/
theorem psel_high {s : State} (h8 : stBit s.st 8 = false) (code : BusCode) (hs : code ≠ .sop) (hd : code ≠ .dop) :
    psel s code = true := by
  cases code with
  | sop => exact absurd rfl hs
  | dop => exact absurd rfl hd
  | iop | iaq | inta | ws | gm | aums => simp [psel, State.mapSelect, h8]

/-! ### The trap of a MID opcode in baseline mode -/

/-- A context switch that saves the PC it finds is what the statements say of one. -/
theorem contextSwitch_switched {s : State} (hc : s.calm) (h : s.inMs = false) (vec : Word) (mask : BitVec 4) :
    ∃ t, contextSwitch vec mask s = .ok ((), t) ∧ Switched s t vec mask := by
  let n := ((s.withPrefetch none).withSt (stSet s.st 8 false)).withWp (s.mainWord true .inta vec).even
  let st := withIntMask (clearModes (stSet s.st 8 false)) mask
  let t := ((((n.saving s.wp s.pc s.st).withSt st).withInhibit .maskable).withIdle false).withPc
    (s.mainWord true .inta (vec + 2#16)).even
  have hn8 : stBit n.st 8 = false := by simp [n, stBit_stSet]
  have ht8 : stBit t.latched.st 8 = false := stBit_contextSwitch_eight s.st mask
  have hn : n.inMs = false := h
  have hpsel : psel t.latched .ws = psel n .ws := by rw [psel_high ht8 .ws nofun nofun, psel_high hn8 .ws nofun nofun]
  obtain ⟨hsaved, hbytes⟩ := saved_of (n := n) (t := t.latched) rfl rfl (saving_params ..) hpsel (saving_wp ..) hn
    ((saving_inMs ..).trans hn) (Word.even_getLsbD_zero _)
  have hmem := saving_mem_congr (s := n) (t := n.withPrefetch s.prefetch) rfl rfl rfl rfl hn hn s.wp s.pc s.st
  have hcontrol : SameControl s (n.saving s.wp s.pc s.st) := SameControl.saving (n := n) hc s.wp s.pc s.st
  exact ⟨t.latched, contextSwitch_calm hc h vec mask, saving_wp .., rfl, hmem, saving_ms hn .., hsaved, hbytes,
    StatusIs_contextSwitch s.st mask, congrArg some t.opcodeWord_latched.symm,
    (hcontrol.withInhibit .maskable).withIdle false⟩

/-- In baseline mode a MID trap is the level-2 trap (spec/60_exceptions.md R570, R575). -/
theorem raiseMid_baseline {s : State} (hm : s.inMs = false) (hb : s.msMode = .baseline) {kind : MidKind}
    (hk : kind ≠ .first) (w : Word) : raiseMid w kind s = illopTrap (midSavedPc s.pc kind) s := by
  simp only [raiseMid, gets_bind, hm, (midRoute_baseline_iff s).2 hb, Bool.false_eq_true, if_false, hk]

theorem illopTrap_eq (s : State) : illopTrap s.pc s = contextSwitch 0x0008#16 1#4 (s.withIllop true) := rfl

/-! ### BLWP -/

/-- All BLWP does, to the read of the next opcode (spec/42_xop_single_operand.md R293). -/
theorem exec_blwp_reaches {src : Operand} {s : State} (hc : s.calm) (hs : s.readable src wordStep .sop) :
    let a := s.operand src wordStep .sop
    let n := a.2.withWp (a.2.wordAt a.1).even
    let u := ((n.saving s.wp a.2.pc s.st).withInhibit .maskable).withPc (a.2.wordAt (a.1.offset 2#16)).even
    s.reads (a.1.offset 2#16) → (∀ l ∈ n.savedLocs, n.writes l) →
    Reaches (exec (.blwp src) s) u fun t => t = u.latched := by
  intro a n u hnext hw
  have ha : StoresOnly s a.2 := storesOnly_operand hc src _ _
  have hac : a.2.calm := ha.calm hc
  have hread := readLoc_calm hac (l := a.1.offset 2#16) (by simpa [a] using hnext)
  have hcont : Answers (continueAt (a.2.wordAt (a.1.offset 2#16)) ((n.saving s.wp a.2.pc s.st).withInhibit .maskable)) u
      u.latched := continueAt_answers (by simpa [n] using hac) _
  refine Answers.reaches (m := _) (s := s) (t := u.latched) ?_ rfl
  rw [srcLoc_readLoc hc hs, M.bind_ok hread]
  simp only [gets_bind]
  rw [M.bind_ok (wpCycle_calm hac _), saving_run (n := n) (by simpa [n] using hac) hw, update_bind, ha.wp, ha.st]
  exact hcont

/-! ### XOP -/

theorem exec_xop_trap {s : State} (hm : s.inMs = false) (he : stBit s.st 11 = false) (src : Operand) (n : Nibble) :
    exec (.xop src n) s = outcome (xopTrap src n) s := by
  simp only [exec, execXop, outcome, gets_bind, hm, he, Bool.false_eq_true, if_false]

/-- The vector of XOP (spec/42_xop_single_operand.md R281). -/
theorem xopVector_eq (n : Nibble) : 0x0040#16 + 4#16 * n.setWidth 16 = BitVec.ofNat 16 (0x40 + 4 * n.toNat) := by
  revert n; decide

/-- With ST8 at 0 a vector is read with PSEL high. -/
theorem mainRead_vector {s : State} (hc : s.calm) (h8 : stBit s.st 8 = false) (v : Word) :
    mainRead .inta v s = .ok (s.mainWord true .inta v, s) := by
  rw [mainRead_calm hc, psel_high h8 .inta nofun nofun]

/-- The trap of XOP in its new workspace: the operand's address stored, the new PC read, the context saved. -/
def xopSave (addr v wp pc st : Word) : M Unit := do
  writeReg 11#4 addr
  let newPc ← mainRead .inta (v + 2#16)
  writeReg 13#4 wp
  writeReg 14#4 pc
  writeReg 15#4 st
  updateSt fun st => stSet (clearModes st) 6 true
  update fun s => s.withInhibit .maskable
  continueAt newPc

section
variable {c : State} (hc : c.calm) (hm : c.inMs = false) (h8 : stBit c.st 8 = false) (addr v wp pc st : Word)
include hc hm h8

theorem xopSave_calm :
    let m := c.putWr 11#4 addr
    xopSave addr v wp pc st c = .ok ((), ((((m.saving wp pc st).withSt (stSet (clearModes c.st) 6 true)).withInhibit
      .maskable).withPc (m.mainWord true .inta (v + 2#16)).even).latched) := by
  intro m
  have hmm : m.inMs = false := by simpa [m] using hm
  have hmc : m.calm := by simpa [m] using hc
  have hpc : mainRead .inta (v + 2#16) m = .ok (m.mainWord true .inta (v + 2#16), m) :=
    mainRead_vector hmc (by simpa [m] using h8) _
  rw [xopSave, M.bind_ok (writeReg_main hc hm 11#4 addr), M.bind_ok hpc,
    saving_run hmc (State.writes_savedLocs_main hmm), updateSt_bind, update_bind,
    continueAt_main (by simpa using hmc) (by simpa using hmm), saving_st, State.putWr_st]

/-- What the trap of XOP leaves of the state in its new workspace (spec/42_xop_single_operand.md R281). -/
theorem xopSave_leaves (heven : c.wp.getLsbD 0 = false) :
    let m := c.putWr 11#4 addr
    ∃ t, xopSave addr v wp pc st c = .ok ((), t) ∧ t.wp = c.wp ∧ t.pc = (m.mainWord true .inta (v + 2#16)).even ∧
      t.mem = (m.saving wp pc st).mem ∧ t.ms = c.ms ∧ (t.savedInRam → SavedContext t wp pc st) ∧
      (t.ramAt (t.regLoc 11#4) = true → t.wr 11#4 = addr) ∧ t.prefetch = some t.opcodeWord ∧
      t.st = stSet (clearModes c.st) 6 true ∧ SameControl (c.withInhibit .maskable) t := by
  intro m
  have hmm : m.inMs = false := by simpa [m] using hm
  have hmc : m.calm := by simpa [m] using hc
  have hm8 : stBit m.st 8 = false := by simpa [m] using h8
  have hmeven : m.wp.getLsbD 0 = false := by simpa [m] using heven
  have ht8 : stBit (stSet (clearModes c.st) 6 true) 8 = false := by
    simp [stBit_stSet, stBit_clearModes]
  obtain ⟨t, ht⟩ : ∃ t, t = ((((m.saving wp pc st).withSt (stSet (clearModes c.st) 6 true)).withInhibit
    .maskable).withPc (m.mainWord true .inta (v + 2#16)).even).latched := ⟨_, rfl⟩
  have hmem : t.mem = (m.saving wp pc st).mem := by rw [ht]; rfl
  have hms : t.ms = (m.saving wp pc st).ms := by rw [ht]; rfl
  have hst : t.st = stSet (clearModes c.st) 6 true := by rw [ht]; rfl
  have hwp : t.wp = m.wp := by simp [ht]
  have hparams : t.params = m.params := by simp [ht]
  have htm : t.inMs = false := by simpa [ht] using hmm
  have htm8 : stBit t.st 8 = stBit m.st 8 := by rw [hst, ht8, hm8]
  have hpsel : psel t .ws = psel m .ws := by rw [psel_high (hst ▸ ht8) .ws nofun nofun, psel_high hm8 .ws nofun nofun]
  have hram : t.ramAt (t.regLoc 11#4) = c.ramAt (c.regLoc 11#4) :=
    ramAt_regLoc_congr htm hm (by simpa [m] using hwp) (by simpa [m] using hparams) (by simpa [m] using htm8) _
  have hcontrol : SameControl c (m.saving wp pc st) := (SameControl.putWr hc _ _).trans (SameControl.saving hmc _ _ _)
  refine ⟨t, ht ▸ xopSave_calm hc hm h8 addr v wp pc st, by simpa [m] using hwp, by rw [ht]; rfl, hmem, ?ms,
    (saved_of hmem hms hparams hpsel hwp hmm htm hmeven).1, fun hr => ?address, by rw [ht]; simp, hst, ?control⟩
  case ms => rw [hms, saving_ms hmm, State.putWr_ms hm]
  case address =>
    rw [wr_of_saved hmem hms hparams htm8 hwp hmm htm hmeven (by decide), wr_putWr c hm heven,
      if_pos ⟨hram ▸ hr, rfl⟩]
  case control => rw [ht]; exact hcontrol.withInhibit .maskable

end

/-- The trap of XOP comes to its stores with the operand derived, ST8 cleared and WP from the vector. -/
theorem xopTrap_run {s : State} (hc : s.calm) (h : s.inMs = false) (src : Operand) (n : Nibble) :
    let a := s.operand src wordStep .sop
    let v := BitVec.ofNat 16 (0x40 + 4 * n.toNat)
    xopTrap src n s = xopSave a.1.addr v s.wp a.2.pc s.st
      ((a.2.withSt (stSet s.st 8 false)).withWp (a.2.mainWord true .inta v).even) := by
  intro a v
  have ha : StoresOnly s a.2 := storesOnly_operand hc src _ _
  have hac : a.2.calm := ha.calm hc
  have hst := stCycle_calm hac fun st => stSet st 8 false
  have hvector := mainRead_vector (s := a.2.withSt (stSet a.2.st 8 false)) hac (by simp [stBit_stSet]) v
  simp only [xopTrap, xopVector_eq]
  rw [M.bind_ok (srcLoc_calm hc (State.derives_main h src) wordStep)]
  simp only [gets_bind]
  rw [M.bind_ok hst, M.bind_ok hvector, M.bind_ok (wpCycle_calm (by simpa using hac) _), ha.wp, ha.st]
  rfl

/-- ST after XOP (spec/42_xop_single_operand.md R281). -/
theorem StatusIs_xop (st : Word) :
    StatusIs st (stSet (clearModes (stSet st 8 false)) 6 true) ((6, true) :: modeBitsClear) := by
  have hclear : StatusIs st (clearModes (stSet st 8 false)) modeBitsClear := by
    intro k hk
    rw [stBit_clearModes _ _ hk, stBit_stSet _ (by decide) hk]
    interval_cases k <;> simp [List.lookup, modeBitsClear]
  exact hclear.trans ((StatusIs.refl _).set (by decide) rfl true)

end Sys2Proof.Machine

/-- Settles O26: both words are read before the workspace changes, and the stores follow it. -/
theorem blwpSwitchesWorkspace : Obligations.BlwpSwitchesWorkspace :=
  fun _ _ hc hs hnext hw => ⟨rfl, exec_blwp_reaches hc hs hnext hw⟩

/-- Settles O27: refused inside Macrostore; under emulation in baseline mode the context switch of the level-2 trap; and
otherwise a trap that makes all its stores in the workspace its vector names. -/
theorem xopTrapsThroughItsVector : Obligations.XopTrapsThroughItsVector := by
  refine ⟨fun src n s hm => ?refused, fun src n s hc hm he hb => ?emulated, fun src n s hc hm he => ?trap⟩
  case refused =>
    simp only [exec, execXop, outcome, gets_bind, hm, if_true, refuse_apply]
  case emulated =>
    obtain ⟨t, hrun, ht⟩ := contextSwitch_switched (s := s.withIllop true) hc hm 0x0008#16 1#4
    refine ⟨t, ?_, ht⟩
    rw [exec_xop_emulated hm he]
    exact outcome_ok ((raiseMid_baseline hm hb (by decide) _).trans ((illopTrap_eq s).trans hrun))
  case trap =>
    intro a v c m
    have ha : StoresOnly s a.2 := storesOnly_operand hc src _ _
    have hcm : c.inMs = false := ha.control.inMs.trans hm
    obtain ⟨t, hrun, hwp, hpc, hmem, hms, hsaved, haddr, hpre, hst, hcontrol⟩ :=
      xopSave_leaves (c := c) (ha.calm hc) hcm (by simp [c, stBit_stSet]) a.1.addr v s.wp a.2.pc s.st
        (Word.even_getLsbD_zero _)
    refine ⟨t, ?_, hwp, hpc, hmem, hms.trans (State.operand_ms hm ..), hsaved, haddr, hpre, hst ▸ StatusIs_xop s.st,
      (SameControl.withInhibit (t := c) ha.control .maskable).trans hcontrol⟩
    rw [exec_xop_trap hm he]
    exact outcome_ok ((xopTrap_run hc hm src n).trans hrun)

end

section
/-! SUPPORT. The part of the state that I/O touches, the error flags and the I/O write inhibit with it, taken together:
nothing else of the machine depends on it, so that an I/O instruction is an ordinary one beside it. What each I/O
operation answers on a calm bus is said once here, as what it makes of that part (spec/20_memory.md R115 to R124,
spec/10_state.md R50 to R54, spec/60_exceptions.md R610 to R612). -/

open Sys2Proof Sys2Proof.Machine

namespace Sys2Proof.Machine

/-! ### The part of the state that I/O touches -/

/-- The error flags, the I/O write inhibit, the traffic with I/O, and the count of free values drawn. -/
structure IoPart where
  privop : Bool
  illop : Bool
  af : Bool
  ioInhibit : Bool
  ioIn : List Word
  ioOut : List IoWrite
  draws : Nat

/-- That part of a state. -/
def State.ioPart (s : State) : IoPart :=
  { privop := s.privop, illop := s.illop, af := s.af, ioInhibit := s.ioInhibit, ioIn := s.ioIn, ioOut := s.ioOut,
    draws := s.draws }

/-- The state with that part replaced. -/
def State.withIo (s : State) (x : IoPart) : State :=
  { s with
    privop := x.privop
    illop := x.illop
    af := x.af
    ioInhibit := x.ioInhibit
    ioIn := x.ioIn
    ioOut := x.ioOut
    draws := x.draws }

section
variable (s : State) (x y : IoPart)

@[simp] theorem State.withIo_ioPart : s.withIo s.ioPart = s := (rfl)
@[simp] theorem State.ioPart_withIo : (s.withIo x).ioPart = x := (rfl)
@[simp] theorem State.withIo_withIo : (s.withIo x).withIo y = s.withIo y := (rfl)
@[simp] theorem State.withIo_st : (s.withIo x).st = s.st := (rfl)
@[simp] theorem State.withIo_params : (s.withIo x).params = s.params := (rfl)
@[simp] theorem State.withIo_ioInhibit : (s.withIo x).ioInhibit = x.ioInhibit := (rfl)
@[simp] theorem State.withIo_userMode : (s.withIo x).userMode = s.userMode := (rfl)
@[simp] theorem State.regLoc_withIo (r : Nibble) : (s.withIo x).regLoc r = s.regLoc r := (rfl)
@[simp] theorem calm_withIo : (s.withIo x).calm ↔ s.calm := Iff.rfl
@[simp] theorem writes_withIo (l : Loc) : (s.withIo x).writes l ↔ s.writes l := Iff.rfl

@[simp] theorem opcodeWord_withIo : (s.withIo x).opcodeWord = s.opcodeWord :=
  opcodeWord_congr rfl rfl rfl rfl rfl rfl

/-- A store and I/O do not disturb each other. -/
theorem State.putWord_withIo (l : Loc) (v : Word) : (s.withIo x).putWord l v = (s.putWord l v).withIo x := by
  have hp : ∀ c, psel (s.withIo x) c = psel s c := fun c => by cases c <;> rfl
  cases hs : l.space
  · simp only [State.putWord, hs, State.setMainWord, hp, State.withIo_params]; split <;> rfl
  · simp only [State.putWord, hs, State.setMsWord, msRegion_of_eq (s := s) (t := s.withIo x) rfl rfl]; split <;> rfl

end

/-- Whether a computation reaches its prefetch does not depend on I/O. -/
theorem answers_withIo {r : Except Stop (Unit × State)} {v t : State} {x : IoPart} :
    Answers r (v.withIo x) t ↔ Answers r v t := Iff.rfl

theorem SameControl.withIo {s t : State} (h : SameControl s t) (x : IoPart) :
    SameControl (s.withIo x) (t.withIo x) := by
  obtain ⟨-, -, -, hpending, hlast, hinhibit, hmode, hms, hldf, hidle, h7, h8, -, hap, hx, hreset, hpins, hbus, -, -,
    hdevIn, hdevOut, -, hparams⟩ := h
  exact ⟨rfl, rfl, rfl, hpending, hlast, hinhibit, hmode, hms, hldf, hidle, h7, h8, rfl, hap, hx, hreset, hpins, hbus,
    rfl, rfl, hdevIn, hdevOut, rfl, hparams⟩

/-- What was derived, read and stored before has left the part that I/O touches alone. -/
theorem StoresOnly.ioPart {s u : State} (h : StoresOnly s u) : u.ioPart = s.ioPart := by
  obtain ⟨-, -, hcontrol⟩ := h
  simp_all [SameControl, State.ioPart]

theorem StoresOnly.userMode {s u : State} (h : StoresOnly s u) : u.userMode = s.userMode := by
  simp only [State.userMode, h.st, h.control.inMs]

/-! ### Violations -/

/-- A violation of user mode, if there is one (spec/60_exceptions.md R612). -/
def IoPart.violated (x : IoPart) (b : Bool) : IoPart :=
  { x with privop := x.privop || b, ioInhibit := x.ioInhibit || b }

@[simp] theorem IoPart.violated_false (x : IoPart) : x.violated false = x := by simp [IoPart.violated]

/-- A second violation changes nothing. -/
theorem IoPart.violated_of_inhibited {x : IoPart} (hp : x.privop = true) (hi : x.ioInhibit = true) (b : Bool) :
    x.violated b = x := by
  cases x; simp_all [IoPart.violated]

/-- PRIVOP set where a condition on the state holds. -/
theorem setPrivop_if (c : State → Bool) (s : State) :
    (do if ← gets c then setPrivop : M Unit) s = .ok ((), s.withIo (s.ioPart.violated (c s))) := by
  rw [gets_bind, M.ite_apply]
  cases hb : c s
  · rw [IoPart.violated_false]; rfl
  · simp only [IoPart.violated, Bool.or_true]; rfl

theorem guardOutput_run (ioa : Word) (s : State) :
    guardOutput ioa s = .ok ((), s.withIo (s.ioPart.violated (s.userMode && privIo ioa))) := setPrivop_if _ s

theorem stcrViolation_run (used : List Word) (s : State) :
    stcrViolation used s = .ok ((), s.withIo (s.ioPart.violated (s.userMode && used.any privIo))) := setPrivop_if _ s

theorem tbViolation_run (ioa : Word) (s : State) : tbViolation ioa s =
    .ok ((), s.withIo (s.ioPart.violated (s.params.tbViolates && s.userMode && privIo ioa))) := setPrivop_if _ s

theorem privIo_eq (ioa : Word) : privIo ioa =
    (decide (0x1C00 ≤ ioa.toNat ∧ ioa.toNat ≤ 0x7FFE) || decide (0x9C00 ≤ ioa.toNat)) := by
  simp only [privIo, Bool.decide_and]

theorem privIo_iff (ioa : Word) : privIo ioa = true ↔
    (0x1C00 ≤ ioa.toNat ∧ ioa.toNat ≤ 0x7FFE) ∨ 0x9C00 ≤ ioa.toNat := by
  simp only [privIo_eq, Bool.or_eq_true, decide_eq_true_eq]

theorem parallel_iff (ioa : Word) : ioa.msb = true ↔ 0x8000 ≤ ioa.toNat := by
  simp [BitVec.msb_eq_decide]

/-- The protected part of the parallel half (spec/60_exceptions.md R611). -/
theorem privIo_of_parallel {base : Word} (h : base.msb = true) :
    privIo base.even = decide (0x9C00 ≤ base.even.toNat) := by
  have hbase := (parallel_iff base).1 h
  have heven := Word.even_toNat base
  rw [Bool.eq_iff_iff, privIo_iff, decide_eq_true_eq]
  omega

/-! ### Output -/

/-- What a one-bit output makes of the error flags, by the flags that the parameter lists for the address of a 1
(spec/10_state.md R52, R53). -/
def IoPart.flagged (x : IoPart) (table : List FlagSetEntry) (ioa : Word) (b : Bool) : IoPart :=
  if b then
    { x with
      privop := x.privop || table.any fun e => decide (e.addr = ioa) && e.privop
      illop := x.illop || table.any fun e => decide (e.addr = ioa) && e.illop
      af := x.af || table.any fun e => decide (e.addr = ioa) && e.af }
  else
    { x with
      privop := x.privop && decide (ioa ≠ 0x1FDC#16)
      illop := x.illop && decide (ioa ≠ 0x1FDA#16)
      af := x.af && decide (ioa ≠ 0x1FC8#16) }

@[simp] theorem IoPart.flagged_nil (x : IoPart) (ioa : Word) : x.flagged [] ioa true = x := by simp [IoPart.flagged]

theorem State.clearFlagAt_eq (s : State) (table : List FlagSetEntry) (ioa : Word) :
    s.clearFlagAt ioa = s.withIo (s.ioPart.flagged table ioa false) := by
  unfold State.clearFlagAt ioPrivop ioIllop ioAf
  by_cases hp : ioa = 0x1FDC#16
  · subst hp; simp [IoPart.flagged, State.ioPart]; rfl
  by_cases hi : ioa = 0x1FDA#16
  · subst hi; simp [IoPart.flagged, State.ioPart]; rfl
  by_cases ha : ioa = 0x1FC8#16
  · subst ha; simp [IoPart.flagged, State.ioPart]; rfl
  · simp [IoPart.flagged, State.ioPart, hp, hi, ha]; rfl

theorem State.setFlagsAt_eq (s : State) (table : List FlagSetEntry) (ioa : Word) :
    s.setFlagsAt table ioa = s.withIo (s.ioPart.flagged table ioa true) := by
  induction table generalizing s with
  | nil => simp [State.setFlagsAt]
  | cons e rest ih =>
    rw [show s.setFlagsAt (e :: rest) ioa = State.setFlagsAt (if e.addr = ioa then
      ((s.withPrivop (s.privop || e.privop)).withIllop (s.illop || e.illop)).withAf (s.af || e.af) else s) rest ioa
      from rfl, ih]
    split
    · rename_i h; simp [IoPart.flagged, h, State.ioPart, Bool.or_assoc]; rfl
    · rename_i h; simp [IoPart.flagged, h]

/-- The 1 that is refused while the parameter `FLAG_SET_ADDRS` is not given (log 16). -/
def refusesBit (p : Params) (ioa : Word) (b : Bool) : Bool :=
  p.flagSetAddrs.isNone && (b && flagSetRange ioa)

/-- One bit sent: on line D15 of a word in the parallel half, and with its effect on the flags elsewhere
(spec/20_memory.md R121, R124). -/
def IoPart.send (x : IoPart) (table : List FlagSetEntry) (ioa : Word) (b : Bool) : IoPart :=
  if 0x8000 ≤ ioa.toNat then
    { x with
      draws := x.draws + 1
      ioOut := x.ioOut ++ [.word ioa ((Config.freeWord x.draws &&& 0xFFFE#16) ||| if b then 1#16 else 0#16)] }
  else { x.flagged table ioa b with ioOut := x.ioOut ++ [.bit ioa b] }

/-- One bit sent in the bit-serial half. -/
theorem IoPart.send_serial (x : IoPart) (table : List FlagSetEntry) {ioa : Word} (h : ioa.toNat < 0x8000) (b : Bool) :
    x.send table ioa b = { x.flagged table ioa b with ioOut := x.ioOut ++ [.bit ioa b] } := if_neg (by omega)

/-- One bit sent in the parallel half, with what is free named. -/
theorem IoPart.send_parallel (x : IoPart) (table : List FlagSetEntry) {ioa : Word} (h : 0x8000 ≤ ioa.toNat)
    (b : Bool) : ∃ w : Word, w.getLsbD 0 = b ∧
      x.send table ioa b = { x with draws := x.draws + 1, ioOut := x.ioOut ++ [.word ioa w] } := by
  refine ⟨_, ?_, if_pos h⟩
  cases b <;> simp

/-- The table of the parameter `FLAG_SET_ADDRS`; empty while it is not given. -/
def flagTable (p : Params) : List FlagSetEntry := p.flagSetAddrs.getD []

theorem flagOutput_run {s : State} {ioa : Word} {b : Bool} (h : refusesBit s.params ioa b = false) :
    flagOutput ioa b s = .ok ((), s.withIo (s.ioPart.flagged (flagTable s.params) ioa b)) := by
  cases b with
  | false => simp only [flagOutput, State.clearFlagAt_eq s (flagTable s.params), Bool.false_eq_true, if_false]
  | true =>
    cases ht : s.params.flagSetAddrs with
    | none =>
      have hrange : flagSetRange ioa = false := by simpa [refusesBit, ht] using h
      simp [flagOutput, ht, hrange, flagTable]
    | some table => simp [flagOutput, ht, flagTable, State.setFlagsAt_eq]

theorem flagOutput_refused {s : State} {ioa : Word} {b : Bool} (h : refusesBit s.params ioa b = true) :
    flagOutput ioa b s = .error (.refused (.flagSetOutput ioa)) := by
  simp only [refusesBit, Bool.and_eq_true, Option.isNone_iff_eq_none] at h
  obtain ⟨hnone, hb, hrange⟩ := h
  simp [flagOutput, hnone, hb, hrange]

/-- The addresses of that refusal lie in the bit-serial half. -/
theorem not_parallel_of_refusesBit {p : Params} {ioa : Word} {b : Bool} (h : refusesBit p ioa b = true) :
    ioa.msb = false := by
  simp only [refusesBit, flagSetRange, Bool.and_eq_true, decide_eq_true_eq] at h
  rw [← Bool.not_eq_true, parallel_iff]; omega

theorem ioOut1_inhibited {s : State} (h : s.ioInhibit = true) (ioa : Word) (b : Bool) :
    ioOut1 ioa b s = .ok ((), s) := by
  simp [ioOut1, h]

theorem ioOut1_run {s : State} (hc : s.calm) (hi : s.ioInhibit = false) {ioa : Word} {b : Bool}
    (h : refusesBit s.params ioa b = false) :
    ioOut1 ioa b s = .ok ((), s.withIo (s.ioPart.send (flagTable s.params) ioa b)) := by
  simp only [ioOut1, gets_bind, hi, Bool.false_eq_true, if_false, M.ite_apply, parallel_iff]
  unfold IoPart.send
  split
  · rw [M.bind_ok (busCycle_calm hc)]; rfl
  · rw [M.bind_ok (busCycle_calm hc), M.bind_ok (flagOutput_run h)]
    unfold IoPart.flagged; split <;> rfl

theorem ioOut1_refused {s : State} (hc : s.calm) (hi : s.ioInhibit = false) {ioa : Word} {b : Bool}
    (h : refusesBit s.params ioa b = true) : ioOut1 ioa b s = .error (.refused (.flagSetOutput ioa)) := by
  simp only [ioOut1, gets_bind, hi, not_parallel_of_refusesBit h, Bool.false_eq_true, if_false]
  rw [M.bind_ok (busCycle_calm hc), M.bind_apply, flagOutput_refused h]

/-- A byte or word sent in the parallel half, unless output is inhibited (spec/20_memory.md R123). -/
def IoPart.sendWrite (x : IoPart) (e : IoWrite) : IoPart :=
  if x.ioInhibit then x else { x with ioOut := x.ioOut ++ [e] }

/-- One write after a guard: made or inhibited. -/
theorem IoPart.violated_sendWrite {x : IoPart} (h : x.ioInhibit = false) (b : Bool) (e : IoWrite) :
    (x.violated b).sendWrite e =
      { x with privop := x.privop || b, ioInhibit := b, ioOut := x.ioOut ++ if b then [] else [e] } := by
  cases b <;> simp [IoPart.violated, IoPart.sendWrite, h]

theorem ioWrite_guarded {s : State} (hc : s.calm) (e : IoWrite) :
    (do if ← gets State.ioInhibit then return () else busCycle; ioWrite e : M Unit) s =
      .ok ((), s.withIo (s.ioPart.sendWrite e)) := by
  rw [gets_bind, M.ite_apply, M.bind_ok (busCycle_calm hc)]
  unfold IoPart.sendWrite
  rw [show s.ioPart.ioInhibit = s.ioInhibit from rfl]
  split <;> rfl

theorem ioOutByte_run {s : State} (hc : s.calm) (ioa : Word) (v : Byte) :
    ioOutByte ioa v s = .ok ((), s.withIo (s.ioPart.sendWrite (.byte ioa v))) := ioWrite_guarded hc _

theorem ioOutWord_run {s : State} (hc : s.calm) (ioa v : Word) :
    ioOutWord ioa v s = .ok ((), s.withIo (s.ioPart.sendWrite (.word ioa v))) := ioWrite_guarded hc _

/-! ### Input -/

/-- The platform's next answer: the first one queued, or a free word (log 14). -/
def IoPart.answer (x : IoPart) : Word := x.ioIn.headD (Config.freeWord x.draws)

/-- After that answer. -/
def IoPart.answered (x : IoPart) : IoPart :=
  match x.ioIn with
  | _ :: rest => { x with ioIn := rest }
  | [] => { x with draws := x.draws + 1 }

theorem IoPart.answer_queued {x : IoPart} {w : Word} {rest : List Word} (h : x.ioIn = w :: rest) : x.answer = w := by
  simp [IoPart.answer, h]

theorem IoPart.answered_queued {x : IoPart} {w : Word} {rest : List Word} (h : x.ioIn = w :: rest) :
    x.answered = { x with ioIn := rest } := by
  unfold IoPart.answered; split <;> simp_all

theorem IoPart.answered_free {x : IoPart} (h : x.ioIn = []) : x.answered = { x with draws := x.draws + 1 } := by
  unfold IoPart.answered; split <;> simp_all

/-- An answer changes the queue and the count of draws alone. -/
theorem IoPart.answered_eq (x : IoPart) :
    x.answered = { x with ioIn := x.answered.ioIn, draws := x.answered.draws } := by
  unfold IoPart.answered; split <;> rfl

theorem ioAnswer_run {s : State} (hc : s.calm) : ioAnswer s = .ok (s.ioPart.answer, s.withIo s.ioPart.answered) := by
  unfold ioAnswer IoPart.answer IoPart.answered
  rw [M.bind_ok (busCycle_calm hc), gets_bind]
  cases s
  dsimp only [State.ioPart]
  split <;> rfl

theorem State.flagAt_privop (s : State) : s.flagAt 0x1FDC#16 = some s.privop := rfl
theorem State.flagAt_illop (s : State) : s.flagAt 0x1FDA#16 = some s.illop := rfl
theorem State.flagAt_af (s : State) : s.flagAt 0x1FC8#16 = some s.af := rfl

theorem State.flagAt_eq_none {s : State} {ioa : Word} (hp : ioa ≠ 0x1FDC#16) (hl : ioa ≠ 0x1FDA#16)
    (ha : ioa ≠ 0x1FC8#16) : s.flagAt ioa = none := by
  simp only [State.flagAt, ioPrivop, ioIllop, ioAf, hp, hl, ha, if_false]

/-- Deriving, reading and storing do not change what a flag address reads as. -/
theorem StoresOnly.flagAt {s u : State} (h : StoresOnly s u) (ioa : Word) : u.flagAt ioa = s.flagAt ioa := by
  simp only [State.flagAt, show u.privop = s.privop from congrArg IoPart.privop h.ioPart,
    show u.illop = s.illop from congrArg IoPart.illop h.ioPart, show u.af = s.af from congrArg IoPart.af h.ioPart]

theorem ioIn1_flag {s : State} (hc : s.calm) {ioa : Word} {b : Bool} (h : s.flagAt ioa = some b) :
    ioIn1 ioa s = .ok (b, s) := by
  simp only [ioIn1, gets_bind, h, M.bind_ok (busCycle_calm hc), M.pure_apply]

theorem ioIn1_answer {s : State} (hc : s.calm) {ioa : Word} (h : s.flagAt ioa = none) :
    ioIn1 ioa s = .ok (s.ioPart.answer.msb, s.withIo s.ioPart.answered) := by
  simp only [ioIn1, gets_bind, h, M.bind_ok (ioAnswer_run hc), M.pure_apply]

end Sys2Proof.Machine

end

section
/-! SUPPORT. The single-bit I/O instructions SBO, SBZ and TB, and the statements on them
(spec/43_cru_io.md R340 to R344). -/

open Sys2Proof Sys2Proof.Machine

namespace Sys2Proof.Machine

theorem dispBytes_eq (d : Byte) : dispBytes d = BitVec.ofInt 16 (2 * d.toInt) := by
  rw [BitVec.ofInt_mul]; rfl

/-- The address of a single-bit instruction, as the statements write it (spec/43_cru_io.md R340). -/
def State.bitAddr (s : State) (d : Byte) : Word := (s.wr 12#4 + BitVec.ofInt 16 (2 * d.toInt)).even

section
variable {s : State} (hc : s.calm) (hm : s.inMs = false) (d : Byte)
include hc hm

theorem bitAddr_run : bitAddr d s = .ok (s.bitAddr d, s) := by
  rw [bitAddr, M.bind_ok (readReg_main hc hm 12#4), dispBytes_eq]; rfl

/-- The guard of an output bit decides what reaches the I/O space. -/
theorem outputBit_run (b : Bool) : outputBit d b s =
    (ioOut1 (s.bitAddr d) b >>= fun _ => prefetchNext)
      (s.withIo (s.ioPart.violated (s.userMode && privIo (s.bitAddr d)))) := by
  rw [outputBit, M.bind_ok (bitAddr_run hc hm d), M.bind_ok (guardOutput_run _ s)]

theorem exec_outputBit_violation (b : Bool) (hb : (s.userMode && privIo (s.bitAddr d)) = true) :
    outcome (inMainOnly (outputBit d b)) s = .next ((s.withPrivop true).withIoInhibit true).latched := by
  refine outcome_ok ?_
  have hstate : s.withIo (s.ioPart.violated true) = (s.withPrivop true).withIoInhibit true := by
    simp only [IoPart.violated, Bool.or_true]; rfl
  simp only [inMainOnly, gets_bind, hm, Bool.false_eq_true, if_false]
  rw [outputBit_run hc hm, hb, hstate, M.bind_ok (ioOut1_inhibited rfl _ _)]
  exact prefetchNext_main (by simpa using hc) hm

theorem exec_outputBit_sends (hi : s.ioInhibit = false) {b : Bool} (hb : (s.userMode && privIo (s.bitAddr d)) = false)
    (hr : refusesBit s.params (s.bitAddr d) b = false) : outcome (inMainOnly (outputBit d b)) s =
      .next (s.withIo (s.ioPart.send (flagTable s.params) (s.bitAddr d) b)).latched := by
  refine outcome_ok ?_
  simp only [inMainOnly, gets_bind, hm, Bool.false_eq_true, if_false]
  rw [outputBit_run hc hm, hb, IoPart.violated_false, State.withIo_ioPart, M.bind_ok (ioOut1_run hc hi hr)]
  exact prefetchNext_main (by simpa using hc) hm

theorem exec_outputBit_refused (hi : s.ioInhibit = false) {b : Bool}
    (hb : (s.userMode && privIo (s.bitAddr d)) = false) (hr : refusesBit s.params (s.bitAddr d) b = true) :
    outcome (inMainOnly (outputBit d b)) s = .refused (.flagSetOutput (s.bitAddr d)) := by
  simp only [outcome, inMainOnly, gets_bind, hm, Bool.false_eq_true, if_false]
  rw [outputBit_run hc hm, hb, IoPart.violated_false, State.withIo_ioPart, M.bind_apply, ioOut1_refused hc hi hr]

end

end Sys2Proof.Machine

/-- Settles O37: the guard passes or inhibits the one output cycle, and that cycle sends its bit, with the effect of a
bit sent on the flags, or is refused. -/
theorem singleBitOutput : Obligations.SingleBitOutput := by
  intro d s hc hm hi ioa guarded flagRange violation
  have hguard : (s.userMode && privIo ioa) = true ↔ stBit s.st 7 = true ∧ guarded := by
    simp [State.userMode, hm, privIo_iff, guarded]
  have hrange : flagSetRange ioa = true ↔ flagRange := by simp [flagSetRange, flagRange]
  refine ⟨fun huser hg => ?violation, fun hfree => ?_⟩
  case violation =>
    have hb := hguard.2 ⟨huser, hg⟩
    exact ⟨exec_outputBit_violation hc hm d true hb, exec_outputBit_violation hc hm d false hb⟩
  have hb : (s.userMode && privIo ioa) = false := by rwa [← Bool.not_eq_true, hguard]
  have hsends {b : Bool} (hr : refusesBit s.params ioa b = false) : outcome (inMainOnly (outputBit d b)) s =
      .next (s.withIo (s.ioPart.send (flagTable s.params) ioa b)).latched := exec_outputBit_sends hc hm d hi hb hr
  have hzero : refusesBit s.params ioa false = false := by simp [refusesBit]
  refine ⟨fun hlow => ?zero, fun hlow hnone hout => ?one, fun hin hnone => ?refused, fun table hlow htable => ?table,
    fun hhigh => ?parallel⟩
  case zero => exact (hsends hzero).trans (by rw [IoPart.send_serial _ _ hlow]; rfl)
  case one =>
    have hr : refusesBit s.params ioa true = false := by simpa [refusesBit, hnone] using mt hrange.1 hout
    refine (hsends hr).trans ?_
    rw [show flagTable s.params = [] by simp [flagTable, hnone], IoPart.send_serial _ _ hlow, IoPart.flagged_nil]; rfl
  case refused =>
    exact exec_outputBit_refused hc hm d hi hb (by simp only [refusesBit, hnone]; exact hrange.2 hin)
  case table =>
    have hr : refusesBit s.params ioa true = false := by simp [refusesBit, htable]
    refine (hsends hr).trans ?_
    rw [show flagTable s.params = table by simp [flagTable, htable], IoPart.send_serial _ _ hlow]; rfl
  case parallel =>
    have hone : refusesBit s.params ioa true = false := by
      rw [← Bool.not_eq_true]
      intro h
      have := not_parallel_of_refusesBit h
      rw [← Bool.not_eq_true, parallel_iff] at this
      exact this hhigh
    obtain ⟨w, hw, hsent⟩ := s.ioPart.send_parallel (flagTable s.params) hhigh true
    obtain ⟨v, hv, hsent'⟩ := s.ioPart.send_parallel (flagTable s.params) hhigh false
    exact ⟨w, v, hw, hv, (hsends hone).trans (by rw [hsent]; rfl), (hsends hzero).trans (by rw [hsent']; rfl)⟩

namespace Sys2Proof.Machine

/-- TB after the bit is read from the I/O space. -/
theorem exec_tb_run {s u : State} (hc : s.calm) (hm : s.inMs = false) {d : Byte} {b : Bool}
    (hread : ioIn1 (s.bitAddr d) s = .ok (b, u)) (huc : u.calm) (hum : u.inMs = false) (hst : u.st = s.st)
    (hp : u.params = s.params) :
    let t := u.latched.withSt (stSet s.st 2 b)
    exec (.tb d) s =
      .next (if s.params.tbViolates = true ∧ stBit s.st 7 = true ∧ privIo (s.bitAddr d) = true then
        (t.withPrivop true).withIoInhibit true else t) := by
  intro t
  have hcond : (t.params.tbViolates && t.userMode && privIo (s.bitAddr d)) = true ↔
      s.params.tbViolates = true ∧ stBit s.st 7 = true ∧ privIo (s.bitAddr d) = true := by
    simp [t, State.userMode, hum, hp, stBit_stSet, and_assoc]
  have hrun : exec (.tb d) s = .next (t.withIo (t.ioPart.violated
      (t.params.tbViolates && t.userMode && privIo (s.bitAddr d)))) := by
    refine outcome_ok ?_
    simp only [inMainOnly, gets_bind, hm, Bool.false_eq_true, if_false]
    rw [M.bind_ok (bitAddr_run hc hm d), M.bind_ok hread, M.bind_ok (prefetchNext_main huc hum),
      M.bind_ok (settle_calm (by simpa using huc) _), State.latched_st, hst]
    exact tbViolation_run _ _
  rw [hrun]
  split
  · rename_i h; rw [hcond.2 h]; simp only [IoPart.violated, Bool.or_true]; rfl
  · rename_i h; rw [Bool.eq_false_iff.2 (mt hcond.1 h), IoPart.violated_false, State.withIo_ioPart]

end Sys2Proof.Machine

/-- Settles O38: TB reads a flag, which changes nothing, or the platform's answer, and comes to the same end from
both. -/
theorem testBitReadsInput : Obligations.TestBitReadsInput := by
  intro d s hc hm ioa breaks ends
  have hends {b : Bool} {x : IoPart} (h : ioIn1 ioa s = .ok (b, s.withIo x)) : ends (s.withIo x) b := by
    refine (exec_tb_run hc hm h (by simpa using hc) hm rfl rfl).trans ?_
    simp only [breaks, ← privIo_iff]; rfl
  have hflag {b : Bool} (h : s.flagAt ioa = some b) : ends s b := hends (x := s.ioPart) (ioIn1_flag hc h)
  refine ⟨rfl, fun h => hflag (h ▸ s.flagAt_privop), fun h => hflag (h ▸ s.flagAt_illop),
    fun h => hflag (h ▸ s.flagAt_af), fun hp hl ha => ?answer⟩
  case answer =>
    have hnone : s.flagAt ioa = none := State.flagAt_eq_none hp hl ha
    have hread : ends (s.withIo s.ioPart.answered) s.ioPart.answer.msb := hends (ioIn1_answer hc hnone)
    refine ⟨fun w rest hw => ?queued, fun hempty => ⟨s.ioPart.answer.msb, ?free⟩⟩
    case queued =>
      rwa [IoPart.answer_queued (x := s.ioPart) hw, IoPart.answered_queued (x := s.ioPart) hw] at hread
    case free =>
      rwa [IoPart.answered_free (x := s.ioPart) hempty] at hread

end

section
/-! SUPPORT. What LDCR and STCR share: the size and count of a transfer, its status, the prefetch with the increment of
register 12, and the end of each (spec/43_cru_io.md R325 to R334). With it the statements on the parallel half. -/

open Sys2Proof Sys2Proof.Machine

namespace Sys2Proof.Machine

/-! ### Count and size -/

theorem byteCount_iff (cnt : Nibble) : byteCount cnt = true ↔ 1 ≤ cnt.toNat ∧ cnt.toNat ≤ 8 := by
  simp only [byteCount, Bool.and_eq_true, decide_eq_true_eq]

theorem countStep_eq (cnt : Nibble) :
    countStep cnt = if 1 ≤ cnt.toNat ∧ cnt.toNat ≤ 8 then 1#16 else 2#16 := by
  simp only [countStep, byteCount_iff]; rfl

theorem bitCount_eq (cnt : Nibble) : bitCount cnt = if cnt.toNat = 0 then 16 else cnt.toNat := by
  simp only [bitCount, ← BitVec.toNat_inj, BitVec.toNat_ofNat]

theorem bitCount_le (cnt : Nibble) : bitCount cnt ≤ 16 := by
  have := cnt.isLt
  rw [bitCount_eq]; split <;> omega

theorem parallelCount_iff (cnt : Nibble) : parallelCount cnt = true ↔ cnt ∈ [2#4, 3#4, 10#4, 11#4] := by
  simp [parallelCount, or_assoc]

/-! ### Status -/

theorem StatusIs_transferFlags (cnt : Nibble) (v st : Word) :
    StatusIs st (transferFlags cnt v st) (transferBits cnt v) := by
  unfold transferFlags transferBits
  split
  · exact (StatusIs_setLae (lo8 v) st).parity rfl (lo8 v)
  · exact StatusIs_setLae v st

theorem stBit_transferFlags_seven (cnt : Nibble) (v st : Word) : stBit (transferFlags cnt v st) 7 = stBit st 7 := by
  rw [StatusIs_transferFlags cnt v st 7 (by decide)]
  unfold transferBits; split <;> rfl

/-! ### The prefetch and the increment of register 12 -/

/-- What follows a prefetch runs from where it answers. -/
theorem Answers.bind {m : M Unit} {k : Unit → M Unit} {s v u t : State} (h : Answers (m s) v u)
    (hk : k () u = .ok ((), t)) : Answers ((m >>= k) s) v t :=
  ⟨fun hr => by rw [M.bind_ok (h.1 hr), hk], fun hr => by rw [M.bind_apply, h.2 hr]⟩

/-- A store does not move the opcode read ahead. -/
theorem answers_putWord {r : Except Stop (Unit × State)} {u t : State} {l : Loc} {v : Word} :
    Answers r (u.putWord l v) t ↔ Answers r u t := by
  have hloc : (u.putWord l v).opcodeLoc = u.opcodeLoc := by simp [State.opcodeLoc, State.space]
  have hunread : (u.putWord l v).unread u.opcodeLoc = u.unread u.opcodeLoc := by simp [State.unread]
  rw [Answers, hloc, hunread, reads_putWord, Answers]

/-- Register 12 after a parallel transfer. -/
def State.bumped (s : State) (base : Word) (cnt : Nibble) : State :=
  match parallelIncrement s.params cnt with
  | some k => s.putWr 12#4 (base + k)
  | none => s

theorem State.bumped_eq (s : State) (base : Word) (cnt : Nibble) : s.bumped base cnt =
    if cnt = 3#4 ∨ cnt = 11#4 then
      s.putWr 12#4 (base + if cnt = 3#4 then (if s.params.parByteIncOne then 1#16 else 2#16) else 2#16)
    else s := by
  unfold State.bumped parallelIncrement
  by_cases h3 : cnt = 3#4
  · simp [h3]
  · by_cases hb : cnt = 11#4 <;> simp [h3, hb]

theorem parallelIncrement_isSome {p : Params} {cnt : Nibble} {k : Word} (h : parallelIncrement p cnt = some k) :
    cnt = 3#4 ∨ cnt = 11#4 := by
  by_contra hno
  rw [not_or] at hno
  simp [parallelIncrement, hno.1, hno.2] at h

theorem StoresOnly.bumped {s u : State} (h : StoresOnly s u) (hc : s.calm) (base : Word) (cnt : Nibble) :
    StoresOnly s (u.bumped base cnt) := by
  unfold State.bumped
  split
  · exact h.putWr hc _ _
  · exact h

theorem State.bumped_withIo (s : State) (x : IoPart) (base : Word) (cnt : Nibble) :
    (s.withIo x).bumped base cnt = (s.bumped base cnt).withIo x := by
  simp only [State.bumped, State.withIo_params]
  split
  · exact State.putWord_withIo s x _ _
  · rfl

theorem State.bumped_pc (s : State) (base : Word) (cnt : Nibble) : (s.bumped base cnt).pc = s.pc := by
  unfold State.bumped; split <;> simp

theorem bumpBase_answers {u : State} (hc : u.calm) {base : Word} {cnt : Nibble}
    (hw : cnt = 3#4 ∨ cnt = 11#4 → u.writes (u.regLoc 12#4)) :
    Answers (bumpBase base cnt u) u ((u.bumped base cnt).withPrefetch (some u.opcodeWord)) := by
  apply prefetchNext_then hc
  rw [gets_bind, State.latched_params]
  unfold State.bumped
  cases hk : parallelIncrement u.params cnt with
  | some k => exact writeReg_latched hc (hw (parallelIncrement_isSome hk)) _
  | none => exact busCycle_calm (by simpa using hc)

/-! ### LDCR -/

/-- LDCR in the parallel half, from its guard on (spec/43_cru_io.md R327). -/
def sendParallel (cnt : Nibble) (v base : Word) : M Unit := do
  guardOutput base.even
  if byteCount cnt then ioOutByte base.even (lo8 v) else ioOutWord base.even v
  bumpBase base cnt
  updateSt (transferFlags cnt v)

/-- LDCR in the bit-serial half, from its first bit on (spec/43_cru_io.md R326). -/
def sendSerial (cnt : Nibble) (v base : Word) : M Unit := do
  outBits v base 0 (bitCount cnt)
  prefetchNext
  settle (transferFlags cnt v)

/-- LDCR after its operand and register 12 are read. -/
def sendOperand (cnt : Nibble) (v base : Word) : M Unit :=
  if base.msb then
    if parallelCount cnt then sendParallel cnt v base else refuse (.reservedCount cnt)
  else sendSerial cnt v base

/-- Both arms of a choice come to the same. -/
theorem M.ite_run {α : Type} {c : Prop} [Decidable c] {m n : M α} {s : State} {r : Except Stop (α × State)}
    (hm : c → m s = r) (hn : ¬ c → n s = r) : (if c then m else n) s = r := by
  split
  · exact hm ‹_›
  · exact hn ‹_›

/-- A computation that comes to another has its outcome. -/
theorem outcome_eq_of_run {m n : M Unit} {s u : State} (h : m s = n u) : outcome m s = outcome n u := by
  unfold outcome; rw [h]

theorem exec_ldcr {s : State} (hc : s.calm) {src : Operand} {cnt : Nibble} {size : Word} (hsize : countStep cnt = size)
    (hs : s.readable src size .sop) (hr : s.reads (s.regLoc 12#4)) :
    let a := s.operand src size .sop
    exec (.ldcr src cnt) s =
      outcome (sendOperand cnt (transferValue cnt a.1.addr (a.2.wordAt a.1)) (a.2.wr 12#4)) a.2 := by
  subst hsize
  exact outcome_eq_of_run
    (srcLoc_readLoc_readReg hc hs hr fun l w base => sendOperand cnt (transferValue cnt l.addr w) base)

/-- The one write of a parallel LDCR. -/
def parallelWrite (cnt : Nibble) (v base : Word) : IoWrite :=
  if byteCount cnt then .byte base.even (lo8 v) else .word base.even v

theorem sendParallel_answers {u : State} (hc : u.calm) {cnt : Nibble} {v base : Word}
    (hw : cnt = 3#4 ∨ cnt = 11#4 → u.writes (u.regLoc 12#4)) :
    let y := (u.ioPart.violated (u.userMode && privIo base.even)).sendWrite (parallelWrite cnt v base)
    Answers (sendParallel cnt v base u) u
      ((((u.bumped base cnt).withIo y).withPrefetch (some u.opcodeWord)).withSt
        (transferFlags cnt v (u.bumped base cnt).st)) := by
  intro y
  have hbump := bumpBase_answers (u := u.withIo y) (base := base) (cnt := cnt) hc hw
  rw [State.bumped_withIo, opcodeWord_withIo, answers_withIo] at hbump
  have hrun : sendParallel cnt v base u =
      (bumpBase base cnt >>= fun _ => updateSt (transferFlags cnt v)) (u.withIo y) := by
    have hguarded : (u.withIo (u.ioPart.violated (u.userMode && privIo base.even))).calm := hc
    refine (M.bind_ok (guardOutput_run _ u)).trans (M.ite_run (fun hb => ?byte) fun hb => ?word)
    case byte =>
      have hwrite : parallelWrite cnt v base = .byte base.even (lo8 v) := if_pos hb
      refine (M.bind_ok (ioOutByte_run hguarded _ _)).trans ?_
      rw [← hwrite]; rfl
    case word =>
      have hwrite : parallelWrite cnt v base = .word base.even v := if_neg hb
      refine (M.bind_ok (ioOutWord_run hguarded _ _)).trans ?_
      rw [← hwrite]; rfl
  rw [hrun]
  exact hbump.bind rfl

/-! ### STCR -/

/-- STCR in the parallel half, from its input on (spec/43_cru_io.md R331). -/
def storeParallel (cnt : Nibble) (sl : Loc) (old base : Word) : M Unit := do
  let v ← if byteCount cnt then (do let b ← ioInByte base.even; pure (b.setWidth 16)) else ioInWord base.even
  writeLoc sl (stcrMerge cnt sl.addr old v)
  bumpBase base cnt
  updateSt (transferFlags cnt v)
  stcrViolation [base.even]

/-- STCR in the bit-serial half, from its first bit on (spec/43_cru_io.md R330). -/
def storeSerial (cnt : Nibble) (sl : Loc) (old base : Word) : M Unit := do
  let v ← inBits base 0 (bitCount cnt)
  prefetchNext
  writeLoc sl (stcrMerge cnt sl.addr old v)
  updateSt (transferFlags cnt v)
  stcrViolation ((List.range (bitCount cnt)).map (serialAddr base))

/-- STCR after a byte operand and register 12 are read. -/
def storeInput (cnt : Nibble) (sl : Loc) (old base : Word) : M Unit :=
  if base.msb then
    if parallelCount cnt then storeParallel cnt sl old base else refuse (.reservedCount cnt)
  else storeSerial cnt sl old base

/-- A word operand of STCR is replaced whole, whatever was there. -/
theorem storeInput_word {cnt : Nibble} (h : byteCount cnt = false) (sl : Loc) (old new base : Word) :
    storeInput cnt sl old base = storeInput cnt sl new base := by
  simp only [storeInput, storeParallel, storeSerial, stcrMerge, h, Bool.false_eq_true, if_false]

theorem exec_stcr {s : State} (hc : s.calm) {src : Operand} {cnt : Nibble} {size : Word} (hsize : countStep cnt = size)
    (hs : s.writable src size .sop) (hr : s.reads (s.regLoc 12#4)) :
    let a := s.operand src size .sop
    exec (.stcr src cnt) s = outcome (storeInput cnt a.1 (a.2.wordAt a.1) (a.2.wr 12#4)) a.2 := by
  subst hsize
  intro a
  have hac : a.2.calm := by simpa [a] using hc
  have hbase : readReg 12#4 a.2 = .ok (a.2.wr 12#4, a.2) := readReg_calm hac (by simpa [a] using hr)
  refine outcome_eq_of_run (Eq.trans (M.bind_ok (srcLoc_calm hc hs.1 _)) ?_)
  refine M.ite_run (fun hb => ?byte) fun hb => ?word
  case byte => exact (M.bind_ok (readLoc_calm hac (by simpa [a] using hs.2.reads))).trans (M.bind_ok hbase)
  case word =>
    exact (M.bind_ok (M.pure_apply 0#16 a.2)).trans ((M.bind_ok hbase).trans
      (congrFun (storeInput_word (Bool.eq_false_iff.2 hb) a.1 0#16 (a.2.wordAt a.1) (a.2.wr 12#4)) a.2))

/-- The end of STCR: the status, then the violation, which ST7 decides. -/
theorem storeInput_end (u : State) (p : Option Word) (cnt : Nibble) (v : Word) (used : List Word) :
    (do updateSt (transferFlags cnt v); stcrViolation used : M Unit) (u.withPrefetch p) =
      .ok ((), ((u.withIo (u.ioPart.violated (u.userMode && used.any privIo))).withPrefetch p).withSt
        (transferFlags cnt v u.st)) := by
  have huser : ((u.withPrefetch p).withSt (transferFlags cnt v u.st)).userMode = u.userMode := by
    simp only [State.userMode, State.withSt_st, stBit_transferFlags_seven]; rfl
  rw [updateSt_bind]
  refine (stcrViolation_run _ _).trans ?_
  rw [State.withPrefetch_st, huser]; rfl

/-- The value of a parallel STCR (spec/43_cru_io.md R331). -/
def parallelValue (cnt : Nibble) (answer : Word) : Word :=
  if byteCount cnt then (hi8 answer).setWidth 16 else answer

theorem stcrMerge_parallelValue (cnt : Nibble) (addr old answer : Word) :
    stcrMerge cnt addr old (parallelValue cnt answer) =
      if byteCount cnt then mergeByte addr old (hi8 answer) else answer := by
  unfold stcrMerge parallelValue
  split
  · rw [show lo8 ((hi8 answer).setWidth 16) = hi8 answer by
      apply BitVec.eq_of_toNat_eq; simp [lo8]; omega]
  · rfl

theorem storeParallel_answers {u : State} (hc : u.calm) {cnt : Nibble} {sl : Loc} (hsl : u.writes sl) (old base : Word)
    (hw : cnt = 3#4 ∨ cnt = 11#4 → u.writes (u.regLoc 12#4)) :
    let v := parallelValue cnt u.ioPart.answer
    let w := u.putWord sl (stcrMerge cnt sl.addr old v)
    let y := u.ioPart.answered.violated (u.userMode && privIo base.even)
    Answers (storeParallel cnt sl old base u) u
      ((((w.bumped base cnt).withIo y).withPrefetch (some w.opcodeWord)).withSt (transferFlags cnt v u.st)) := by
  intro v w y
  have hstore : writeLoc sl (stcrMerge cnt sl.addr old v) (u.withIo u.ioPart.answered) =
      .ok ((), w.withIo u.ioPart.answered) := by
    rw [writeLoc_calm (by simpa using hc) (by simpa using hsl), State.putWord_withIo]
  have hbump := bumpBase_answers (u := w.withIo u.ioPart.answered) (base := base) (cnt := cnt) (by simpa [w] using hc)
    (by simpa [w] using hw)
  rw [State.bumped_withIo, opcodeWord_withIo, answers_withIo, answers_putWord] at hbump
  have hbumped : StoresOnly u (w.bumped base cnt) := ((StoresOnly.refl u).putWord hc _ _).bumped hc _ _
  have hrun : storeParallel cnt sl old base u = (bumpBase base cnt >>= fun _ => do
      updateSt (transferFlags cnt v); stcrViolation [base.even] : M Unit) (w.withIo u.ioPart.answered) := by
    refine M.ite_run (fun hb => ?byte) fun hb => ?word
    case byte =>
      have hv : v = (hi8 u.ioPart.answer).setWidth 16 := if_pos hb
      have hin : (do let b ← ioInByte base.even; pure (b.setWidth 16) : M Word) u =
          .ok (v, u.withIo u.ioPart.answered) := by
        rw [hv, ioInByte, M.bind_apply, M.bind_ok (ioAnswer_run hc)]; rfl
      exact (M.bind_ok hin).trans (M.bind_ok hstore)
    case word =>
      have hin : ioInWord base.even u = .ok (v, u.withIo u.ioPart.answered) :=
        (ioAnswer_run hc).trans (by rw [show v = u.ioPart.answer from if_neg hb])
      exact (M.bind_ok hin).trans (M.bind_ok hstore)
  rw [hrun]
  refine hbump.bind ((storeInput_end _ _ cnt v _).trans ?_)
  rw [State.withIo_userMode, hbumped.userMode, State.withIo_st, hbumped.st, State.ioPart_withIo, State.withIo_withIo,
    List.any_cons, List.any_nil, Bool.or_false]

/-! ### The parallel half -/

/-- A reserved count is refused in the parallel half, by LDCR and STCR alike. -/
theorem sendOperand_reserved {cnt : Nibble} (h : cnt ∉ [2#4, 3#4, 10#4, 11#4]) (v : Word) {base : Word}
    (hbase : base.msb = true) (u : State) : outcome (sendOperand cnt v base) u = .refused (.reservedCount cnt) := by
  rw [sendOperand, if_pos hbase, if_neg (mt (parallelCount_iff cnt).1 h)]; rfl

theorem storeInput_reserved {cnt : Nibble} (h : cnt ∉ [2#4, 3#4, 10#4, 11#4]) (sl : Loc) (old : Word) {base : Word}
    (hbase : base.msb = true) (u : State) : outcome (storeInput cnt sl old base) u = .refused (.reservedCount cnt) := by
  rw [storeInput, if_pos hbase, if_neg (mt (parallelCount_iff cnt).1 h)]; rfl

/-- The control registers after a transfer, beside the part that I/O touches. -/
theorem StoresOnly.control_withIo {s w : State} (h : StoresOnly s w) (y : IoPart) (p : Option Word) (st : Word) :
    SameControl (s.withIo y) (((w.withIo y).withPrefetch p).withSt st) := h.control.withIo y

end Sys2Proof.Machine

/-- Settles O40: after the operand and register 12 a parallel LDCR is guarded, writes once unless that inhibits it, and
steps register 12 after the prefetch. -/
theorem ldcrParallelOutput : Obligations.LdcrParallelOutput := by
  intro src cnt s hc hi byte size hs hr a v base ioa breaks inc bumps u hbase
  have hexec : exec (.ldcr src cnt) s = outcome (sendOperand cnt v base) a.2 :=
    exec_ldcr hc (countStep_eq cnt) hs hr
  refine ⟨fun hcnt => hexec.trans (sendOperand_reserved hcnt v hbase a.2), fun hcnt hw => ?_⟩
  have ha : StoresOnly s a.2 := storesOnly_operand hc src _ _
  have hbreaks : (a.2.userMode && privIo ioa) = breaks := by rw [ha.userMode, privIo_of_parallel hbase]; rfl
  have hu : a.2.bumped base cnt = u := by rw [State.bumped_eq, ha.control.params]
  have hstores : StoresOnly s u := hu ▸ ha.bumped hc base cnt
  have hpc : u.pc = a.2.pc := hu ▸ State.bumped_pc _ _ _
  have hwrite : [parallelWrite cnt v base] = if byte then [IoWrite.byte ioa (lo8 v)] else [IoWrite.word ioa v] := by
    simp only [parallelWrite, byteCount_iff, apply_ite (fun e : IoWrite => [e]), byte, ioa]
  have hrun := sendParallel_answers (v := v) (base := base) (ha.calm hc) fun hb => by simpa [a] using hw hb
  rw [hbreaks, hu, ha.ioPart, hstores.st, IoPart.violated_sendWrite hi, hwrite] at hrun
  rw [hexec, sendOperand, if_pos hbase, if_pos ((parallelCount_iff cnt).2 hcnt)]
  exact hrun.reaches ⟨rfl, rfl, hpc, hstores.wp, rfl, StatusIs_transferFlags cnt v s.st, rfl, rfl,
    hstores.control_withIo _ _ _⟩

/-- Settles O42: a parallel STCR takes one answer, stores it, steps register 12 after the prefetch, and ends with its
violation. -/
theorem stcrParallelInput : Obligations.StcrParallelInput := by
  intro src cnt s hc byte size hs hr a old base breaks inc bumps hbase
  have hexec : exec (.stcr src cnt) s = outcome (storeInput cnt a.1 old base) a.2 :=
    exec_stcr hc (countStep_eq cnt) hs hr
  refine ⟨fun hcnt => hexec.trans (storeInput_reserved hcnt a.1 old hbase a.2), fun hcnt hw => ?_⟩
  have ha : StoresOnly s a.2 := storesOnly_operand hc src _ _
  have hbreaks : (a.2.userMode && privIo base.even) = breaks := by rw [ha.userMode, privIo_of_parallel hbase]; rfl
  let answer := s.ioPart.answer
  let u := a.2.putWord a.1 (if byte then mergeByte a.1.addr old (hi8 answer) else answer)
  let n := if bumps then u.putWr 12#4 (base + inc) else u
  have hu : StoresOnly s u := ha.putWord hc _ _
  have hn : u.bumped base cnt = n := by rw [State.bumped_eq, hu.control.params]
  have hstores : StoresOnly s n := hn ▸ hu.bumped hc base cnt
  have hpc : n.pc = a.2.pc := by rw [← hn, State.bumped_pc, State.putWord_pc]
  have hmerge : stcrMerge cnt a.1.addr old (parallelValue cnt answer) =
      if byte then mergeByte a.1.addr old (hi8 answer) else answer := by
    simp only [stcrMerge_parallelValue, byteCount_iff, byte]
  have hvalue : parallelValue cnt answer = if byte then (hi8 answer).setWidth 16 else answer := by
    simp only [parallelValue, byteCount_iff, byte]
  have hrun := storeParallel_answers (ha.calm hc) (sl := a.1) (by simpa [a] using hs.2) old base
    fun hb => by simpa [a] using hw hb
  dsimp only at hrun
  rw [hbreaks, ha.ioPart, hmerge, hn, hvalue, ha.st, IoPart.answered_eq] at hrun
  rw [hexec, storeInput, if_pos hbase, if_pos ((parallelCount_iff cnt).2 hcnt)]
  refine hrun.reaches ⟨answer, fun w rest hw => ⟨IoPart.answer_queued hw, ?_⟩,
    ⟨rfl, rfl, rfl, StatusIs_transferFlags _ _ _⟩, hpc, hstores.wp, rfl, hstores.control_withIo _ _ _⟩
  exact congrArg IoPart.ioIn (IoPart.answered_queued (x := s.ioPart) hw)

end

section
/-! SUPPORT. The serial transfers: the bits sent before the first protected address, and the bits read; and the
statements on them (spec/43_cru_io.md R326, R330, spec/92_eei_decisions.md D21). -/

open Sys2Proof Sys2Proof.Machine

namespace Sys2Proof.Machine

/-! ### Bits sent -/

/-- The part that I/O touches after the first bits of a value are sent. -/
def IoPart.sendBits (x : IoPart) (table : List FlagSetEntry) (v base : Word) : Nat → IoPart
  | 0 => x
  | m + 1 => (x.sendBits table v base m).send table (serialAddr base m) (v.getLsbD m)

section
variable (x : IoPart) (table : List FlagSetEntry) (v base : Word)

/-- An error flag after bit `i` of a value is sent, by its address and what an entry of the table says of it. -/
def flagBit (address : Word) (lists : FlagSetEntry → Bool) (b : Bool) (i : Nat) : Bool :=
  if 0x8000 ≤ (serialAddr base i).toNat then b
  else if v.getLsbD i then b || table.any fun e => decide (e.addr = serialAddr base i) && lists e
  else b && decide (serialAddr base i ≠ address)

theorem IoPart.send_privop (i : Nat) : (x.send table (serialAddr base i) (v.getLsbD i)).privop =
    flagBit table v base 0x1FDC#16 FlagSetEntry.privop x.privop i := by
  unfold IoPart.send IoPart.flagged flagBit; split_ifs <;> rfl

theorem IoPart.send_illop (i : Nat) : (x.send table (serialAddr base i) (v.getLsbD i)).illop =
    flagBit table v base 0x1FDA#16 FlagSetEntry.illop x.illop i := by
  unfold IoPart.send IoPart.flagged flagBit; split_ifs <;> rfl

theorem IoPart.send_af (i : Nat) : (x.send table (serialAddr base i) (v.getLsbD i)).af =
    flagBit table v base 0x1FC8#16 FlagSetEntry.af x.af i := by
  unfold IoPart.send IoPart.flagged flagBit; split_ifs <;> rfl

/-- What one bit makes of a flag, folded over the bits sent. -/
theorem IoPart.sendBits_foldl {field : IoPart → Bool} {next : Bool → Nat → Bool}
    (h : ∀ (y : IoPart) i, field (y.send table (serialAddr base i) (v.getLsbD i)) = next (field y) i) (m : Nat) :
    field (x.sendBits table v base m) = (List.range m).foldl next (field x) := by
  induction m with
  | zero => rfl
  | succ m ih => rw [IoPart.sendBits, h, ih, List.range_succ, List.foldl_append]; rfl

@[simp] theorem IoPart.send_ioInhibit (ioa : Word) (b : Bool) : (x.send table ioa b).ioInhibit = x.ioInhibit := by
  unfold IoPart.send IoPart.flagged; split_ifs <;> rfl

@[simp] theorem IoPart.send_ioIn (ioa : Word) (b : Bool) : (x.send table ioa b).ioIn = x.ioIn := by
  unfold IoPart.send IoPart.flagged; split_ifs <;> rfl

@[simp] theorem IoPart.sendBits_ioInhibit (m : Nat) : (x.sendBits table v base m).ioInhibit = x.ioInhibit := by
  induction m with
  | zero => rfl
  | succ m ih => rw [IoPart.sendBits, IoPart.send_ioInhibit, ih]

@[simp] theorem IoPart.sendBits_ioIn (m : Nat) : (x.sendBits table v base m).ioIn = x.ioIn := by
  induction m with
  | zero => rfl
  | succ m ih => rw [IoPart.sendBits, IoPart.send_ioIn, ih]

/-- Bits sent and a violation change the error flags, the inhibit, the writes and the count of draws. -/
theorem IoPart.sendBits_violated (hi : x.ioInhibit = false) (m : Nat) (b : Bool) :
    (x.sendBits table v base m).violated b =
      { x with
        privop := (List.range m).foldl (flagBit table v base 0x1FDC#16 FlagSetEntry.privop) x.privop || b
        illop := (List.range m).foldl (flagBit table v base 0x1FDA#16 FlagSetEntry.illop) x.illop
        af := (List.range m).foldl (flagBit table v base 0x1FC8#16 FlagSetEntry.af) x.af
        ioInhibit := b
        ioOut := (x.sendBits table v base m).ioOut
        draws := (x.sendBits table v base m).draws } := by
  rw [IoPart.violated, x.sendBits_foldl table v base (fun y i => y.send_privop table v base i),
    x.sendBits_foldl table v base (fun y i => y.send_illop table v base i),
    x.sendBits_foldl table v base (fun y i => y.send_af table v base i), IoPart.sendBits_ioInhibit,
    IoPart.sendBits_ioIn, hi, Bool.false_or]

/-- The I/O write cycles of the bits sent, the free lines of a word drawn when its bit is sent. -/
theorem IoPart.sendBits_ioOut (m : Nat) : (x.sendBits table v base m).ioOut =
    x.ioOut ++ (List.range m).map fun i =>
      if 0x8000 ≤ (serialAddr base i).toNat then
        IoWrite.word (serialAddr base i) ((Config.freeWord (x.sendBits table v base i).draws &&& 0xFFFE#16) |||
          if v.getLsbD i then 1 else 0)
      else IoWrite.bit (serialAddr base i) (v.getLsbD i) := by
  induction m with
  | zero => simp [IoPart.sendBits]
  | succ m ih =>
    rw [List.range_succ, List.map_append, ← List.append_assoc, ← ih, IoPart.sendBits, IoPart.send, List.map_singleton]
    split
    · rfl
    · unfold IoPart.flagged; split <;> rfl

end

/-- The bits that go out: those before the first that breaks. -/
theorem takeWhile_range (breaks : Nat → Bool) (k : Nat) : ∃ m ≤ k,
    (List.range k).takeWhile (fun i => !breaks i) = List.range m ∧ (∀ i < m, breaks i = false) ∧
    (m < k → breaks m = true) ∧ (List.range k).any breaks = decide (m < k) := by
  suffices ∃ m ≤ k, (List.range k).takeWhile (fun i => !breaks i) = List.range m ∧ (∀ i < m, breaks i = false) ∧
      (m < k → breaks m = true) by
    obtain ⟨m, hm, hsent, hclear, hbreak⟩ := this
    refine ⟨m, hm, hsent, hclear, hbreak, ?_⟩
    rw [Bool.eq_iff_iff, List.any_eq_true, decide_eq_true_eq]
    constructor
    · rintro ⟨i, hi, hb⟩
      by_contra hmk
      simp [hclear i (by have := List.mem_range.1 hi; omega)] at hb
    · exact fun hlt => ⟨m, List.mem_range.2 hlt, hbreak hlt⟩
  induction k with
  | zero => exact ⟨0, le_rfl, rfl, fun i hi => absurd hi (Nat.not_lt_zero i), fun h => absurd h (Nat.lt_irrefl 0)⟩
  | succ k ih =>
    obtain ⟨m, hm, hsent, hclear, hbreak⟩ := ih
    rw [List.range_succ, List.takeWhile_append, hsent, List.length_range, List.length_range]
    rcases hm.lt_or_eq with hlt | rfl
    · exact ⟨m, hm.trans (Nat.le_succ k), if_neg hlt.ne, hclear, fun _ => hbreak hlt⟩
    · rw [if_pos rfl]
      cases hb : breaks m with
      | true => exact ⟨m, Nat.le_succ m, by simp [hb], hclear, fun _ => hb⟩
      | false =>
        refine ⟨m + 1, le_rfl, by simp [hb, List.range_succ], fun i hi => ?_, fun h => absurd h (Nat.lt_irrefl _)⟩
        rcases Nat.lt_succ_iff_lt_or_eq.1 hi with h | rfl
        · exact hclear i h
        · exact hb

section
variable {u : State} (hc : u.calm) (hi : u.ioInhibit = false) (v base : Word)

/-- Once a violation has set PRIVOP and inhibits output, the bits left change nothing. -/
theorem outBits_inhibited {s : State} (hinhibit : s.ioInhibit = true) (hp : s.privop = true) (i n : Nat) :
    outBits v base i n s = .ok ((), s) := by
  induction n generalizing i with
  | zero => rfl
  | succ n ih =>
    have hguard := guardOutput_run (serialAddr base i) s
    rw [IoPart.violated_of_inhibited (x := s.ioPart) hp hinhibit, State.withIo_ioPart] at hguard
    rw [outBits, M.bind_ok hguard, M.bind_ok (ioOut1_inhibited hinhibit _ _), ih]

/-- The first bit at a protected address, and with it all that follow, stay in. -/
theorem outBits_breaks {s : State} {i : Nat} (hb : (s.userMode && privIo (serialAddr base i)) = true) (n : Nat) :
    outBits v base i (n + 1) s = .ok ((), s.withIo (s.ioPart.violated true)) := by
  have hguard := guardOutput_run (serialAddr base i) s
  rw [hb] at hguard
  have hinhibit : (s.withIo (s.ioPart.violated true)).ioInhibit = true := Bool.or_true _
  have hp : (s.withIo (s.ioPart.violated true)).privop = true := Bool.or_true _
  rw [outBits, M.bind_ok hguard, M.bind_ok (ioOut1_inhibited hinhibit _ _), outBits_inhibited v base hinhibit hp]

include hc hi

/-- The bits before: each passes its guard and is sent. -/
theorem outBits_sends {m : Nat} (h : ∀ i < m, (u.userMode && privIo (serialAddr base i)) = false ∧
    refusesBit u.params (serialAddr base i) (v.getLsbD i) = false) (n : Nat) :
    outBits v base 0 (m + n) u =
      outBits v base m n (u.withIo (u.ioPart.sendBits (flagTable u.params) v base m)) := by
  induction m generalizing n with
  | zero => rw [Nat.zero_add]; rfl
  | succ m ih =>
    obtain ⟨hguard, hrefuse⟩ := h m (Nat.lt_succ_self m)
    have hsent := ioOut1_run (s := u.withIo (u.ioPart.sendBits (flagTable u.params) v base m)) (by simpa using hc)
      (by rwa [State.withIo_ioInhibit, IoPart.sendBits_ioInhibit]) hrefuse
    rw [Nat.succ_add_eq_add_succ, ih (fun i hi => h i (Nat.lt_succ_of_lt hi)), outBits,
      M.bind_ok (guardOutput_run _ _), State.withIo_userMode, hguard, IoPart.violated_false, State.withIo_ioPart,
      M.bind_ok hsent]
    rfl

/-- All that go out, and the violation where they stop short. -/
theorem outBits_run {k m : Nat} (hm : m ≤ k) (h : ∀ i < m, (u.userMode && privIo (serialAddr base i)) = false ∧
    refusesBit u.params (serialAddr base i) (v.getLsbD i) = false)
    (hb : m < k → (u.userMode && privIo (serialAddr base m)) = true) :
    outBits v base 0 k u =
      .ok ((), u.withIo ((u.ioPart.sendBits (flagTable u.params) v base m).violated (decide (m < k)))) := by
  obtain ⟨n, rfl⟩ := Nat.exists_eq_add_of_le hm
  rw [outBits_sends hc hi v base h n]
  cases n with
  | zero => simp [outBits]
  | succ n =>
    rw [outBits_breaks (s := u.withIo (u.ioPart.sendBits (flagTable u.params) v base m)) v base (hb (by omega))]
    simp

/-- A 1 to an address whose flags are not known is refused. -/
theorem outBits_refused {k m : Nat} (hm : m < k) (h : ∀ i < m, (u.userMode && privIo (serialAddr base i)) = false ∧
    refusesBit u.params (serialAddr base i) (v.getLsbD i) = false)
    (hb : (u.userMode && privIo (serialAddr base m)) = false)
    (hr : refusesBit u.params (serialAddr base m) (v.getLsbD m) = true) :
    outBits v base 0 k u = .error (.refused (.flagSetOutput (serialAddr base m))) := by
  obtain ⟨n, rfl⟩ := Nat.exists_eq_add_of_lt hm
  have hrefused := ioOut1_refused (s := u.withIo (u.ioPart.sendBits (flagTable u.params) v base m)) (by simpa using hc)
    (by rwa [State.withIo_ioInhibit, IoPart.sendBits_ioInhibit]) hr
  rw [Nat.add_assoc, outBits_sends hc hi v base h, outBits, M.bind_ok (guardOutput_run _ _), State.withIo_userMode, hb,
    IoPart.violated_false, State.withIo_ioPart, M.bind_apply, hrefused]

end


theorem sendSerial_answers {u : State} (hc : u.calm) {cnt : Nibble} {k : Nat} (hk : bitCount cnt = k) {v base : Word}
    {y : IoPart} (h : outBits v base 0 k u = .ok ((), u.withIo y)) :
    Answers (sendSerial cnt v base u) u
      (((u.withIo y).withPrefetch (some u.opcodeWord)).withSt (transferFlags cnt v u.st)) := by
  rw [sendSerial, hk, M.bind_ok h, ← answers_withIo (x := y)]
  apply prefetchNext_then (by simpa using hc)
  rw [settle_calm (by simpa using hc), State.latched, opcodeWord_withIo]; rfl

end Sys2Proof.Machine

/-- Settles O39: the bits before the first at a protected address are sent one after another, that address sets PRIVOP
and inhibits the rest, and a 1 whose flags are not known stops the transfer where it would be sent. -/
theorem ldcrSerialOutput : Obligations.LdcrSerialOutput := by
  intro src cnt s hc hi size hs hr k a v base ioa breaks sent unknown flag hbase
  have hexec : exec (.ldcr src cnt) s = outcome (sendSerial cnt v base) a.2 :=
    (exec_ldcr hc (countStep_eq cnt) hs hr).trans (by rw [sendOperand, if_neg (Bool.not_eq_true _ ▸ hbase)])
  have ha : StoresOnly s a.2 := storesOnly_operand hc src _ _
  have hac : a.2.calm := ha.calm hc
  have hai : a.2.ioInhibit = false := (congrArg IoPart.ioInhibit ha.ioPart).trans hi
  have hk : bitCount cnt = k := bitCount_eq cnt
  have hbreaks (i : Nat) : (a.2.userMode && privIo (serialAddr base i)) = breaks i := by
    rw [ha.userMode, privIo_eq]; rfl
  have hrefuses (i : Nat) : refusesBit a.2.params (serialAddr base i) (v.getLsbD i) =
      (s.params.flagSetAddrs.isNone && unknown i) := by
    rw [ha.control.params, refusesBit, flagSetRange, ← Bool.decide_and]; rfl
  obtain ⟨m, hm, hsent, hclear, hbreak, hany⟩ : ∃ m ≤ k, sent = List.range m ∧ (∀ i < m, breaks i = false) ∧
    (m < k → breaks m = true) ∧ (List.range k).any breaks = decide (m < k) := takeWhile_range breaks k
  have hfree (i : Nat) (him : i < m) : (a.2.userMode && privIo (serialAddr base i)) = false :=
    (hbreaks i).trans (hclear i him)
  refine ⟨rfl, fun hnone i hfind => ?refused, fun hdefined => ?sent⟩
  case refused =>
    rw [hsent, List.find?_range_eq_some] at hfind
    obtain ⟨hone, him, hbefore⟩ := hfind
    rw [List.mem_range] at him
    have hknown (j : Nat) (hj : j < i) : refusesBit a.2.params (serialAddr base j) (v.getLsbD j) = false := by
      have hout : unknown j = false := by simpa using hbefore j hj
      rw [hrefuses, hout, Bool.and_false]
    have hstop : refusesBit a.2.params (serialAddr base i) (v.getLsbD i) = true := by
      rw [hrefuses, hnone, hone]; rfl
    have hrun := outBits_refused hac hai v base (him.trans_le hm)
      (fun j hj => ⟨hfree j (hj.trans him), hknown j hj⟩) (hfree i him) hstop
    rw [hexec, outcome, sendSerial, M.bind_apply, hk, hrun]; rfl
  case sent =>
    have hknown (i : Nat) (him : i < m) : refusesBit a.2.params (serialAddr base i) (v.getLsbD i) = false := by
      rw [hrefuses]
      rcases hdefined with hsome | hfind
      · simp [hsome]
      · rw [hsent, List.find?_eq_none] at hfind
        simp [hfind i (List.mem_range.2 him)]
    have hflag (address : Word) (lists : FlagSetEntry → Bool) (old : Bool) :
        (List.range m).foldl (flagBit (flagTable s.params) v base address lists) old = flag address lists old := by
      simp only [flag, hsent]; rfl
    have hrun := sendSerial_answers hac hk (outBits_run hac hai v base hm
      (fun i him => ⟨hfree i him, hknown i him⟩) fun hlt => (hbreaks m).trans (hbreak hlt))
    rw [← hany, ha.ioPart, ha.control.params, ha.st, IoPart.sendBits_violated _ _ _ _ hi, hflag, hflag, hflag] at hrun
    rw [hexec]
    refine hrun.reaches ⟨fun i => Config.freeWord (s.ioPart.sendBits (flagTable s.params) v base i).draws, rfl, rfl,
      rfl, ha.wp, rfl, StatusIs_transferFlags cnt v s.st, ?_, rfl, rfl, rfl, ha.control_withIo _ _ _⟩
    rw [hsent]
    exact s.ioPart.sendBits_ioOut (flagTable s.params) v base m

end

section
/-! SUPPORT. The bits a serial STCR reads, and the statement on it (spec/43_cru_io.md R330, R334). -/

open Sys2Proof Sys2Proof.Machine

namespace Sys2Proof.Machine

/-- From `s` to `t` the bits from `i` on, `n` of them, were read into `v`: each is the flag at its address, or, where
none has a flag and enough answers are queued, line D0 of the answers in order. -/
structure BitsRead (base : Word) (s : State) (i n : Nat) (v : Word) (t : State) : Prop where
  part : t = s.withIo { s.ioPart with ioIn := t.ioIn, draws := t.draws }
  bounds : ∀ j, v.getLsbD j = true → i ≤ j ∧ j < i + n
  flag : ∀ j b, i ≤ j → j < i + n → s.flagAt (serialAddr base j) = some b → v.getLsbD j = b
  queue : (∀ j, i ≤ j → j < i + n → s.flagAt (serialAddr base j) = none) → n ≤ s.ioIn.length →
    t.ioIn = s.ioIn.drop n ∧ ∀ j < n, v.getLsbD (i + j) = (s.ioIn.getD j 0#16).msb

/-- What one bit of a serial input can be. -/
theorem ioIn1_calm {s : State} (hc : s.calm) (ioa : Word) : ∃ b t, ioIn1 ioa s = .ok (b, t) ∧
    t = s.withIo { s.ioPart with ioIn := t.ioIn, draws := t.draws } ∧ (∀ f, s.flagAt ioa = some f → b = f) ∧
    (∀ w rest, s.flagAt ioa = none → s.ioIn = w :: rest → b = w.msb ∧ t.ioIn = rest) := by
  cases hf : s.flagAt ioa with
  | some f => exact ⟨f, s, ioIn1_flag hc hf, rfl, fun _ h => Option.some.inj h, fun _ _ h => nomatch h⟩
  | none =>
    refine ⟨_, _, ioIn1_answer hc hf, ?_, fun _ h => (nomatch h), fun w rest _ hw => ⟨?_, ?_⟩⟩
    · exact congrArg s.withIo s.ioPart.answered_eq
    · rw [IoPart.answer_queued (x := s.ioPart) hw]
    · exact congrArg IoPart.ioIn (IoPart.answered_queued (x := s.ioPart) hw)

/-- One bit in front of those read after it. -/
theorem getLsbD_consBit {rest : Word} {i : Nat} (hi : i < 16) (hrest : rest.getLsbD i = false) (b : Bool) (j : Nat) :
    (rest ||| if b then 1#16 <<< i else 0#16).getLsbD j = if j = i then b else rest.getLsbD j := by
  have hone : (1#16 <<< i).getLsbD j = decide (j = i) := by
    rw [BitVec.getLsbD_shiftLeft, BitVec.getLsbD_one, Bool.eq_iff_iff]
    simp only [Bool.and_eq_true, Bool.not_eq_true', decide_eq_true_eq, decide_eq_false_iff_not]
    omega
  rw [BitVec.getLsbD_or]
  by_cases hj : j = i
  · subst hj; cases b <;> simp [hrest, hone]
  · cases b <;> simp [hj, hone]

theorem inBits_run {base : Word} (n : Nat) : ∀ {s : State} {i : Nat}, s.calm → i + n ≤ 16 →
    ∃ v t, inBits base i n s = .ok (v, t) ∧ BitsRead base s i n v t := by
  induction n with
  | zero =>
    intro s i _ _
    exact ⟨0#16, s, rfl, rfl, fun j h => by simp at h, fun j _ hij hjn => by omega,
      fun _ _ => ⟨rfl, fun j hj => by omega⟩⟩
  | succ n ih =>
    intro s i hc hi
    obtain ⟨b, u, hbit, hu, hflag, hqueue⟩ := ioIn1_calm hc (serialAddr base i)
    have huc : u.calm := by rw [hu]; simpa using hc
    have hflags (ioa : Word) : u.flagAt ioa = s.flagAt ioa := by rw [hu]; rfl
    obtain ⟨v, t, hrest, hread⟩ := ih (i := i + 1) huc (by omega)
    have hclear : v.getLsbD i = false := by
      rw [← Bool.not_eq_true]; intro h; have := hread.bounds i h; omega
    refine ⟨_, t, (M.bind_ok hbit).trans (M.bind_ok hrest), ?part, fun j hj => ?bounds, fun j f hij hjn hf => ?flag,
      fun hnone hlen => ?queue⟩
    case part => rw [hread.part, hu]; rfl
    case bounds =>
      rw [getLsbD_consBit (by omega) hclear] at hj
      split at hj
      · omega
      · have := hread.bounds j hj; omega
    case flag =>
      rw [getLsbD_consBit (by omega) hclear]
      split
      · rename_i h; subst h; exact hflag f hf
      · exact hread.flag j f (by omega) (by omega) ((hflags _).trans hf)
    case queue =>
      obtain ⟨w, rest, hin⟩ := List.exists_cons_of_length_pos (l := s.ioIn) (by omega)
      obtain ⟨hb, hur⟩ := hqueue w rest (hnone i le_rfl (by omega)) hin
      rw [hin, List.length_cons] at hlen
      obtain ⟨ht, hbits⟩ := hread.queue (fun j hij hjn => (hflags _).trans (hnone j (by omega) (by omega)))
        (by rw [hur]; omega)
      rw [hin]
      refine ⟨by rw [ht, hur]; rfl, fun j hj => ?_⟩
      rw [getLsbD_consBit (by omega) hclear]
      cases j with
      | zero => simpa using hb
      | succ j =>
        have hnext := hbits j (by omega)
        rw [if_neg (by omega), show i + (j + 1) = i + 1 + j by omega, hnext, hur]; rfl

theorem storeSerial_answers {u : State} (hc : u.calm) {cnt : Nibble} {k : Nat} (hk : bitCount cnt = k) {sl : Loc}
    (hsl : u.writes sl) (old : Word) {base v : Word} {y : IoPart} (h : inBits base 0 k u = .ok (v, u.withIo y)) :
    let w := u.putWord sl (stcrMerge cnt sl.addr old v)
    Answers (storeSerial cnt sl old base u) u
      (((w.withIo (y.violated (u.userMode && (List.range k).any fun i => privIo (serialAddr base i)))).withPrefetch
        (some u.opcodeWord)).withSt (transferFlags cnt v u.st)) := by
  intro w
  have hstore : writeLoc sl (stcrMerge cnt sl.addr old v) (u.withIo y).latched =
      .ok ((), (w.withIo y).withPrefetch (some u.opcodeWord)) := by
    rw [writeLoc_latched (by simpa using hc) (by simpa using hsl), State.putWord_withIo, opcodeWord_withIo]
  have hw : StoresOnly u w := (StoresOnly.refl u).putWord hc _ _
  rw [storeSerial, hk, M.bind_ok h, ← answers_withIo (x := y)]
  apply prefetchNext_then (by simpa using hc)
  rw [M.bind_ok hstore]
  refine (storeInput_end _ _ cnt v _).trans ?_
  rw [State.withIo_userMode, hw.userMode, State.withIo_st, hw.st, State.ioPart_withIo, State.withIo_withIo,
    List.any_map]
  rfl

end Sys2Proof.Machine

/-- Settles O41: a serial STCR reads its bits, stores them after the prefetch, and ends with its violation. -/
theorem stcrSerialInput : Obligations.StcrSerialInput := by
  intro src cnt s hc k byte size hs hr a old base ioa isFlag breaks hbase
  have hexec : exec (.stcr src cnt) s = outcome (storeSerial cnt a.1 old base) a.2 :=
    (exec_stcr hc (countStep_eq cnt) hs hr).trans (by rw [storeInput, if_neg (Bool.not_eq_true _ ▸ hbase)])
  have ha : StoresOnly s a.2 := storesOnly_operand hc src _ _
  have hk : bitCount cnt = k := bitCount_eq cnt
  have hbreaks : (a.2.userMode && (List.range k).any fun i => privIo (serialAddr base i)) = breaks := by
    simp only [ha.userMode, privIo_eq]; rfl
  obtain ⟨v, t, hin, hread⟩ := inBits_run (base := base) k (s := a.2) (i := 0) (ha.calm hc) (by
    have := bitCount_le cnt; omega)
  rw [hread.part] at hin
  have hflag {i : Nat} {b : Bool} (hi : i < k) (h : s.flagAt (ioa i) = some b) : v.getLsbD i = b :=
    hread.flag i b (Nat.zero_le i) (by omega) ((ha.flagAt _).trans h)
  have hmerge : stcrMerge cnt a.1.addr old v = if byte then mergeByte a.1.addr old (lo8 v) else v := by
    simp only [stcrMerge, byteCount_iff, byte]
  have hrun := storeSerial_answers (ha.calm hc) hk (sl := a.1) (by simpa [a] using hs.2) old hin
  dsimp only at hrun
  rw [hbreaks, ha.ioPart, hmerge, ha.st] at hrun
  rw [hexec]
  refine ⟨rfl, hrun.reaches ⟨v, ?_, ⟨rfl, rfl⟩, State.putWord_pc _ _ _, (ha.putWord hc _ _).wp, rfl,
    StatusIs_transferFlags cnt v s.st, rfl, ?_, ?_, (ha.putWord hc _ _).control_withIo _ _ _⟩⟩
  · refine Nat.lt_pow_two_of_testBit v.toNat fun i hi => Bool.eq_false_iff.2 fun hbit => ?_
    have := hread.bounds i hbit
    omega
  · exact fun i hi => ⟨fun h => hflag hi (h ▸ s.flagAt_privop), fun h => hflag hi (h ▸ s.flagAt_illop),
      fun h => hflag hi (h ▸ s.flagAt_af)⟩
  · intro hnone hlen
    have hfree (i : Nat) (_ : 0 ≤ i) (hi : i < 0 + k) : a.2.flagAt (ioa i) = none := by
      have hnot : ¬ isFlag i := hnone i (by omega)
      simp only [isFlag, not_or] at hnot
      obtain ⟨hp, hl, haf⟩ := hnot
      exact State.flagAt_eq_none hp hl haf
    have hqueue : a.2.ioIn = s.ioIn := congrArg IoPart.ioIn ha.ioPart
    obtain ⟨ht, hbits⟩ := hread.queue hfree (hqueue ▸ hlen)
    rw [hqueue] at ht hbits
    exact ⟨ht, fun i hi => by simpa using hbits i hi⟩

end

section
/-! SUPPORT. The jumps: where a taken jump goes on, and the frame that all thirteen share (spec/44_jump_shift.md R350
to R363). -/

open Sys2Proof Sys2Proof.Machine Sys2Proof.Claims

namespace Sys2Proof.Machine

/-- Twice a signed displacement from an address, in integers (spec/44_jump_shift.md R350). -/
theorem add_dispBytes (a : Word) (d : Byte) : a + dispBytes d = BitVec.ofInt 16 (a.toNat + 2 * d.toInt) := by
  rw [dispBytes_eq, BitVec.ofInt_add, BitVec.ofInt_natCast, BitVec.ofNat_toNat, BitVec.setWidth_eq]

/-- What an instruction with the frame of a jump does is what the statement's shape says. -/
theorem jump_of_exec {mk : Byte → Instr} {base : Word} {cond : Word → Bool}
    (henc : ∀ disp, encode (mk disp) = [encDisp base disp])
    (hexec : ∀ disp s, exec (mk disp) s = outcome (jumpIf cond disp) s) : Jump mk base cond := by
  intro disp s hc u
  have hrun : Answers (jumpIf cond disp s) u u.latched := by
    simpa only [u, ← add_dispBytes] using jumpIf_calm hc cond disp
  have hu : StoresOnly s u := by
    by_cases ht : cond s.st = true
    · simpa only [u, if_pos ht] using (StoresOnly.refl s).withPc _
    · simpa only [u, if_neg ht] using StoresOnly.refl s
  exact ⟨henc disp, Answers.completes (st := u.st) hrun (hexec disp s) hu (hu.st ▸ StatusIs.refl s.st)⟩

end Sys2Proof.Machine

/-- Settles O28: every jump has the same frame, with its condition on ST. -/
theorem jumpsOnStatus : Obligations.JumpsOnStatus := by
  refine ⟨?jmp, ?jlt, ?jle, ?jeq, ?jhe, ?jgt, ?jne, ?jnc, ?joc, ?jno, ?jl, ?jh, ?jop⟩ <;>
    exact jump_of_exec (fun _ => rfl) fun _ _ => rfl

end

section
/-! SUPPORT. The single-word shifts: the count, the frame that all four share, and the status they leave
(spec/44_jump_shift.md R370 to R374). -/

open Sys2Proof Sys2Proof.Machine Sys2Proof.Claims

namespace Sys2Proof.Machine

/-! ### The count -/

/-- A word is shifted by at least one place and at most sixteen. -/
theorem wordShiftCount_mem_Icc (s : State) (sc : Nibble) : wordShiftCount s sc ∈ Set.Icc 1 16 := by
  have hsc := sc.isLt
  have hmod := Nat.mod_lt (s.wr 0#4).toNat (show 16 > 0 by decide)
  simp only [wordShiftCount, Set.mem_Icc]
  split_ifs <;> omega

/-- The count is read from WR0 where the field is zero, and changes nothing. -/
theorem shiftCount_run {s : State} (hc : s.calm) {sc : Nibble} (h0 : sc = 0#4 → s.reads (s.regLoc 0#4)) :
    shiftCount sc s = .ok (wordShiftCount s sc, s) := by
  by_cases hz : sc = 0#4
  · rw [shiftCount, if_pos hz, M.bind_ok (readReg_calm hc (h0 hz))]
    simp [wordShiftCount, hz, BitVec.extractLsb'_toNat]
  · have hne : sc.toNat ≠ 0 := fun h => hz (BitVec.eq_of_toNat_eq h)
    rw [shiftCount, if_neg hz, wordShiftCount, if_pos hne, M.pure_apply]

/-! ### The frame -/

/-- The register and the count are read before the next opcode is read ahead. -/
theorem shiftReg_run {s : State} (hc : s.calm) {step : Shift 16 → Shift 16} {flags : Shift 16 → Word → Word} {w : Reg}
    {sc : Nibble} (hw : s.reads (s.regLoc w)) (h0 : sc = 0#4 → s.reads (s.regLoc 0#4)) :
    let r := shiftBy step (wordShiftCount s sc) (Shift.start (s.wr w))
    shiftReg step flags w sc s = (do prefetchNext; writeReg w r.x; updateSt (flags r) : M Unit) s := by
  rw [shiftReg, M.bind_ok (readReg_calm hc hw), M.bind_ok (shiftCount_run hc h0)]

/-- What an instruction with the frame of a single-word shift does is what the statement's shape says, where for every
count from 1 to 16 its steps leave the value and its flags the status that the shape names. -/
theorem wordShift_of_exec {mk : Reg → Nibble → Instr} {base : Word} {step : Shift 16 → Shift 16}
    {flags : Shift 16 → Word → Word} {result : Nat → Word → Word} {bits : Nat → Word → List (Nat × Bool)}
    (henc : ∀ w sc, encode (mk w sc) = [encShift base w sc])
    (hexec : ∀ w sc s, exec (mk w sc) s = outcome (shiftReg step flags w sc) s)
    (hvalue : ∀ c x, (shiftBy step c (Shift.start x)).x = result c x)
    (hst : ∀ c ∈ Set.Icc 1 16, ∀ (x st : Word),
      StatusIs st (flags (shiftBy step c (Shift.start x)) st) (resultBits (result c x) ++ bits c x)) :
    WordShift mk base result bits := by
  intro w sc s hc hw h0 c
  have hdone := completes_writeReg hc (hexec w sc s) (StoresOnly.refl s) (shiftReg_run hc hw.reads h0) hw
    (hst c (wordShiftCount_mem_Icc s sc) (s.wr w) s.st)
  rw [hvalue] at hdone
  exact ⟨henc w sc, hdone⟩

/-! ### Values and status -/

theorem ushiftRight_eq_div {n : Nat} (c : Nat) (x : BitVec n) : x >>> c = BitVec.ofNat n (x.toNat / 2 ^ c) := by
  rw [← Nat.shiftRight_eq_div_pow, ← BitVec.toNat_ushiftRight, BitVec.ofNat_toNat, BitVec.setWidth_eq]

/-- ST0 to ST3 of a shift whose value and last bit out are known. -/
theorem StatusIs_shiftFlags_of {n : Nat} {r : Shift n} {x : BitVec n} {out : Bool} (hx : r.x = x) (hout : r.out = out)
    (st : Word) : StatusIs st (shiftFlags r st) (resultBits x ++ [(3, out)]) :=
  hx ▸ hout ▸ StatusIs_shiftFlags r st

end Sys2Proof.Machine

/-- Settles O29: the four have one frame, and a step repeated 1 to 16 times has the closed form. -/
theorem singleWordShifts : Obligations.SingleWordShifts := by
  have hsra (c : Nat) (x : Word) : (shiftBy sraStep c (Shift.start x)).x = BitVec.ofInt 16 (x.toInt / 2 ^ c) :=
    (sraStep_value c x).trans (sshiftRight_eq_div c x)
  have hsrl (c : Nat) (x : Word) : (shiftBy srlStep c (Shift.start x)).x = BitVec.ofNat 16 (x.toNat / 2 ^ c) :=
    (srlStep_value c x).trans (ushiftRight_eq_div c x)
  refine ⟨wordShift_of_exec (fun _ _ => rfl) (fun _ _ _ => rfl) slaStep_value ?sla,
    wordShift_of_exec (fun _ _ => rfl) (fun _ _ _ => rfl) hsra ?sra,
    wordShift_of_exec (fun _ _ => rfl) (fun _ _ _ => rfl) hsrl ?srl,
    wordShift_of_exec (fun _ _ => rfl) (fun _ _ _ => rfl) srcStep_value ?src⟩
  case sla =>
    intro c ⟨hpos, hle⟩ x st
    have hout : (shiftBy slaStep c (Shift.start x)).out = x.getLsbD (16 - c) := by
      rw [slaStep_out c x hpos, decide_eq_true hle, Bool.true_and]
    rw [← slaStep_value, ← hout, ← slaStep_changed]
    exact StatusIs_shiftLeftFlags _ st
  case sra =>
    intro c ⟨hpos, hle⟩ x st
    exact StatusIs_shiftFlags_of (hsra c x) (sraStep_out c x hpos hle) st
  case srl =>
    intro c ⟨hpos, _⟩ x st
    exact StatusIs_shiftFlags_of (hsrl c x) (srlStep_out c x hpos) st
  case src =>
    intro c ⟨hpos, hle⟩ x st
    exact StatusIs_shiftFlags_of (srcStep_value c x) (srcStep_out c x hpos hle) st

end

section
/-! SUPPORT. The immediate instructions, and the loads and stores of WP and ST
(spec/45_immediate_and_control.md R390 to R405). -/

open Sys2Proof Sys2Proof.Machine Sys2Proof.Claims

namespace Sys2Proof.Machine

/-! ### A register and an immediate word -/

/-- What an instruction with the frame of AI, ANDI and ORI does is what the statement's shape says. -/
theorem immediateStore_of_exec {mk : Reg → Instr} {base : Word} {result : Word → Word → Word}
    {flags : Word → Word → Word → Word} {bits : Word → Word → List (Nat × Bool)}
    (henc : ∀ w, encode (mk w) = [encReg base w])
    (hexec : ∀ w s, exec (mk w) s = outcome (immediateReg result flags w) s)
    (hst : ∀ x v st, StatusIs st (flags x v st) (bits x v)) : ImmediateStore mk base result bits := by
  intro w s hc hw hi
  exact ⟨henc w, (immediateReg_calm hc result flags hw hi).completes (hexec w s)
    ((StoresOnly.refl s).skipWord.putWr hc _ _) (hst _ _ _)⟩

theorem exec_ai (w : Reg) (s : State) :
    exec (.ai w) s = outcome (immediateReg (fun x v => x + v) (fun x v => setArith (addN x v)) w) s := by
  simp only [← addN_r]; rfl

/-- LI stores its immediate word without a read of the register (spec/45_immediate_and_control.md R391). -/
theorem li_immediateStore : ImmediateStore .li 0x0200#16 (fun _ v => v) fun _ v => resultBits v := by
  intro w s hc hw hi
  exact ⟨rfl, completes_writeReg hc rfl (StoresOnly.refl s).skipWord
    (by rw [M.bind_ok (immediate_calm hc hi)]) (by simpa using hw) (StatusIs_setLae _ _)⟩

/-- CI compares the register with the immediate word and stores nothing (spec/45_immediate_and_control.md R395). -/
theorem ci_completes {w : Reg} {s : State} (hc : s.calm) (hw : s.reads (s.regLoc w)) (hi : s.reads s.streamLoc) :
    Completes (.ci w) s s.skipWord s.skipWord (compareBits (s.wr w) s.streamWord) :=
  completes_settle hc rfl (StoresOnly.refl s).skipWord
    ((M.bind_ok (readReg_calm hc hw)).trans (M.bind_ok (immediate_calm hc hi))) (StatusIs_cmpLae _ _ _)

/-! ### WP and ST -/

/-- WP loaded in the cycle after the prefetch (spec/71_bus_sequences.md R691). -/
theorem loadWp_answers {u : State} (hc : u.calm) (v : Word) :
    Answers ((do prefetchNext; wpCycle v : M Unit) u) u (u.latched.withWp v.even) :=
  prefetchNext_then hc (wpCycle_calm (by simpa using hc) v)

theorem exec_lwpi_reaches {s : State} (hc : s.calm) (hi : s.reads s.streamLoc) :
    Reaches (exec .lwpi s) s.skipWord fun t => t = s.skipWord.latched.withWp s.streamWord.even :=
  Answers.reaches (M.bind_ok (immediate_calm hc hi) ▸ loadWp_answers (by simpa using hc) _) rfl

theorem exec_lwp_reaches {w : Reg} {s : State} (hc : s.calm) (hw : s.reads (s.regLoc w)) :
    Reaches (exec (.lwp w) s) s fun t => t = s.latched.withWp (s.wr w).even :=
  Answers.reaches (M.bind_ok (readReg_calm hc hw) ▸ loadWp_answers hc _) rfl

/-- An instruction that stores in a register what it has read of the state before the prefetch. -/
theorem storeRegister_completes {i : Instr} {w : Reg} {v : Word} {s : State} (hc : s.calm)
    (hexec : exec i s = outcome (do prefetchNext; writeReg w v) s) (hw : s.writes (s.regLoc w)) :
    Completes i s (s.putWr w v) s [] :=
  completes_store (store := fun _ => writeReg w v) hc hexec (StoresOnly.refl s) rfl (writeReg_latched hc hw v)
    ((StoresOnly.refl s).putWr hc w v)

/-- What LST makes of ST: privilege is not checked inside Macrostore (spec/10_state.md R67,
spec/47_macrostore.md R471). -/
theorem loadedSt_of_space (s : State) (v : Word) : (if s.inMs then v else loadedSt s.st v) =
    if stBit s.st 7 && !s.inMs then (v &&& 0xFC20#16) ||| (s.st &&& 0x01DF#16) else v := by
  cases s.inMs
  · simp only [Bool.not_false, Bool.and_true]; rfl
  · simp

theorem exec_lst_reaches {w : Reg} {s : State} (hc : s.calm) (hw : s.reads (s.regLoc w)) :
    let u := s.withSt
      (if stBit s.st 7 && !s.inMs then (s.wr w &&& 0xFC20#16) ||| (s.st &&& 0x01DF#16) else s.wr w)
    Reaches (exec (.lst w) s) u fun t => t = u.latched := by
  intro u
  refine Answers.reaches (t := u.latched) ?_ rfl
  rw [M.bind_ok (readReg_calm hc hw), gets_bind, M.bind_ok (stCycle_calm hc _), loadedSt_of_space]
  exact prefetchNext_answers hc

/-! ### LIMI -/

/-- The state in which LIMI comes to its prefetch (spec/45_immediate_and_control.md R401). -/
theorem exec_limi_run {s : State} (hc : s.calm) (hi : s.reads s.streamLoc) : exec .limi s = outcome prefetchNext
    (if s.userMode then (s.skipWord.withPrivop true).withIoInhibit true
      else s.skipWord.withSt (withIntMask s.st (stIntMask s.streamWord))) := by
  refine outcome_eq_of_run ?_
  rw [M.bind_ok (immediate_calm hc hi), M.bind_ok (busCycle_calm (by simpa using hc)), gets_bind]
  by_cases hu : s.userMode = true
  · rw [if_pos hu, if_pos (show s.skipWord.userMode = true from hu)]; rfl
  · rw [if_neg hu, if_neg (show ¬ s.skipWord.userMode = true from hu)]; rfl

theorem userMode_eq_true_iff (s : State) : s.userMode = true ↔ stBit s.st 7 = true ∧ s.inMs = false := by
  simp [State.userMode]

theorem userMode_eq_false_iff (s : State) : s.userMode = false ↔ stBit s.st 7 = false ∨ s.inMs = true := by
  simp only [State.userMode, Bool.and_eq_false_iff, Bool.not_eq_false']

/-- The mask leaves ST8 alone, and with it the page the next opcode is read from. -/
theorem opcodeWord_withIntMask (s : State) (m : BitVec 4) :
    (s.withSt (withIntMask s.st m)).opcodeWord = s.opcodeWord :=
  opcodeWord_congr rfl rfl rfl (StatusIs_withIntMask s.st m 8 (by decide)) rfl rfl

theorem limi_completes {s : State} (hc : s.calm) (hi : s.reads s.streamLoc) (hu : s.userMode = false) :
    Completes .limi s s.skipWord s.skipWord (maskBits (stIntMask s.streamWord)) := by
  rw [Completes, exec_limi_run hc hi, if_neg (by simp [hu])]
  have hrun := prefetchNext_answers (s := s.skipWord.withSt (withIntMask s.st (stIntMask s.streamWord))) hc
  exact hrun.reaches ⟨rfl, rfl, rfl, rfl, congrArg some (opcodeWord_withIntMask s.skipWord _),
    StatusIs_withIntMask s.st _, SameControl.skipWord s⟩

theorem exec_limi_user {s : State} (hc : s.calm) (hi : s.reads s.streamLoc) (h7 : stBit s.st 7 = true)
    (hm : s.inMs = false) : exec .limi s = .next ((s.skipWord.withPrivop true).withIoInhibit true).latched := by
  rw [exec_limi_run hc hi, if_pos ((userMode_eq_true_iff s).2 ⟨h7, hm⟩)]
  exact outcome_ok (prefetchNext_main hc hm)

end Sys2Proof.Machine

/-- Settles O32: AI, ANDI and ORI have one frame, LI that frame without the read of the register, and CI without the
store. -/
theorem immediateInstructions : Obligations.ImmediateInstructions :=
  ⟨li_immediateStore, immediateStore_of_exec (fun _ => rfl) exec_ai fun x v => StatusIs_setArith_add x v,
    immediateStore_of_exec (fun _ => rfl) (fun _ _ => rfl) fun x v => StatusIs_setLae (x &&& v),
    immediateStore_of_exec (fun _ => rfl) (fun _ _ => rfl) fun x v => StatusIs_setLae (x ||| v),
    fun _ _ hc hw hi => ⟨rfl, ci_completes hc hw hi⟩⟩

/-- Settles O33: WP changes after the prefetch, ST before it, and a register is stored after it. -/
theorem internalRegisterLoadsAndStores : Obligations.InternalRegisterLoadsAndStores := fun _ _ hc =>
  ⟨rfl, exec_lwpi_reaches hc, rfl, exec_lwp_reaches hc, rfl, storeRegister_completes hc rfl, rfl,
    storeRegister_completes hc rfl, rfl, exec_lst_reaches hc⟩

/-- Settles O34: the mode decides what LIMI does between its immediate word and its prefetch. -/
theorem limiIsPrivileged : Obligations.LimiIsPrivileged := fun s hc hi =>
  ⟨fun hp => limi_completes hc hi ((userMode_eq_false_iff s).2 hp), exec_limi_user hc hi⟩

end

section
/-! SUPPORT. RTWP, the external instructions, the idle state and HOLD (spec/45_immediate_and_control.md R410 to R421,
spec/20_memory.md R130, spec/70_reset_and_hazards.md R635). -/

open Sys2Proof Sys2Proof.Machine

namespace Sys2Proof.Machine

/-! ### RTWP -/

theorem inMainOnly_main {m : M Unit} {s : State} (h : s.inMs = false) : inMainOnly m s = m s := by
  simp only [inMainOnly, gets_bind, h, Bool.false_eq_true, if_false]

/-! ### External instructions -/

/-- The I/O addresses of IDLE, RSET, CKON, CKOF and LREX (spec/45_immediate_and_control.md R416 to R421). -/
def externalAddrs : List Word := [0x1EC4#16, 0x1EC6#16, 0x1ECA#16, 0x1ECC#16, 0x1ECE#16]

/-- They lie in the bit-serial half, and no error flag stands there, so that a 0 sent to one is a write and nothing
else. -/
theorem ioOut1_external {s : State} (hc : s.calm) (hi : s.ioInhibit = false) {ioa : Word} (h : ioa ∈ externalAddrs) :
    ioOut1 ioa false s = .ok ((), s.withIoOut (s.ioOut ++ [.bit ioa false])) := by
  have haddr : ∀ a ∈ externalAddrs, a.toNat < 0x8000 ∧ a ≠ 0x1FDC#16 ∧ a ≠ 0x1FDA#16 ∧ a ≠ 0x1FC8#16 := by
    simp [externalAddrs]
  obtain ⟨hlow, hprivop, hillop, haf⟩ := haddr ioa h
  rw [ioOut1_run hc hi (by simp [refusesBit]), IoPart.send_serial _ _ hlow]
  simp only [IoPart.flagged, hprivop, hillop, haf, ne_eq, not_false_eq_true, decide_true, Bool.and_true]
  rfl

section
variable {s : State} (hc : s.calm)
include hc

/-- In user mode an external instruction comes to its prefetch with the violation alone. -/
theorem external_user (h7 : stBit s.st 7 = true) (hm : s.inMs = false) (ioa : Word) (effect : M Unit) :
    outcome (external ioa effect) s = .next ((s.withPrivop true).withIoInhibit true).latched := by
  refine outcome_ok ?_
  rw [external, gets_bind, if_pos ((userMode_eq_true_iff s).2 ⟨h7, hm⟩)]
  exact prefetchNext_main hc hm

/-- Otherwise it writes its 0 and has its effect. -/
theorem external_answers (hi : s.ioInhibit = false) (hu : s.userMode = false) {ioa : Word}
    (h : ioa ∈ externalAddrs) {effect : M Unit} {t : State}
    (he : effect (s.withIoOut (s.ioOut ++ [.bit ioa false])) = .ok ((), t)) (htc : t.calm) :
    Answers (external ioa effect s) t t.latched := by
  rw [external, gets_bind, if_neg (by simp [hu]), M.bind_ok (ioOut1_external hc hi h), M.bind_ok he]
  exact prefetchNext_answers htc

/-- CKON, CKOF and LREX have no effect but the write. -/
theorem external_write_reaches (hi : s.ioInhibit = false) (hu : s.userMode = false) {ioa : Word}
    (h : ioa ∈ externalAddrs) : Reaches (outcome (external ioa (stCycle id)) s) s
      fun t => t = (s.withIoOut (s.ioOut ++ [.bit ioa false])).latched :=
  (external_answers hc hi hu h (stCycle_calm (by simpa using hc) id) hc).reaches rfl

end

theorem exec_idle_main {s : State} (h : s.inMs = false) :
    exec .idle s = outcome (external 0x1EC4#16 (update fun t => t.withIdle true)) s := by
  refine outcome_congr ?_
  rw [gets_bind, h]; rfl

/-- RSET changes ST and the error flags in its ST cycle (spec/45_immediate_and_control.md R421). -/
theorem exec_rset_reaches {s : State} (hc : s.calm) (hi : s.ioInhibit = false) (hu : s.userMode = false) :
    Reaches (exec .rset s) s fun t => t = (((((s.withIoOut (s.ioOut ++ [.bit 0x1EC6#16 false])).withSt
      (if s.params.rsetClearsHigh then s.st &&& 0xFF80#16 else s.st &&& 0xFFF0#16)).withAf false).withIllop
      false).withPrivop false).latched := by
  let w := s.withIoOut (s.ioOut ++ [.bit 0x1EC6#16 false])
  let t := (((w.withSt (rsetSt s.params s.st)).withAf false).withIllop false).withPrivop false
  refine (external_answers (t := t) hc hi hu (by decide) ?_ hc).reaches rfl
  rw [gets_bind, M.bind_ok (stCycle_calm (show w.calm from hc) _)]; rfl

/-! ### The idle state and HOLD -/

theorem idleStep_calm {s : State} (hc : s.calm) (hi : s.ioInhibit = false) (hb : s.breakpoint = false) :
    idleStep s = .ok ((), s.withIoOut (s.ioOut ++ [.bit 0x1EC4#16 false])) := by
  rw [idleStep, gets_bind, if_neg (by simp [hb])]
  exact ioOut1_external hc hi (by decide)

/-- With HOLD asserted a step is one bus cycle after the inputs are sampled. -/
theorem step_hold {s : State} (hr : s.pins.reset = .inactive) (hd : s.resetDue = false) (hh : s.pins.hold = true) :
    step s = (sampleInputs s).waited := by
  rw [← outcome_busCycle]
  refine outcome_congr ?_
  simp [cycle, hr, hd, hh]

/-- A step that sees a full RESET, or finds the reset due, is the reset function. -/
theorem step_reset {s : State} (h : s.pins.reset = .full ∨ (s.pins.reset = .inactive ∧ s.resetDue = true)) :
    step s = outcome resetStep s := by
  refine outcome_congr ?_
  obtain hr | ⟨hr, hd⟩ := h
  · simp [cycle, hr]
  · simp [cycle, hr, hd]

/-- A reset that is due stays due over a cycle of waiting. -/
theorem waited_resetDue {s t : State} (h : s.resetDue = true) (ht : s.waited = .next t) : t.resetDue = true :=
  ((due_firm true).steady.busCycle_keeps.leaves h).next ((outcome_busCycle s).trans ht) fun _ _ => rfl

end Sys2Proof.Machine

/-- Settles O35: the return in main memory, which RTWP is. -/
theorem rtwpRestoresContext : Obligations.RtwpRestoresContext := fun _ hc hm =>
  ⟨rfl, outcome_ok ((inMainOnly_main hm).trans (returnContext_main hc hm))⟩

/-- Settles O36: each is the write of a 0 with its own effect, or the violation of user mode in place of both. -/
theorem externalInstructions : Obligations.ExternalInstructions := by
  refine ⟨fun s hm => ?macrostore, fun s hc hi => ⟨fun hp => ?privileged, fun h7 hm => ?user⟩⟩
  case macrostore =>
    simp only [exec, execIdle, outcome, gets_bind, hm, if_true, refuse_apply]
  case privileged =>
    have hu := (userMode_eq_false_iff s).2 hp
    refine ⟨external_write_reaches hc hi hu (by decide), external_write_reaches hc hi hu (by decide),
      external_write_reaches hc hi hu (by decide), fun hm => ?idle, exec_rset_reaches hc hi hu⟩
    have hrun := external_answers (ioa := 0x1EC4#16) hc hi hu (by decide) (update_apply (State.withIdle · true) _) hc
    exact (exec_idle_main hm).trans (outcome_ok (hrun.1 (State.reads_opcodeLoc hm)))
  case user =>
    have hviolation := external_user hc h7 hm
    exact ⟨hviolation _ _, hviolation _ _, hviolation _ _, (exec_idle_main hm).trans (hviolation _ _), hviolation _ _⟩

/-- Settles O16: an idle boundary makes the one write, and a step under HOLD is one bus cycle, with the reset due before
it where one is asked for. -/
theorem idleAndHoldWait : Obligations.IdleAndHoldWait := by
  refine ⟨fun s hready hm hidle hi hquiet hb => ?idle, fun s => step_hold, fun s hreset hh => ?reset⟩
  case idle =>
    obtain ⟨hunhindered, hc⟩ := hready
    obtain ⟨hnmi, hrequests⟩ := hquiet
    rw [step_main hunhindered hm]
    refine outcome_ok ?_
    have hwrite := idleStep_calm (s := (sampleInputs s).withInhibit .none) (by simpa using hc) (by simpa using hi) hb
    rw [boundary_quiet hnmi hrequests, if_pos (by simpa using hidle), hwrite]
    simp
  case reset =>
    refine ⟨?_, fun _ => waited_resetDue rfl⟩
    rw [step_reset hreset, outcome_congr (resetStep_hold hh), outcome_busCycle]

end

section
/-! SUPPORT. The double-precision instructions: the two words of a double word, the count of a double-word shift, and
the frames of AM and SM and of SLAM and SRAM (spec/46_bit_and_double.md R440 to R447). -/

open Sys2Proof Sys2Proof.Machine Sys2Proof.Claims

namespace Sys2Proof.Machine

/-! ### The low word of a sum and of a difference -/

theorem loWord_eq_setWidth (v : BitVec 32) : loWord v = v.setWidth 16 :=
  (BitVec.setWidth_eq_extractLsb' (by decide)).symm

@[simp] theorem loWord_longOf (hi lo : Word) : loWord (longOf hi lo) = lo := by
  apply BitVec.eq_of_getLsbD_eq
  intro i hlt
  simp [loWord, longOf, hlt, show i < 32 by omega]

theorem loWord_add (y x : BitVec 32) : loWord (y + x) = loWord y + loWord x := by
  simp only [loWord_eq_setWidth, BitVec.setWidth_add y x (by decide : 16 ≤ 32)]

theorem loWord_sub (y x : BitVec 32) : loWord (y - x) = loWord y - loWord x := by
  have hneg : (-x).setWidth 16 = -x.setWidth 16 := BitVec.setWidth_neg_of_le (by decide)
  simp only [loWord_eq_setWidth, BitVec.sub_eq_add_neg, BitVec.setWidth_add y _ (by decide : 16 ≤ 32), hneg]

/-! ### AM and SM -/

/-- The low word of the result is stored, and the high word of the destination read after that, before the next opcode
is read ahead (spec/46_bit_and_double.md R440). -/
theorem dualLong_run {s : State} (hc : s.calm) (op : BitVec 32 → BitVec 32 → Arith 32) {src dst : Operand}
    (hs : s.readable src longStep .sop) (hd : (s.operand src longStep .sop).2.writable dst longStep .dop) :
    let a := s.operand src longStep .sop
    let b := a.2.operand dst longStep .dop
    let slo := b.2.wordAt (a.1.offset 2#16)
    let lo := b.2.wordAt (b.1.offset 2#16)
    let u := b.2.putWord (b.1.offset 2#16) (loWord (op (longOf 0#16 lo) (longOf 0#16 slo)).r)
    let r := op (longOf (u.wordAt b.1) lo) (longOf (a.2.wordAt a.1) slo)
    s.reads (a.1.offset 2#16) → s.writes (b.1.offset 2#16) →
    dualLong op src dst s = (do prefetchNext; writeLoc b.1 (hiWord r.r); updateSt (setArith r) : M Unit) u := by
  intro a b slo lo u r hslo hlo
  have ha : a.2.calm := by simpa [a] using hc
  have hb : b.2.calm := by simpa [b] using ha
  rw [dualLong, srcLoc_readLoc hc hs, M.bind_ok (dstLoc_calm ha hd.1 longStep),
    M.bind_ok (readLoc_calm hb (by simpa [a, b] using hslo)),
    M.bind_ok (readLoc_calm hb (by simpa [a, b] using hlo.reads)),
    M.bind_ok (writeLoc_calm hb (by simpa [a, b] using hlo) _),
    M.bind_ok (readLoc_calm (by simpa using hb) (by simpa [a, b] using hd.2.reads))]

/-- What an instruction with the frame of AM and SM does is what the statement's shape says, where the low word of the
result does not depend on the high word of the source. -/
theorem dualLong_of_exec {mk : Operand → Operand → Instr} {first : Word} {arith : BitVec 32 → BitVec 32 → Arith 32}
    {op : BitVec 32 → BitVec 32 → BitVec 32} {bits : BitVec 32 → BitVec 32 → List (Nat × Bool)}
    (henc : ∀ src dst, encode (mk src dst) = [first, encDual 0x4000#16 src dst])
    (hexec : ∀ src dst s, exec (mk src dst) s = outcome (dualLong arith src dst) s)
    (hvalue : ∀ y x, (arith y x).r = op y x)
    (hlow : ∀ y hi lo, loWord (op y (longOf hi lo)) = loWord (op y (longOf 0#16 lo)))
    (hst : ∀ y x st, StatusIs st (setArith (arith y x) st) (resultBits (op y x) ++ bits y x)) :
    DualLong mk first op bits := by
  intro src dst s hc hs a b x lo u y hslo hd hlo
  have hu : StoresOnly s u := ((storesOnly_operand hc src _ _).operand hc dst _ _).putWord hc _ _
  have hrun := dualLong_run hc arith hs hd hslo hlo
  rw [hvalue, hvalue, ← hlow _ (a.2.wordAt a.1)] at hrun
  exact ⟨henc src dst, completes_writeLoc hc (hexec src dst s) hu hrun (by simpa [u, a, b] using hd.2)
    (hst y x s.st)⟩

/-! ### SLAM and SRAM -/

/-- The count is below 16. -/
theorem longShiftBy_lt (s : State) (sc : Nibble) : longShiftBy s sc < 16 := by
  rw [longShiftBy]
  split_ifs
  · exact sc.isLt
  · exact Nat.mod_lt _ (by decide)

/-- The count is read from WR0 where the field is zero, and changes nothing (spec/46_bit_and_double.md R445). -/
theorem longShiftCount_run {s : State} (hc : s.calm) {sc : Nibble} (h0 : sc = 0#4 → s.reads (s.regLoc 0#4)) :
    longShiftCount sc s = .ok (longShiftBy s sc, s) := by
  by_cases hz : sc = 0#4
  · rw [longShiftCount, if_pos hz, M.bind_ok (readReg_calm hc (h0 hz))]
    simp [longShiftBy, hz, BitVec.extractLsb'_toNat, Nat.shiftRight_eq_div_pow]
  · have hne : sc.toNat ≠ 0 := fun h => hz (BitVec.eq_of_toNat_eq h)
    rw [longShiftCount, if_neg hz, longShiftBy, if_pos hne, M.pure_apply]

/-- The low word of the result is stored before the next opcode is read ahead, whatever the count
(spec/46_bit_and_double.md R444). -/
theorem shiftLong_run {s : State} (hc : s.calm) (step : Shift 32 → Shift 32) (flags : Shift 32 → Word → Word)
    {src : Operand} {sc : Nibble} (hs : s.readable src longStep .sop) (h0 : sc = 0#4 → s.reads (s.regLoc 0#4)) :
    let a := s.operand src longStep .sop
    let r := shiftBy step (longShiftBy a.2 sc) (Shift.start (a.2.longAt a.1))
    s.writes (a.1.offset 2#16) →
    shiftLong step flags src sc s = (do prefetchNext; writeLoc a.1 (hiWord r.x); updateSt (flags r) : M Unit)
      (a.2.putWord (a.1.offset 2#16) (loWord r.x)) := by
  intro a r hlo
  have ha : a.2.calm := by simpa [a] using hc
  rw [shiftLong, srcLoc_readLoc hc hs, M.bind_ok (longShiftCount_run ha (by simpa [a] using h0)),
    M.bind_ok (readLoc_calm ha (by simpa [a] using hlo.reads)),
    M.bind_ok (writeLoc_calm ha (by simpa [a] using hlo) _)]
  rfl

/-- What an instruction with the frame of a double-word shift does is what the statement's shape says, where for every
count below 16 its steps leave the value and its flags the status that the shape names. -/
theorem longShift_of_exec {mk : Operand → Nibble → Instr} {first : Word} {step : Shift 32 → Shift 32}
    {flags : Shift 32 → Word → Word} {result : Nat → BitVec 32 → BitVec 32}
    {bits : Nat → BitVec 32 → List (Nat × Bool)}
    (henc : ∀ src sc, encode (mk src sc) = [first, encField 0x4000#16 src sc])
    (hexec : ∀ src sc s, exec (mk src sc) s = outcome (shiftLong step flags src sc) s)
    (hvalue : ∀ c x, (shiftBy step c (Shift.start x)).x = result c x)
    (hst : ∀ c < 16, ∀ (x : BitVec 32) (st : Word),
      StatusIs st (flags (shiftBy step c (Shift.start x)) st) (resultBits (result c x) ++ bits c x)) :
    LongShift mk first result bits := by
  intro src sc s hc hs a c x r u hlo h0
  have hu : StoresOnly s u := (storesOnly_operand hc src _ _).putWord hc _ _
  have hrun := shiftLong_run hc step flags hs.readable h0 hlo
  rw [hvalue] at hrun
  exact ⟨henc src sc, completes_writeLoc hc (hexec src sc s) hu hrun (by simpa [u, a] using hs.2)
    (hst c (longShiftBy_lt a.2 sc) x s.st)⟩

/-- The last bit that SLAM shifts out, and the 0 of a count of 0 (spec/46_bit_and_double.md R445). -/
theorem slaStep_out_or_none {c : Nat} (hc : c < 16) (x : BitVec 32) :
    (shiftBy slaStep c (Shift.start x)).out = (decide (c ≠ 0) && x.getLsbD (32 - c)) := by
  cases c with
  | zero => rfl
  | succ k => rw [slaStep_out _ x k.succ_pos, decide_eq_true (by omega), decide_eq_true k.succ_ne_zero]

/-- The last bit that SRAM shifts out, and the 0 of a count of 0 (spec/46_bit_and_double.md R445). -/
theorem sraStep_out_or_none {c : Nat} (hc : c < 16) (x : BitVec 32) :
    (shiftBy sraStep c (Shift.start x)).out = (decide (c ≠ 0) && x.getLsbD (c - 1)) := by
  cases c with
  | zero => rfl
  | succ k => rw [sraStep_out _ x k.succ_pos (by omega), decide_eq_true k.succ_ne_zero, Bool.true_and]

end Sys2Proof.Machine

/-- Settles O30: AM and SM have one frame, SLAM and SRAM another, in which a step repeated 0 to 15 times has the closed
form. -/
theorem doubleWordInstructions : Obligations.DoubleWordInstructions := by
  have hsra (c : Nat) (x : BitVec 32) : (shiftBy sraStep c (Shift.start x)).x = BitVec.ofInt 32 (x.toInt / 2 ^ c) :=
    (sraStep_value c x).trans (sshiftRight_eq_div c x)
  refine ⟨dualLong_of_exec (fun _ _ => rfl) (fun _ _ _ => rfl) addN_r ?amLow fun y x => StatusIs_setArith_add y x,
    dualLong_of_exec (fun _ _ => rfl) (fun _ _ _ => rfl) subN_r ?smLow fun y x => StatusIs_setArith_sub y x,
    longShift_of_exec (fun _ _ => rfl) (fun _ _ _ => rfl) slaStep_value ?slam,
    longShift_of_exec (fun _ _ => rfl) (fun _ _ _ => rfl) hsra ?sram⟩
  case amLow => intro y hi lo; simp only [loWord_add, loWord_longOf]
  case smLow => intro y hi lo; simp only [loWord_sub, loWord_longOf]
  case slam =>
    intro c hc x st
    rw [← slaStep_value, ← slaStep_out_or_none hc, ← slaStep_changed]
    exact StatusIs_shiftLeftFlags _ st
  case sram =>
    intro c hc x st
    exact StatusIs_shiftFlags_of (hsra c x) (sraStep_out_or_none hc x) st

end

section
/-! SUPPORT. The bit-manipulation instructions: the mask of a bit numbered from the most significant one, and the frame
that all three share (spec/46_bit_and_double.md R430 to R433). -/

open Sys2Proof Sys2Proof.Machine Sys2Proof.Claims

namespace Sys2Proof.Machine

/-! ### The addressed bit -/

/-- The mask of bit `bd` as the model shifts it into place. -/
theorem bitMask_eq (bd : Nibble) : 0x8000#16 >>> bd.toNat = BitVec.ofNat 16 (2 ^ (15 - bd.toNat)) := by
  revert bd; decide

theorem ofNat_two_pow_eq_twoPow (n k : Nat) : BitVec.ofNat n (2 ^ k) = BitVec.twoPow n k :=
  BitVec.eq_of_toNat_eq (BitVec.toNat_twoPow n k).symm

/-- A bit of a word is set exactly where the word and the mask of that bit have a bit in common. -/
theorem getMsbD_eq_mask (x : Word) (bd : Nibble) :
    x.getMsbD bd.toNat = decide (x &&& BitVec.ofNat 16 (2 ^ (15 - bd.toNat)) ≠ 0#16) := by
  have hmask : BitVec.ofNat 16 (2 ^ (15 - bd.toNat)) ≠ 0#16 := by revert bd; decide
  have hbit : x.getMsbD bd.toNat = x.getLsbD (15 - bd.toNat) := by
    rw [BitVec.getMsbD, decide_eq_true bd.isLt, Bool.true_and]
  rw [ofNat_two_pow_eq_twoPow] at hmask ⊢
  rw [hbit, BitVec.and_twoPow]
  cases x.getLsbD (15 - bd.toNat)
  · simp
  · simp [hmask]

/-! ### The frame -/

section
variable {s : State} (hc : s.calm) {src : Operand} (hi : src.notInc = true) (hs : s.readable src wordStep .sop)
  (w : Word) (bd : Nibble)
include hc hi hs

/-- TMB stores nothing (spec/46_bit_and_double.md R431). -/
theorem testBit_none_run :
    let a := s.operand src wordStep .sop
    testBit w none src bd s =
      (do prefetchNext; settle fun st => stSet st 2 ((a.2.wordAt a.1).getMsbD bd.toNat) : M Unit) a.2 := by
  intro a
  rw [testBit, if_pos hi, srcLoc_readLoc hc hs]

/-- TCMB and TSMB store at their operand before the next opcode is read ahead (spec/46_bit_and_double.md R430). -/
theorem testBit_some_run (f : Word → Word → Word) :
    let a := s.operand src wordStep .sop
    let x := a.2.wordAt a.1
    s.writes a.1 →
    testBit w (some f) src bd s =
      (do prefetchNext; settle fun st => stSet st 2 (x.getMsbD bd.toNat) : M Unit)
        (a.2.putWord a.1 (f x (BitVec.ofNat 16 (2 ^ (15 - bd.toNat))))) := by
  intro a x hw
  rw [testBit, if_pos hi, bitMask_eq, srcLoc_readLoc hc hs]
  exact M.bind_ok (writeLoc_calm (by simpa using hc) (by simpa [a] using hw) _)

end

/-- What an instruction with the frame of TMB, TCMB and TSMB does is what the statement's shape says. -/
theorem bitTest_of_exec {mk : Operand → Nibble → Instr} {first : Word} {store : Option (Word → Word → Word)}
    (henc : ∀ src bd, encode (mk src bd) = [first, encField 0x0000#16 src bd])
    (hexec : ∀ src bd s, exec (mk src bd) s = outcome (testBit first store src bd) s) : BitTest mk first store := by
  intro src bd s hc hi hs a x m u hw
  have ha : StoresOnly s a.2 := storesOnly_operand hc src _ _
  have hst : StatusIs s.st (stSet s.st 2 (x.getMsbD bd.toNat)) [(2, decide (x &&& m ≠ 0#16))] :=
    getMsbD_eq_mask x bd ▸ (StatusIs.refl s.st).set (by decide) rfl _
  refine ⟨henc src bd, ?_⟩
  cases store with
  | none => exact completes_settle hc (hexec src bd s) ha (testBit_none_run hc hi hs first bd) hst
  | some f =>
    have hrun := testBit_some_run hc hi hs first bd f (hw (Option.some_ne_none f))
    exact completes_settle hc (hexec src bd s) (ha.putWord hc _ _) hrun hst

end Sys2Proof.Machine

/-- Settles O31: the three have one frame, with their stores. -/
theorem memoryBitTests : Obligations.MemoryBitTests :=
  ⟨bitTest_of_exec (fun _ _ => rfl) fun _ _ _ => rfl, bitTest_of_exec (fun _ _ => rfl) fun _ _ _ => rfl,
    bitTest_of_exec (fun _ _ => rfl) fun _ _ _ => rfl⟩

end

section
/-! SUPPORT. Where an operand lies inside Macrostore: the table of the registers of a block
(spec/47_macrostore.md R466 to R468, R481). -/

open Sys2Proof Sys2Proof.Machine

namespace Sys2Proof.Machine

/-- The position of a register in its block, as a number (spec/47_macrostore.md R466). -/
theorem blockIndex_toNat (a : Word) : (blockIndex a).toNat = a.toNat / 2 % 16 := by
  simp [blockIndex, BitVec.extractLsb'_toNat, Nat.shiftRight_eq_div_pow]

section
variable {s : State} (hm : s.inMs = true) (r : Nibble) (a : Word) (role : BusCode)
include hm

/-- A register that Tables 9 and 10 give a code to leads to main memory. -/
theorem State.baseLoc_of_code {code : BusCode} (h : macrostoreBase s (blockIndex (s.regAddr r)) = some code) :
    s.baseLoc r a role = { space := .main, addr := a, code := code } := by
  simp only [State.baseLoc, hm, if_true, h]

/-- Every other register leads to Macrostore. -/
theorem State.baseLoc_of_none (h : macrostoreBase s (blockIndex (s.regAddr r)) = none) :
    s.baseLoc r a role = { space := .macrostore, addr := a, code := .aums } := by
  simp only [State.baseLoc, hm, if_true, h]

/-- The word after the opcode lies in Macrostore at PC. -/
theorem State.streamWord_macrostore : s.streamWord = Mem.readWord s.ms s.pc.even.toNat := by
  simp only [State.streamWord, State.streamLoc, State.wordAt, State.space, hm, if_true]

end

/-- Whichever space an access through a register goes to, it is at the address given. -/
theorem State.baseLoc_addr (s : State) (r : Nibble) (a : Word) (role : BusCode) : (s.baseLoc r a role).addr = a := by
  unfold State.baseLoc
  split
  · split <;> rfl
  · rfl

end Sys2Proof.Machine

/-- Settles O11: an operand by its mode, and an access through a register by the register's place in its block. -/
theorem macrostoreOperandsByRegister : Obligations.MacrostoreOperandsByRegister := by
  refine ⟨fun s op n role hc hd => operandLoc_calm hc hd n role, fun s r a n role hm => ?_⟩
  intro k
  have hk : (blockIndex (s.regAddr r)).toNat = k := blockIndex_toNat _
  have hcode {code : BusCode} (h : macrostoreBase s (blockIndex (s.regAddr r)) = some code) :=
    State.baseLoc_of_code hm r a role h
  refine ⟨State.regLoc_macrostore hm r, by rw [operandLoc, gets_apply, State.regLoc_macrostore hm],
    fun hc hr => ⟨State.streamWord_macrostore hm, ?sym⟩, fun h => ?stays, fun h => hcode ?iaq, fun h => hcode ?gm,
    fun h => hcode ?sop, fun h => hcode ?seven, fun h => hcode ?eight, fun h => hcode ?ws, fun h => hcode ?dop,
    fun h => hcode ?iop, State.baseLoc_addr s r a role⟩
  case sym =>
    rw [operandLoc_calm hc (op := .sym) hr, State.operand]
    simp only [State.space, hm, if_true]
  case stays =>
    rw [State.baseLoc_of_none hm]
    simp only [List.mem_cons, List.not_mem_nil, or_false] at h
    rcases h with h | h | h | h | h | h <;> simp only [macrostoreBase, hk, h]
  case ws =>
    simp only [List.mem_cons, List.not_mem_nil, or_false] at h
    rcases h with h | h | h <;> simp only [macrostoreBase, hk, h]
  all_goals simp only [macrostoreBase, hk, h]

end

section
/-! SUPPORT. EVAD: the workspace at Macrostore >0000, which lies in MRAM; stores in its registers as a list; and all
that EVAD does (spec/47_macrostore.md R478 to R483). -/

open Sys2Proof Sys2Proof.Machine

namespace Sys2Proof.Machine

/-! ### Stores in the registers of a workspace at >0000 -/

/-- A memory after stores in the words of registers 0 to 15 of a workspace at address 0, the last store first. -/
def Mem.storeRegs (m : Mem) : List (Nibble × Word) → Mem
  | [] => m
  | (r, v) :: l => (Mem.storeRegs m l).writeWord (2 * r.toNat) v

/-- A register holds what was stored in it last. -/
theorem Mem.readWord_storeRegs (m : Mem) (l : List (Nibble × Word)) (q : Nibble) :
    (m.storeRegs l).readWord (2 * q.toNat) = (l.lookup q).getD (m.readWord (2 * q.toNat)) := by
  induction l with
  | nil => rfl
  | cons p l ih =>
    obtain ⟨r, v⟩ := p
    by_cases h : q = r
    · subst h
      simp [Mem.storeRegs, List.lookup]
    · have hne : 2 * r.toNat ≠ 2 * q.toNat := fun e => h (BitVec.eq_of_toNat_eq (by omega))
      have hlookup : ((r, v) :: l).lookup q = l.lookup q := by rw [List.lookup, beq_eq_false_iff_ne.2 h]
      rw [Mem.storeRegs, Mem.readWord_writeWord_even_ne _ _ _ _ (by omega) (by omega) hne, ih, hlookup]

/-- Bytes of no register stored in read as before. -/
theorem Mem.read_storeRegs_ne (m : Mem) {l : List (Nibble × Word)} {a : Nat}
    (h : ∀ p ∈ l, a ≠ 2 * p.1.toNat ∧ a ≠ 2 * p.1.toNat + 1) : (m.storeRegs l).read a = m.read a := by
  induction l with
  | nil => rfl
  | cons p l ih =>
    obtain ⟨h0, h1⟩ := h p (List.mem_cons_self ..)
    exact (Mem.read_writeWord_ne _ _ h0 h1).trans (ih fun q hq => h q (List.mem_cons_of_mem _ hq))

/-- Words past the workspace read as before. -/
theorem Mem.readWord_storeRegs_past (m : Mem) (l : List (Nibble × Word)) {a : Nat} (h : 0x20 ≤ a) :
    (m.storeRegs l).readWord a = m.readWord a := by
  have hread (b : Nat) (hb : 0x20 ≤ b) : (m.storeRegs l).read b = m.read b :=
    Mem.read_storeRegs_ne m fun p _ => by have := p.1.isLt; omega
  rw [Mem.readWord, hread a h, hread (a + 1) (by omega), Mem.readWord]

/-- The state after stores in registers of the workspace at Macrostore >0000, the last store first. -/
def State.storing (s : State) (l : List (Nibble × Word)) : State := s.withMs (s.ms.storeRegs l)

/-- The workspace lies in MRAM: Macrostore executes, it is enabled, and WP is >0000 (spec/47_macrostore.md R460). -/
structure State.InMram (s : State) : Prop where
  inMs : s.inMs = true
  enabled : s.msMode ≠ .baseline
  wp : s.wp = 0#16

section
variable {s : State} (h : s.InMram)
include h

theorem State.InMram.regAddr (r : Nibble) : (s.regAddr r).toNat = 2 * r.toNat := by
  have := r.isLt
  simp only [State.regAddr, h.wp, BitVec.zero_add, BitVec.toNat_mul, BitVec.toNat_setWidth, BitVec.toNat_ofNat]
  omega

theorem State.InMram.regAddr_even (r : Nibble) : (s.regAddr r).even.toNat = 2 * r.toNat := by
  rw [Word.even_toNat, h.regAddr]; omega

/-- MRAM is RAM in both modes that enable it. -/
theorem State.InMram.msRegion_regAddr (r : Nibble) : msRegion s (s.regAddr r) = .ram := by
  have hlow : (s.regAddr r).even.toNat < 0x20 := by rw [h.regAddr_even]; have := r.isLt; omega
  cases hm : s.msMode with
  | baseline => exact absurd hm h.enabled
  | standard | prototyping => simp only [msRegion, hm, hlow, if_true]

theorem State.InMram.writes (r : Nibble) : s.writes (s.regLoc r) := fun _ => .inl (h.msRegion_regAddr r)

theorem State.InMram.wr_eq (r : Nibble) : s.wr r = s.ms.readWord (2 * r.toNat) := by
  simp only [State.wr, State.regLoc_macrostore h.inMs, State.wordAt, h.regAddr_even]

theorem State.InMram.putWr_eq (r : Nibble) (v : Word) : s.putWr r v = s.withMs (s.ms.writeWord (2 * r.toNat) v) := by
  simp only [State.putWr, State.regLoc_macrostore h.inMs, State.putWord, State.setMsWord, h.msRegion_regAddr,
    h.regAddr_even]

theorem State.InMram.storing (l : List (Nibble × Word)) : (s.storing l).InMram := ⟨h.inMs, h.enabled, h.wp⟩

theorem State.InMram.wr_storing (l : List (Nibble × Word)) (q : Nibble) :
    (s.storing l).wr q = (l.lookup q).getD (s.wr q) := by
  rw [(h.storing l).wr_eq, h.wr_eq]
  exact Mem.readWord_storeRegs s.ms l q

variable (hc : s.calm) (l : List (Nibble × Word))
include hc

theorem State.InMram.writeReg_storing (r : Nibble) (v : Word) :
    writeReg r v (s.storing l) = .ok ((), s.storing ((r, v) :: l)) := by
  rw [writeReg_calm (show (s.storing l).calm from hc) ((h.storing l).writes r), (h.storing l).putWr_eq]
  rfl

theorem State.InMram.readReg_storing (r : Nibble) :
    readReg r (s.storing l) = .ok ((l.lookup r).getD (s.wr r), s.storing l) := by
  rw [readReg_calm (show (s.storing l).calm from hc) ((h.storing l).writes r).reads, h.wr_storing]

omit h in
theorem mainRead_storing (code : BusCode) (a : Word) :
    mainRead code a (s.storing l) = .ok (s.mainWord (psel s code) code a, s.storing l) := by
  rw [mainRead_calm (show (s.storing l).calm from hc)]
  cases code <;> rfl

end

/-! ### One field of the target word -/

/-- What the evaluation of a field stores: for autoincrement, the address of the user's register
(spec/47_macrostore.md R479). -/
def State.evadParked (s : State) (t : BitVec 2) (r park : Nibble) : List (Nibble × Word) :=
  if t = 3#2 then [(park, s.wr 13#4 + 2#16 * r.setWidth 16)] else []

/-- The evaluation of a field reads main memory and parks the register of an autoincrement. -/
theorem evalField_storing {s : State} (h : s.InMram) (hc : s.calm) (l : List (Nibble × Word)) (t : BitVec 2)
    (r park : Nibble) (upc : Word) :
    evalField t r park (s.wr 13#4) upc (s.storing l) =
      .ok (((s.evadField t r upc).1, (s.evadField t r upc).2), s.storing (s.evadParked t r park ++ l)) := by
  have hread := mainRead_storing hc l
  have hmode : ∀ t : BitVec 2, t = 0#2 ∨ t = 1#2 ∨ t = 2#2 ∨ t = 3#2 := by decide
  obtain rfl | rfl | rfl | rfl := hmode t
  case inl => rfl
  case inr.inl => exact M.bind_ok (hread .ws _)
  case inr.inr.inl =>
    by_cases hr : r = 0#4
    · subst hr
      exact M.bind_ok (hread .iop _)
    · have hidx : s.evadField 2#2 r upc = (s.mainWord (psel s .iop) .iop upc +
          s.mainWord (psel s .ws) .ws (s.wr 13#4 + 2#16 * r.setWidth 16), upc + 2#16) := by
        simp [State.evadField, hr]
      rw [hidx]
      simp only [evalField, hr, if_false, BitVec.reduceEq, if_true]
      rw [M.bind_ok (hread .ws _), M.bind_ok (hread .iop _)]
      rfl
  case inr.inr.inr =>
    exact (M.bind_ok (hread .ws _)).trans (M.bind_ok (h.writeReg_storing hc l park _))

/-! ### The whole instruction -/

/-- Which read of an opcode an instruction comes to is a matter of where that opcode lies. -/
theorem Answers.at_opcodeLoc {r : Except Stop (Unit × State)} {u v t : State} (h : Answers r v t)
    (hl : v.opcodeLoc = u.opcodeLoc) (hr : ∀ a, msRegion v a = msRegion u a) : Answers r u t := by
  simpa only [Answers, State.reads, State.unread, hl, hr] using h

/-- The source address that the target word stands for, and the user's PC after it (spec/47_macrostore.md R478). -/
def State.evadSource (s : State) (w : Word) : Word × Word :=
  s.evadField (w.extractLsb' 4 2) (w.extractLsb' 0 4) (s.wr 14#4)

/-- The destination address that the target word stands for, and the user's PC after both. -/
def State.evadDest (s : State) (w : Word) : Word × Word :=
  s.evadField (w.extractLsb' 10 2) (w.extractLsb' 6 4) (s.evadSource w).2

/-- What EVAD stores before it reads the next opcode ahead, the last store first. -/
def State.evadStores (s : State) (w scratch : Word) : List (Nibble × Word) :=
  (7#4, (s.evadDest w).1) :: (14#4, (s.evadDest w).2) ::
    (s.evadParked (w.extractLsb' 10 2) (w.extractLsb' 6 4) 9#4 ++
      (s.evadParked (w.extractLsb' 4 2) (w.extractLsb' 0 4) 10#4 ++ [(4#4, scratch)]))

/-- The state in which EVAD has set the status and its latches, but for its stores (spec/47_macrostore.md R480,
R481). -/
def State.evadLatched (s : State) (w : Word) : State :=
  (((s.withDraws (s.draws + 1)).withSt
    (stSet (stSet s.st 2 (w.extractLsb' 4 2 == 3#2)) 0 (w.extractLsb' 10 2 != 3#2))).withWr7Ws
      (w.extractLsb' 10 2 == 0#2)).withWr8Ws (w.extractLsb' 4 2 == 0#2)

/-- The parked registers are 9 and 10. -/
theorem State.lookup_evadParked (s : State) (t : BitVec 2) (r park q : Nibble) : (s.evadParked t r park).lookup q =
    if t = 3#2 ∧ q = park then some (s.wr 13#4 + 2#16 * r.setWidth 16) else none := by
  unfold State.evadParked
  by_cases ht : t = 3#2 <;> by_cases hq : q = park
  · simp [ht, hq]
  · simp [ht, hq, List.lookup, beq_eq_false_iff_ne.2 hq]
  · simp [ht]
  · simp [ht]

section
variable {s u : State} (h : u.InMram) (hc : u.calm) {src : Operand} {l : Loc} {w : Word}
include h hc

/-- All EVAD does once its target word is read: what it stores before it reads the next opcode ahead, and register 8
after it. -/
theorem evaluateAddress_answers (hloc : srcLoc src wordStep s = .ok (l, u)) (hread : readLoc l u = .ok (w, u)) :
    let stores := u.evadStores w (Config.freeWord u.draws)
    let v := (u.evadLatched w).storing stores
    Answers (evaluateAddress src s) u
      (((u.evadLatched w).storing ((8#4, (u.evadSource w).1) :: stores)).withPrefetch (some v.opcodeWord)) := by
  intro stores v
  let d := u.withDraws (u.draws + 1)
  have hd : d.InMram := ⟨h.inMs, h.enabled, h.wp⟩
  have hdc : d.calm := hc
  have hwrite (l : List (Nibble × Word)) := hd.writeReg_storing hdc l
  have hfield (l : List (Nibble × Word)) (t : BitVec 2) (r park : Nibble) (upc : Word) :
      evalField t r park (u.wr 13#4) upc (d.storing l) =
        .ok (((u.evadField t r upc).1, (u.evadField t r upc).2), d.storing (u.evadParked t r park ++ l)) :=
    evalField_storing hd hdc l t r park upc
  have hscratch : writeReg 4#4 (Config.freeWord u.draws) d = .ok ((), d.storing [(4#4, Config.freeWord u.draws)]) :=
    hwrite [] 4#4 _
  have hsaved (q : Nibble) (hq : (q == 4#4) = false) : readReg q (d.storing [(4#4, Config.freeWord u.draws)]) =
      .ok (u.wr q, d.storing [(4#4, Config.freeWord u.draws)]) := by
    rw [hd.readReg_storing hdc, List.lookup, hq]
    rfl
  rw [evaluateAddress, M.bind_ok hloc, M.bind_ok hread, M.bind_ok (drawWord_apply u), M.bind_ok hscratch,
    M.bind_ok (hsaved 14#4 rfl), M.bind_ok (hsaved 13#4 rfl), M.bind_ok (hfield _ _ _ _ _)]
  dsimp only
  rw [M.bind_ok (hfield _ _ _ _ _)]
  dsimp only
  rw [M.bind_ok (hwrite _ _ _), M.bind_ok (hwrite _ _ _), updateSt_bind, update_bind]
  have hv : v.InMram := ⟨h.inMs, h.enabled, h.wp⟩
  have hvc : v.calm := hc
  have hlast : writeReg 8#4 (u.evadSource w).1 v.latched =
      .ok ((), ((u.evadLatched w).storing ((8#4, (u.evadSource w).1) :: stores)).withPrefetch (some v.opcodeWord)) := by
    rw [writeReg_latched hvc (hv.writes 8#4), hv.putWr_eq]
    rfl
  have hend : Answers ((prefetchNext >>= fun _ => writeReg 8#4 (u.evadSource w).1) v) v _ :=
    prefetchNext_then hvc hlast
  exact hend.at_opcodeLoc rfl fun _ => rfl

end

/-- The registers EVAD stores in, each with the value it is left with; and which bytes of Macrostore it leaves alone
(spec/47_macrostore.md R479, R480). -/
theorem State.evadStores_registers (u : State) (w scratch : Word) :
    let stores := (8#4, (u.evadSource w).1) :: u.evadStores w scratch
    stores.lookup 8#4 = some (u.evadSource w).1 ∧ stores.lookup 7#4 = some (u.evadDest w).1 ∧
    stores.lookup 14#4 = some (u.evadDest w).2 ∧
    stores.lookup 10#4 = (u.evadParked (w.extractLsb' 4 2) (w.extractLsb' 0 4) 10#4).lookup 10#4 ∧
    stores.lookup 9#4 = (u.evadParked (w.extractLsb' 10 2) (w.extractLsb' 6 4) 9#4).lookup 9#4 ∧
    ∀ p ∈ stores, p.1 ∈ [8#4, 7#4, 14#4, 9#4, 10#4, 4#4] := by
  have hkey {t : BitVec 2} {r park : Nibble} {p : Nibble × Word} (hp : p ∈ u.evadParked t r park) : p.1 = park := by
    unfold State.evadParked at hp
    split at hp
    · rw [List.mem_singleton.1 hp]
    · nomatch hp
  refine ⟨rfl, rfl, rfl, ?source, ?dest, fun p hp => ?key⟩
  case source =>
    simp [State.evadStores, List.lookup, List.lookup_append, State.lookup_evadParked]
  case dest =>
    simp [State.evadStores, List.lookup, List.lookup_append, State.lookup_evadParked]
  case key =>
    simp only [State.evadStores, List.mem_cons, List.mem_append, List.not_mem_nil, or_false] at hp
    rcases hp with rfl | rfl | rfl | hp | hp | rfl
    · simp
    · simp
    · simp
    · simp [hkey hp]
    · simp [hkey hp]
    · simp

/-- A register after the evaluation holds what was stored in it last, if anything was. -/
theorem State.InMram.wr_evaluated {u : State} (h : u.InMram) (w : Word) (l : List (Nibble × Word)) (x : Option Word)
    (q : Nibble) : (((u.evadLatched w).storing l).withPrefetch x).wr q = (l.lookup q).getD (u.wr q) := by
  have ht : (((u.evadLatched w).storing l).withPrefetch x).InMram := ⟨h.inMs, h.enabled, h.wp⟩
  rw [ht.wr_eq, h.wr_eq]
  exact Mem.readWord_storeRegs u.ms l q

theorem State.opcodeWord_macrostore {s : State} (hm : s.inMs = true) :
    s.opcodeWord = Mem.readWord s.ms s.pc.even.toNat := by
  simp only [State.opcodeWord, State.opcodeLoc, State.wordAt, State.space, hm, if_true]

/-- An opcode past the workspace is not what a store in a register changes. -/
theorem State.InMram.opcodeWord_evaluated {u : State} (h : u.InMram) (w : Word) (l : List (Nibble × Word))
    (hpc : 0x20 ≤ u.pc.toNat) : ((u.evadLatched w).storing l).opcodeWord = u.opcodeWord := by
  have heven : 0x20 ≤ u.pc.even.toNat := by rw [Word.even_toNat]; omega
  rw [State.opcodeWord_macrostore (s := (u.evadLatched w).storing l) h.inMs, State.opcodeWord_macrostore h.inMs]
  exact Mem.readWord_storeRegs_past u.ms l heven

theorem SameControl.msMode {s t : State} (h : SameControl s t) : t.msMode = s.msMode := by simp_all [SameControl]

theorem SameControl.evadLatched {s u : State} (h : SameControl s u) (w : Word) :
    SameControl (((s.withWr7Ws (u.evadLatched w).wr7Ws).withWr8Ws (u.evadLatched w).wr8Ws).withDraws
      (u.evadLatched w).draws) (u.evadLatched w) := by
  simp_all [SameControl, State.evadLatched]

theorem StatusIs.evadLatched {s u : State} (h : StatusIs s.st u.st []) (w : Word) :
    StatusIs s.st (u.evadLatched w).st
      [(2, decide (w.extractLsb' 4 2 = 3#2)), (0, decide (w.extractLsb' 10 2 ≠ 3#2))] := by
  have hne : (w.extractLsb' 10 2 != 3#2) = decide (w.extractLsb' 10 2 ≠ 3#2) := decide_not.symm
  exact hne ▸ (h.set (k := 2) (by decide) rfl _).set (k := 0) (by decide) rfl _

/-- EVAD is refused with another workspace, and of register 0 (spec/47_macrostore.md R483). -/
theorem exec_evad_refused {s : State} (hm : s.inMs = true) :
    (∀ src, s.wp ≠ 0#16 → exec (.evad src) s = .refused .evadWorkspace) ∧
    (s.wp = 0#16 → exec (.evad (.reg 0#4)) s = .refused .evadRegisterZero) := by
  refine ⟨fun src hw => ?_, fun hw => ?_⟩
  · simp [exec, execEvad, outcome, hm, hw]
  · simp [exec, execEvad, outcome, hm, hw]

theorem exec_evad_inMram {s : State} (h : s.InMram) {src : Operand} (hsrc : src ≠ .reg 0#4) :
    exec (.evad src) s = outcome (evaluateAddress src) s := by
  refine outcome_congr ?_
  simp only [gets_bind, h.inMs, h.wp, if_true, bne_self_eq_false, Bool.false_eq_true, if_false, hsrc]

end Sys2Proof.Machine

/-- Settles O43: the target word's fields are evaluated in a state that differs from the one its operand leaves in
stores to MRAM alone. -/
theorem evadEvaluatesAddresses : Obligations.EvadEvaluatesAddresses := by
  refine ⟨fun src s hm => (exec_evad_refused hm).1 src, fun s hm => (exec_evad_refused hm).2, ?_⟩
  intro src s u l w hc hm hb hw hsrc hloc hread ts td rs rd sa da
  have hF : Framing s [] := ⟨hc, List.not_mem_nil⟩
  have hu : Framed s (s.stepped src) [] u := (hF.srcLoc_within (List.Subset.refl _) _).ok (Framed.refl s _ _) hloc
  have hin : u.InMram := ⟨hu.control.inMs.trans hm, hu.control.msMode ▸ hb, hu.wp.trans hw⟩
  have hst : StatusIs s.st u.st [] := fun n hn => hu.status n hn List.not_mem_nil
  rw [exec_evad_inMram ⟨hm, hb, hw⟩ hsrc]
  obtain ⟨h8, h7, h14, h10, h9, hkeys⟩ := u.evadStores_registers w (Config.freeWord u.draws)
  refine (evaluateAddress_answers hin (hu.calm hc) hloc hread).reaches ⟨?r8, ?r7, ?r14, ?r10, ?r9, fun a ha => ?bytes,
    rfl, rfl, hin.wp, fun hpc => congrArg some (hin.opcodeWord_evaluated w _ hpc), hst.evadLatched w, rfl, rfl,
    hu.control.evadLatched w⟩
  case r8 => rw [hin.wr_evaluated, h8]; rfl
  case r7 => rw [hin.wr_evaluated, h7]; rfl
  case r14 => rw [hin.wr_evaluated, h14]; rfl
  case r10 =>
    rw [hin.wr_evaluated, h10, State.lookup_evadParked]
    by_cases h : ts = 3#2 <;> simp [ts, rs, h]
  case r9 =>
    rw [hin.wr_evaluated, h9, State.lookup_evadParked]
    by_cases h : td = 3#2 <;> simp [td, rd, h]
  case bytes =>
    have hbytes : ∀ q ∈ [8#4, 7#4, 14#4, 9#4, 10#4, 4#4], a ≠ 2 * q.toNat ∧ a ≠ 2 * q.toNat + 1 := by
      simp only [List.mem_cons, List.not_mem_nil, or_false, not_or] at ha
      simp only [List.forall_mem_cons, List.not_mem_nil, BitVec.toNat_ofNat]
      exact ⟨by omega, by omega, by omega, by omega, by omega, by omega, nofun⟩
    exact Mem.read_storeRegs_ne u.ms fun p hp => hbytes p.1 (hkeys p hp)

end

section
/-! SUPPORT. The Macrostore jumps: what a pending request is, and the frame that both share (spec/47_macrostore.md R484
to R486). -/

open Sys2Proof Sys2Proof.Machine

namespace Sys2Proof.Machine

theorem State.pending_eq (s : State) :
    s.pending = (s.nmiPending || (s.pins.intreq && decide (s.pins.ic.toNat ≤ s.st.toNat % 16))) := by
  rw [State.pending, stIntMask_toNat]

/-- Inside Macrostore a jump goes on where its condition says. -/
theorem macrostoreJump_answers {s : State} (hc : s.calm) (hm : s.inMs = true) (cond : State → Bool) (d : Byte) :
    let u := if cond s then s.withPc (Word.even (BitVec.ofInt 16 (s.pc.toNat + 2 * d.toInt))) else s
    Answers (macrostoreJump cond d s) u u.latched := by
  simp only [macrostoreJump, gets_bind, hm, if_true, M.ite_apply, add_dispBytes]
  split
  · exact continueAt_answers hc _
  · exact prefetchNext_answers hc

end Sys2Proof.Machine

/-- Settles O44: both jumps have one frame, with their conditions on the pending request. -/
theorem macrostoreJumps : Obligations.MacrostoreJumps := by
  intro d s hc hm pending target u v
  have hpending : s.pending = pending := s.pending_eq
  have hjip := macrostoreJump_answers hc hm State.pending d
  have hjnep := macrostoreJump_answers hc hm (fun t => !stBit t.st 2 && !t.pending) d
  simp only [hpending] at hjip hjnep
  exact ⟨rfl, hjip.reaches rfl, rfl, hjnep.reaches rfl⟩

end

section
/-! SUPPORT. The returns inside Macrostore: the three that leave it by one exit, and the one that stays
(spec/47_macrostore.md R488 to R492). -/

open Sys2Proof Sys2Proof.Machine

namespace Sys2Proof.Machine

section
variable {s : State} (hc : s.calm) (hm : s.inMs = true) (hr : ∀ r, 13#4 ≤ r → s.reads (s.regLoc r))
include hc hm hr

theorem readSavedContext_macrostore :
    readSavedContext s = .ok ((s.wr 14#4, s.wr 15#4, s.wr 13#4), s) := by
  simp only [readSavedContext, M.bind_ok (readRegHigh_macrostore hc hm (hr 14#4 (by decide))),
    M.bind_ok (readRegHigh_macrostore hc hm (hr 15#4 (by decide))),
    M.bind_ok (readRegHigh_macrostore hc hm (hr 13#4 (by decide))), M.pure_apply]

/-- >0380 and >0384 leave by the common exit, and then set the latches of the next boundary. -/
theorem exec_rtwpExit_calm : exec .rtwpExit s = .next ((s.left.withLdf 0b111#3).withInhibit .none) := by
  refine outcome_ok ?_
  rw [gets_bind, if_pos hm, M.bind_ok (macrostoreExit_calm hc hm hr), update_apply]

theorem exec_rtwpQuiet_calm : exec .rtwpQuiet s = .next (s.left.withInhibit .all) := by
  refine outcome_ok ?_
  rw [gets_bind, if_pos hm, M.bind_ok (macrostoreExit_calm hc hm hr), update_apply]

/-- >0381 loads WP, PC and all of ST, and goes on inside Macrostore. -/
theorem exec_rtwpStay_reaches :
    let u := ((s.withSt (s.wr 15#4)).withWp (s.wr 13#4).even).withPc (s.wr 14#4).even
    Reaches (exec .rtwpStay s) u fun t => t = u.latched := by
  intro u
  refine Answers.reaches (t := u.latched) ?_ rfl
  rw [gets_bind, if_pos hm, M.bind_ok (readSavedContext_macrostore hc hm hr)]
  dsimp only
  rw [M.bind_ok (busCycle_calm hc), updateSt_bind, setWp_bind]
  exact continueAt_answers (by simpa using hc) _

/-- >0382 leaves with ILLOP set, and the level-2 trap saves the context it has just restored. -/
theorem macrostoreExitIllop_calm :
    macrostoreExitIllop s =
      contextSwitch 0x0008#16 1#4 (((s.left.withIllop true).withLdf 0b111#3).withInhibit .none) := by
  have hexit : macrostoreExit (s.withIllop true) = .ok ((), (s.withIllop true).left) :=
    macrostoreExit_calm (by simpa using hc) hm hr
  rw [macrostoreExitIllop, update_bind, M.bind_ok hexit, update_bind, gets_bind, illopTrap_eq]
  rfl

theorem exec_rtwpIllop_switched : ∃ t, exec .rtwpIllop s = .next t ∧
    Switched (((s.left.withIllop true).withLdf 0b111#3).withInhibit .none) t 0x0008#16 1#4 := by
  obtain ⟨t, hrun, hsw⟩ := contextSwitch_switched (s := ((s.left.withIllop true).withLdf 0b111#3).withInhibit .none)
    (by simpa [State.left] using hc) rfl 0x0008#16 1#4
  refine ⟨t, outcome_ok ?_, hsw⟩
  rw [gets_bind, if_pos hm, macrostoreExitIllop_calm hc hm hr, hrun]

end

end Sys2Proof.Machine

/-- Settles O45: each return by what it restores. -/
theorem macrostoreReturns : Obligations.MacrostoreReturns := fun _ hc hm hr =>
  ⟨rfl, exec_rtwpExit_calm hc hm hr, rfl, exec_rtwpQuiet_calm hc hm hr, rfl, exec_rtwpStay_reaches hc hm hr, rfl,
    exec_rtwpIllop_switched hc hm hr⟩

end

section
/-! SUPPORT. Which instructions keep the processor inside Macrostore, on every bus: all but the three exits
(spec/47_macrostore.md R488 to R492). -/

open Sys2Proof Sys2Proof.Machine

namespace Sys2Proof.Machine

/-- The processor executes from Macrostore. -/
def InMacrostore (s : State) : Prop := s.inMs = true

theorem inMacrostore_steady : Steady InMacrostore := steady_inMs true
theorem inMacrostore_lenient : Lenient InMacrostore := fun _ => id
theorem inMacrostore_stFree : StFree InMacrostore := fun _ _ => id
theorem inMacrostore_wpFree : WpFree InMacrostore := fun _ _ => id

/-- What is refused inside Macrostore. -/
theorem inMacrostore_refused {r : Refusal} {m : M Unit} :
    Keeps InMacrostore (do if ← gets State.inMs then refuse r else m) :=
  .gets_of (· = true) (fun _ h => h) fun _ ha => .ite (fun _ => .refuse r) fun hn => absurd ha hn

/-- What only Macrostore has a meaning of its own for. -/
theorem inMacrostore_body {m n : M Unit} (h : Keeps InMacrostore m) :
    Keeps InMacrostore (do if ← gets State.inMs then m else n) :=
  .gets_of (· = true) (fun _ hs => hs) fun _ ha => .ite (fun _ => h) fun hn => absurd ha hn

theorem inMacrostore_raiseMid (w : Word) (kind : MidKind) : Keeps InMacrostore (raiseMid w kind) :=
  ⟨fun _ hs => by rw [raiseMid_macrostore hs]; trivial⟩

section
variable {s : State} (hs : InMacrostore s)
include hs

theorem inMacrostore_loadsWp {i : Instr} (hl : LoadsWp i) : Leaves InMacrostore InMacrostore (exec i s) := by
  have hP := inMacrostore_steady
  have hw := inMacrostore_wpFree
  rcases hl with ⟨p, rfl⟩ | ⟨p, n, rfl⟩ | rfl | ⟨w, rfl⟩ | rfl
  · exact hw.execBlwp_leaves hP hs (fun _ _ => id) p
  · exact Takes.leaves inMacrostore_refused hs
  · exact hw.execLwpi_leaves hP hs
  · exact hw.execLwp_leaves hP hs w
  · exact Takes.leaves inMacrostore_refused hs

/-- A test of memory bits with an autoincrement source is a MID trap, and there is none inside Macrostore. -/
theorem inMacrostore_testsInc {i : Instr} (hi : TestsInc i) : Leaves InMacrostore InMacrostore (exec i s) := by
  have htest (w : Word) (store : Option (Word → Word → Word)) {p : Operand} (hp : p.notInc = false) (n : Nibble) :
      Keeps InMacrostore (testBit w store p n) := by
    rw [testBit, if_neg (by simp [hp])]
    exact inMacrostore_raiseMid _ _
  obtain ⟨p, n, hp, rfl | rfl | rfl⟩ := hi
  · exact Takes.leaves (htest _ _ hp n) hs
  · exact Takes.leaves (htest _ _ hp n) hs
  · exact Takes.leaves (htest _ _ hp n) hs

/-- No instruction of main memory leaves Macrostore. -/
theorem inMacrostore_exec_main {i : Instr} (hm : i.context = .main) :
    Leaves InMacrostore InMacrostore (exec i s) := by
  have hP := inMacrostore_steady
  have hv := inMacrostore_lenient
  have hst := inMacrostore_stFree
  rcases ordinary_or_special hm with ho | hl | ⟨p, rfl⟩ | rfl | ⟨w, rfl⟩ | rfl | rfl | hi
  · exact exec_ordinary hP hv ho hs
  · exact inMacrostore_loadsWp hs hl
  · exact hP.execX_leaves hs (fun _ _ => id) p
  · exact hst.execLimi_leaves hP hs hv
  · exact hst.execLst_leaves hP hs w
  · exact hP.execIdle_leaves hs hv hP (fun _ => id) fun _ ht _ => ht
  · exact hst.execRset_leaves hP hs hv
  · exact inMacrostore_testsInc hs hi

/-- Of the instructions of Macrostore only the exits leave it. -/
theorem inMacrostore_exec_macrostore {i : Instr} (hm : i.context = .macrostore)
    (hi : ¬ (i = .rtwpExit ∨ i = .rtwpIllop ∨ i = .rtwpQuiet)) : Leaves InMacrostore InMacrostore (exec i s) := by
  have hP := inMacrostore_steady
  cases i with
  | rtwpExit | rtwpIllop | rtwpQuiet => exact absurd (by simp) hi
  | jip | jnep => exact exec_ordinary hP inMacrostore_lenient rfl hs
  | evad src =>
    exact Takes.leaves (inMacrostore_body (.read fun _ => .ite (fun _ => .refuse _) fun _ =>
      .ite (fun _ => .refuse _) fun _ => hP.evaluateAddress_keeps src)) hs
  | rtwpStay =>
    exact Takes.leaves (inMacrostore_body (.bind hP.readSavedContext_keeps fun _ => .bind hP.busCycle_keeps fun _ =>
      .bind (.update fun s => inMacrostore_stFree s _) fun _ => .bind (.update fun s => inMacrostore_wpFree s _)
      fun _ => hP.continueAt_keeps _)) hs
  | _ => nomatch hm

/-- No instruction of the TMS99110A's ROM is run inside Macrostore. -/
theorem inMacrostore_exec_rom {i : Instr} (hm : i.context = .rom) : Leaves InMacrostore InMacrostore (exec i s) := by
  cases i with
  | lds | ldd | ar | cir | sr | mr | dr | lr | str | cri | negr | cre | cer | cr | mm =>
    exact Takes.leaves inMacrostore_refused hs
  | _ => nomatch hm

end

end Sys2Proof.Machine

/-- Settles O46: every instruction but the exits keeps the processor inside Macrostore, wherever RESET cuts it. -/
theorem onlyExitsLeaveMacrostore : Obligations.OnlyExitsLeaveMacrostore := by
  intro i s t hs ht hleft
  by_contra hi
  have hstays : Leaves InMacrostore InMacrostore (exec i s) := by
    cases hctx : i.context with
    | main => exact inMacrostore_exec_main hs hctx
    | macrostore => exact inMacrostore_exec_macrostore hs hctx hi
    | rom => exact inMacrostore_exec_rom hs hctx
  have hin : t.inMs = true := hstays.next ht fun _ => id
  exact Bool.false_ne_true (hleft.symm.trans hin)

end

section
/-! SUPPORT. A step on a calm bus runs the instruction that its code bytes decode to, in each of the three contexts
(spec/60_exceptions.md R542). -/

open Sys2Proof Sys2Proof.Machine

namespace Sys2Proof.Machine

/-! ### Opcode words in the instruction stream -/

/-- The instruction at an opcode and the word after PC, with the number of its opcode words. -/
theorem decodes_codeBytes {v : State} {c : Context} {i : Instr} {rest : List Byte}
    (h : decode c v.codeBytes = .ok (i, rest)) :
    (c.first v.nextOpcode = .instr i ∧ (encode i).length = 1) ∨
    ∃ k, c.first v.nextOpcode = .two k ∧ decodeSecond k v.skipWord.streamWord = some i ∧ (encode i).length = 2 := by
  rcases decode_codeBytes h with h1 | ⟨k, h1, h2⟩
  · exact .inl ⟨h1, by rw [(hasWords_of_decodes (.one h1)).2]; rfl⟩
  · exact .inr ⟨k, h1, h2, encode_length_second h2⟩

theorem first_eq_decodeFirst (b : Bool) (w : Word) :
    decodeFirst b w = (if b then Context.macrostore else Context.main).first w := by
  cases b <;> rfl

/-- At the beginning of an instruction the word after the opcode is the one that the sampled inputs find. -/
theorem State.begun_streamWord (s : State) :
    s.begun.skipWord.streamWord = (sampleInputs s).skipWord.streamWord := by
  unfold State.begun; dsimp only; split <;> rfl

theorem State.reads_begun (s : State) (l : Loc) : s.begun.skipWord.reads l ↔ (sampleInputs s).reads l := by
  unfold State.begun; dsimp only; split <;> rfl

theorem State.begun_midRoute (s : State) : s.begun.skipWord.midRoute = (sampleInputs s).midRoute := by
  unfold State.begun; dsimp only; split <;> rfl

/-- A step that runs the next opcode with PC past it runs the instruction that the code bytes decode to. -/
theorem stepIs_decoded {s : State} {i : Instr} {rest : List Byte} {done : State → State} (hc : s.calm)
    (hs : step s = outcome (runAndFinish (sampleInputs s).nextOpcode) s.begun.skipWord)
    (hd : decode (if s.inMs then .macrostore else .main) (sampleInputs s).codeBytes = .ok (i, rest))
    (hr : (encode i).length = 2 → s.begun.skipWord.reads s.begun.skipWord.streamLoc)
    (hdone : ∀ t, done t = if s.inMs then t.withIoInhibit false else t.finished false) :
    StepIs s done (exec i (s.begun.skipWords (encode i).length)) := by
  have hm : s.begun.skipWord.inMs = s.inMs := s.begun_inMs
  rcases decodes_codeBytes hd with ⟨h1, hl⟩ | ⟨k, h1, h2, hl⟩
  all_goals rw [← first_eq_decodeFirst, ← hm] at h1
  · rw [hl]
    exact stepIs_run hs (runOpcode_instr h1) (by simpa only [hm] using hdone)
  · rw [hl]
    exact stepIs_run hs (runOpcode_two (calm_begun hc) (hr hl) h1 (by rw [s.begun_streamWord, h2]))
      (by simpa only [hm] using hdone)

/-- A Macrostore step on a calm bus runs the next opcode with PC past it. -/
theorem step_macrostore_run {s : State} (hr : s.ready) (hm : s.inMs = true)
    (ho : s.prefetch = none → (sampleInputs s).reads s.opcodeLoc) :
    step s = outcome (runAndFinish (sampleInputs s).nextOpcode) s.begun.skipWord := by
  have hl : (sampleInputs s).opcodeLoc = s.opcodeLoc := by simp [State.opcodeLoc, State.space]
  have hfetch := fetchOpcode_calm ((calm_sampleInputs s).2 hr.2) (by simpa [hl] using ho)
  rw [step_unhindered hr.1]
  refine outcome_congr ?_
  rw [gets_bind, sampleInputs_inMs, if_pos hm, M.bind_ok hfetch, State.begun, if_pos hm]
  rfl

/-! ### Extension instructions -/

/-- A MID opcode of main memory that the ROM gives a meaning. -/
theorem rom_first {w : Word} (h : decodeMain w = .mid) : Context.rom.first w = decodeRom w := by
  simp only [Context.first, h]

theorem decodeMain_of_decode_mid {v : State} (h : decode .main v.codeBytes = .error .mid) :
    decodeMain v.nextOpcode = .mid := by
  cases hf : decodeMain v.nextOpcode with
  | mid => rfl
  | instr i => simp [State.codeBytes, decode_of_instr (c := .main) hf] at h
  | undefined => simp [State.codeBytes, decode_of_undefined (c := .main) hf] at h
  | two k =>
    have hk := decode_of_two (c := .main) (v := v.skipWord.streamWord) (rest := []) hf
    rw [List.append_nil] at hk
    rw [State.codeBytes, hk] at h
    cases h2 : decodeSecond k v.skipWord.streamWord <;> simp [h2] at h

theorem decodeSecond_ne_longDistance {k : TwoWord} {w : Word} {i : Instr} (h : decodeSecond k w = some i) :
    ¬ (i = .lds ∨ i = .ldd) := by
  have := encode_length_second h
  rintro (rfl | rfl) <;> cases this

end Sys2Proof.Machine

/-- Settles O12: the boundary lets the next opcode run, and its words decode as the bytes do. -/
theorem stepRunsMainInstruction : Obligations.StepRunsMainInstruction := by
  intro s i rest hr hm hq hd
  exact stepIs_decoded hr.2 (step_main_run hr hm hq) (by simpa [hm] using hd)
    (fun _ => State.reads_streamLoc (s.begun_inMs.trans hm)) (by simp [hm])

/-- Settles O13: as O12, with the reads of the opcode and the second word inside Macrostore. -/
theorem stepRunsMacrostoreInstruction : Obligations.StepRunsMacrostoreInstruction := by
  intro s i rest hr hm ho h2 hd
  refine stepIs_decoded hr.2 (step_macrostore_run hr hm ho) (by simpa [hm] using hd) (fun hl => ?_) (by simp [hm])
  have hloc : s.begun.skipWord.streamLoc = s.skipWord.streamLoc := by
    simp [State.begun, hm, State.streamLoc, State.skipWord, State.space]
  rw [hloc, s.reads_begun]
  exact h2 hl

/-- Settles O14: the opcode is a MID opcode on the route to the ROM, which runs what its own table names. -/
theorem stepRunsExtensionInstruction : Obligations.StepRunsExtensionInstruction := by
  intro s i rest hr hrom hq hmid hd
  obtain ⟨hm, hroute, -⟩ := hrom
  rw [sampleInputs_inMs] at hm
  have hm' : s.begun.skipWord.inMs = false := s.begun_inMs.trans hm
  have hs := step_main_run hr hm hq
  have hdm := decodeMain_of_decode_mid hmid
  have hrun := runOpcode_mid (t := s.begun.skipWord) (v := (sampleInputs s).nextOpcode) (by rw [hm']; exact hdm)
  have hroute' := s.begun_midRoute.trans hroute
  rcases decodes_codeBytes hd with ⟨h1, hl⟩ | ⟨k, h1, h2, hl⟩
  all_goals rw [rom_first hdm] at h1
  · rw [hl, ← keepsLdf_eq]
    exact stepIs_run hs (hrun.trans (runMid_rom_instr hroute' h1)) (by simp [s.begun_inMs, hm])
  · rw [hl]
    refine stepIs_run hs (hrun.trans (runMid_rom_two hroute' h1 (calm_begun hr.2) (State.reads_streamLoc hm')
      (by rw [s.begun_streamWord, h2]))) ?_
    simp [s.begun_inMs, hm, decodeSecond_ne_longDistance h2]

end

section
/-! SUPPORT. The reset sequence; the context switch undone by RTWP; and the requests that an instruction boundary takes,
in their order (spec/60_exceptions.md R542 to R556, R620, spec/70_reset_and_hazards.md R630). -/

open Sys2Proof Sys2Proof.Machine

namespace Sys2Proof.Machine

/-! ### The reset sequence -/

section
variable (s : State) (w : Word)

/-- The state in which the reset sequence saves the old context, in the workspace at a WP. -/
def State.clearedAt : State := s.cleared.withWp w.even

theorem State.clearedAt_mem : (s.clearedAt w).mem = s.mem := by simp [State.clearedAt, State.cleared]
theorem State.clearedAt_ms : (s.clearedAt w).ms = s.ms := by simp [State.clearedAt, State.cleared]
theorem State.clearedAt_st : (s.clearedAt w).st = 0x0000#16 := by simp [State.clearedAt, State.cleared]
theorem State.clearedAt_wp : (s.clearedAt w).wp = w.even := by simp [State.clearedAt, State.cleared]
theorem State.clearedAt_params : (s.clearedAt w).params = s.params := by simp [State.clearedAt, State.cleared]
theorem State.clearedAt_inMs : (s.clearedAt w).inMs = false := by simp [State.clearedAt, State.cleared]
theorem State.clearedAt_control : SameControl ((((((((((s.withInMs false).withIdle false).withApHold false).withMsMode
    s.pins.modeAtReset).withXTarget none).withWr7Ws false).withWr8Ws false).withIoInhibit false).withResetDue false))
    (s.clearedAt w) := by
  simp [SameControl, State.clearedAt, State.cleared]

theorem State.calm_clearedAt : (s.clearedAt w).calm ↔ s.calm := by simp [State.clearedAt, State.cleared]

end

/-- The memories that the reset sequence leaves hold the old context and every other byte. -/
theorem resetSequence_saves {s t : State} {w : Word} (hm : t.mem = ((s.clearedAt w).saving s.wp s.pc s.st).mem)
    (hms : t.ms = ((s.clearedAt w).saving s.wp s.pc s.st).ms) (hp : t.params = s.params) (hst : t.st = 0x0000#16)
    (hw : t.wp = w.even) (hi : t.inMs = false) :
    (t.savedInRam → SavedContext t s.wp s.pc s.st) ∧ SameBytesExcept t s t t.savedLocs := by
  have h0 : stBit 0x0000#16 8 = false := by decide
  have h8 : psel t .ws = psel (s.clearedAt w) .ws := by
    rw [psel_high (by rw [hst, h0]) .ws nofun nofun, psel_high (by rw [s.clearedAt_st, h0]) .ws nofun nofun]
  obtain ⟨hsaved, hbytes⟩ := saved_of hm hms (hp.trans (s.clearedAt_params w).symm) h8
    (hw.trans (s.clearedAt_wp w).symm) (s.clearedAt_inMs w) hi (by rw [s.clearedAt_wp, Word.even_getLsbD_zero])
  refine ⟨hsaved, fun sp a hc => (hbytes sp a hc).trans ?_⟩
  cases sp <;> simp only [State.byteOf, State.clearedAt_mem, State.clearedAt_ms]

/-! ### RTWP after a context switch -/

/-- With ST8 at 0 a return reads the registers of its workspace. -/
theorem mainWord_regAddr {t : State} (hi : t.inMs = false) (h8 : stBit t.st 8 = false) (r : Nibble) :
    t.mainWord true .ws (t.regAddr r) = t.wr r := by
  simp only [State.wr, State.regLoc_main hi, State.wordAt, psel_high h8 .ws nofun nofun]

/-! ### The requests -/

theorem internalRequest_iff (s : State) :
    s.internalRequest = true ↔ 2 ≤ s.st.toNat % 16 ∧ (s.af = true ∨ s.privop = true) := by
  simp [State.internalRequest, stIntMask_toNat]

theorem externalRequest_iff (s : State) :
    s.externalRequest = true ↔ s.pins.intreq = true ∧ s.pins.ic.toNat ≤ s.st.toNat % 16 := by
  simp [State.externalRequest, stIntMask_toNat]

/-- A boundary that comes to a context switch. -/
theorem step_switched {s v w : State} {vec : Word} {mask : BitVec 4} (hr : s.ready) (hm : s.inMs = false)
    (hb : boundary (sampleInputs s) = contextSwitch vec mask v) (hc : v.calm) (hi : v.inMs = false)
    (hw : ∀ t, Switched v t vec mask → Switched w t vec mask) :
    ∃ t, step s = .next t ∧ Switched w t vec mask := by
  obtain ⟨t, hrun, ht⟩ := contextSwitch_switched hc hi vec mask
  exact ⟨t, (step_main hr.1 hm).trans (outcome_ok (hb.trans hrun)), hw t ht⟩

end Sys2Proof.Machine

/-- Settles O4: the sequence on a calm bus, and the memories that its stores leave. -/
theorem resetSequenceSavesAndClears : Obligations.ResetSequenceSavesAndClears := by
  refine ⟨fun s hs => ?short, fun s hr hh hc => ?full⟩
  case short =>
    simp [step, outcome, cycle, hs]
  case full =>
    have hcc := (s.calm_clearedAt (s.mainWord true .inta 0x0000#16)).2 hc
    have hrun : step s = _ :=
      (step_reset hr).trans (outcome_ok ((resetStep_released hh).trans (resetSequence_calm hc)))
    dsimp only at hrun
    rw [← State.clearedAt] at hrun
    obtain ⟨n, hn⟩ : ∃ n, n = (s.clearedAt (s.mainWord true .inta 0x0000#16)).saving s.wp s.pc s.st := ⟨_, rfl⟩
    have hcontrol := (s.clearedAt_control _).trans (SameControl.saving hcc s.wp s.pc s.st)
    have hst : n.st = 0x0000#16 := by rw [hn, saving_st, State.clearedAt_st]
    have hwp : n.wp = (s.mainWord true .inta 0x0000#16).even := by rw [hn, saving_wp, State.clearedAt_wp]
    rw [← hn] at hrun hcontrol
    generalize ht : State.latched _ = t at hrun
    rw [SameControl] at hcontrol
    obtain ⟨hsaved, hbytes⟩ := resetSequence_saves (s := s) (t := t)
      (w := s.mainWord true .inta 0x0000#16) (by simp [← ht, hn]) (by simp [← ht, hn])
      (by simp [← ht, hcontrol]) (by simp [← ht, hst]) (by simp [← ht, hwp]) (by simp [← ht, hcontrol])
    refine ⟨t, hrun, ?wp, ?pc, hsaved, hbytes, ?rest⟩
    case wp => simp [← ht, hwp]
    case pc => simp [← ht]
    case rest => simp [← ht, hst, hcontrol]

/-- Settles O52: the switch is what `contextSwitch_switched` says, and the registers it saved the context in are those
that RTWP reads, ST7 being 0. -/
theorem contextSwitchAndItsReturn : Obligations.ContextSwitchAndItsReturn := by
  refine ⟨fun s vec mask hc hm => contextSwitch_switched hc hm vec mask,
    fun s t vec mask hc hm hpc hwp ht hram => ?_⟩
  obtain ⟨t', ht', -, -, -, -, hsaved, -, hst, -, hcontrol⟩ := contextSwitch_switched hc hm vec mask
  cases ht.symm.trans ht'
  obtain ⟨h13, h14, h15⟩ := hsaved hram
  have htm : t.inMs = false := hcontrol.inMs.trans hm
  have htc : t.calm := hc.of_eq hcontrol.bus hcontrol.params
  have h7 : stBit t.st 7 = false := hst 7 (by decide)
  have h8 : stBit t.st 8 = false := hst 8 (by decide)
  refine ⟨_, (rtwpRestoresContext t htc htm).2, ?_, ?_, ?_, rfl, ?_⟩
  · exact (congrArg Word.even ((mainWord_regAddr htm h8 14#4).trans h14)).trans (Word.even_of_getLsbD_zero hpc)
  · exact (congrArg Word.even ((mainWord_regAddr htm h8 13#4).trans h13)).trans (Word.even_of_getLsbD_zero hwp)
  · have hword := (mainWord_regAddr htm h8 15#4).trans h15
    simp [h7, hword]
  · exact congrArg some (opcodeWord_congr rfl rfl rfl rfl rfl rfl)

/-- Settles O53: the boundary looks at NMI, then at the internal and then at the external request, each as far as the
inhibit admits it. -/
theorem interruptsAreTakenByPriority : Obligations.InterruptsAreTakenByPriority := by
  refine ⟨fun s => ?sampling, fun s hr hm => ?boundary⟩
  case sampling =>
    have hif (p : Prop) [Decidable p] (u : State) (m : MsMode) :
        (if p then u.withMsMode m else u) = u.withMsMode (if p then m else u.msMode) := by
      split <;> rfl
    exact hif _ _ _
  case boundary =>
    intro u v nmi enabled internal external
    have hc : v.calm := by simpa [v, u] using hr.2
    have hvm : v.inMs = false := by simpa [v, u] using hm
    have hquiet (h1 : u.inhibit = .all ∨ u.nmiPending = false)
        (h2 : u.inhibit ≠ .none ∨ (u.internalRequest = false ∧ u.externalRequest = false)) :
        step s = outcome (if u.idle then idleStep else fetchAndRun) v :=
      (step_main hr.1 hm).trans (outcome_congr (boundary_quiet h1 h2))
    have hnmi (h : ¬ nmi) : u.inhibit = .all ∨ u.nmiPending = false := by
      simpa only [nmi, not_and_or, not_not, Bool.not_eq_true] using h
    have hpending (h : ¬ nmi) (hn : u.inhibit = .none) : u.nmiPending = false :=
      (hnmi h).resolve_left (by simp [hn])
    have hint (h : ¬ internal) (hn : u.inhibit = .none) : u.internalRequest = false :=
      Bool.eq_false_iff.2 fun hi => h ⟨⟨hn, ((internalRequest_iff u).1 hi).1⟩, ((internalRequest_iff u).1 hi).2⟩
    have hext (h : ¬ external) (hn : u.inhibit = .none) : u.externalRequest = false :=
      Bool.eq_false_iff.2 fun he => h ⟨hn, (externalRequest_iff u).1 he⟩
    refine ⟨fun h => ?nmi, fun h hi => ?internal, fun h hi he => ?external, fun h hi he => hquiet (hnmi h) ?none,
      fun h => hquiet (.inl h) (.inl (by simp [h])), fun h hp => hquiet (.inr hp) (.inl (by simp [h]))⟩
    case nmi =>
      exact step_switched hr hm (boundary_nmi h.1 h.2) hc hvm fun t ht =>
        ht.congr hvm hvm rfl rfl rfl rfl rfl rfl (SameControl.refl _)
    case internal =>
      obtain ⟨⟨hn, hmask⟩, hflag⟩ := hi
      exact step_switched hr hm (boundary_internal hn (hpending h hn) ((internalRequest_iff u).2 ⟨hmask, hflag⟩)) hc hvm
        fun _ => id
    case external =>
      obtain ⟨hn, hreq, hlevel⟩ := he
      rw [← newMask_eq, ← vector_eq]
      exact step_switched hr hm (boundary_external hn (hpending h hn) (hint hi hn)
        ((externalRequest_iff u).2 ⟨hreq, hlevel⟩)) hc hvm fun _ => id
    case none =>
      exact or_iff_not_imp_left.2 fun hn => ⟨hint hi (not_not.1 hn), hext he (not_not.1 hn)⟩

end

section
/-! SUPPORT. MID traps: the step that raises one, the accept by an attached processor, and the completion of the
instruction after them; with these the statements on baseline mode and on an attached processor are settled
(spec/60_exceptions.md R559, R570 to R575, R586 to R590). -/

open Sys2Proof Sys2Proof.Machine

namespace Sys2Proof.Machine

/-! ### The step that raises a MID trap -/

/-- The next opcode, read ahead or at PC on a calm bus, comes to run. -/
theorem comesToRun_next {s : State} (hr : s.ready) (hm : s.inMs = false) (hq : (sampleInputs s).quiet) :
    s.comesToRun s.begun.skipWord (sampleInputs s).nextOpcode := by
  obtain ⟨⟨h1, h2, h3, h4, h5⟩, hc⟩ := hr
  refine ⟨h1, h2, h3, h4, .inr ⟨h5, fun _ => hq, rfl, ?_⟩⟩
  cases hp : s.prefetch with
  | some w => exact .inl (by simp [State.nextOpcode, hp])
  | none =>
    exact .inr ⟨rfl, hc, State.reads_main (by simp [State.opcodeLoc, State.space, hm]), by simp [State.nextOpcode, hp]⟩

/-- The word after the opcode, before and after the inputs are sampled. -/
theorem State.begun_streamWord_eq (s : State) : s.begun.skipWord.streamWord = s.skipWord.streamWord := by
  have h := sampleInputs_eq s
  obtain ⟨_, _, _, h⟩ := h
  rw [s.begun_streamWord, h]
  rfl

section
variable {s : State} (hr : s.ready) (hm : s.inMs = false) (hq : (sampleInputs s).quiet)
include hr hm hq

/-- A step on a MID opcode that the ROM is not asked about. -/
theorem step_mid_first (hd : decode .main (sampleInputs s).codeBytes = .error .mid)
    (hroute : (sampleInputs s).midRoute ≠ .rom) :
    step s = outcome (do
      raiseMid (sampleInputs s).nextOpcode .first
      finish (isLongDistance (sampleInputs s).nextOpcode)) s.begun.skipWord := by
  have h := (latchedOpcodesRun s _ _ _ _ 0 (comesToRun_next hr hm hq)).2 (by decide) ⟨rfl, rfl⟩
  obtain ⟨-, -, -, -, hmid⟩ := h
  exact (hmid hm (by rw [hm]; exact decodeMain_of_decode_mid hd)).1 (by rw [s.begun_midRoute]; exact hroute)

/-- A step on an illegal second word. -/
theorem step_mid_second (hd : decode .main (sampleInputs s).codeBytes = .error .midSecond) :
    step s = outcome (do
      raiseMid s.skipWord.streamWord (.second (sampleInputs s).nextOpcode)
      finish false) s.begun.skipWord.skipWord := by
  have h := (latchedOpcodesRun s _ _ _ _ 0 (comesToRun_next hr hm hq)).2 (by decide) ⟨rfl, rfl⟩
  obtain ⟨-, -, htwo, -⟩ := h
  obtain ⟨k, hk, hn⟩ := decode_eq_midSecond_iff.1 hd
  have hw : (sampleInputs s).skipWord.streamWord = s.skipWord.streamWord :=
    s.begun_streamWord.symm.trans s.begun_streamWord_eq
  have h2 := (htwo k (by rw [hm]; exact hk) (calm_begun hr.2)
    (State.reads_streamLoc (s.begun_inMs.trans hm))).2
  rw [s.begun_streamWord, hw] at h2
  exact (h2 (hw ▸ hn)).2 hm

end

/-! ### The hardware's part of LDS and LDD -/

theorem ldfHardware_apply (w : Word) (s : State) : ldfHardware w s = .ok ((), s.withLdf (ldfAfter w s.ldf)) := by
  have hlds : ∀ f, ldfAfterLds f = BitVec.ofBool f[2] ++ BitVec.ofBool (f[1] && f[0]) ++ 0#1 := by decide
  have hldd : ∀ f, ldfAfterLdd f = 0#1 ++ BitVec.ofBool (f[1] && f[0]) ++ BitVec.ofBool f[0] := by decide
  simp only [ldfHardware, update_apply, ldfAfter, hlds, hldd]
  split
  · rfl
  · split <;> rfl

theorem isLongDistance_iff (w : Word) : isLongDistance w = true ↔ w = 0x0780#16 ∨ w = 0x07C0#16 := by
  simp [isLongDistance]

/-- The state in which a MID trap goes its way. -/
def State.midTrapped (s : State) (w : Word) (kind : MidKind) : State :=
  if kind = .first then s.withLdf (ldfAfter w s.ldf) else s

theorem State.midTrapped_eq (s : State) (w : Word) (kind : MidKind) :
    s.midTrapped w kind = s.withLdf (if kind = .first then ldfAfter w s.ldf else s.ldf) := by
  unfold State.midTrapped; split <;> rfl

/-- What a MID trap comes to on each route (spec/60_exceptions.md R570). -/
def midWay (w : Word) (kind : MidKind) (upc : Word) : MidRoute → M Unit
  | .baseline => illopTrap upc
  | .attached => apAccept upc
  | .rom => romUnimplemented w kind upc
  | .macrostore => macrostoreEntry w kind upc (msRead (entryVector w kind))

/-- A MID trap in main memory goes its way with the flags advanced. -/
theorem raiseMid_main {s : State} (hm : s.inMs = false) {r : MidRoute} (hr : s.midRoute = r) (w : Word)
    (kind : MidKind) : raiseMid w kind s = midWay w kind (midSavedPc s.pc kind) r (s.midTrapped w kind) := by
  subst hr
  unfold raiseMid
  rw [gets_bind, hm]
  by_cases hk : kind = .first
  · simp only [hk, State.midTrapped, if_true, Bool.false_eq_true, if_false, M.bind_ok (ldfHardware_apply w s), gets_bind]
    rfl
  · simp only [hk, State.midTrapped, Bool.false_eq_true, if_false, gets_bind]
    cases s.midRoute <;> rfl

/-! ### The completion of an instruction that has trapped -/

/-- With ST10 at 0 the completion sets no error flag. -/
theorem finished_eq {t : State} (hm : t.inMs = false) (hh : t.apHold = false) (h10 : stBit t.st 10 = false)
    (keep : Bool) : t.finished keep = (t.withIoInhibit false).withLdf (if keep then t.ldf else 0b111#3) := by
  simp only [State.finished, hm, hh, h10, Bool.or_self, Bool.and_false, Bool.or_false, Bool.false_eq_true, if_false]
  rfl

/-- While Macrostore or an attached processor goes on the completion ends the I/O write inhibit alone. -/
theorem finished_going_on {t : State} (h : t.inMs = true ∨ t.apHold = true) (keep : Bool) :
    t.finished keep = t.withIoInhibit false := by
  rcases h with h | h <;> simp [State.finished, h]

theorem SameControl.withLdf {s t : State} (h : SameControl s t) (f : BitVec 3) :
    SameControl (s.withLdf f) (t.withLdf f) := by
  simp_all [SameControl]

theorem SameControl.withIoInhibit {s t : State} (h : SameControl s t) (b : Bool) :
    SameControl (s.withIoInhibit b) (t.withIoInhibit b) := by
  simp_all [SameControl]

theorem SameControl.apHold {s t : State} (h : SameControl s t) : t.apHold = s.apHold := by simp_all [SameControl]

theorem SameControl.withApHold {s t : State} (h : SameControl s t) (b : Bool) :
    SameControl (s.withApHold b) (t.withApHold b) := by
  simp_all [SameControl]

/-- What the completion of an instruction may change besides AF: the I/O write inhibit off, and the long-distance
flags. -/
def State.settled (s : State) (f : BitVec 3) : State := (s.withIoInhibit false).withLdf f

theorem SameControl.settled {s t : State} (h : SameControl s t) (f : BitVec 3) :
    SameControl (s.settled f) (t.settled f) := (h.withIoInhibit false).withLdf f

section
variable (t : State) (f : BitVec 3)

theorem State.settled_covers (r : Nibble) (sp : Space) (a : Nat) :
    (t.settled f).covers (t.regLoc r) sp a ↔ t.covers (t.regLoc r) sp a := Iff.rfl

theorem State.settled_savedInRam : (t.settled f).savedInRam ↔ t.savedInRam := by
  simp only [State.savedInRam, State.savedLocs, List.mem_cons, List.not_mem_nil, or_false, forall_eq_or_imp, forall_eq]
  rfl

theorem State.settled_wr (r : Nibble) : (t.settled f).wr r = t.wr r := wr_congr rfl rfl rfl rfl rfl rfl r

/-- The saved context lies where it lay. -/
theorem State.settled_saved {s : State} {wp pc st : Word}
    (h : (t.savedInRam → SavedContext t wp pc st) ∧ SameBytesExcept t s t t.savedLocs) :
    ((t.settled f).savedInRam → SavedContext (t.settled f) wp pc st) ∧
      SameBytesExcept (t.settled f) s (t.settled f) (t.settled f).savedLocs := by
  refine ⟨fun hr => ?_, fun sp a hc => h.2 sp a fun l hl => ?_⟩
  · simpa only [SavedContext, t.settled_wr] using h.1 ((t.settled_savedInRam f).1 hr)
  · have hu := hc l hl
    simp only [State.savedLocs, List.mem_cons, List.not_mem_nil, or_false] at hl
    rcases hl with rfl | rfl | rfl <;> exact fun h => hu ((t.settled_covers f _ sp a).2 h)

theorem State.settled_opcodeWord : (t.settled f).opcodeWord = t.opcodeWord := opcodeWord_congr rfl rfl rfl rfl rfl rfl

end

theorem Switched.settled {s t : State} {vec : Word} {mask : BitVec 4} (h : Switched s t vec mask) (hm : s.inMs = false)
    (f : BitVec 3) : Switched (s.settled f) (t.settled f) vec mask := by
  obtain ⟨hwp, hpc, hmem, hms, hsaved, hbytes, hst, hpre, hcontrol⟩ := h
  obtain ⟨hsaved, hbytes⟩ := t.settled_saved f ⟨hsaved, hbytes⟩
  refine ⟨hwp, hpc, hmem.trans ?_, hms, hsaved, hbytes, hst, hpre.trans (congrArg some (t.settled_opcodeWord f).symm),
    hcontrol.settled f⟩
  apply saving_mem_congr <;> simp [State.settled, State.mainWord, hm]

theorem Accepted.settled {s t : State} {pc : Word} (h : Accepted s t pc) (hm : s.inMs = false) (f : BitVec 3) :
    Accepted (s.settled f) (t.settled f) pc := by
  obtain ⟨hwp, hpc, hmem, hms, hsaved, hbytes, hst, hpre, hcontrol⟩ := h
  obtain ⟨hsaved, hbytes⟩ := t.settled_saved f ⟨hsaved, hbytes⟩
  refine ⟨hwp, hpc, hmem.trans ?_, hms, hsaved, hbytes, hst, hpre, hcontrol.settled f⟩
  apply saving_mem_congr <;> simp [State.settled, State.mainWord, hm]

/-- A context switch from main memory, completed. -/
theorem Switched.finished {s t : State} {vec : Word} {mask : BitVec 4} (h : Switched s t vec mask)
    (hm : s.inMs = false) (hh : s.apHold = false) (keep : Bool) :
    Switched (s.settled (if keep then s.ldf else 0b111#3)) (t.finished keep) vec mask := by
  have hs := h.settled hm (if keep then s.ldf else 0b111#3)
  obtain ⟨-, -, -, -, -, -, hst, -, hcontrol⟩ := h
  rw [finished_eq (hcontrol.inMs.trans hm) (hcontrol.apHold.trans hh) (hst 10 (by decide)), hcontrol.ldf]
  exact hs

/-- An accept by an attached processor, completed. -/
theorem Accepted.finished {s t : State} {pc : Word} (h : Accepted s t pc) (hm : s.inMs = false) (keep : Bool) :
    Accepted (s.withIoInhibit false) (t.finished keep) pc := by
  have hs := h.settled hm s.ldf
  obtain ⟨-, -, -, -, -, -, -, -, hcontrol⟩ := h
  rw [finished_going_on (.inr hcontrol.apHold)]
  have hldf : t.ldf = s.ldf := hcontrol.ldf
  have hl : t.settled s.ldf = t.withIoInhibit false := by rw [State.settled, ← hldf]; rfl
  rw [← hl]
  exact hs

/-- What the trap answers is completed. -/
theorem outcome_finish {m : M Unit} {s t : State} (h : m s = .ok ((), t)) (keep : Bool) :
    outcome (do m; finish keep) s = .next (t.finished keep) :=
  outcome_ok ((M.bind_ok h).trans (finish_apply t keep))

/-! ### An accept by an attached processor -/

/-- An accept leaves what the statements say of one. -/
theorem apAccept_accepted {s : State} (hc : s.calm) (h : s.inMs = false) (pc : Word) :
    ∃ t, apAccept pc s = .ok ((), t) ∧ Accepted s t pc := by
  obtain ⟨n, hn⟩ : ∃ n, n = ((s.withPrefetch none).withSt (stSet s.st 8 false)).withWp
    (s.mainWord true .inta 0x0008#16).even := ⟨_, rfl⟩
  obtain ⟨t, ht⟩ : ∃ t, t = n.saving s.wp pc s.st := ⟨_, rfl⟩
  have hrun : apAccept pc s = .ok ((), t.withApHold true) := by rw [ht, hn]; exact apAccept_calm hc h pc
  have hnst : n.st = stSet s.st 8 false := by rw [hn]; rfl
  have hnwp : n.wp = (s.mainWord true .inta 0x0008#16).even := by rw [hn]; rfl
  have hnm : n.inMs = false := by rw [hn]; exact h
  have hnc : n.calm := by rw [hn]; exact hc
  have hn8 : stBit n.st 8 = false := by simp [hnst, stBit_stSet]
  have hst : t.st = n.st := by rw [ht, saving_st]
  have hwp : t.wp = n.wp := by rw [ht, saving_wp]
  have htm : t.inMs = false := by rw [ht, saving_inMs, hnm]
  have hpsel : psel (t.withApHold true) .ws = psel n .ws := by
    rw [psel_high (by rw [State.withApHold_st, hst, hn8]) .ws nofun nofun, psel_high hn8 .ws nofun nofun]
  obtain ⟨hsaved, hbytes⟩ := saved_of (n := n) (t := t.withApHold true) (a := s.wp) (b := pc) (c := s.st)
    (by rw [State.withApHold_mem, ht]) (by rw [State.withApHold_ms, ht]) (by rw [State.withApHold_params, ht,
    saving_params]) hpsel hwp hnm htm (by rw [hnwp, Word.even_getLsbD_zero])
  have hcontrol : SameControl n t := ht ▸ SameControl.saving hnc s.wp pc s.st
  refine ⟨t.withApHold true, hrun, hwp.trans hnwp, ?pc, ?mem, ?ms, hsaved, fun sp a hx => ?bytes, ?status, ?pre,
    ?control⟩
  case pc => simp [ht, hn]
  case mem =>
    rw [State.withApHold_mem, ht]
    apply saving_mem_congr <;> simp [hn, h]
  case ms => rw [State.withApHold_ms, ht, saving_ms hnm, hn]; rfl
  case bytes =>
    rw [hbytes sp a hx, hn]
    cases sp <;> rfl
  case status =>
    rw [State.withApHold_st, hst, hnst]
    exact (StatusIs.refl s.st).set (by decide) rfl false
  case pre => simp [ht, State.saving, hn]
  case control =>
    have hheld := hcontrol.withApHold true
    rw [hn] at hheld
    exact hheld

/-- An accept, and the completion of the instruction. -/
theorem outcome_apAccept {u : State} (hc : u.calm) (hm : u.inMs = false) (pc : Word) (keep : Bool) :
    ∃ t, outcome (do apAccept pc; finish keep) u = .next t ∧ Accepted (u.withIoInhibit false) t pc := by
  obtain ⟨t, hrun, ht⟩ := apAccept_accepted hc hm pc
  exact ⟨_, outcome_finish hrun keep, ht.finished hm keep⟩

/-! ### The level-2 trap -/

/-- The level-2 trap of a MID opcode, and the completion of the instruction. -/
theorem outcome_illopTrap {u : State} (hc : u.calm) (hm : u.inMs = false) (hh : u.apHold = false) (pc : Word)
    (keep : Bool) : ∃ t, outcome (do illopTrap pc; finish keep) u = .next t ∧
      Switched (((u.withPc pc).withIllop true).settled (if keep then u.ldf else 0b111#3)) t 0x0008#16 1#4 := by
  obtain ⟨t, hrun, ht⟩ := contextSwitch_switched (s := (u.withPc pc).withIllop true) hc hm 0x0008#16 1#4
  have hillop : illopTrap pc u = .ok ((), t) := by
    rw [illopTrap, update_bind, contextSwitchSaving_eq (by simpa using hc) (by simpa using hm)]
    exact hrun
  exact ⟨_, outcome_finish hillop keep, ht.finished hm hh keep⟩

/-! ### The way of a trap, completed -/

/-- A trap in main memory is its way, completed. -/
theorem outcome_raiseMid {u : State} (hm : u.inMs = false) {r : MidRoute} (hr : u.midRoute = r) (w : Word)
    (kind : MidKind) (keep : Bool) :
    outcome (do raiseMid w kind; finish keep) u =
      outcome (do midWay w kind (midSavedPc u.pc kind) r; finish keep) (u.midTrapped w kind) :=
  outcome_congr (by rw [M.bind_apply, raiseMid_main hm hr, M.bind_apply])

theorem midRoute_skipWord (u : State) : u.skipWord.midRoute = u.midRoute := rfl

theorem Word.even_add_two (a : Word) : (a.even + 2#16).even = a.even + 2#16 := by
  apply BitVec.eq_of_toNat_eq
  have := a.isLt
  simp only [Word.even_toNat, BitVec.toNat_add, BitVec.toNat_ofNat]
  omega

/-- The address of the second word is the one before PC. -/
theorem midSavedPc_second (u : State) (w : Word) (he : u.pc.even = u.pc) :
    midSavedPc u.skipWord.pc (.second w) = u.pc := by
  rw [midSavedPc, State.skipWord, State.withPc_pc, ← he, Word.even_add_two]
  simp

theorem State.begun_pc_even (s : State) : s.begun.skipWord.pc.even = s.begun.skipWord.pc := Word.even_even _

theorem State.begun_ldf (s : State) : s.begun.ldf = s.ldf := by
  unfold State.begun; dsimp only; split <;> simp

theorem State.begun_apHold (s : State) : s.begun.apHold = s.apHold := by
  unfold State.begun; dsimp only; split <;> simp

section
variable {v : State} (hc : v.calm) (hm : v.inMs = false) (hr : v.midRoute = .attached)
include hc hm hr

/-- An attached processor that answers a MID first word. -/
theorem raise_first_accepted (w : Word) (keep : Bool) :
    ∃ t, outcome (do raiseMid w .first; finish keep) v = .next t ∧
      Accepted ((v.withIoInhibit false).withLdf (ldfAfter w v.ldf)) t v.pc := by
  rw [outcome_raiseMid hm hr]
  exact outcome_apAccept (u := v.withLdf (ldfAfter w v.ldf)) hc hm v.pc keep

/-- An attached processor that answers an illegal second word. -/
theorem raise_second_accepted (he : v.pc.even = v.pc) (w w1 : Word) :
    ∃ t, outcome (do raiseMid w (.second w1); finish false) v.skipWord = .next t ∧
      Accepted (v.skipWord.withIoInhibit false) t v.pc := by
  rw [outcome_raiseMid (u := v.skipWord) hm hr, midSavedPc_second v w1 he]
  exact outcome_apAccept (u := v.skipWord) hc hm v.pc false

end

theorem first_not_longDistance {v : State} (h : decode .main v.codeBytes = .error .midSecond) :
    ¬ (v.nextOpcode = 0x0780#16 ∨ v.nextOpcode = 0x07C0#16) := by
  obtain ⟨k, hk, -⟩ := decode_eq_midSecond_iff.1 h
  rintro (h | h) <;> rw [h] at hk <;> nomatch hk

/-! ### A breakpoint -/

/-- A breakpoint at an opcode fetch gives way to the attached processor (spec/60_exceptions.md R590). -/
theorem fetchAndRun_breakpoint {v : State} (hc : v.calm) (hm : v.inMs = false) (hb : v.breakpoint = true) :
    ∃ t, fetchAndRun v = .ok ((), t) ∧ Accepted (v.withPc v.pc.even) t v.pc := by
  let u := (v.skipWord.withPrefetch none).withPc v.pc.even
  obtain ⟨t, hrun, ht⟩ := apAccept_accepted (s := u) hc hm v.pc
  refine ⟨t, ?_, ht.congr hm hm rfl rfl rfl rfl rfl rfl (by simp [SameControl, u])⟩
  rw [fetchAndRun, gets_bind, M.bind_ok (fetchOpcode_calm hc fun _ => State.reads_opcodeLoc hm), gets_bind,
    if_pos (show (v.skipWord.withPrefetch none).breakpoint = true from hb), setPc_bind]
  exact hrun

theorem idleStep_breakpoint {v : State} (hc : v.calm) (hm : v.inMs = false) (hb : v.breakpoint = true) :
    ∃ t, idleStep v = .ok ((), t) ∧ Accepted (v.withIdle false) t v.pc := by
  obtain ⟨t, hrun, ht⟩ := apAccept_accepted (s := v.withIdle false) hc hm v.pc
  refine ⟨t, ?_, ht⟩
  rw [idleStep, gets_bind, if_pos hb, update_bind, gets_bind]
  exact hrun

/-! ### The hold for an attached processor -/

section
variable {s : State} (hr : s.pins.reset = .inactive) (hd : s.resetDue = false) (hh : s.pins.hold = false)
  (ha : s.apHold = true)
include hr hd hh ha

/-- In the hold a step waits or returns, as APP says (spec/60_exceptions.md R587, R588). -/
theorem step_apHold : step s = outcome (if s.pins.appHigh then apReturn else busCycle) (sampleInputs s) := by
  refine outcome_congr ?_
  simp [cycle, proceed, hr, hd, hh, ha]

end

end Sys2Proof.Machine

/-- Settles O54: the way of the trap in baseline mode is the level-2 trap, from the state in which the flags have been
advanced; two-word opcodes do not advance them. -/
theorem baselineMidTrapsToLevelTwo : Obligations.BaselineMidTrapsToLevelTwo := by
  intro s hr hm hq hb hd w ldf
  have hroute : (sampleInputs s).midRoute = .baseline := (midRoute_baseline_iff _).2 hb
  have hbegun : s.begun.skipWord.inMs = false := s.begun_inMs.trans hm
  have hhold : s.begun.skipWord.apHold = false := s.begun_apHold.trans hr.1.2.2.2.1
  have hc := calm_begun hr.2
  rcases hd with hd | hd
  · rw [step_mid_first hr hm hq hd (by rw [hroute]; nofun),
      outcome_raiseMid hbegun (s.begun_midRoute.trans hroute), State.midTrapped, if_pos rfl]
    obtain ⟨t, hrun, ht⟩ := outcome_illopTrap (u := s.begun.skipWord.withLdf (ldfAfter w s.begun.skipWord.ldf)) hc hbegun
      hhold s.begun.skipWord.pc (isLongDistance w)
    refine ⟨t, hrun, ht.congr hbegun hbegun rfl rfl rfl rfl rfl rfl ?_⟩
    by_cases hw : w = 0x0780#16 ∨ w = 0x07C0#16
    · simp [SameControl, State.settled, ldf, hw, (isLongDistance_iff w).2 hw, s.begun_ldf]
    · have hnot : isLongDistance w = false := Bool.eq_false_iff.2 fun h => hw ((isLongDistance_iff w).1 h)
      simp [SameControl, State.settled, ldf, hw, hnot]
  · have hw : ¬ (w = 0x0780#16 ∨ w = 0x07C0#16) := first_not_longDistance hd
    rw [step_mid_second hr hm hq hd,
      outcome_raiseMid (u := s.begun.skipWord.skipWord) hbegun (s.begun_midRoute.trans hroute), State.midTrapped,
      if_neg nofun, midSavedPc_second _ _ s.begun_pc_even]
    obtain ⟨t, hrun, ht⟩ := outcome_illopTrap (u := s.begun.skipWord.skipWord) hc hbegun hhold s.begun.skipWord.pc false
    refine ⟨t, hrun, ht.congr hbegun hbegun rfl rfl rfl rfl rfl rfl ?_⟩
    simp [SameControl, State.settled, ldf, hw]

/-- Settles O57: every way into the hold is one accept, and the return is read from the workspace it left. -/
theorem attachedProcessorTakesOverAndReturns : Obligations.AttachedProcessorTakesOverAndReturns := by
  refine ⟨fun s pc hc hm => apAccept_accepted hc hm pc, fun w kind s hc hm hr => ?trap, fun src n s hc hm he hr => ?xop,
    fun s hr hm hq hroute => ⟨fun hd => ?first, fun hd => ?second⟩, fun s hr hm hb hu => ⟨fun hi => ?fetch, fun hi => ?idle⟩,
    fun s hr hd hh ha hp => ?waits, fun s hr hd hh ha hm hp hc => ?returns⟩
  case trap =>
    obtain ⟨t, hrun, ht⟩ := apAccept_accepted (s := s.midTrapped w kind) (by rw [State.midTrapped_eq]; exact hc)
      (by rw [State.midTrapped_eq]; exact hm) (midSavedPc s.pc kind)
    refine ⟨t, (raiseMid_main hm hr w kind).trans hrun, ?_⟩
    cases kind <;> exact ht
  case xop =>
    obtain ⟨t, hrun, ht⟩ := apAccept_accepted hc hm s.pc
    refine ⟨t, ?_, ht⟩
    rw [exec_xop_emulated hm he]
    exact outcome_ok ((raiseMid_main hm hr _ _).trans hrun)
  case first =>
    rw [step_mid_first hr hm hq hd (by rw [hroute]; nofun), ← s.begun_ldf]
    exact raise_first_accepted (calm_begun hr.2) (s.begun_inMs.trans hm) (s.begun_midRoute.trans hroute) _ _
  case second =>
    rw [step_mid_second hr hm hq hd]
    exact raise_second_accepted (calm_begun hr.2) (s.begun_inMs.trans hm) (s.begun_midRoute.trans hroute)
      s.begun_pc_even _ _
  case fetch =>
    obtain ⟨t, hrun, ht⟩ := fetchAndRun_breakpoint (v := (sampleInputs s).withInhibit .none) (by simpa using hr.2)
      (by simpa using hm) hb
    rw [State.withInhibit_pc, sampleInputs_pc] at ht
    refine ⟨t, ?_, ht⟩
    rw [step_main hr.1 hm]
    refine outcome_ok ?_
    rw [boundary_quiet hu.1 hu.2, sampleInputs_idle, hi]
    exact hrun
  case idle =>
    obtain ⟨t, hrun, ht⟩ := idleStep_breakpoint (v := (sampleInputs s).withInhibit .none) (by simpa using hr.2)
      (by simpa using hm) hb
    rw [State.withInhibit_pc, sampleInputs_pc] at ht
    refine ⟨t, ?_, ht⟩
    rw [step_main hr.1 hm]
    refine outcome_ok ?_
    rw [boundary_quiet hu.1 hu.2, sampleInputs_idle, hi]
    exact hrun
  case waits =>
    rw [step_apHold hr hd hh ha, hp]
    exact outcome_busCycle _
  case returns =>
    intro word u
    have hword : ∀ r, (sampleInputs s).mainWord true .ws ((sampleInputs s).regAddr r) = word r := fun r => by
      simp [word, State.mainWord, State.regAddr]
    rw [step_apHold hr hd hh ha, hp]
    have hrun := outcome_ok (apReturn_main (s := sampleInputs s) (by simpa using hc) (by simpa using hm))
    simp only [hword, sampleInputs_af] at hrun
    exact hrun

end

section
/-! SUPPORT. Entry to Macrostore by a MID trap: the stores in MRAM as a list, the vector read between them, and the two
ways on from the TMS99110A's ROM; with these the statements on both routes are settled
(spec/60_exceptions.md R571 to R573, spec/47_macrostore.md R491, R495, spec/48_tms99110a_extensions.md R500). -/

open Sys2Proof Sys2Proof.Machine

namespace Sys2Proof.Machine

/-! ### Stores in MRAM from main memory -/

/-- MRAM is RAM wherever Macrostore is enabled (spec/47_macrostore.md R460). -/
theorem msRegion_mram {s : State} (he : s.msMode ≠ .baseline) {a : Word} (ha : a.even.toNat < 0x20) :
    msRegion s a = .ram := by
  cases hm : s.msMode with
  | baseline => exact absurd hm he
  | standard | prototyping => simp only [msRegion, hm, ha, if_true]

theorem msWrite_storing {s : State} (hc : s.calm) (he : s.msMode ≠ .baseline) (l : List (Nibble × Word)) (r : Nibble)
    {a : Word} (ha : a.toNat = 2 * r.toNat) (v : Word) :
    msWrite a v (s.storing l) = .ok ((), s.storing ((r, v) :: l)) := by
  have heven : a.even.toNat = 2 * r.toNat := by rw [Word.even_toNat]; omega
  have hlow : a.even.toNat < 0x20 := by have := r.isLt; omega
  have hram : msRegion (s.storing l) a = .ram := msRegion_mram he hlow
  rw [msWrite_calm (show (s.storing l).calm from hc) (.inl hram)]
  simp only [State.setMsWord, hram, heven]
  rfl

/-- The early save of PC of a trap on a second word (spec/71_bus_sequences.md R701). -/
def MidKind.earlySave (upc : Word) : MidKind → List (Nibble × Word)
  | .second _ => [(14#4, upc)]
  | _ => []

/-- What the entry stores before it reads its vector, the last store first. -/
def State.earlyStores (s : State) (w : Word) (kind : MidKind) (upc : Word) : List (Nibble × Word) :=
  (3#4, wr3Value s.ldf kind) :: (kind.earlySave upc ++ [(5#4, w)])

/-- All that the entry stores (spec/60_exceptions.md R572). -/
def State.entryStores (s : State) (w : Word) (kind : MidKind) (upc : Word) : List (Nibble × Word) :=
  [(15#4, s.st), (14#4, upc), (13#4, s.wp)] ++ s.earlyStores w kind upc

/-- The processor in Macrostore with the user's context stored (spec/60_exceptions.md R572, R573). -/
def State.entered (s : State) (w : Word) (kind : MidKind) (upc : Word) : State :=
  let u := ((s.storing (s.entryStores w kind upc)).withWp 0x0000#16).entering
  (if kind = .xop then u.withSt (clearModes s.st) else u).withPrefetch none

section
variable {s : State} (hc : s.calm) (he : s.msMode ≠ .baseline) (w : Word) (kind : MidKind) (upc : Word)
include hc he

theorem saveSecondPc_storing (l : List (Nibble × Word)) :
    saveSecondPc upc kind (s.storing l) = .ok ((), s.storing (kind.earlySave upc ++ l)) := by
  cases kind with
  | second w1 => exact msWrite_storing hc he l 14#4 rfl upc
  | first | xop => rfl

/-- The entry comes to its vector with the early stores made. -/
theorem macrostoreSave_run (vector : M Word) : macrostoreSave w kind upc vector s = (do
    let newPc ← vector
    msWrite 0x001A#16 s.wp
    msWrite 0x001C#16 upc
    msWrite 0x001E#16 s.st
    busCycle
    setWp 0x0000#16
    update State.entering
    if kind = MidKind.xop then updateSt clearModes
    discardPrefetch
    return newPc) (s.storing (s.earlyStores w kind upc)) := by
  have hw := msWrite_storing hc he
  have h5 : msWrite 0x000A#16 w s = .ok ((), s.storing [(5#4, w)]) := hw [] 5#4 rfl w
  simp only [macrostoreSave, gets_bind]
  rw [M.bind_ok h5, M.bind_ok (saveSecondPc_storing hc he kind upc [(5#4, w)]),
    M.bind_ok (hw _ 3#4 (a := 0x0006#16) rfl _)]
  rfl

/-- All the entry does where the new PC is known. -/
theorem macrostoreSave_ok {vector : M Word} {v : Word}
    (hv : vector (s.storing (s.earlyStores w kind upc)) = .ok (v, s.storing (s.earlyStores w kind upc))) :
    macrostoreSave w kind upc vector s = .ok (v, s.entered w kind upc) := by
  have hw := msWrite_storing hc he
  rw [macrostoreSave_run hc he, M.bind_ok hv, M.bind_ok (hw _ 13#4 (a := 0x001A#16) rfl _),
    M.bind_ok (hw _ 14#4 (a := 0x001C#16) rfl _), M.bind_ok (hw _ 15#4 (a := 0x001E#16) rfl _),
    M.bind_ok (busCycle_calm (by exact hc)), setWp_bind, update_bind]
  by_cases hk : kind = .xop
  · rw [State.entered, if_pos hk, if_pos hk]; rfl
  · rw [State.entered, if_neg hk, if_neg hk]; rfl

theorem macrostoreSave_error {vector : M Word} {e : Stop}
    (hv : vector (s.storing (s.earlyStores w kind upc)) = .error e) :
    macrostoreSave w kind upc vector s = .error e := by
  rw [macrostoreSave_run hc he, M.bind_apply, hv]

end

/-! ### The state entered -/

section
variable (s : State) (w : Word) (kind : MidKind) (upc : Word)

theorem State.entered_ms : (s.entered w kind upc).ms = s.ms.storeRegs (s.entryStores w kind upc) := by
  unfold State.entered; split <;> simp [State.entering, State.storing]
theorem State.entered_mem : (s.entered w kind upc).mem = s.mem := by
  unfold State.entered; split <;> simp [State.entering, State.storing]
theorem State.entered_wp : (s.entered w kind upc).wp = 0x0000#16 := by
  unfold State.entered; split <;> simp [State.entering]
theorem State.entered_pc : (s.entered w kind upc).pc = s.pc := by
  unfold State.entered; split <;> simp [State.entering, State.storing]
theorem State.entered_inMs : (s.entered w kind upc).inMs = true := by
  unfold State.entered; split <;> simp [State.entering]
theorem State.entered_st : (s.entered w kind upc).st = if kind = .xop then clearModes s.st else s.st := by
  unfold State.entered; split <;> simp [State.entering, State.storing]
theorem State.entered_control : SameControl s.entering (s.entered w kind upc) := by
  unfold State.entered; split <;> simp [SameControl, State.entering, State.storing]

theorem State.entered_calm : (s.entered w kind upc).calm ↔ s.calm := by
  unfold State.entered; split <;> simp [State.entering, State.storing]

theorem State.entered_inMram (he : s.msMode ≠ .baseline) : (s.entered w kind upc).InMram :=
  ⟨s.entered_inMs w kind upc, by
    rw [(s.entered_control w kind upc).msMode]; simpa [State.entering] using he, s.entered_wp w kind upc⟩

theorem State.entered_wr (he : s.msMode ≠ .baseline) (r : Nibble) : (s.entered w kind upc).wr r =
    ((s.entryStores w kind upc).lookup r).getD (s.ms.readWord (2 * r.toNat)) := by
  rw [(s.entered_inMram w kind upc he).wr_eq, s.entered_ms, Mem.readWord_storeRegs]

theorem State.entered_read {a : Nat} (ha : a ∉ [6, 7, 10, 11, 26, 27, 28, 29, 30, 31]) :
    Mem.read (s.entered w kind upc).ms a = Mem.read s.ms a := by
  rw [s.entered_ms]
  refine Mem.read_storeRegs_ne s.ms fun p hp => ?_
  have hr : ∀ p ∈ s.entryStores w kind upc, p.1 ∈ [15#4, 14#4, 13#4, 3#4, 5#4] := by
    cases kind <;> simp [State.entryStores, State.earlyStores, MidKind.earlySave]
  have hbytes : ∀ r ∈ [15#4, 14#4, 13#4, 3#4, 5#4], ∀ b ∈ [2 * r.toNat, 2 * r.toNat + 1],
      b ∈ [6, 7, 10, 11, 26, 27, 28, 29, 30, 31] := by decide
  have hb := hbytes _ (hr p hp)
  exact ⟨fun h => ha (h ▸ hb _ (by simp)), fun h => ha (h ▸ hb _ (by simp))⟩

end

theorem StatusIs_clearModes (st : Word) : StatusIs st (clearModes st) modeBitsClear := by
  intro k hk
  rw [stBit_clearModes _ _ hk]
  interval_cases k <;> simp [List.lookup, modeBitsClear]

/-- What the entry leaves, with the flags advanced before it, is what the statements say of one
(spec/60_exceptions.md R572, R573). -/
theorem entered_entered {s : State} (he : s.msMode ≠ .baseline) (w : Word) (kind : MidKind) :
    Entered s ((s.midTrapped w kind).entered w kind (midSavedPc s.pc kind)) w kind s.pc := by
  rw [State.midTrapped_eq]
  generalize hu : s.withLdf (if kind = .first then ldfAfter w s.ldf else s.ldf) = u
  have hwr := u.entered_wr w kind (midSavedPc s.pc kind) (by rw [← hu]; exact he)
  refine ⟨u.entered_inMs .., u.entered_wp .., (u.entered_pc ..).trans (by rw [← hu]; rfl), ?five, ?three,
    ⟨?thirteen, ?fourteen, ?fifteen⟩, fun a ha => ?bytes, (u.entered_mem ..).trans (by rw [← hu]; rfl), ?status, ?control⟩
  case five => rw [hwr]; cases kind <;> rfl
  case three => rw [hwr, ← hu]; cases kind <;> rfl
  case thirteen => rw [hwr, ← hu]; cases kind <;> rfl
  case fourteen => rw [hwr]; cases kind <;> rfl
  case fifteen => rw [hwr, ← hu]; cases kind <;> rfl
  case bytes => rw [State.entered_read _ _ _ _ ha, ← hu]; rfl
  case status =>
    rw [u.entered_st, ← hu]
    split
    · exact StatusIs_clearModes s.st
    · exact StatusIs.refl s.st
  case control =>
    have h := u.entered_control w kind (midSavedPc s.pc kind)
    rw [← hu] at h ⊢
    simpa [SameControl, State.entering] using h

/-! ### Going on in Macrostore -/

theorem Entered.withPc {s t : State} {w pc : Word} {kind : MidKind} (h : Entered s t w kind pc) (a : Word) :
    Entered s (t.withPc a) w kind a := by
  obtain ⟨h1, h2, -, h4, h5, h6, h7, h8, h9, h10⟩ := h
  exact ⟨h1, h2, rfl, h4, h5, h6, h7, h8, h9, h10⟩

theorem Entered.latched {s t : State} {w pc : Word} {kind : MidKind} (h : Entered s t w kind pc) :
    Entered s t.latched w kind pc := by
  obtain ⟨h1, h2, h3, h4, h5, h6, h7, h8, h9, h10⟩ := h
  exact ⟨h1, h2, h3, h4, h5, h6, h7, h8, h9, h10⟩

/-- Which opcode is read ahead, and why it cannot be, depends on PC, the space, the mode and the platform alone. -/
theorem Answers.congr {r : Except Stop (Unit × State)} {v v' t : State} (h : Answers r v t)
    (hl : v.opcodeLoc = v'.opcodeLoc) (hm : v.msMode = v'.msMode) (hp : v.params = v'.params) : Answers r v' t := by
  have hreads : v.reads v.opcodeLoc ↔ v'.reads v'.opcodeLoc := by
    simp only [State.reads, hl, msRegion_of_eq hm hp]
  have hunread : v.unread v.opcodeLoc = v'.unread v'.opcodeLoc := by
    simp only [State.unread, hl, msRegion_of_eq hm hp]
  exact ⟨fun hr => h.1 (hreads.2 hr), fun hr => hunread ▸ h.2 fun hv => hr (hreads.1 hv)⟩

/-- The computation enters Macrostore from `s` at a given PC, where the opcode can be read ahead. -/
def EntersBy (r : Except Stop (Unit × State)) (s : State) (w : Word) (kind : MidKind) (pc : Word) : Prop :=
  ∃ t, Answers r ((s.withInMs true).withPc pc) t ∧ Entered s t w kind pc ∧ t.prefetch = some t.opcodeWord

theorem EntersBy.enters {m : M Unit} {s u : State} {w pc : Word} {kind : MidKind} (h : EntersBy (m u) s w kind pc) :
    Enters (outcome m u) s w kind pc := by
  obtain ⟨t, ht, hdone⟩ := h
  exact ht.reaches hdone

theorem Entered.control {s t : State} {w pc : Word} {kind : MidKind} (h : Entered s t w kind pc) :
    SameControl ((((s.withInMs true).withWr7Ws false).withWr8Ws false).withLdf
      (if kind = .first then ldfAfter w s.ldf else s.ldf)) t := h.2.2.2.2.2.2.2.2.2

/-- The completion of the instruction ends the I/O write inhibit alone. -/
theorem Entered.finished {s t : State} {w pc : Word} {kind : MidKind} (h : Entered s t w kind pc) :
    Entered (s.withIoInhibit false) (t.withIoInhibit false) w kind pc := by
  obtain ⟨h1, h2, h3, h4, h5, h6, h7, h8, h9, h10⟩ := h
  exact ⟨h1, h2, h3, h4, h5, h6, h7, h8, h9, h10.withIoInhibit false⟩

theorem EntersBy.finish {m : M Unit} {s u : State} {w pc : Word} {kind : MidKind} (h : EntersBy (m u) s w kind pc)
    (keep : Bool) : EntersBy ((do m; finish keep : M Unit) u) (s.withIoInhibit false) w kind pc := by
  obtain ⟨t, ht, hdone, hpre⟩ := h
  refine ⟨t.withIoInhibit false, (ht.bind ?_).congr rfl rfl rfl, hdone.finished, hpre⟩
  rw [finish_apply, finished_going_on (.inl hdone.1)]

/-- From Macrostore the first instruction is read ahead and PC goes to it. -/
theorem continueAt_entersBy {s t : State} {w pc0 : Word} {kind : MidKind} (hc : s.calm) (h : Entered s t w kind pc0)
    (a : Word) : EntersBy (continueAt a t) s w kind a.even := by
  have hcontrol := h.control
  have hms : t.msMode = s.msMode := hcontrol.msMode
  have hp : t.params = s.params := hcontrol.params
  have htc : t.calm := hc.of_eq hcontrol.bus hp
  refine ⟨_, (continueAt_answers htc a).congr ?_ hms hp, (h.withPc a.even).latched, by simp⟩
  simp [State.opcodeLoc, State.space, h.1]

/-! ### The route to Macrostore -/

theorem midRoute_midTrapped (s : State) (w : Word) (kind : MidKind) : (s.midTrapped w kind).midRoute = s.midRoute := by
  rw [State.midTrapped_eq]; rfl

/-- The vector of a MID trap (spec/60_exceptions.md R571). -/
def midVector (w : Word) (kind : MidKind) : Loc := { space := .macrostore, addr := entryVector w kind, code := .aums }

theorem entryVector_first (w : Word) :
    entryVector w .first = BitVec.ofNat 16 (0x0800 + 2 * (w.toNat / 256 % 8)) := by
  apply BitVec.eq_of_toNat_eq
  have : (w.extractLsb' 8 3).toNat = w.toNat / 256 % 8 := by
    simp [BitVec.extractLsb'_toNat, Nat.shiftRight_eq_div_pow]
  simp only [entryVector, BitVec.toNat_add, BitVec.toNat_mul, BitVec.toNat_setWidth, BitVec.toNat_ofNat, this]
  omega

/-- Every vector stands at an even address past MRAM. -/
theorem entryVector_bounds (w : Word) (kind : MidKind) :
    (entryVector w kind).toNat % 2 = 0 ∧ 0x20 ≤ (entryVector w kind).toNat := by
  cases kind with
  | first =>
    rw [entryVector_first, BitVec.toNat_ofNat]
    omega
  | second | xop => simp [entryVector]

/-- The vector reads the same after the stores of the entry. -/
theorem msRead_vector {u : State} (hc : u.calm) (w : Word) (kind : MidKind) (l : List (Nibble × Word)) :
    (u.reads (midVector w kind) →
      msRead (entryVector w kind) (u.storing l) = .ok (Mem.readWord u.ms (entryVector w kind).toNat, u.storing l)) ∧
    (¬ u.reads (midVector w kind) →
      msRead (entryVector w kind) (u.storing l) = .error (.refused (u.unread (midVector w kind)))) := by
  obtain ⟨heven, hpast⟩ := entryVector_bounds w kind
  have hread : readLoc (midVector w kind) (u.storing l) = msRead (entryVector w kind) (u.storing l) := rfl
  have hword : (u.storing l).wordAt (midVector w kind) = Mem.readWord u.ms (entryVector w kind).toNat := by
    have ha : (entryVector w kind).even.toNat = (entryVector w kind).toNat := by rw [Word.even_toNat]; omega
    simp only [State.wordAt, midVector, ha]
    exact Mem.readWord_storeRegs_past _ _ hpast
  refine ⟨fun hr => ?_, fun hr => ?_⟩
  · rw [← hread, ← hword]
    exact readLoc_calm (s := u.storing l) hc hr
  · rw [← hread]
    exact readLoc_unread (s := u.storing l) hc hr

/-- All a MID trap on the route to Macrostore does (spec/60_exceptions.md R570, R572). -/
theorem raiseMid_macrostore_entersBy {s : State} (hc : s.calm) (hm : s.inMs = false) (hr : s.midRoute = .macrostore)
    (w : Word) (kind : MidKind) :
    (s.reads (midVector w kind) → EntersBy (raiseMid w kind s) s w kind
      (Mem.readWord s.ms (entryVector w kind).toNat).even) ∧
    (¬ s.reads (midVector w kind) → raiseMid w kind s = .error (.refused (s.unread (midVector w kind)))) := by
  have he : s.msMode ≠ .baseline := midRoute_enabled (by rw [hr]; nofun)
  have hdone := entered_entered he w kind
  have hu := s.midTrapped_eq w kind
  have hrun := raiseMid_main hm hr w kind
  generalize s.midTrapped w kind = u at hdone hu hrun
  have huc : u.calm := by rw [hu]; exact hc
  have hue : u.msMode ≠ .baseline := by rw [hu]; exact he
  have hreads : u.reads (midVector w kind) ↔ s.reads (midVector w kind) := by rw [hu]; rfl
  have hvector := msRead_vector huc w kind (u.earlyStores w kind (midSavedPc s.pc kind))
  rw [hrun]
  refine ⟨fun h => ?_, fun h => ?_⟩
  · have hsave := macrostoreSave_ok huc hue w kind (midSavedPc s.pc kind) (hvector.1 (hreads.2 h))
    have hms : u.ms = s.ms := by rw [hu]; rfl
    rw [midWay, macrostoreEntry, M.bind_ok hsave, hms]
    exact continueAt_entersBy hc hdone _
  · have hsave := macrostoreSave_error huc hue w kind (midSavedPc s.pc kind) (hvector.2 (hreads.not.2 h))
    have hunread : u.unread (midVector w kind) = s.unread (midVector w kind) := by rw [hu]; rfl
    rw [midWay, macrostoreEntry, M.bind_apply, hsave, hunread]

/-- The outcome enters Macrostore from `s` through the vector of the trap, or refuses the read of it
(spec/60_exceptions.md R571, spec/93_implementation_defined.md U10). -/
def EntersThroughVector (o : Host.Outcome State Fault Refusal) (s : State) (w : Word) (kind : MidKind) : Prop :=
  (s.reads (midVector w kind) → Enters o s w kind (Mem.readWord s.ms (entryVector w kind).toNat).even) ∧
  (¬ s.reads (midVector w kind) → o = .refused (s.unread (midVector w kind)))

section
variable {s : State} (hc : s.calm) (hm : s.inMs = false) (hr : s.midRoute = .macrostore) (w : Word) (kind : MidKind)
include hc hm hr

theorem outcome_raiseMid_macrostore : EntersThroughVector (outcome (raiseMid w kind) s) s w kind := by
  obtain ⟨henters, hrefused⟩ := raiseMid_macrostore_entersBy hc hm hr w kind
  exact ⟨fun h => (henters h).enters, fun h => by rw [outcome, hrefused h]⟩

/-- The same with the completion of the instruction. -/
theorem outcome_raiseMid_finish_macrostore (keep : Bool) :
    EntersThroughVector (outcome (do raiseMid w kind; finish keep) s) (s.withIoInhibit false) w kind := by
  obtain ⟨henters, hrefused⟩ := raiseMid_macrostore_entersBy hc hm hr w kind
  refine ⟨fun h => ((henters h).finish keep).enters, fun h => ?_⟩
  rw [outcome, M.bind_apply, hrefused h]
  rfl

end

theorem skipWord_withIoInhibit (s : State) (b : Bool) : (s.withIoInhibit b).skipWord = s.skipWord.withIoInhibit b :=
  rfl

/-- The same past one more opcode word. -/
theorem outcome_raiseMid_second_macrostore {s : State} (hc : s.calm) (hm : s.inMs = false)
    (hr : s.midRoute = .macrostore) (w : Word) (kind : MidKind) (keep : Bool) :
    EntersThroughVector (outcome (do raiseMid w kind; finish keep) s.skipWord) (s.withIoInhibit false).skipWord w kind := by
  rw [skipWord_withIoInhibit]
  exact outcome_raiseMid_finish_macrostore (s := s.skipWord) hc hm ((midRoute_skipWord s).trans hr) w kind keep

end Sys2Proof.Machine

/-- Settles O55: the entry with its vector read, or the refusal of that read; the step and the XOP that raise the trap
end as it does. -/
theorem midTrapEntersMacrostore : Obligations.MidTrapEntersMacrostore := by
  unfold Obligations.MidTrapEntersMacrostore
  intro vector enters
  have hvector : vector = entryVector := by
    funext w kind
    cases kind with
    | first => exact (entryVector_first w).symm
    | second | xop => rfl
  have henters : enters = EntersThroughVector := by
    funext o s w kind
    simp only [enters, hvector]
    rfl
  rw [henters]
  refine ⟨fun w kind s hc hm hr => outcome_raiseMid_macrostore hc hm hr w kind,
    fun s hr hm hq hroute => ⟨fun hd => ?firstWord, fun hd => ?secondWord⟩, fun src n s hc hm he hr => ?emulated⟩
  case firstWord =>
    rw [step_mid_first hr hm hq hd (by rw [hroute]; nofun)]
    exact outcome_raiseMid_finish_macrostore (calm_begun hr.2) (s.begun_inMs.trans hm)
      (s.begun_midRoute.trans hroute) _ _ _
  case secondWord =>
    rw [step_mid_second hr hm hq hd]
    exact outcome_raiseMid_second_macrostore (calm_begun hr.2) (s.begun_inMs.trans hm)
      (s.begun_midRoute.trans hroute) _ _ _
  case emulated =>
    rw [exec_xop_emulated hm he]
    exact outcome_raiseMid_macrostore hc hm hr _ _

end

section
/-! SUPPORT. What the TMS99110A's ROM makes of a MID opcode it does not implement: its own entry, the probe of external
Macrostore, and the two ways on (spec/48_tms99110a_extensions.md R500, spec/47_macrostore.md R491, R495). -/

open Sys2Proof Sys2Proof.Machine

namespace Sys2Proof.Machine

theorem midRoute_rom_standard {s : State} (h : s.midRoute = .rom) : s.msMode = .standard := by
  unfold State.midRoute at h
  split at h
  · nomatch h
  · split at h
    · nomatch h
    · split at h
      case isTrue hr => exact hr.2.1
      case isFalse => nomatch h

/-- At >1000 stands external memory or nothing (spec/47_macrostore.md R460). -/
theorem msRegion_external {s : State} (hm : s.msMode = .standard) : msRegion s 0x1000#16 = extRegion s.params 0x1000 := by
  simp [msRegion, hm, Word.even_toNat]

theorem extRegion_known (p : Params) (n : Nat) : extRegion p n ≠ .mromUnknown := by
  unfold extRegion
  split
  · split <;> nofun
  · nofun

/-- The probe answers whether external Macrostore identifies itself. -/
theorem externalPresent_calm {s : State} (hc : s.calm) (hm : s.msMode = .standard) [Decidable s.externalAnswers] :
    externalPresent s = .ok (decide s.externalAnswers, s) := by
  rw [externalPresent, gets_bind]
  by_cases ha : msRegion s 0x1000#16 = .absent
  · simp [ha, State.externalAnswers]
  · have hread := msRead_calm hc ha (by rw [msRegion_external hm]; exact extRegion_known _ _)
    simp only [ha, decide_false, Bool.false_eq_true, if_false, M.bind_ok hread, State.externalAnswers, ne_eq,
      not_false_eq_true, true_and, M.pure_apply]
    rfl

/-- The user's state where the ROM leaves Macrostore by >0382. -/
def State.exited (m : State) : State := ((m.left.withIllop true).withLdf 0b111#3).withInhibit .none

/-- The computation does what the ROM does for `s` with a MID opcode it does not implement. -/
def PassesOnBy (r : Except Stop (Unit × State)) (s : State) (w : Word) (kind : MidKind) : Prop :=
  (s.externalAnswers → EntersBy r s w kind 0x1002#16) ∧
  (¬ s.externalAnswers → ∃ t m, r = .ok ((), t) ∧ Entered s m w kind 0x0800#16 ∧ Switched m.exited t 0x0008#16 1#4)

theorem PassesOnBy.passesOn {m : M Unit} {s u : State} {w : Word} {kind : MidKind} (h : PassesOnBy (m u) s w kind) :
    RomPassesOn (outcome m u) s w kind := by
  refine ⟨fun ha => (h.1 ha).enters, fun ha => ?_⟩
  obtain ⟨t, v, ht, hv, hsw⟩ := h.2 ha
  exact ⟨t, v, outcome_ok ht, hv, hsw⟩

theorem State.wr_withIoInhibit (m : State) (b : Bool) (r : Nibble) : (m.withIoInhibit b).wr r = m.wr r :=
  wr_congr rfl rfl rfl rfl rfl rfl r

/-- The completion of the instruction after it. -/
theorem PassesOnBy.finish {m : M Unit} {s u : State} {w : Word} {kind : MidKind} (h : PassesOnBy (m u) s w kind)
    (hh : s.apHold = false) :
    PassesOnBy ((do m; finish false : M Unit) u) (s.withIoInhibit false) w kind := by
  refine ⟨fun ha => (h.1 ha).finish false, fun ha => ?_⟩
  obtain ⟨t, v, ht, hv, hsw⟩ := h.2 ha
  have hvh : v.exited.apHold = false := (hv.control.apHold).trans hh
  have hdone := hsw.finished rfl hvh false
  refine ⟨t.finished false, v.withIoInhibit false, (M.bind_ok ht).trans (finish_apply t false), hv.finished,
    hdone.congr ?_ ?_ ?_ ?_ ?_ ?_ ?_ ?_ ?_⟩
  all_goals simp [SameControl, State.settled, State.exited, State.left, State.wr_withIoInhibit]

/-- What the ROM leaves when it is entered. -/
theorem romUnimplemented_passesOn {s : State} (hc : s.calm) (hr : s.midRoute = .rom) {w : Word} {kind : MidKind}
    (hk : ¬ (kind = .first ∧ romUnknown w = true)) :
    PassesOnBy (romUnimplemented w kind (midSavedPc s.pc kind) (s.midTrapped w kind)) s w kind := by
  have hstd := midRoute_rom_standard hr
  have he : s.msMode ≠ .baseline := by rw [hstd]; nofun
  have hdone := entered_entered he w kind
  have hu := s.midTrapped_eq w kind
  generalize s.midTrapped w kind = u at hdone hu
  have huc : u.calm := by rw [hu]; exact hc
  have hue : u.msMode ≠ .baseline := by rw [hu]; exact he
  have hin := u.entered_inMram w kind (midSavedPc s.pc kind) hue
  have hms := u.entered_ms w kind (midSavedPc s.pc kind)
  have hmc := (u.entered_calm w kind (midSavedPc s.pc kind)).2 huc
  have hsave := macrostoreSave_ok huc hue w kind (midSavedPc s.pc kind) (vector := pure 0x0800#16) rfl
  generalize u.entered w kind (midSavedPc s.pc kind) = n at hdone hin hms hmc hsave
  obtain ⟨m, hmdef⟩ : ∃ m, m = n.withPc 0x0800#16 := ⟨_, rfl⟩
  have hdone : Entered s m w kind 0x0800#16 := hmdef ▸ hdone.withPc _
  have hmc : m.calm := hmdef ▸ hmc
  have hmin : m.InMram := hmdef ▸ ⟨hin.inMs, hin.enabled, hin.wp⟩
  have hmode : m.msMode = .standard := hdone.control.msMode.trans hstd
  have hword : Mem.readWord m.ms 0x1000 = Mem.readWord s.ms 0x1000 := by
    rw [hmdef, State.withPc_ms, hms, Mem.readWord_storeRegs_past _ _ (by decide), hu]
    rfl
  have hext : m.externalAnswers ↔ s.externalAnswers := by
    simp only [State.externalAnswers, hword, msRegion_external hmode, msRegion_external hstd, hdone.control.params]
    rfl
  have hrun : romUnimplemented w kind (midSavedPc s.pc kind) u =
      (do if ← externalPresent then continueAt 0x1002#16 else macrostoreExitIllop) m := by
    rw [romUnimplemented, if_neg hk]
    rw [hmdef]
    exact (M.bind_ok hsave).trans (setPc_bind _ _ _)
  classical
  rw [hrun, M.bind_ok (externalPresent_calm hmc hmode)]
  refine ⟨fun ha => ?_, fun ha => ?_⟩
  · rw [if_pos (by simpa [hext] using ha)]
    exact continueAt_entersBy hc hdone _
  · rw [if_neg (by simpa [hext] using ha), macrostoreExitIllop_calm hmc hmin.inMs fun r _ => (hmin.writes r).reads]
    obtain ⟨t, ht, hsw⟩ := contextSwitch_switched (s := m.exited) (by simpa [State.exited, State.left] using hmc) rfl
      0x0008#16 1#4
    exact ⟨t, m, ht, hdone, hsw⟩

/-- A MID trap on the route to the ROM. -/
theorem raiseMid_rom_passesOn {s : State} (h : s.romAnswers) {w : Word} {kind : MidKind}
    (hk : ¬ (kind = .first ∧ romUnknown w = true)) : PassesOnBy (raiseMid w kind s) s w kind := by
  obtain ⟨hm, hr, hc⟩ := h
  rw [raiseMid_main hm hr]
  exact romUnimplemented_passesOn hc hr hk

theorem romFixedOp_ne_mid (w : Word) : romFixedOp w ≠ some .mid := by
  unfold romFixedOp
  split <;> nofun

/-- A word that the ROM passes on is one of which the spec says so. -/
theorem romUnknown_of_decodeRom {w : Word} (h : decodeRom w = .mid) : ¬ romUnknown w = true := by
  intro hu
  unfold decodeRom at h
  split at h
  · nomatch h
  · split at h
    case h_1 f hf => rw [h] at hf; exact absurd hf (romFixedOp_ne_mid w)
    case h_2 => rw [if_pos hu] at h; nomatch h

section
variable {v : State} (hc : v.calm) (hm : v.inMs = false) (hr : v.midRoute = .rom) (hh : v.apHold = false)
include hc hm hr hh

theorem outcome_raiseMid_first_rom {w : Word} (hw : decodeRom w = .mid) :
    RomPassesOn (outcome (do raiseMid w .first; finish false) v) (v.withIoInhibit false) w .first :=
  ((raiseMid_rom_passesOn ⟨hm, hr, hc⟩ fun h => romUnknown_of_decodeRom hw h.2).finish hh).passesOn

theorem outcome_raiseMid_second_rom (w w1 : Word) :
    RomPassesOn (outcome (do raiseMid w (.second w1); finish false) v.skipWord) (v.withIoInhibit false).skipWord w
      (.second w1) := by
  rw [skipWord_withIoInhibit]
  have hrom : v.skipWord.romAnswers := ⟨hm, (midRoute_skipWord v).trans hr, hc⟩
  exact ((raiseMid_rom_passesOn (kind := .second w1) hrom (by simp)).finish hh).passesOn

end

/-- A step on a MID opcode that the ROM is asked about. -/
theorem step_rom_first {s : State} (hr : s.ready) (hm : s.inMs = false) (hq : (sampleInputs s).quiet)
    (hroute : (sampleInputs s).midRoute = .rom) (hd : decode .main (sampleInputs s).codeBytes = .error .mid) :
    (decodeRom (sampleInputs s).nextOpcode = .mid → step s = outcome (do
      raiseMid (sampleInputs s).nextOpcode .first
      finish false) s.begun.skipWord) ∧
    (decodeRom (sampleInputs s).nextOpcode = .undefined →
      step s = .refused (.romUnknown (sampleInputs s).nextOpcode)) ∧
    (∀ k, decodeRom (sampleInputs s).nextOpcode = .two k → decodeSecond k s.skipWord.streamWord = none →
      step s = .refused (.romUnknown s.skipWord.streamWord)) := by
  have h := (latchedOpcodesRun s _ _ _ _ 0 (comesToRun_next hr hm hq)).2 (by decide) ⟨rfl, rfl⟩
  obtain ⟨-, -, -, -, hmid⟩ := h
  obtain ⟨hdone, hunknown, -, htwo⟩ := (hmid hm (by rw [hm]; exact decodeMain_of_decode_mid hd)).2
    (s.begun_midRoute.trans hroute)
  refine ⟨hdone, hunknown, fun k hk h2 => ?_⟩
  rw [← s.begun_streamWord_eq] at h2 ⊢
  exact (htwo k hk (calm_begun hr.2)).2 h2

end Sys2Proof.Machine

/-- Settles O56: the probe parts the two ways, each of them the ROM's own entry first; the step comes to the same trap,
or to the refusal of a word of which nothing is known. -/
theorem unimplementedMidOpcodes : Obligations.UnimplementedMidOpcodes := by
  refine ⟨fun w kind s h hk => (raiseMid_rom_passesOn h hk).passesOn, fun src n s h he => ?_, fun s hr hrom hq => ?_⟩
  · rw [exec_xop_emulated h.1 he]
    exact (raiseMid_rom_passesOn (kind := .xop) h (by simp)).passesOn
  · obtain ⟨hm, hroute, -⟩ := hrom
    rw [sampleInputs_inMs] at hm
    have hc := calm_begun hr.2
    have hbegun := s.begun_inMs.trans hm
    have hhold := s.begun_apHold.trans hr.1.2.2.2.1
    have hrom := s.begun_midRoute.trans hroute
    refine ⟨fun hd => ?_, fun hd => ?_⟩
    · obtain ⟨hmid, hunknown, hsecond⟩ := step_rom_first hr hm hq hroute hd
      refine ⟨fun hw => ?_, hunknown, hsecond⟩
      rw [hmid hw]
      exact outcome_raiseMid_first_rom hc hbegun hrom hhold hw
    · rw [step_mid_second hr hm hq hd]
      exact outcome_raiseMid_second_rom hc hbegun hrom hhold _ _

end

section
/-! SUPPORT. The TMS99110A's ROM routines on a calm bus: the MRAM they scratch, the exit they all make, and what a
routine may change before it (spec/48_tms99110a_extensions.md R500, R501); with these the statement on LDS and LDD is
settled. -/

open Sys2Proof Sys2Proof.Machine

namespace Sys2Proof.Machine

/-! ### The scratched words of MRAM -/

/-- The byte does not belong to one of the words at the addresses listed. -/
def outsideWords (l : List Nat) (b : Nat) : Prop := ∀ a ∈ l, b ≠ a ∧ b ≠ a + 1

theorem scrambleWords_run (l : List Nat) (s : State) : ∃ ms n, scrambleWords l s = .ok ((), (s.withMs ms).withDraws n) ∧
    ∀ b, outsideWords l b → Mem.read ms b = Mem.read s.ms b := by
  induction l generalizing s with
  | nil => exact ⟨s.ms, s.draws, rfl, fun _ _ => rfl⟩
  | cons a l ih =>
    obtain ⟨ms, n, hrun, hread⟩ := ih ((s.withDraws (s.draws + 1)).withMs
      (Mem.writeWord s.ms a (Config.freeWord s.draws)))
    refine ⟨ms, n, ?_, fun b hb => ?_⟩
    · rw [scrambleWords, M.bind_ok (drawWord_apply s), update_bind]
      exact hrun
    · obtain ⟨ha, hl⟩ := List.forall_mem_cons.1 hb
      rw [hread b hl]
      exact Mem.read_writeWord_ne _ _ ha.1 ha.2

/-- Word >0004 and everything past MRAM is kept (spec/48_tms99110a_extensions.md R501). -/
def KeepsOutsideMram (m n : Mem) : Prop :=
  Mem.readWord n 0x04 = Mem.readWord m 0x04 ∧ ∀ a, 0x20 ≤ a → Mem.read n a = Mem.read m a

theorem scrambleMram_run (s : State) : ∃ ms n, scrambleMram s = .ok ((), (s.withMs ms).withDraws n) ∧
    KeepsOutsideMram s.ms ms := by
  obtain ⟨ms, n, hrun, hread⟩ := scrambleWords_run scratchWords s
  have hpast (b : Nat) (hb : 0x20 ≤ b) : outsideWords scratchWords b := by
    intro a ha
    simp only [scratchWords, List.mem_cons, List.not_mem_nil, or_false] at ha
    omega
  have h4 : outsideWords scratchWords 4 := by unfold outsideWords; decide
  have h5 : outsideWords scratchWords 5 := by unfold outsideWords; decide
  refine ⟨ms, n, hrun, ?_, fun a ha => hread a (hpast a ha)⟩
  rw [Mem.readWord, hread 4 h4, hread 5 h5, Mem.readWord]

/-! ### What a routine changes before its exit -/

/-- From `s` to `u` nothing has changed but the main memory, PC, ST0 to ST4, the opcode read ahead and how many free
values were drawn. -/
structure Routine (s u : State) : Prop where
  wp : u.wp = s.wp
  ms : u.ms = s.ms
  status : ∀ k, 5 ≤ k → k < 16 → stBit u.st k = stBit s.st k
  control : SameControl (s.withDraws u.draws) u

theorem Routine.refl (s : State) : Routine s s := ⟨rfl, rfl, fun _ _ _ => rfl, SameControl.refl s⟩

section
variable {s u : State} (h : Routine s u)
include h

theorem Routine.inMs (hm : s.inMs = false) : u.inMs = false := h.control.inMs.trans hm
theorem Routine.calm (hc : s.calm) : u.calm := hc.of_eq h.control.bus h.control.params
theorem Routine.map : stBit u.st 8 = stBit s.st 8 := h.status 8 (by decide) (by decide)

theorem Routine.trans {t : State} (k : Routine u t) : Routine s t :=
  ⟨k.wp.trans h.wp, k.ms.trans h.ms, fun n h5 h16 => (k.status n h5 h16).trans (h.status n h5 h16),
    (h.control.withDraws t.draws).trans k.control⟩

end

theorem StoresOnly.routine {s u : State} (h : StoresOnly s u) (hms : u.ms = s.ms) : Routine s u := by
  refine ⟨h.wp, hms, fun _ _ _ => by rw [h.st], ?_⟩
  have hdraws : u.draws = s.draws := by obtain h := h.control; simp_all [SameControl]
  rw [hdraws]
  exact h.control

theorem routine_operand {s : State} (hc : s.calm) (hm : s.inMs = false) (op : Operand) (n : Word) (role : BusCode) :
    Routine s (s.operand op n role).2 :=
  (storesOnly_operand hc op n role).routine (State.operand_ms hm op n role)

/-! ### The exit -/

/-- A register in main memory does not depend on Macrostore. -/
theorem wr_main_congr {s t : State} (hs : s.inMs = false) (ht : t.inMs = false) (hm : s.mem = t.mem)
    (hp : s.params = t.params) (h8 : stBit s.st 8 = stBit t.st 8) (hw : s.wp = t.wp) (r : Nibble) :
    s.wr r = t.wr r := by
  rw [State.wr, State.wr, State.regLoc_main hs, State.regLoc_main ht]
  simp only [State.wordAt, State.mainWord, State.regAddr, psel, State.mapSelect, hm, hp, h8, hw]

/-- The opcode at PC in main memory does not either. -/
theorem opcodeWord_main_congr {s t : State} (hs : s.inMs = false) (hi : t.inMs = s.inMs) (hm : t.mem = s.mem)
    (hpc : t.pc = s.pc) (h8 : stBit t.st 8 = stBit s.st 8) (hp : t.params = s.params) : t.opcodeWord = s.opcodeWord := by
  have ht := hi.trans hs
  simp only [State.opcodeWord, State.opcodeLoc, State.wordAt, State.mainWord, State.space, psel, State.mapSelect, hm,
    hpc, h8, hp, hs, ht, Bool.false_eq_true, if_false]

theorem SameControl.af {s t : State} (h : SameControl s t) : t.af = s.af := by simp_all [SameControl]

theorem evalAf_apply (s : State) :
    evalAf s = .ok ((), s.withAf (s.af || (stBit s.st 4 && stBit s.st 10))) := by
  simp only [evalAf, update_apply]
  split
  · next h => simp only [h, Bool.or_true]
  · next h => simp only [Bool.not_eq_true] at h; simp only [h, Bool.or_false]; rfl

/-- What the exit of a routine leaves of `u`, where the routine was called in `s`. -/
def Exits (s u t : State) : Prop := RomLeaves s u t ∧ t.mem = u.mem ∧ t.st = u.st ∧ ∀ r, t.wr r = u.wr r

theorem romExit_exits {s u : State} (hc : s.calm) (hm : s.inMs = false) (h : Routine s u) :
    ∃ t, romExit u = .ok ((), t) ∧ Exits s u t := by
  obtain ⟨ms, n, hscratch, hfour, hpast⟩ := scrambleMram_run u
  obtain ⟨v, hv⟩ : ∃ v, v = (u.withMs ms).withDraws n := ⟨_, rfl⟩
  have hvm : v.inMs = false := by rw [hv]; exact h.inMs hm
  have hvc : v.calm := by rw [hv]; exact h.calm hc
  obtain ⟨t, ht⟩ : ∃ t, t = ((v.latched.withAf (v.af || (stBit v.st 4 && stBit v.st 10))).withLdf 0b111#3).withInhibit
    .none := ⟨_, rfl⟩
  have hrun : romExit u = .ok ((), t) := by
    rw [romExit, M.bind_ok hscratch, ← hv, M.bind_ok (prefetchNext_main hvc hvm), M.bind_ok (evalAf_apply _), update_apply,
      ht]
    rfl
  have hmem : t.mem = u.mem := by simp [ht, hv]
  have hst : t.st = u.st := by simp [ht, hv]
  have hwp : t.wp = u.wp := by simp [ht, hv]
  have hms : t.ms = ms := by simp [ht, hv]
  have haf : t.af = (s.af || (stBit t.st 4 && stBit t.st 10)) := by
    have hu : u.af = s.af := h.control.af
    simp [ht, hv, hu]
  refine ⟨t, hrun, ⟨by simp [ht, hv], hwp.trans h.wp, ?opcode, ?four, fun a ha => ?past, haf, ?control⟩, hmem, hst,
    wr_main_congr (by simpa [ht] using hvm) (h.inMs hm) hmem (by simp [ht, hv]) (by rw [hst]) hwp⟩
  case opcode =>
    have hword : t.opcodeWord = v.opcodeWord := by rw [ht]; exact opcodeWord_congr rfl rfl rfl rfl rfl rfl
    rw [hword, ht]
    rfl
  case four => rw [hms, hfour, h.ms]
  case past => rw [hms, hpast a ha, h.ms]
  case control =>
    have hcontrol := h.control
    simp_all [SameControl]

/-- Where the ROM answers an extension instruction is its routine. -/
theorem extension_rom {s : State} (h : s.romAnswers) (w extra : Word) (body : M Unit) :
    extension w extra body s = body s := by
  obtain ⟨hm, hr, -⟩ := h
  simp only [extension, gets_bind, hm, hr, Bool.false_eq_true, if_false, decide_true, if_true]

/-! ### LDS and LDD -/

theorem ldfAfterLds_bits : ∀ f : BitVec 3, (ldfAfterLds f).getMsbD 0 = f.getMsbD 0 ∧
    (ldfAfterLds f).getMsbD 1 = (f.getMsbD 1 && f.getMsbD 2) ∧ (ldfAfterLds f).getMsbD 2 = false := by decide

theorem ldfAfterLdd_bits : ∀ f : BitVec 3, (ldfAfterLdd f).getMsbD 0 = false ∧
    (ldfAfterLdd f).getMsbD 1 = (f.getMsbD 1 && f.getMsbD 2) ∧ (ldfAfterLdd f).getMsbD 2 = f.getMsbD 2 := by decide

/-- LDS or LDD in privileged mode: the address after the first of a sequence in word >0004, the flags advanced, every
interrupt held off (spec/48_tms99110a_extensions.md R506, R508). -/
theorem longDistance_privileged {s : State} (h : s.romAnswers) (h7 : stBit s.st 7 = false)
    (after : BitVec 3 → BitVec 3) : ∃ t, longDistance after s = .ok ((), t) ∧ t.mem = s.mem ∧ t.pc = s.pc ∧ t.wp = s.wp ∧
      t.st = s.st ∧ t.prefetch = some s.opcodeWord ∧ (∀ a, 0x20 ≤ a → Mem.read t.ms a = Mem.read s.ms a) ∧
      t.inhibit = .all ∧ Mem.readWord t.ms 0x04 = (if s.ldf = 0b111#3 then s.pc else Mem.readWord s.ms 0x04) ∧
      SameControl (((s.withLdf t.ldf).withInhibit .all).withDraws t.draws) t ∧ t.ldf = after s.ldf := by
  obtain ⟨hm, -, hc⟩ := h
  obtain ⟨ms, n, hscratch, hfour, hpast⟩ := scrambleMram_run s
  obtain ⟨v, hv⟩ : ∃ v, v = (s.withMs (if s.ldf = 0b111#3 then Mem.writeWord ms 0x04 s.pc else ms)).withDraws n :=
    ⟨_, rfl⟩
  obtain ⟨t, ht⟩ : ∃ t, t = (v.latched.withLdf (after s.ldf)).withInhibit .all := ⟨_, rfl⟩
  have hvc : v.calm := by rw [hv]; exact hc
  have hvm : v.inMs = false := by rw [hv]; exact hm
  have huser : s.userMode = false := by simp [State.userMode, h7]
  have hrun : longDistance after s = .ok ((), t) := by
    obtain ⟨x, hx⟩ : ∃ x, x = (s.withMs ms).withDraws n := ⟨_, rfl⟩
    have hldf : x.ldf = s.ldf := by rw [hx]; rfl
    have hpc : x.pc = s.pc := by rw [hx]; rfl
    have htail : (do prefetchNext; update fun u => (u.withLdf (after x.ldf)).withInhibit .all) v = .ok ((), t) := by
      rw [M.bind_ok (prefetchNext_main hvc hvm), update_apply, ht, hldf]
    rw [longDistance, gets_bind, huser, if_neg (by decide), M.bind_ok hscratch, ← hx, gets_bind, gets_bind]
    by_cases hl : x.ldf = 0b111#3
    · rw [if_pos hl, update_bind, ← htail, hv, if_pos (hldf ▸ hl), hpc, hx]
      rfl
    · rw [if_neg hl, ← htail, hv, if_neg (hldf ▸ hl), hx]
  have hword : v.opcodeWord = s.opcodeWord := by
    rw [hv]
    exact opcodeWord_main_congr hm rfl rfl rfl rfl rfl
  have hms : t.ms = if s.ldf = 0b111#3 then Mem.writeWord ms 0x04 s.pc else ms := by simp [ht, hv]
  refine ⟨t, hrun, by simp [ht, hv], by simp [ht, hv], by simp [ht, hv], by simp [ht, hv], by simp [ht, hword],
    fun a ha => ?_, by simp [ht], ?_, by simp [ht, hv, SameControl], by simp [ht]⟩
  · rw [hms]
    split
    · rw [Mem.read_writeWord_ne _ _ (by omega) (by omega), hpast a ha]
    · exact hpast a ha
  · rw [hms]
    split
    · exact Mem.readWord_writeWord_same _ _ _
    · exact hfour

/-- LDS or LDD in user mode is a violation (spec/48_tms99110a_extensions.md R506, R507). -/
theorem longDistance_user {s : State} (h : s.romAnswers) (h7 : stBit s.st 7 = true) (after : BitVec 3 → BitVec 3) :
    ∃ t, longDistance after s = .ok ((), t) ∧
      Exits ((s.withPrivop true).withIoInhibit true) ((s.withPrivop true).withIoInhibit true) t := by
  obtain ⟨hm, -, hc⟩ := h
  have huser : s.userMode = true := by simp [State.userMode, h7, hm]
  obtain ⟨t, hrun, ht⟩ := romExit_exits (s := (s.withPrivop true).withIoInhibit true) hc hm (.refl _)
  refine ⟨t, ?_, ht⟩
  rw [longDistance, gets_bind, huser, if_pos rfl, setPrivop, update_bind, hrun]

end Sys2Proof.Machine

/-- Settles O47: the routine of LDS and LDD in each mode. -/
theorem longDistancePrefixes : Obligations.LongDistancePrefixes := by
  intro s hrom b0 b1 b2 same prefixed violation
  have hlds : exec .lds s = outcome (longDistance ldfAfterLds) s := outcome_congr (extension_rom hrom _ _ _)
  have hldd : exec .ldd s = outcome (longDistance ldfAfterLdd) s := outcome_congr (extension_rom hrom _ _ _)
  have hprivileged (h7 : stBit s.st 7 = false) (after : BitVec 3 → BitVec 3) :
      ∃ t, outcome (longDistance after) s = .next t ∧ prefixed t ∧ t.ldf = after s.ldf := by
    obtain ⟨t, hrun, hmem, hpc, hwp, hst, hpre, hms, hinh, hfour, hcontrol, hldf⟩ := longDistance_privileged hrom h7 after
    exact ⟨t, outcome_ok hrun, ⟨⟨hmem, hpc, hwp, hst, hpre, hms⟩, hinh, hfour, hcontrol⟩, hldf⟩
  have huser (h7 : stBit s.st 7 = true) (after : BitVec 3 → BitVec 3) :
      ∃ t, outcome (longDistance after) s = .next t ∧ violation t := by
    obtain ⟨t, hrun, ⟨hpc, hwp, hpre, hfour, hms, haf, hcontrol⟩, hmem, hst, -⟩ := longDistance_user hrom h7 after
    refine ⟨t, outcome_ok hrun, ⟨hmem, hpc, hwp, hst, ?_, hms⟩, hfour, ?_⟩
    · rw [hpre]
      exact congrArg some (opcodeWord_main_congr hrom.1 hcontrol.inMs hmem hpc (by rw [hst]; rfl) hcontrol.params)
    · rw [haf, hst] at hcontrol
      simp_all [SameControl]
  refine ⟨rfl, rfl, fun h7 => ⟨?_, ?_⟩, fun h7 => ⟨?_, ?_⟩⟩
  · obtain ⟨t, hrun, ht, hldf⟩ := hprivileged h7 ldfAfterLds
    exact ⟨t, hlds.trans hrun, ht, by rw [hldf]; exact ldfAfterLds_bits _⟩
  · obtain ⟨t, hrun, ht, hldf⟩ := hprivileged h7 ldfAfterLdd
    exact ⟨t, hldd.trans hrun, ht, by rw [hldf]; exact ldfAfterLdd_bits _⟩
  · rw [hlds]; exact huser h7 _
  · rw [hldd]; exact huser h7 _

end

section
/-! SUPPORT. The operands of the TMS99110A's extension instructions, the accumulator, and the frame of a routine that
stores nowhere else; with these the statements on moves, comparison and long multiplication are settled
(spec/48_tms99110a_extensions.md R520, R528, R529, R533, R536 to R538). -/

open Sys2Proof Sys2Proof.Machine

namespace Sys2Proof.Machine

/-! ### Double words -/

@[simp] theorem hiWord_longOf (hi lo : Word) : hiWord (longOf hi lo) = hi := by
  apply BitVec.eq_of_getLsbD_eq
  intro i hlt
  simp [hiWord, longOf, hlt, show 16 + i < 32 by omega]

@[simp] theorem longOf_words (v : BitVec 32) : longOf (hiWord v) (loWord v) = v := by
  apply BitVec.eq_of_getLsbD_eq
  intro i hlt
  by_cases hi : i < 16
  · simp [hiWord, loWord, longOf, hlt, hi]
  · simp [hiWord, loWord, longOf, hlt, hi, show i - 16 < 16 by omega, show 16 + (i - 16) = i by omega]

/-- The state with a double word stored in the accumulator. -/
def State.putFpac (s : State) (v : BitVec 32) : State := (s.putWr 0#4 (hiWord v)).putWr 1#4 (loWord v)

section
variable {u : State} (hc : u.calm) (hm : u.inMs = false)
include hc

theorem readLong_main {l : Loc} (hl : l.space = .main) : readLong l u = .ok (u.longAt l, u) := by
  have hreads (k : Word) : u.reads (l.offset k) := State.reads_main hl
  rw [readLong, M.bind_ok (readLoc_calm hc (State.reads_main hl)), M.bind_ok (readLoc_calm hc (hreads 2#16))]
  rfl

include hm

theorem readFpac_main : readFpac u = .ok (u.fpac, u) := by
  rw [readFpac, M.bind_ok (readReg_main hc hm _), M.bind_ok (readReg_main hc hm _)]
  rfl

theorem writeFpac_main (v : BitVec 32) : writeFpac v u = .ok ((), u.putFpac v) := by
  rw [writeFpac, M.bind_ok (writeReg_main hc hm _ _)]
  exact writeReg_main (s := u.putWr 0#4 (hiWord v)) (by simpa [State.putWr] using hc) (by simpa [State.putWr] using hm) _ _

end

/-! ### Routines -/

section
variable {s u : State} (h : Routine s u)
include h

theorem Routine.withSt {st : Word} (hst : ∀ k, 5 ≤ k → k < 16 → stBit st k = stBit u.st k) :
    Routine s (u.withSt st) :=
  h.trans ⟨rfl, rfl, hst, SameControl.refl u⟩

theorem Routine.withDraws (n : Nat) : Routine s (u.withDraws n) :=
  h.trans ⟨rfl, rfl, fun _ _ _ => rfl, SameControl.refl _⟩

theorem Routine.putWord (hc : s.calm) {l : Loc} (hl : l.space = .main) (v : Word) : Routine s (u.putWord l v) :=
  h.trans (((StoresOnly.refl u).putWord (h.calm hc) l v).routine (State.putWord_ms hl u v))

theorem Routine.putWr (hc : s.calm) (hm : s.inMs = false) (r : Nibble) (v : Word) : Routine s (u.putWr r v) :=
  h.putWord hc (by rw [State.regLoc_main (h.inMs hm)]) v

theorem Routine.operand (hc : s.calm) (hm : s.inMs = false) (op : Operand) (n : Word) (role : BusCode) :
    Routine s (u.operand op n role).2 :=
  h.trans (routine_operand (h.calm hc) (h.inMs hm) op n role)

end

section
variable {u v : State} (h : Routine u v)
include h

theorem Routine.covers (l : Loc) (sp : Space) (b : Nat) : v.covers l sp b ↔ u.covers l sp b :=
  covers_congr h.control.params h.map h.control.ldf _ _ _

variable (hm : u.inMs = false)
include hm

theorem Routine.regLoc (r : Nibble) : v.regLoc r = u.regLoc r := by
  rw [State.regLoc_main hm, State.regLoc_main (h.inMs hm), State.regAddr, State.regAddr, h.wp]

theorem Routine.ramAt (r : Nibble) : v.ramAt (v.regLoc r) = u.ramAt (u.regLoc r) :=
  ramAt_regLoc_congr (h.inMs hm) hm h.wp h.control.params h.map r

theorem Routine.fpacInRam : v.fpacInRam ↔ u.fpacInRam := by
  rw [State.fpacInRam, State.fpacInRam, h.ramAt hm, h.ramAt hm]

end

/-- PC is the only thing of its second state that the frame of an extension instruction speaks of. -/
theorem RomLeaves.of_pc {s u v t : State} (h : RomLeaves s u t) (hpc : u.pc = v.pc) : RomLeaves s v t := by
  obtain ⟨h1, h2⟩ := h
  exact ⟨h1.trans hpc, h2⟩

/-- An extension instruction whose routine comes to its exit in `u`. -/
theorem extension_exits {s u : State} (h : s.romAnswers) (hu : Routine s u) {w extra : Word} {body : M Unit}
    (hrun : body s = romExit u) : ∃ t, outcome (extension w extra body) s = .next t ∧ Exits s u t := by
  obtain ⟨t, ht, hexits⟩ := romExit_exits h.2.2 h.1 hu
  exact ⟨t, outcome_ok ((extension_rom h w extra body).trans (hrun.trans ht)), hexits⟩

/-! ### Status -/

theorem StatusIs.keeps {old new : Word} {bits : List (Nat × Bool)} (h : StatusIs old new bits)
    (hl : ∀ p ∈ bits, p.1 < 5) : ∀ k, 5 ≤ k → k < 16 → stBit new k = stBit old k := by
  intro k h5 h16
  have hnone : bits.lookup k = none := List.lookup_eq_none_iff.2 fun p hp => by
    have := hl p hp
    simp only [bne_iff_ne]
    omega
  rw [h k h16, hnone]
  rfl

theorem resultBits_lookup {n : Nat} (r : BitVec n) (bits : List (Nat × Bool)) {k : Nat} (h : 3 ≤ k) :
    (resultBits r ++ bits).lookup k = bits.lookup k := by
  have h0 : (k == 0) = false := by simp; omega
  have h1 : (k == 1) = false := by simp; omega
  have h2 : (k == 2) = false := by simp; omega
  simp [resultBits, List.lookup, h0, h1, h2]

theorem setLae_keeps {n : Nat} (r : BitVec n) (st : Word) (k : Nat) (h : 3 ≤ k) (h16 : k < 16) :
    stBit (setLae r st) k = stBit st k := by
  rw [StatusIs_setLae r st k h16, ← List.append_nil (resultBits r), resultBits_lookup r [] h]
  rfl

/-! ### The accumulator alone -/

/-- From `u` to `v` a routine has changed nothing but the accumulator, ST0 to ST4 and how many free values were
drawn. -/
structure Accumulates (u v : State) : Prop extends Routine u v where
  pc : v.pc = u.pc
  bytes : ∀ b, (∀ l ∈ [u.regLoc 0#4, u.regLoc 1#4], ¬ u.covers l .main b) → Mem.read v.mem b = Mem.read u.mem b

theorem Accumulates.refl (u : State) : Accumulates u u := ⟨.refl u, rfl, fun _ _ => rfl⟩

section
variable {u v : State} (h : Accumulates u v)
include h

theorem Accumulates.withSt {st : Word} (hst : ∀ k, 5 ≤ k → k < 16 → stBit st k = stBit v.st k) :
    Accumulates u (v.withSt st) := ⟨h.toRoutine.withSt hst, h.pc, h.bytes⟩

theorem Accumulates.withDraws (n : Nat) : Accumulates u (v.withDraws n) :=
  ⟨h.toRoutine.withDraws n, h.pc, h.bytes⟩

variable (hm : u.inMs = false)
include hm

theorem Accumulates.putWr (hc : u.calm) {r : Nibble} (hr : r = 0#4 ∨ r = 1#4) (w : Word) :
    Accumulates u (v.putWr r w) := by
  refine ⟨h.toRoutine.putWr hc hm r w, (State.putWord_pc ..).trans h.pc, fun b hb => (?_ : _ = _).trans (h.bytes b hb)⟩
  have hout : ¬ v.covers (v.regLoc r) .main b := by
    rw [h.toRoutine.regLoc hm, h.toRoutine.covers]
    exact hb _ (by rcases hr with rfl | rfl <;> simp)
  exact byteOf_putWord v _ w .main b hout

theorem Accumulates.putFpac (hc : u.calm) (x : BitVec 32) : Accumulates u (v.putFpac x) :=
  (h.putWr hm hc (.inl rfl) _).putWr hm hc (.inr rfl) _

end

theorem Accumulates.trans {u v w : State} (hm : u.inMs = false) (h : Accumulates u v) (k : Accumulates v w) :
    Accumulates u w :=
  ⟨h.toRoutine.trans k.toRoutine, k.pc.trans h.pc, fun b hb => (k.bytes b (by simpa [h.toRoutine.regLoc hm, h.toRoutine.covers] using hb)).trans
    (h.bytes b hb)⟩

/-! ### The accumulator read back -/

theorem wordBase_regLoc_fpac {s : State} (hm : s.inMs = false) :
    s.wordBase (s.regLoc 0#4) ≠ s.wordBase (s.regLoc 1#4) := by
  intro h
  rw [State.regLoc_main hm, State.regLoc_main hm] at h
  have haddr := congrArg BitVec.toNat (physAddr_even_inj _ _ _ _ _ h)
  have := s.wp.isLt
  simp only [Word.even_toNat, State.regAddr, BitVec.toNat_add, BitVec.toNat_mul, BitVec.toNat_setWidth,
    BitVec.toNat_ofNat] at haddr
  omega

section
variable {s : State} (hm : s.inMs = false)
include hm

/-- A store in one register of the accumulator. -/
theorem wr_putWr_fpac {r q : Nibble} (hr : r = 0#4 ∨ r = 1#4) (hq : q = 0#4 ∨ q = 1#4) (v : Word) :
    (s.putWr r v).wr q = if s.ramAt (s.regLoc r) = true ∧ r = q then v else s.wr q := by
  have hne := wordBase_regLoc_fpac hm
  unfold State.wr State.putWr
  rw [State.regLoc_putWord, wordAt_putWord]
  rcases hr with rfl | rfl <;> rcases hq with rfl | rfl
  · simp
  · simp [hne]
  · simp [hne.symm]
  · simp

theorem fpac_putFpac (hr : s.fpacInRam) (v : BitVec 32) : (s.putFpac v).fpac = v := by
  have hm' : (s.putWr 0#4 (hiWord v)).inMs = false := by simpa [State.putWr] using hm
  rw [State.fpac, State.putFpac, wr_putWr_fpac hm' (.inr rfl) (.inl rfl), wr_putWr_fpac hm' (.inr rfl) (.inr rfl),
    wr_putWr_fpac hm (.inl rfl) (.inl rfl)]
  simp [hr.1, hr.2]

theorem fpac_putHigh (hr : s.fpacInRam) (w : Word) : (s.putWr 0#4 w).fpac = longOf w (s.wr 1#4) := by
  rw [State.fpac, wr_putWr_fpac hm (.inl rfl) (.inl rfl), wr_putWr_fpac hm (.inl rfl) (.inr rfl)]
  simp [hr.1]

end

theorem Exits.fpac {s u t : State} (h : Exits s u t) : t.fpac = u.fpac := by
  rw [State.fpac, State.fpac, h.2.2.2, h.2.2.2]

/-! ### LR, STR and NEGR -/

theorem exec_lr {s : State} (h : s.romAnswers) (src : Operand) :
    let p := s.operand src 4#16 .sop
    let y := p.2.longAt p.1
    ∃ t, exec (.lr src) s = .next t ∧ Exits s ((p.2.putFpac y).withSt (setLae y s.st)) t := by
  intro p y
  obtain ⟨hm, -, hc⟩ := id h
  have hp : Routine s p.2 := routine_operand hc hm src _ _
  refine extension_exits h (((hp.putWr hc hm _ _).putWr hc hm _ _).withSt fun k h5 h16 => ?_) ?_
  · rw [setLae_keeps y s.st k (by omega) h16, (((hp.putWr hc hm _ _).putWr hc hm _ _)).status k h5 h16]
  · have hst : (p.2.putFpac y).st = s.st := by simp [State.putFpac, State.putWr, p]
    have hsrc : srcLoc src longStep s = .ok (p.1, p.2) := srcLoc_calm hc (State.derives_main hm src) longStep
    rw [M.bind_ok hsrc,
      M.bind_ok (readLong_main (hp.calm hc) (State.operand_space hm src _ _)),
      M.bind_ok (writeFpac_main (hp.calm hc) (hp.inMs hm) _), updateSt_bind, ← hst]
    rfl

theorem exec_str {s : State} (h : s.romAnswers) (src : Operand) :
    let p := s.operand src 4#16 .sop
    let u := p.2.putWord p.1 (p.2.wr 0#4)
    ∃ t, exec (.str src) s = .next t ∧
      Exits s ((u.putWord (p.1.offset 2#16) (u.wr 1#4)).withSt (setLae (longOf (p.2.wr 0#4) (u.wr 1#4)) s.st)) t := by
  intro p u
  obtain ⟨hm, -, hc⟩ := id h
  have hp : Routine s p.2 := routine_operand hc hm src _ _
  have hspace : p.1.space = .main := State.operand_space hm src _ _
  have hsecond : (p.1.offset 2#16).space = .main := hspace
  have hu : Routine s u := hp.putWord hc hspace _
  have hv : Routine s (u.putWord (p.1.offset 2#16) (u.wr 1#4)) := hu.putWord hc hsecond _
  refine extension_exits h (hv.withSt fun k h5 h16 => ?_) ?_
  · rw [setLae_keeps _ s.st k (by omega) h16, hv.status k h5 h16]
  · have hst : (u.putWord (p.1.offset 2#16) (u.wr 1#4)).st = s.st := by simp [u, p]
    have hsrc : srcLoc src longStep s = .ok (p.1, p.2) := srcLoc_calm hc (State.derives_main hm src) longStep
    rw [M.bind_ok hsrc,
      M.bind_ok (readReg_main (hp.calm hc) (hp.inMs hm) _),
      M.bind_ok (writeLoc_calm (hp.calm hc) (State.writes_main hspace) _),
      M.bind_ok (readReg_main (hu.calm hc) (hu.inMs hm) _), M.bind_ok (writeLoc_calm (hu.calm hc) (State.writes_main hsecond) _), updateSt_bind, ← hst]

/-! ### Free values -/

section
variable {u : State} (hc : u.calm) (hm : u.inMs = false)
include hc hm

theorem drawFpac_run : ∃ v, drawFpac u = .ok ((), v) ∧ Accumulates u v ∧ v.st = u.st := by
  obtain ⟨w, hw⟩ : ∃ w, w = (u.withDraws (u.draws + 1)).withDraws (u.draws + 2) := ⟨_, rfl⟩
  have hacc : Accumulates u w := by rw [hw]; exact ((Accumulates.refl u).withDraws _).withDraws _
  refine ⟨_, ?_, hacc.putFpac hm hc (longOf (Config.freeWord u.draws) (Config.freeWord (u.draws + 1))), ?_⟩
  · rw [drawFpac, M.bind_ok (drawWord_apply u), M.bind_ok (drawWord_apply _)]
    rw [hw]
    exact writeFpac_main (hw ▸ hacc.calm hc) (hw ▸ hacc.inMs hm) _
  · simp [State.putFpac, State.putWr, hw]

omit hc hm in
theorem drawLae_run (u : State) : ∃ v, drawLae u = .ok ((), v) ∧ Accumulates u v ∧ v.mem = u.mem ∧
    ∀ k, 3 ≤ k → k < 16 → stBit v.st k = stBit u.st k := by
  have hst (k : Nat) (h3 : 3 ≤ k) (h16 : k < 16) (b0 b1 b2 : Bool) :
      stBit (stSet (stSet (stSet u.st 0 b0) 1 b1) 2 b2) k = stBit u.st k := by
    rw [stBit_stSet _ (by decide) h16, if_neg (by omega), stBit_stSet _ (by decide) h16, if_neg (by omega),
      stBit_stSet _ (by decide) h16, if_neg (by omega)]
  exact ⟨_, drawLae_apply u, ((Accumulates.refl u).withDraws _).withSt fun k h5 h16 => hst k (by omega) h16 _ _ _,
    rfl, fun k h3 h16 => hst k h3 h16 _ _ _⟩

end

theorem fpac_withSt {u : State} {st : Word} (h8 : stBit st 8 = stBit u.st 8) : (u.withSt st).fpac = u.fpac := by
  have hwr (r : Nibble) : (u.withSt st).wr r = u.wr r := wr_congr (s := u.withSt st) (t := u) rfl rfl rfl h8 rfl rfl r
  rw [State.fpac, State.fpac, hwr, hwr]

theorem StatusIs_setFault (c v : Bool) (st : Word) :
    StatusIs st (setOverflow v (setCarry c st)) [(3, c), (4, v)] :=
  ((StatusIs.refl st).set (by decide) rfl c).set (by decide) rfl v

theorem setFault_apply (c v : Bool) (u : State) :
    setFault c v u = .ok ((), u.withSt (setOverflow v (setCarry c u.st))) := rfl

theorem setFault_status (c v : Bool) (st : Word) (k : Nat) (h5 : 5 ≤ k) (h16 : k < 16) :
    stBit (setOverflow v (setCarry c st)) k = stBit st k :=
  (StatusIs_setFault c v st).keeps (by simp) k h5 h16

theorem setFault_run (c v : Bool) (u : State) : ∃ t, setFault c v u = .ok ((), t) ∧ Accumulates u t ∧ t.mem = u.mem ∧
    t.fpac = u.fpac ∧ StatusIs u.st t.st [(3, c), (4, v)] :=
  ⟨u.withSt (setOverflow v (setCarry c u.st)), rfl, (Accumulates.refl u).withSt (setFault_status c v u.st), rfl,
    fpac_withSt (setFault_status c v u.st 8 (by decide) (by decide)), StatusIs_setFault c v u.st⟩

/-! ### NEGR -/

theorem loWord_flip (v : BitVec 32) : loWord (v ^^^ 0x80000000#32) = loWord v := by
  apply BitVec.eq_of_getLsbD_eq
  intro i hlt
  have hbit : ∀ i < 16, (0x80000000#32).getLsbD i = false := by decide
  simp [loWord, hlt, hbit i hlt]

/-- NEGR stores in the accumulator alone, of a valid number its first word. -/
theorem exec_negr {s : State} (h : s.romAnswers) : ∃ t u, exec .negr s = .next t ∧ Exits s u t ∧ Accumulates s u ∧
    (∀ k, 3 ≤ k → k < 16 → stBit u.st k = stBit s.st k) ∧
    (fpValid s.fpac = true →
      let r := if s.fpac = 0#32 then 0#32 else s.fpac ^^^ 0x80000000#32
      (s.fpacInRam → u.fpac = r) ∧ StatusIs s.st u.st (resultBits r)) := by
  obtain ⟨hm, -, hc⟩ := id h
  by_cases hv : fpValid s.fpac = true
  · obtain ⟨r, hr⟩ : ∃ r, r = if s.fpac = 0#32 then 0#32 else s.fpac ^^^ 0x80000000#32 := ⟨_, rfl⟩
    have hlow : s.wr 1#4 = loWord r := by
      rw [← loWord_longOf (s.wr 0#4) (s.wr 1#4), ← State.fpac, hr]
      split
      · next h0 => rw [h0]
      · exact (loWord_flip _).symm
    have hput : Accumulates s (s.putWr 0#4 (hiWord r)) := (Accumulates.refl s).putWr hm hc (.inl rfl) _
    have hst : (s.putWr 0#4 (hiWord r)).st = s.st := by simp [State.putWr]
    have hkeep (k : Nat) (h3 : 3 ≤ k) (h16 : k < 16) : stBit (setLae r s.st) k = stBit s.st k := setLae_keeps r _ k h3 h16
    have hacc : Accumulates s ((s.putWr 0#4 (hiWord r)).withSt (setLae r s.st)) :=
      hput.withSt fun k h5 h16 => by rw [hst]; exact hkeep k (by omega) h16
    have hrun : ∃ t, exec .negr s = .next t ∧ Exits s ((s.putWr 0#4 (hiWord r)).withSt (setLae r s.st)) t := by
      refine extension_exits h hacc.toRoutine ?_
      rw [M.bind_ok (readFpac_main hc hm), if_pos hv]
      have hneg : (if s.fpac = 0#32 then s.fpac else s.fpac ^^^ 0x80000000#32) = r := by
        rw [hr]
        split
        · next h0 => exact h0
        · rfl
      simp only [hneg]
      rw [M.bind_ok (writeReg_main hc hm _ _), updateSt_bind, hst]
    obtain ⟨t, ht, hexits⟩ := hrun
    refine ⟨t, _, ht, hexits, hacc, fun k h3 h16 => hkeep k h3 h16, fun _ => ?_⟩
    rw [← hr]
    refine ⟨fun hram => ?_, StatusIs_setLae r s.st⟩
    rw [fpac_withSt (by rw [hst]; exact hkeep 8 (by decide) (by decide)), fpac_putHigh hm hram, hlow, longOf_words]
  · obtain ⟨v, hdraw, hacc, hst⟩ := drawFpac_run hc hm
    obtain ⟨u, hlae, hacc', -, hkeep⟩ := drawLae_run v
    have hu := hacc.trans hm hacc'
    have hrun : ∃ t, exec .negr s = .next t ∧ Exits s u t := by
      refine extension_exits h hu.toRoutine ?_
      rw [M.bind_ok (readFpac_main hc hm), if_neg hv, M.bind_ok hdraw, M.bind_ok hlae]
    obtain ⟨t, ht, hexits⟩ := hrun
    exact ⟨t, u, ht, hexits, hu, fun k h3 h16 => by rw [hkeep k h3 h16, hst], fun h => absurd h hv⟩

/-! ### CR and MM -/

theorem stBit_stSet_lae (st : Word) (b0 b1 b2 : Bool) (k : Nat) (hk : k < 16) :
    stBit (stSet (stSet (stSet st 0 b0) 1 b1) 2 b2) k =
      if k = 0 then b0 else if k = 1 then b1 else if k = 2 then b2 else stBit st k := by
  rw [stBit_stSet _ (by decide) hk, stBit_stSet _ (by decide) hk, stBit_stSet _ (by decide) hk]
  split_ifs <;> first | rfl | omega

/-- CR's comparison. -/
def compareReals (x y : BitVec 32) : M Unit :=
  if fpValid x && fpValid y then
    updateSt fun st =>
      stSet (stSet (stSet st 0 (fpInt x != fpInt y)) 1 (decide (fpInt y < fpInt x))) 2 (fpInt x == fpInt y)
  else drawLae

theorem compareReals_run (x y : BitVec 32) (u : State) : ∃ v, compareReals x y u = .ok ((), v) ∧ Accumulates u v ∧
    v.mem = u.mem ∧ (fpValid x = true → fpValid y = true →
      stBit v.st 0 = decide (fpInt x ≠ fpInt y) ∧ stBit v.st 1 = decide (fpInt y < fpInt x) ∧
      stBit v.st 2 = decide (fpInt x = fpInt y)) := by
  by_cases hvalid : (fpValid x && fpValid y) = true
  · have hst := stBit_stSet_lae u.st (fpInt x != fpInt y) (decide (fpInt y < fpInt x)) (fpInt x == fpInt y)
    obtain ⟨st, hdef⟩ : ∃ st, st = stSet (stSet (stSet u.st 0 (fpInt x != fpInt y)) 1 (decide (fpInt y < fpInt x))) 2
      (fpInt x == fpInt y) := ⟨_, rfl⟩
    rw [← hdef] at hst
    refine ⟨u.withSt st, by rw [compareReals, if_pos hvalid, updateSt_apply, hdef],
      (Accumulates.refl u).withSt fun k h5 h16 => ?_, rfl, fun _ _ => ⟨?_, ?_, ?_⟩⟩
    · rw [hst k h16, if_neg (by omega), if_neg (by omega), if_neg (by omega)]
    · rw [State.withSt_st, hst 0 (by decide)]; simp [bne, Bool.beq_eq_decide_eq]
    · rw [State.withSt_st, hst 1 (by decide)]; simp
    · rw [State.withSt_st, hst 2 (by decide)]; simp [Bool.beq_eq_decide_eq]
  · obtain ⟨v, hrun, hacc, hmem, -⟩ := drawLae_run u
    exact ⟨v, by rw [compareReals, if_neg hvalid]; exact hrun, hacc, hmem, fun h1 h2 => absurd (by simp [h1, h2]) hvalid⟩

/-- CR changes the status alone: ST3 and ST4 cleared, and ST0 to ST2 as the values of valid numbers say. -/
theorem exec_cr {s : State} (h : s.romAnswers) (src dst : Operand) :
    let a := s.operand src 4#16 .sop
    let x := a.2.longAt a.1
    let b := a.2.operand dst 4#16 .dop
    let y := b.2.longAt b.1
    ∃ t u, exec (.cr src dst) s = .next t ∧ Exits s u t ∧ Routine s u ∧ u.pc = b.2.pc ∧ u.mem = b.2.mem ∧
      stBit u.st 3 = false ∧ stBit u.st 4 = false ∧
      (fpValid x = true → fpValid y = true →
        stBit u.st 0 = decide (fpInt x ≠ fpInt y) ∧ stBit u.st 1 = decide (fpInt y < fpInt x) ∧
        stBit u.st 2 = decide (fpInt x = fpInt y)) := by
  intro a x b y
  obtain ⟨hm, -, hc⟩ := id h
  have ha : Routine s a.2 := routine_operand hc hm src _ _
  have hb : Routine s b.2 := ha.operand hc hm dst _ _
  have hsrc : srcLoc src longStep s = .ok (a.1, a.2) := srcLoc_calm hc (State.derives_main hm src) longStep
  have hdst : dstLoc dst longStep a.2 = .ok (b.1, b.2) :=
    dstLoc_calm (ha.calm hc) (State.derives_main (ha.inMs hm) dst) longStep
  have hx : readLong a.1 a.2 = .ok (x, a.2) := readLong_main (ha.calm hc) (State.operand_space hm src 4#16 .sop)
  have hy : readLong b.1 b.2 = .ok (y, b.2) :=
    readLong_main (hb.calm hc) (State.operand_space (ha.inMs hm) dst 4#16 .dop)
  obtain ⟨v, hcompare, hv, hvmem, hvst⟩ := compareReals_run x y b.2
  obtain ⟨u, hfault, hu, humem, -, hust⟩ := setFault_run false false v
  have hrun : ∃ t, exec (.cr src dst) s = .next t ∧ Exits s u t := by
    refine extension_exits h (hb.trans (hv.toRoutine.trans hu.toRoutine)) ?_
    rw [M.bind_ok hsrc, M.bind_ok hx, M.bind_ok hdst, M.bind_ok hy]
    rw [compareReals] at hcompare
    by_cases hvalid : (fpValid x && fpValid y) = true
    · rw [if_pos hvalid] at hcompare ⊢
      exact (M.bind_ok hcompare).trans (M.bind_ok hfault)
    · rw [if_neg hvalid] at hcompare ⊢
      exact (M.bind_ok hcompare).trans (M.bind_ok hfault)
  obtain ⟨t, ht, hexits⟩ := hrun
  refine ⟨t, u, ht, hexits, hb.trans (hv.toRoutine.trans hu.toRoutine), hu.pc.trans hv.pc, humem.trans hvmem,
    hust 3 (by decide), hust 4 (by decide), fun h1 h2 => ?_⟩
  rw [hust 0 (by decide), hust 1 (by decide), hust 2 (by decide)]
  exact hvst h1 h2

theorem longProduct_words (x y : BitVec 32) :
    let n := x.toNat * y.toNat
    let p := BitVec.ofNat 64 n
    p.extractLsb' 48 16 = BitVec.ofNat 16 (n / 2 ^ 48) ∧ p.extractLsb' 32 16 = BitVec.ofNat 16 (n / 2 ^ 32) ∧
    p.extractLsb' 16 16 = BitVec.ofNat 16 (n / 2 ^ 16) ∧ p.extractLsb' 0 16 = BitVec.ofNat 16 n ∧
    ((p == 0#64) = decide (n = 0)) := by
  intro n p
  have hn : n < 2 ^ 32 * 2 ^ 32 := Nat.mul_lt_mul'' x.isLt y.isLt
  have hp : p.toNat = n := by rw [BitVec.toNat_ofNat, Nat.mod_eq_of_lt (by simpa using hn)]
  have hword (k : Nat) : p.extractLsb' k 16 = BitVec.ofNat 16 (n / 2 ^ k) := by
    apply BitVec.eq_of_toNat_eq
    rw [BitVec.extractLsb'_toNat, hp, Nat.shiftRight_eq_div_pow, BitVec.toNat_ofNat]
  refine ⟨hword 48, hword 32, hword 16, by simpa using hword 0, ?_⟩
  rw [Bool.eq_iff_iff, beq_iff_eq, decide_eq_true_iff, ← hp]
  exact ⟨fun h => by rw [h]; rfl, fun h => BitVec.eq_of_toNat_eq (by rw [h]; rfl)⟩

/-- MM stores its product word by word, and sets the status as of an unsigned number. -/
theorem exec_mm {s : State} (h : s.romAnswers) (src dst : Operand) :
    let a := s.operand src 4#16 .sop
    let x := a.2.longAt a.1
    let b := a.2.operand dst 8#16 .dop
    let n := x.toNat * (b.2.longAt b.1).toNat
    let u := ((b.2.putWord b.1 (BitVec.ofNat 16 (n / 2 ^ 48))).putWord (b.1.offset 2#16)
      (BitVec.ofNat 16 (n / 2 ^ 32))).putWord (b.1.offset 4#16) (BitVec.ofNat 16 (n / 2 ^ 16))
    ∃ t v, exec (.mm src dst) s = .next t ∧ Exits s v t ∧ v.pc = b.2.pc ∧
      v.mem = (u.putWord (b.1.offset 6#16) (BitVec.ofNat 16 n)).mem ∧
      StatusIs s.st v.st [(0, false), (1, false), (2, decide (n = 0)), (3, false), (4, false)] := by
  intro a x b n u
  obtain ⟨hm, -, hc⟩ := id h
  obtain ⟨h48, h32, h16, h0, hzero⟩ := longProduct_words x (b.2.longAt b.1)
  have ha : Routine s a.2 := routine_operand hc hm src _ _
  have hb : Routine s b.2 := ha.operand hc hm dst _ _
  have hspace (k : Word) : (b.1.offset k).space = .main := State.operand_space (ha.inMs hm) dst 8#16 .dop
  have hsrc : srcLoc src longStep s = .ok (a.1, a.2) := srcLoc_calm hc (State.derives_main hm src) longStep
  have hdst : dstLoc dst quadStep a.2 = .ok (b.1, b.2) :=
    dstLoc_calm (ha.calm hc) (State.derives_main (ha.inMs hm) dst) quadStep
  have hx : readLong a.1 a.2 = .ok (x, a.2) := readLong_main (ha.calm hc) (State.operand_space hm src 4#16 .sop)
  have hy : readLong b.1 b.2 = .ok (b.2.longAt b.1, b.2) :=
    readLong_main (hb.calm hc) (State.operand_space (ha.inMs hm) dst 8#16 .dop)
  have hstore {v : State} (hv : Routine s v) {l : Loc} (hl : l.space = .main) (w : Word) :
      writeLoc l w v = .ok ((), v.putWord l w) := writeLoc_calm (hv.calm hc) (State.writes_main hl) w
  have h1 := hb.putWord hc (State.operand_space (ha.inMs hm) dst 8#16 .dop) (BitVec.ofNat 16 (n / 2 ^ 48))
  have h2 := h1.putWord hc (hspace 2#16) (BitVec.ofNat 16 (n / 2 ^ 32))
  have h3 : Routine s u := h2.putWord hc (hspace 4#16) (BitVec.ofNat 16 (n / 2 ^ 16))
  have h4 := h3.putWord hc (hspace 6#16) (BitVec.ofNat 16 n)
  obtain ⟨v, hv⟩ : ∃ v, v = u.putWord (b.1.offset 6#16) (BitVec.ofNat 16 n) := ⟨_, rfl⟩
  have hpc : v.pc = b.2.pc := by simp [hv, u]
  have hst : v.st = s.st := by simp [hv, u, b, a]
  rw [← hv] at h4 ⊢
  obtain ⟨st, hdef⟩ : ∃ st, st = stSet (stSet (stSet v.st 0 false) 1 false) 2 (decide (n = 0)) := ⟨_, rfl⟩
  have hlae : StatusIs v.st st [(0, false), (1, false), (2, decide (n = 0))] :=
    hdef ▸ (((StatusIs.refl v.st).set (by decide) rfl false).set (by decide) rfl false).set (by decide) rfl _
  obtain ⟨w, hw⟩ : ∃ w, w = v.withSt (setOverflow false (setCarry false st)) := ⟨_, rfl⟩
  have hwst : StatusIs v.st w.st [(0, false), (1, false), (2, decide (n = 0)), (3, false), (4, false)] := by
    rw [hw]
    exact (hlae.set (by decide) rfl false).set (by decide) rfl false
  have hroutine : Routine s w := by
    rw [hw] at hwst ⊢
    exact h4.withSt (hwst.keeps (by simp))
  have hrun : ∃ t, exec (.mm src dst) s = .next t ∧ Exits s w t := by
    refine extension_exits h hroutine ?_
    rw [M.bind_ok hsrc, M.bind_ok hx, M.bind_ok hdst, M.bind_ok hy]
    simp only [h48, h32, h16, h0, hzero]
    rw [M.bind_ok (hstore hb (State.operand_space (ha.inMs hm) dst 8#16 .dop) _), M.bind_ok (hstore h1 (hspace 2#16) _),
      M.bind_ok (hstore h2 (hspace 4#16) _), M.bind_ok (hstore h3 (hspace 6#16) _), ← hv, updateSt_bind, ← hdef,
      M.bind_ok (setFault_apply _ _ _), hw]
    rfl
  obtain ⟨t, ht, hexits⟩ := hrun
  exact ⟨t, w, ht, hexits, by rw [hw]; exact hpc, by rw [hw]; rfl, hst ▸ hwst⟩

end Sys2Proof.Machine

/-- Settles O49: each routine by what it stores. -/
theorem realMoves : Obligations.RealMoves := by
  intro src s hrom p y u
  refine ⟨?lr, ?str, ?negr⟩
  case lr =>
    obtain ⟨t, ht, hleaves, hmem, hst, -⟩ := exec_lr hrom src
    refine ⟨t, ht, hleaves.of_pc (by simp [State.putFpac, State.putWr, p]), hmem, ?_⟩
    rw [hst]
    exact StatusIs_setLae _ _
  case str =>
    obtain ⟨t, ht, hleaves, hmem, hst, -⟩ := exec_str hrom src
    refine ⟨t, ht, hleaves.of_pc (by simp [p]), hmem, ?_⟩
    rw [hst]
    exact StatusIs_setLae _ _
  case negr =>
    obtain ⟨t, v, ht, hexits, hacc, hkeep, hvalid⟩ := exec_negr hrom
    obtain ⟨hleaves, hmem, hst, -⟩ := id hexits
    refine ⟨t, ht, hleaves.of_pc hacc.pc, fun k h3 h16 => by rw [hst, hkeep k h3 h16], fun b hb => ?_, fun hv => ?_⟩
    · rw [hmem]
      exact hacc.bytes b hb
    · rw [hst, hexits.fpac]
      exact hvalid hv

/-- Settles O51: each routine by what it stores. -/
theorem realCompareAndLongMultiply : Obligations.RealCompareAndLongMultiply := by
  intro src dst s hrom a x
  refine ⟨?cr, ?mm⟩
  case cr =>
    intro b y
    obtain ⟨t, u, ht, ⟨hleaves, hmem, hst, -⟩, hroutine, hpc, humem, h3, h4, hvalid⟩ := exec_cr hrom src dst
    rw [← hst] at h3 h4 hvalid
    exact ⟨t, ht, hleaves.of_pc hpc, hmem.trans humem, h3, h4, fun k h5 h16 => by rw [hst, hroutine.status k h5 h16], hvalid⟩
  case mm =>
    intro b n u
    obtain ⟨t, v, ht, ⟨hleaves, hmem, hst, -⟩, hpc, hvmem, hstatus⟩ := exec_mm hrom src dst
    exact ⟨t, ht, hleaves.of_pc hpc, hmem.trans hvmem, hst ▸ hstatus⟩

end

section
/-! SUPPORT. The radix-16 numbers of the TMS99110A: their fields, and when rounding gives which result
(spec/48_tms99110a_extensions.md R521, R522, R531). -/

open Sys2Proof Sys2Proof.Machine

namespace Sys2Proof.Machine

/-! ### The fields of a number -/

theorem fpExp_eq (x : BitVec 32) : fpExp x = x.toNat / 2 ^ 24 % 128 := by
  rw [fpExp, BitVec.extractLsb'_toNat, Nat.shiftRight_eq_div_pow]

theorem fpMant_eq (x : BitVec 32) : fpMant x = x.toNat % 2 ^ 24 := by
  rw [fpMant, BitVec.extractLsb'_toNat, Nat.shiftRight_zero]

theorem fpExp_lt (x : BitVec 32) : fpExp x < 128 := by rw [fpExp_eq]; omega

theorem fpMant_lt (x : BitVec 32) : fpMant x < 16 ^ 6 := by rw [fpMant_eq]; omega

theorem fpValid_iff (x : BitVec 32) : fpValid x = true ↔ x = 0#32 ∨ 16 ^ 5 ≤ fpMant x := by
  have hdigit : x.extractLsb' 20 4 ≠ 0#4 ↔ 16 ^ 5 ≤ fpMant x := by
    rw [ne_eq, ← BitVec.toNat_inj, BitVec.extractLsb'_toNat, Nat.shiftRight_eq_div_pow, fpMant_eq]
    simp only [BitVec.toNat_ofNat]
    omega
  simp only [fpValid, Bool.or_eq_true, beq_iff_eq, bne_iff_ne, hdigit]

/-- A number's magnitude in units of the last digit at exponent field 0. -/
def fpAbs (x : BitVec 32) : Nat := fpMant x * 16 ^ fpExp x

theorem fpInt_eq (x : BitVec 32) : fpInt x = if x.msb then -(fpAbs x : Int) else (fpAbs x : Int) := by
  unfold fpInt fpSigned fpAbs
  split <;> push_cast <;> ring

theorem natAbs_fpInt (x : BitVec 32) : (fpInt x).natAbs = fpAbs x := by
  rw [fpInt_eq]
  split <;> simp

/-! ### Packing -/

theorem fpPack_toNat (neg : Bool) {e m : Nat} (he : e < 128) (hm : m < 16 ^ 6) :
    (fpPack neg e m).toNat = (if neg then 2 ^ 31 else 0) + e * 2 ^ 24 + m := by
  rw [fpPack, BitVec.toNat_ofNat, Nat.mod_eq_of_lt]
  split <;> omega

section
variable (neg : Bool) {e m : Nat} (he : e < 128) (hm : m < 16 ^ 6)
include he hm

theorem fpExp_fpPack : fpExp (fpPack neg e m) = e := by
  rw [fpExp_eq, fpPack_toNat neg he hm]
  split <;> omega

theorem fpMant_fpPack : fpMant (fpPack neg e m) = m := by
  rw [fpMant_eq, fpPack_toNat neg he hm]
  split <;> omega

theorem msb_fpPack : (fpPack neg e m).msb = neg := by
  rw [BitVec.msb_eq_decide, fpPack_toNat neg he hm]
  cases neg <;> simp <;> omega

theorem fpAbs_fpPack : fpAbs (fpPack neg e m) = m * 16 ^ e := by
  rw [fpAbs, fpExp_fpPack neg he hm, fpMant_fpPack neg he hm]

theorem fpValid_fpPack (h5 : 16 ^ 5 ≤ m) : fpValid (fpPack neg e m) = true :=
  (fpValid_iff _).2 (.inr (by rw [fpMant_fpPack neg he hm]; exact h5))

end

/-- A number is its fields. -/
theorem fpPack_fields (x : BitVec 32) : fpPack x.msb (fpExp x) (fpMant x) = x := by
  apply BitVec.eq_of_toNat_eq
  rw [fpPack_toNat x.msb (fpExp_lt x) (fpMant_lt x), fpExp_eq, fpMant_eq, BitVec.msb_eq_decide]
  have := x.isLt
  simp only [decide_eq_true_eq]
  split <;> omega

/-! ### The number of digits -/

theorem hexDigits_spec (fuel n : Nat) (hn : n ≠ 0) (hf : n < 16 ^ fuel) :
    ∃ p, hexDigits fuel n = p + 1 ∧ 16 ^ p ≤ n ∧ n < 16 ^ (p + 1) := by
  induction fuel generalizing n with
  | zero => omega
  | succ fuel ih =>
    rw [hexDigits, if_neg hn]
    by_cases h0 : n / 16 = 0
    · refine ⟨0, ?_, by omega, by omega⟩
      rw [h0]
      cases fuel <;> rfl
    · obtain ⟨p, hp, hlow, hhigh⟩ := ih (n / 16) h0 (by rw [pow_succ] at hf; omega)
      exact ⟨p + 1, by rw [hp], by rw [pow_succ]; omega, by rw [pow_succ]; omega⟩

/-! ### Rounding -/

section
variable {n p : Nat} {k : Int} (neg sticky away : Bool) (hn : n ≠ 0) (hp : hexDigits hexFuel n = p + 1)
include hn hp

theorem fpRound_underflow (he : k + p < 5) : fpRound neg n k sticky away = .underflow := by
  unfold fpRound
  simp only [hn, if_false, hp]
  rw [if_pos (by push_cast; omega)]

theorem fpRound_overflow (he : 133 ≤ k + p) : fpRound neg n k sticky away = .overflow := by
  unfold fpRound
  simp only [hn, if_false, hp]
  rw [if_neg (by push_cast; omega)]
  split <;> rw [if_pos (by push_cast; omega)]

end

/-- The first six digits of a number of `p + 1`. -/
def sixDigits (n p : Nat) : Nat := if 5 ≤ p then n / 16 ^ (p - 5) else n * 16 ^ (5 - p)

theorem sixDigits_bounds {n p : Nat} (hlow : 16 ^ p ≤ n) (hhigh : n < 16 ^ (p + 1)) :
    16 ^ 5 ≤ sixDigits n p ∧ sixDigits n p < 16 ^ 6 := by
  unfold sixDigits
  split
  · next h =>
    have hp : p = 5 + (p - 5) := by omega
    generalize p - 5 = q at hp
    subst hp
    have hpos : 0 < 16 ^ q := by positivity
    rw [Nat.le_div_iff_mul_le hpos, Nat.div_lt_iff_lt_mul hpos, ← pow_add, ← pow_add]
    exact ⟨hlow, by rw [show 6 + q = 5 + q + 1 by omega]; exact hhigh⟩
  · next h =>
    have hq : 5 = p + (5 - p) := by omega
    have hq1 : 6 = p + 1 + (5 - p) := by omega
    have hpos : 0 < 16 ^ (5 - p) := by positivity
    constructor
    · calc 16 ^ 5 = 16 ^ p * 16 ^ (5 - p) := by rw [← pow_add, ← hq]
        _ ≤ n * 16 ^ (5 - p) := Nat.mul_le_mul_right _ hlow
    · calc n * 16 ^ (5 - p) < 16 ^ (p + 1) * 16 ^ (5 - p) := Nat.mul_lt_mul_of_pos_right hhigh hpos
        _ = 16 ^ 6 := by rw [← pow_add, ← hq1]

/-- A digit after the sixth is not zero. -/
def moreDigits (n p : Nat) : Bool := decide (5 ≤ p) && decide (n % 16 ^ (p - 5) ≠ 0)

section
variable {n p E : Nat} {k : Int} (neg away : Bool) (hn : n ≠ 0) (hp : hexDigits hexFuel n = p + 1)
  (hk : k + p = 5 + E)
include hn hp hk

/-- The rounding of a number whose exponent field is not negative, in terms of its first six digits. -/
theorem fpRound_digits : fpRound neg n k false away =
    (let m := if moreDigits n p && away then sixDigits n p + 1 else sixDigits n p
     let e := if m = 16 ^ 6 then E + 1 else E
     if 127 < e then .overflow else .value (fpPack neg e (if m = 16 ^ 6 then 16 ^ 5 else m))) := by
  have he : k + ((p + 1 : Nat) : Int) - 6 = E := by push_cast; omega
  have hm : (if 6 ≤ p + 1 then n / 16 ^ (p + 1 - 6) else n * 16 ^ (6 - (p + 1))) = sixDigits n p := by
    rw [sixDigits]
    simp only [show (6 ≤ p + 1) = (5 ≤ p) by simp, show p + 1 - 6 = p - 5 by omega, show 6 - (p + 1) = 5 - p by omega]
  have hi : (decide (6 ≤ p + 1) && decide (n % 16 ^ (p + 1 - 6) ≠ 0)) = moreDigits n p := by
    rw [moreDigits]
    simp only [show (6 ≤ p + 1) = (5 ≤ p) by simp, show p + 1 - 6 = p - 5 by omega]
  unfold fpRound
  simp only [hn, if_false, hp, he, hm, hi, Bool.false_or]
  rw [if_neg (by omega)]
  split_ifs <;> first | rfl | omega

/-- Where the first six digits are all, they are the result. -/
theorem fpRound_six (hE : E < 128) (hbound : sixDigits n p < 16 ^ 6) (hmore : moreDigits n p = false) :
    fpRound neg n k false away = .value (fpPack neg E (sixDigits n p)) := by
  rw [fpRound_digits neg away hn hp hk]
  simp only [hmore, Bool.false_and, Bool.false_eq_true, if_false, if_neg (show ¬ sixDigits n p = 16 ^ 6 by omega)]
  rw [if_neg (by omega)]

/-- Otherwise the result is they or the next number. -/
theorem fpRound_neighbour (hE : E < 127) (hlow : 16 ^ 5 ≤ sixDigits n p) (hbound : sixDigits n p < 16 ^ 6) :
    ∃ e m, fpRound neg n k false away = .value (fpPack neg e m) ∧ e < 128 ∧ E ≤ e ∧ 16 ^ 5 ≤ m ∧ m < 16 ^ 6 ∧
      (m * 16 ^ e = sixDigits n p * 16 ^ E ∨
       (moreDigits n p = true ∧ m * 16 ^ e = (sixDigits n p + 1) * 16 ^ E)) := by
  rw [fpRound_digits neg away hn hp hk]
  by_cases hup : (moreDigits n p && away) = true
  · have hmore : moreDigits n p = true := by simp_all
    simp only [hup, if_true]
    by_cases hcarry : sixDigits n p + 1 = 16 ^ 6
    · refine ⟨E + 1, 16 ^ 5, ?_, by omega, by omega, le_refl _, by norm_num, .inr ⟨hmore, ?_⟩⟩
      · rw [if_pos hcarry, if_pos hcarry, if_neg (by omega)]
      · rw [hcarry, pow_succ 16 E]; ring
    · refine ⟨E, sixDigits n p + 1, ?_, by omega, le_refl _, by omega, by omega, .inr ⟨hmore, rfl⟩⟩
      rw [if_neg hcarry, if_neg hcarry, if_neg (by omega)]
  · have hne : ¬ sixDigits n p = 16 ^ 6 := by omega
    refine ⟨E, sixDigits n p, ?_, by omega, le_refl _, hlow, hbound, .inl rfl⟩
    simp only [hup, Bool.false_eq_true, if_false, if_neg hne]
    rw [if_neg (by omega)]

end

/-! ### Exact results, overflow and underflow -/

/-- The six digits of a magnitude that is a number's, and their weight. -/
theorem digits_of_number {n p c M a : Nat} (hlow : 16 ^ p ≤ n) (hhigh : n < 16 ^ (p + 1)) (h5 : 16 ^ 5 ≤ M)
    (h6 : M < 16 ^ 6) (h : n * 16 ^ c = M * 16 ^ a) :
    c + p = a + 5 ∧ sixDigits n p = M ∧ moreDigits n p = false := by
  have hpos (q : Nat) : 0 < 16 ^ q := by positivity
  have hupper : 16 ^ (c + p) < 16 ^ (a + 6) := by
    rw [Nat.add_comm c, pow_add, pow_add, Nat.mul_comm (16 ^ a)]
    calc 16 ^ p * 16 ^ c ≤ n * 16 ^ c := Nat.mul_le_mul_right _ hlow
      _ = M * 16 ^ a := h
      _ < 16 ^ 6 * 16 ^ a := Nat.mul_lt_mul_of_pos_right h6 (hpos _)
  have hlower : 16 ^ (a + 5) < 16 ^ (p + 1 + c) := by
    rw [pow_add 16 a, pow_add 16 (p + 1), Nat.mul_comm (16 ^ a)]
    calc 16 ^ 5 * 16 ^ a ≤ M * 16 ^ a := Nat.mul_le_mul_right _ h5
      _ = n * 16 ^ c := h.symm
      _ < 16 ^ (p + 1) * 16 ^ c := Nat.mul_lt_mul_of_pos_right hhigh (hpos _)
  have h1 := (Nat.pow_lt_pow_iff_right (by norm_num)).1 hupper
  have h2 := (Nat.pow_lt_pow_iff_right (by norm_num)).1 hlower
  have hsum : c + p = a + 5 := by omega
  refine ⟨hsum, ?_⟩
  by_cases hp : 5 ≤ p
  · have ha : a = p - 5 + c := by omega
    have hn : n = M * 16 ^ (p - 5) := by
      apply Nat.eq_of_mul_eq_mul_right (hpos c)
      rw [h, Nat.mul_assoc, ← pow_add, ha]
    rw [sixDigits, if_pos hp, moreDigits, hn, Nat.mul_div_cancel _ (hpos _), Nat.mul_mod_left]
    simp
  · have hc : c = 5 - p + a := by omega
    have hM : n * 16 ^ (5 - p) = M := by
      apply Nat.eq_of_mul_eq_mul_right (hpos a)
      rw [← h, Nat.mul_assoc, ← pow_add, ← hc]
    rw [sixDigits, if_neg hp, moreDigits]
    exact ⟨hM, by simp [hp]⟩

/-- More digits than any operand of the rounding has. -/
def fpLimit : Nat := 16 ^ hexFuel

section
variable {n c : Nat} (hn : n ≠ 0) (hf : n < fpLimit) (away : Bool)
include hn hf

/-- A magnitude that is a number's is rounded to that number. -/
theorem fpRound_number {z : BitVec 32} (hz : fpValid z = true) (h : n * 16 ^ c = fpAbs z * 16 ^ 70) :
    fpRound z.msb n ((c : Int) - 70) false away = .value z := by
  obtain ⟨p, hp, hlow, hhigh⟩ := hexDigits_spec hexFuel n hn hf
  have hM : 16 ^ 5 ≤ fpMant z := by
    refine ((fpValid_iff z).1 hz).resolve_left fun h0 => ?_
    have : n * 16 ^ c = 0 := by rw [h, h0]; rfl
    have : 0 < n * 16 ^ c := by positivity
    omega
  rw [fpAbs, Nat.mul_assoc, ← pow_add] at h
  obtain ⟨hsum, hsix, hmore⟩ := digits_of_number hlow hhigh hM (fpMant_lt z) h
  rw [fpRound_six z.msb away hn hp (E := fpExp z) (by omega) (fpExp_lt z) (hsix ▸ fpMant_lt z) hmore, hsix,
    fpPack_fields]

theorem fpRound_large (neg sticky : Bool) (h : 16 ^ 203 ≤ n * 16 ^ c) :
    fpRound neg n ((c : Int) - 70) sticky away = .overflow := by
  obtain ⟨p, hp, -, hhigh⟩ := hexDigits_spec hexFuel n hn hf
  have hlt : 16 ^ 203 < 16 ^ (p + 1 + c) := by
    rw [pow_add 16 (p + 1)]
    exact lt_of_le_of_lt h (Nat.mul_lt_mul_of_pos_right hhigh (by positivity))
  have := (Nat.pow_lt_pow_iff_right (by norm_num : 1 < 16)).1 hlt
  exact fpRound_overflow neg sticky away hn hp (by omega)

theorem fpRound_small (neg sticky : Bool) (h : n * 16 ^ c < 16 ^ 75) :
    fpRound neg n ((c : Int) - 70) sticky away = .underflow := by
  obtain ⟨p, hp, hlow, -⟩ := hexDigits_spec hexFuel n hn hf
  have hlt : 16 ^ (p + c) < 16 ^ 75 := by
    rw [pow_add]
    exact lt_of_le_of_lt (Nat.mul_le_mul_right _ hlow) h
  have := (Nat.pow_lt_pow_iff_right (by norm_num : 1 < 16)).1 hlt
  exact fpRound_underflow neg sticky away hn hp (by omega)

end

/-- The result delivers the exact quotient `n / d`, in units of the last digit at exponent field 0: a number that it is,
or the overflow or underflow of its magnitude (spec/48_tms99110a_extensions.md R522, R531). -/
def Delivers (r : FpResult) (n d : Int) : Prop :=
  (∀ z, fpValid z = true → fpInt z * d = n → r = .value z) ∧
  (16 ^ 133 * d.natAbs ≤ n.natAbs → r = .overflow) ∧ (n ≠ 0 → n.natAbs < 16 ^ 5 * d.natAbs → r = .underflow)

theorem fpAbs_eq_zero {z : BitVec 32} (hz : fpValid z = true) (h : fpAbs z = 0) : z = 0#32 := by
  refine ((fpValid_iff z).1 hz).resolve_right fun h5 => ?_
  have : 0 < fpAbs z := Nat.mul_pos (by omega) (by positivity)
  omega

theorem fpInt_zero {z : BitVec 32} (h : fpAbs z = 0) : fpInt z = 0 := by
  rw [fpInt_eq, h]
  split <;> rfl

theorem fpInt_neg_iff {z : BitVec 32} (h : fpAbs z ≠ 0) : fpInt z < 0 ↔ z.msb = true := by
  rw [fpInt_eq]
  split
  · next hm => simp only [hm, iff_true]; omega
  · next hm => simp only [hm]; simp

theorem neg_iff_mul_pow (v : Int) (c : Nat) : v * 16 ^ c < 0 ↔ v < 0 := by
  refine ⟨fun h => ?_, fun h => mul_neg_of_neg_of_pos h (by positivity)⟩
  by_contra hv
  have : 0 ≤ v * 16 ^ c := mul_nonneg (by omega) (by positivity)
  omega

theorem fpOfInt_zero (k : Int) (away : Bool) : fpOfInt 0 k away = .value 0#32 := rfl

/-- An exact signed integer at a weight delivers the quotient that it is. -/
theorem fpOfInt_delivers {v n d : Int} {c : Nat} (away : Bool) (hd : 0 < d) (hf : v.natAbs < fpLimit)
    (h : v * 16 ^ c * d = n * 16 ^ 70) : Delivers (fpOfInt v ((c : Int) - 70) away) n d := by
  have habs : v.natAbs * 16 ^ c * d.natAbs = n.natAbs * 16 ^ 70 := by
    have := congrArg Int.natAbs h
    simpa [Int.natAbs_mul, Int.natAbs_pow] using this
  have hdpos : 0 < d.natAbs := by omega
  by_cases hv : v = 0
  · subst hv
    have hn : n = 0 := by
      rw [Int.zero_mul, Int.zero_mul] at h
      exact (mul_eq_zero.1 h.symm).resolve_right (by positivity)
    subst hn
    refine ⟨fun z hz hzd => ?_, fun hover => ?_, fun hne => absurd rfl hne⟩
    · have h0 : fpInt z = 0 := (mul_eq_zero.1 hzd).resolve_right (by omega)
      rw [fpOfInt_zero, fpAbs_eq_zero hz (by rw [← natAbs_fpInt, h0]; rfl)]
    · have : 0 < 16 ^ 133 * d.natAbs := Nat.mul_pos (by positivity) hdpos
      omega
  · have hvn : v.natAbs ≠ 0 := by omega
    refine ⟨fun z hz hzd => ?_, fun hover => ?_, fun _ hunder => ?_⟩
    · have hint : v * 16 ^ c = fpInt z * 16 ^ 70 := by
        apply Int.eq_of_mul_eq_mul_right (show d ≠ 0 by omega)
        rw [h, ← hzd]; ring
      have hneg : decide (v < 0) = z.msb := by
        have hz0 : fpAbs z ≠ 0 := fun h0 => by
          rw [fpInt_zero h0, Int.zero_mul] at hint
          exact hv ((mul_eq_zero.1 hint).resolve_right (by positivity))
        have hsign : v < 0 ↔ fpInt z < 0 := by
          rw [← neg_iff_mul_pow v c, ← neg_iff_mul_pow (fpInt z) 70, hint]
        rw [Bool.eq_iff_iff, decide_eq_true_iff, hsign, fpInt_neg_iff hz0]
      rw [fpOfInt, hneg]
      refine fpRound_number hvn hf away hz ?_
      have := congrArg Int.natAbs hint
      simpa [Int.natAbs_mul, Int.natAbs_pow, natAbs_fpInt] using this
    · refine fpRound_large hvn hf away _ _ (Nat.le_of_mul_le_mul_right ?_ hdpos)
      rw [habs]
      calc 16 ^ 203 * d.natAbs = 16 ^ 133 * d.natAbs * 16 ^ 70 := by ring
        _ ≤ n.natAbs * 16 ^ 70 := Nat.mul_le_mul_right _ hover
    · refine fpRound_small hvn hf away _ _ (Nat.lt_of_mul_lt_mul_right (a := d.natAbs) ?_)
      rw [habs]
      calc n.natAbs * 16 ^ 70 < 16 ^ 5 * d.natAbs * 16 ^ 70 := Nat.mul_lt_mul_of_pos_right hunder (by positivity)
        _ = 16 ^ 75 * d.natAbs := by ring

/-! ### The four functions -/

theorem natAbs_fpSigned_lt (x : BitVec 32) : (fpSigned x).natAbs < 16 ^ 6 := by
  have := fpMant_lt x
  unfold fpSigned
  split <;> omega

theorem fpSigned_mul_pow (x : BitVec 32) {k : Nat} (h : k ≤ fpExp x) :
    fpSigned x * 16 ^ (fpExp x - k) * 16 ^ k = fpInt x := by
  rw [Int.mul_assoc, ← pow_add, Nat.sub_add_cancel h]
  rfl

theorem natAbs_aligned_lt (x : BitVec 32) (k : Nat) : (fpSigned x * 16 ^ (fpExp x - k)).natAbs < 16 ^ 134 := by
  rw [Int.natAbs_mul, Int.natAbs_pow]
  calc (fpSigned x).natAbs * 16 ^ (fpExp x - k) < 16 ^ 6 * 16 ^ (fpExp x - k) :=
        Nat.mul_lt_mul_of_pos_right (natAbs_fpSigned_lt x) (by positivity)
    _ ≤ 16 ^ 6 * 16 ^ 128 := Nat.mul_le_mul_left _ (Nat.pow_le_pow_right (by norm_num) (by have := fpExp_lt x; omega))
    _ = 16 ^ 134 := by rw [← pow_add]

/-- A sum of aligned numbers. -/
theorem fpOfInt_sum_delivers {a b n m : Int} {k : Nat} (away : Bool) (ha : a * 16 ^ k = n) (hb : b * 16 ^ k = m)
    (hfa : a.natAbs < 16 ^ 134) (hfb : b.natAbs < 16 ^ 134) : Delivers (fpOfInt (a + b) k away) (n + m) 1 := by
  have hk : (k : Int) = ((k + 70 : Nat) : Int) - 70 := by push_cast; ring
  have hf : (a + b).natAbs < fpLimit := calc
    (a + b).natAbs ≤ a.natAbs + b.natAbs := Int.natAbs_add_le a b
    _ < 16 ^ 134 + 16 ^ 134 := Nat.add_lt_add hfa hfb
    _ ≤ fpLimit := by unfold fpLimit hexFuel; norm_num
  rw [hk]
  exact fpOfInt_delivers away (by decide) hf (by rw [← ha, ← hb, pow_add]; ring)

theorem fpAdd_delivers (x y : BitVec 32) : Delivers (fpAdd x y) (fpInt x + fpInt y) 1 :=
  fpOfInt_sum_delivers _ (fpSigned_mul_pow x (min_le_left _ _)) (fpSigned_mul_pow y (min_le_right _ _))
    (natAbs_aligned_lt x _) (natAbs_aligned_lt y _)

theorem fpSub_delivers (x y : BitVec 32) : Delivers (fpSub x y) (fpInt x - fpInt y) 1 := by
  have hy := fpSigned_mul_pow y (min_le_right (fpExp x) (fpExp y))
  have h := fpOfInt_sum_delivers (Config.fpAway .sub x y) (fpSigned_mul_pow x (min_le_left (fpExp x) (fpExp y)))
    (b := -(fpSigned y * 16 ^ (fpExp y - min (fpExp x) (fpExp y)))) (m := -fpInt y) (by rw [← hy]; ring)
    (natAbs_aligned_lt x _) (by rw [Int.natAbs_neg]; exact natAbs_aligned_lt y _)
  simp only [← sub_eq_add_neg] at h
  exact h

theorem fpMul_delivers (x y : BitVec 32) : Delivers (fpMul x y) (fpInt x * fpInt y) (16 ^ 70) := by
  have hk : (fpExp x : Int) + fpExp y - 70 = ((fpExp x + fpExp y : Nat) : Int) - 70 := by push_cast; rfl
  have hf : (fpSigned x * fpSigned y).natAbs < fpLimit := by
    rw [Int.natAbs_mul]
    calc (fpSigned x).natAbs * (fpSigned y).natAbs < 16 ^ 6 * 16 ^ 6 :=
          Nat.mul_lt_mul'' (natAbs_fpSigned_lt x) (natAbs_fpSigned_lt y)
      _ ≤ fpLimit := by unfold fpLimit hexFuel; norm_num
  unfold fpMul
  rw [hk]
  refine fpOfInt_delivers _ (by positivity) hf ?_
  rw [fpInt, fpInt, pow_add]
  ring

/-! ### The quotient -/

theorem fpAbs_pos {z : BitVec 32} (hz : fpValid z = true) (h0 : z ≠ 0#32) : 0 < fpAbs z :=
  Nat.pos_of_ne_zero fun h => h0 (fpAbs_eq_zero hz h)

theorem fpMant_ge {z : BitVec 32} (hz : fpValid z = true) (h0 : z ≠ 0#32) : 16 ^ 5 ≤ fpMant z :=
  ((fpValid_iff z).1 hz).resolve_left h0

/-- The sign of a number as a factor. -/
def signFactor (neg : Bool) : Int := if neg then -1 else 1

theorem signFactor_bne : ∀ a b, signFactor (a != b) = signFactor a * signFactor b := by decide
theorem signFactor_sq : ∀ a, signFactor a * signFactor a = 1 := by decide
theorem signFactor_inj : ∀ a b, signFactor a = signFactor b → a = b := by decide

theorem fpInt_eq_sign (x : BitVec 32) : fpInt x = signFactor x.msb * fpAbs x := by
  rw [fpInt_eq, signFactor]
  split <;> ring

/-- The sign of an exact quotient. -/
theorem msb_of_quotient {x y z : BitVec 32} (hx : 0 < fpAbs x) (h : fpInt z * fpInt y = fpInt x * 16 ^ 70) :
    (x.msb != y.msb) = z.msb := by
  have hmag : fpAbs z * fpAbs y = fpAbs x * 16 ^ 70 := by
    have := congrArg Int.natAbs h
    simpa [Int.natAbs_mul, Int.natAbs_pow, natAbs_fpInt] using this
  have hmagInt : (fpAbs z : Int) * fpAbs y = fpAbs x * 16 ^ 70 := by exact_mod_cast hmag
  have hne : (fpAbs x : Int) * 16 ^ 70 ≠ 0 := by positivity
  simp only [fpInt_eq_sign] at h
  have hsign : signFactor z.msb * signFactor y.msb = signFactor x.msb := by
    apply Int.eq_of_mul_eq_mul_right hne
    calc signFactor z.msb * signFactor y.msb * (fpAbs x * 16 ^ 70)
        = signFactor z.msb * fpAbs z * (signFactor y.msb * fpAbs y) := by rw [← hmagInt]; ring
      _ = signFactor x.msb * (fpAbs x * 16 ^ 70) := by rw [h]; ring
  apply signFactor_inj
  rw [signFactor_bne, ← hsign, Int.mul_assoc, signFactor_sq, Int.mul_one]

/-- The weight of the integer quotient. -/
theorem fpDiv_weight {x y : BitVec 32} {c : Nat} (hc : c + fpExp y = fpExp x + 128) :
    fpMant x * 16 ^ 12 * 16 ^ c * 16 ^ fpExp y = fpAbs x * 16 ^ 70 * 16 ^ 70 := by
  rw [fpAbs, Nat.mul_assoc _ (16 ^ c), ← pow_add, hc, pow_add]
  ring

section
variable {x y : BitVec 32} (hx : fpValid x = true) (hy : fpValid y = true) (hx0 : x ≠ 0#32) (hy0 : y ≠ 0#32)
include hx hy hx0 hy0

/-- The integer quotient of the mantissas, with its remainder, and its bounds. -/
theorem fpDiv_quotient : let n := fpMant x * 16 ^ 12 / fpMant y
    n ≠ 0 ∧ n < fpLimit ∧ n * fpMant y ≤ fpMant x * 16 ^ 12 ∧ fpMant x * 16 ^ 12 < (n + 1) * fpMant y := by
  intro n
  have h1 := fpMant_ge hx hx0
  have h2 := fpMant_lt y
  have h3 := fpMant_lt x
  have hy5 := fpMant_ge hy hy0
  have hpos : 0 < fpMant y := by omega
  refine ⟨?_, ?_, Nat.div_mul_le_self _ _, ?_⟩
  · exact (Nat.div_pos (by omega) hpos).ne'
  · calc n ≤ fpMant x * 16 ^ 12 := Nat.div_le_self _ _
      _ < 16 ^ 6 * 16 ^ 12 := Nat.mul_lt_mul_of_pos_right h3 (by positivity)
      _ ≤ fpLimit := by unfold fpLimit hexFuel; norm_num
  · exact Nat.lt_mul_of_div_lt (Nat.lt_succ_self n) hpos

/-- A number that is the exact quotient is the integer quotient, with no remainder. -/
theorem fpDiv_exact {z : BitVec 32} {c : Nat} (hc : c + fpExp y = fpExp x + 128)
    (h : fpAbs z * fpAbs y = fpAbs x * 16 ^ 70) : fpMant x * 16 ^ 12 % fpMant y = 0 ∧
      fpMant x * 16 ^ 12 / fpMant y * 16 ^ c = fpAbs z * 16 ^ 70 := by
  have hw := fpDiv_weight hc
  have hmx := fpMant_ge hx hx0
  have hmy := fpMant_lt y
  have hmy5 := fpMant_ge hy hy0
  have hmz := fpMant_lt z
  have hscaled : fpMant x * 16 ^ 12 * 16 ^ c = fpMant z * 16 ^ (fpExp z + 70) * fpMant y := by
    apply Nat.eq_of_mul_eq_mul_right (show 0 < 16 ^ fpExp y by positivity)
    rw [hw, ← h, fpAbs, fpAbs, pow_add]
    ring
  have hle : c ≤ fpExp z + 70 := by
    by_contra hgt
    have hsplit : c = (c - (fpExp z + 70) - 1) + 1 + (fpExp z + 70) := by omega
    generalize fpExp z + 70 = a at *
    generalize c - a - 1 = q at *
    subst hsplit
    have hcancel : fpMant x * 16 ^ 12 * 16 ^ (q + 1) = fpMant z * fpMant y := by
      apply Nat.eq_of_mul_eq_mul_right (show 0 < 16 ^ a by positivity)
      rw [Nat.mul_assoc _ _ (16 ^ a), ← pow_add, hscaled]
      ring
    have hsmall : fpMant z * fpMant y < 16 ^ 6 * 16 ^ 6 := Nat.mul_lt_mul'' hmz hmy
    have hlarge : fpMant x * 16 ^ 12 ≤ fpMant x * 16 ^ 12 * 16 ^ (q + 1) := Nat.le_mul_of_pos_right _ (by positivity)
    omega
  have hproduct : fpMant x * 16 ^ 12 = fpMant z * 16 ^ (fpExp z + 70 - c) * fpMant y := by
    apply Nat.eq_of_mul_eq_mul_right (show 0 < 16 ^ c by positivity)
    rw [hscaled]
    calc fpMant z * 16 ^ (fpExp z + 70) * fpMant y
        = fpMant z * 16 ^ (fpExp z + 70 - c + c) * fpMant y := by rw [Nat.sub_add_cancel hle]
      _ = fpMant z * 16 ^ (fpExp z + 70 - c) * fpMant y * 16 ^ c := by rw [pow_add]; ring
  have hpos : 0 < fpMant y := by omega
  rw [hproduct, Nat.mul_mod_left, Nat.mul_div_cancel _ hpos, Nat.mul_assoc, ← pow_add, Nat.sub_add_cancel hle, fpAbs,
    pow_add]
  exact ⟨rfl, by ring⟩

end

theorem fpDiv_zero_delivers {y : BitVec 32} (hy : fpValid y = true) (hy0 : y ≠ 0#32) :
    Delivers (fpDiv 0#32 y) (fpInt 0#32 * 16 ^ 70) (fpInt y) := by
  have hrun : fpDiv 0#32 y = .value 0#32 := by
    have hm : fpMant 0#32 = 0 := rfl
    simp [fpDiv, hm, fpRound]
  have hpos := fpAbs_pos hy hy0
  have hnum : fpInt 0#32 * 16 ^ 70 = 0 := by rw [show fpInt 0#32 = 0 from rfl, Int.zero_mul]
  rw [hrun, hnum]
  refine ⟨fun z hz h => ?_, fun h => ?_, fun h => absurd rfl h⟩
  · have hz0 : fpInt z = 0 := (mul_eq_zero.1 h).resolve_right fun h0 => by rw [← natAbs_fpInt, h0] at hpos; exact absurd hpos (by decide)
    rw [fpAbs_eq_zero hz (by rw [← natAbs_fpInt, hz0]; rfl)]
  · rw [natAbs_fpInt] at h
    have : 0 < 16 ^ 133 * fpAbs y := Nat.mul_pos (by positivity) hpos
    omega

/-- The magnitude of an integer quotient `n` of `a` by `m`, at a weight. -/
theorem quotient_large {a m n c : Nat} (hn : n ≠ 0) (hhigh : a < (n + 1) * m) (h : 16 ^ 203 * m ≤ a * 16 ^ c) :
    16 ^ 203 ≤ n * 16 ^ c := by
  rcases Nat.le_total c 203 with hc | hc
  · have hsplit : 203 = 203 - c + c := by omega
    generalize 203 - c = q at hsplit
    rw [hsplit, pow_add] at h ⊢
    have hpos : 0 < 16 ^ c := by positivity
    have hle : 16 ^ q * m ≤ a := by
      apply Nat.le_of_mul_le_mul_right _ hpos
      calc 16 ^ q * m * 16 ^ c = 16 ^ q * 16 ^ c * m := by ring
        _ ≤ a * 16 ^ c := h
    have hlt : 16 ^ q < n + 1 := Nat.lt_of_mul_lt_mul_right (lt_of_le_of_lt hle hhigh)
    exact Nat.mul_le_mul_right _ (by omega)
  · calc 16 ^ 203 ≤ 16 ^ c := Nat.pow_le_pow_right (by norm_num) hc
      _ ≤ n * 16 ^ c := Nat.le_mul_of_pos_left _ (by omega)

theorem quotient_small {a m n c : Nat} (hlow : n * m ≤ a) (h : a * 16 ^ c < 16 ^ 75 * m) : n * 16 ^ c < 16 ^ 75 := by
  apply Nat.lt_of_mul_lt_mul_right (a := m)
  calc n * 16 ^ c * m = n * m * 16 ^ c := by ring
    _ ≤ a * 16 ^ c := Nat.mul_le_mul_right _ hlow
    _ < 16 ^ 75 * m := h

theorem fpDiv_delivers {x y : BitVec 32} (hx : fpValid x = true) (hy : fpValid y = true) (hy0 : y ≠ 0#32) :
    Delivers (fpDiv x y) (fpInt x * 16 ^ 70) (fpInt y) := by
  by_cases hx0 : x = 0#32
  · rw [hx0]
    exact fpDiv_zero_delivers hy hy0
  · obtain ⟨hn, hf, hlow, hhigh⟩ := fpDiv_quotient hx hy hx0 hy0
    obtain ⟨c, hc⟩ : ∃ c, c + fpExp y = fpExp x + 128 := ⟨fpExp x + 128 - fpExp y, by have := fpExp_lt y; omega⟩
    have hk : (fpExp x : Int) - fpExp y + 58 = (c : Int) - 70 := by omega
    have hw := fpDiv_weight hc
    have habs : (fpInt x * 16 ^ 70).natAbs = fpAbs x * 16 ^ 70 := by
      rw [Int.natAbs_mul, natAbs_fpInt, Int.natAbs_pow]
      rfl
    have hpos : 0 < 16 ^ fpExp y := by positivity
    unfold fpDiv
    rw [hk]
    refine ⟨fun z hz h => ?_, fun h => ?_, fun _ h => ?_⟩
    · have hmag : fpAbs z * fpAbs y = fpAbs x * 16 ^ 70 := by
        rw [← natAbs_fpInt, ← natAbs_fpInt y, ← Int.natAbs_mul, h, habs]
      obtain ⟨hmod, hweight⟩ := fpDiv_exact hx hy hx0 hy0 hc hmag
      simp only [hmod, ne_eq, not_true_eq_false, decide_false, msb_of_quotient (fpAbs_pos hx hx0) h]
      exact fpRound_number hn hf _ hz hweight
    · rw [habs, natAbs_fpInt] at h
      refine fpRound_large hn hf _ _ _ (quotient_large hn hhigh (Nat.le_of_mul_le_mul_right (c := 16 ^ fpExp y) ?_ hpos))
      rw [hw]
      calc 16 ^ 203 * fpMant y * 16 ^ fpExp y = 16 ^ 133 * fpAbs y * 16 ^ 70 := by rw [fpAbs]; ring
        _ ≤ fpAbs x * 16 ^ 70 * 16 ^ 70 := Nat.mul_le_mul_right _ h
    · rw [habs, natAbs_fpInt] at h
      refine fpRound_small hn hf _ _ _ (quotient_small hlow (Nat.lt_of_mul_lt_mul_right (a := 16 ^ fpExp y) ?_))
      rw [hw]
      calc fpAbs x * 16 ^ 70 * 16 ^ 70 < 16 ^ 5 * fpAbs y * 16 ^ 70 := Nat.mul_lt_mul_of_pos_right h (by positivity)
        _ = 16 ^ 75 * fpMant y * 16 ^ fpExp y := by rw [fpAbs]; ring

end Sys2Proof.Machine

end

section
/-! SUPPORT. The results of real arithmetic in the accumulator; with these the statement on the four functions is
settled (spec/48_tms99110a_extensions.md R519 to R526, R531). -/

open Sys2Proof Sys2Proof.Machine

namespace Sys2Proof.Machine

/-! ### Delivery -/

section
variable {u : State} (hc : u.calm) (hm : u.inMs = false)
include hc hm

/-- A result is stored with the status of a value. -/
theorem storeResult_run {n : Nat} (x : BitVec 32) (r : BitVec n) : ∃ v, (do
      writeFpac x
      updateSt (setLae r)
      setFault false false) u = .ok ((), v) ∧ Accumulates u v ∧ (u.fpacInRam → v.fpac = x) ∧
    StatusIs u.st v.st (resultBits r ++ [(3, false), (4, false)]) := by
  obtain ⟨w, hw⟩ : ∃ w, w = (u.putFpac x).withSt (setLae r u.st) := ⟨_, rfl⟩
  have hst : (u.putFpac x).st = u.st := by simp [State.putFpac, State.putWr]
  have hkeep (k : Nat) (h5 : 5 ≤ k) (h16 : k < 16) : stBit (setLae r u.st) k = stBit (u.putFpac x).st k := by
    rw [hst]; exact setLae_keeps r u.st k (by omega) h16
  have hacc : Accumulates u w := hw ▸ ((Accumulates.refl u).putFpac hm hc x).withSt hkeep
  have hwst : StatusIs u.st w.st (resultBits r) := by rw [hw]; exact StatusIs_setLae r u.st
  have hwf (hr : u.fpacInRam) : w.fpac = x := by
    rw [hw, fpac_withSt (hkeep 8 (by decide) (by decide)), fpac_putFpac hm hr]
  refine ⟨w.withSt (setOverflow false (setCarry false w.st)), ?_, hacc.withSt (setFault_status _ _ _), fun hr => ?_,
    (hwst.set (by decide) rfl false).set (by decide) rfl false⟩
  · rw [M.bind_ok (writeFpac_main hc hm x), updateSt_bind, hst, ← hw, setFault_apply]
  · rw [fpac_withSt (setFault_status _ _ _ 8 (by decide) (by decide)), hwf hr]

/-- On overflow, on underflow and for what has no result the accumulator and ST0 to ST2 are free. -/
theorem drawFault_run (c v : Bool) : ∃ t, (do drawFpac; drawLae; setFault c v) u = .ok ((), t) ∧ Accumulates u t ∧
    stBit t.st 3 = c ∧ stBit t.st 4 = v := by
  obtain ⟨x, hx, hax, -⟩ := drawFpac_run hc hm
  obtain ⟨y, hy, hay, -⟩ := drawLae_run x
  obtain ⟨t, ht, hat, -, -, hst⟩ := setFault_run c v y
  exact ⟨t, (M.bind_ok hx).trans ((M.bind_ok hy).trans ht), (hax.trans hm hay).trans hm hat, hst 3 (by decide),
    hst 4 (by decide)⟩

theorem deliverAny_run : ∃ t, deliverAny u = .ok ((), t) ∧ Accumulates u t := by
  obtain ⟨x, hx, hax, -⟩ := drawFpac_run hc hm
  obtain ⟨y, hy, hay, -⟩ := drawLae_run x
  obtain ⟨z, hz⟩ : ∃ z, z = (y.withDraws (y.draws + 1)).withDraws (y.draws + 2) := ⟨_, rfl⟩
  have haz : Accumulates u z := hz ▸ ((hax.trans hm hay).withDraws _).withDraws _
  obtain ⟨t, ht, hat, -⟩ := setFault_run (Config.freeBit y.draws) (Config.freeBit (y.draws + 1)) z
  refine ⟨t, (M.bind_ok hx).trans ((M.bind_ok hy).trans ?_), haz.trans hm hat⟩
  rw [← ht, hz]
  rfl

/-- What a result leaves. -/
theorem deliver_run (r : FpResult) : ∃ v, deliver r u = .ok ((), v) ∧ Accumulates u v ∧
    (∀ x, r = .value x → (u.fpacInRam → v.fpac = x) ∧ StatusIs u.st v.st (resultBits x ++ [(3, false), (4, false)])) ∧
    (r = .overflow → stBit v.st 3 = true ∧ stBit v.st 4 = true) ∧
    (r = .underflow → stBit v.st 3 = false ∧ stBit v.st 4 = true) := by
  cases r with
  | value x =>
    obtain ⟨v, hrun, hacc, hf, hst⟩ := storeResult_run hc hm x x
    exact ⟨v, hrun, hacc, fun y hy => by cases hy; exact ⟨hf, hst⟩, nofun, nofun⟩
  | overflow =>
    obtain ⟨v, hrun, hacc, h3, h4⟩ := drawFault_run hc hm true true
    exact ⟨v, hrun, hacc, nofun, fun _ => ⟨h3, h4⟩, nofun⟩
  | underflow =>
    obtain ⟨v, hrun, hacc, h3, h4⟩ := drawFault_run hc hm false true
    exact ⟨v, hrun, hacc, nofun, nofun, fun _ => ⟨h3, h4⟩⟩

end

/-! ### The four functions -/

/-- The routine of a four-function instruction, to its exit. -/
theorem realOp_exits {s : State} (h : s.romAnswers) (op : BitVec 32 → BitVec 32 → FpResult) (divides : Bool)
    (src : Operand) {w extra : Word} :
    let p := s.operand src 4#16 .sop
    let y := p.2.longAt p.1
    let a := p.2.fpac
    ∃ t u, outcome (extension w extra (realOp op divides src)) s = .next t ∧ Exits s u t ∧ Accumulates p.2 u ∧
      ((fpValid a && fpValid y && !(divides && y == 0#32)) = true →
        (∀ x, op a y = .value x →
          (p.2.fpacInRam → u.fpac = x) ∧ StatusIs p.2.st u.st (resultBits x ++ [(3, false), (4, false)])) ∧
        (op a y = .overflow → stBit u.st 3 = true ∧ stBit u.st 4 = true) ∧
        (op a y = .underflow → stBit u.st 3 = false ∧ stBit u.st 4 = true)) := by
  intro p y a
  obtain ⟨hm, -, hc⟩ := id h
  have hp : Routine s p.2 := routine_operand hc hm src _ _
  have hsrc : srcLoc src longStep s = .ok (p.1, p.2) := srcLoc_calm hc (State.derives_main hm src) longStep
  have hy : readLong p.1 p.2 = .ok (y, p.2) := readLong_main (hp.calm hc) (State.operand_space hm src _ _)
  have ha : readFpac p.2 = .ok (a, p.2) := readFpac_main (hp.calm hc) (hp.inMs hm)
  by_cases hv : (fpValid a && fpValid y && !(divides && y == 0#32)) = true
  · obtain ⟨u, hrun, hacc, hresult⟩ := deliver_run (hp.calm hc) (hp.inMs hm) (op a y)
    obtain ⟨t, ht, hexits⟩ := extension_exits h (hp.trans hacc.toRoutine) (w := w) (extra := extra)
      (body := realOp op divides src) (by
        rw [realOp, M.bind_ok hsrc, M.bind_ok hy, M.bind_ok ha, if_pos hv, M.bind_ok hrun])
    exact ⟨t, u, ht, hexits, hacc, fun _ => hresult⟩
  · obtain ⟨u, hrun, hacc⟩ := deliverAny_run (hp.calm hc) (hp.inMs hm)
    obtain ⟨t, ht, hexits⟩ := extension_exits h (hp.trans hacc.toRoutine) (w := w) (extra := extra)
      (body := realOp op divides src) (by
        rw [realOp, M.bind_ok hsrc, M.bind_ok hy, M.bind_ok ha, if_neg hv, M.bind_ok hrun])
    exact ⟨t, u, ht, hexits, hacc, fun h => absurd h hv⟩

open Sys2Proof.Claims in
/-- A four-function instruction whose results deliver its quotient. -/
theorem realOp_of {mk : Operand → Instr} {op : BitVec 32 → BitVec 32 → FpResult} {divides : Bool}
    {defined : BitVec 32 → Prop} {num den : Int → Int → Int} {word : Operand → Word}
    (hexec : ∀ src s, exec (mk src) s = outcome (extension (word src) 0#16 (realOp op divides src)) s)
    (hdefined : ∀ y, defined y → (divides && y == 0#32) = false)
    (hdelivers : ∀ a y, fpValid a = true → fpValid y = true → defined y →
      Delivers (op a y) (num (fpInt a) (fpInt y)) (den (fpInt a) (fpInt y))) : RealOp mk defined num den := by
  intro src s hrom p y a n d
  obtain ⟨hm, -, hc⟩ := id hrom
  have hp : Routine s p.2 := routine_operand hc hm src _ _
  have hst : p.2.st = s.st := State.operand_st ..
  obtain ⟨t, u, ht, hexits, hacc, hresult⟩ := realOp_exits hrom op divides src (w := word src) (extra := 0#16)
  obtain ⟨hleaves, hmem, htst, -⟩ := id hexits
  refine ⟨t, (hexec src s).trans ht, hleaves.of_pc hacc.pc, fun k h5 h16 => ?status, fun b hb => ?bytes,
    fun ha hy hd => ?result⟩
  case status => rw [htst, hacc.status k h5 h16, hst]
  case bytes =>
    rw [hmem]
    exact hacc.bytes b fun l hl => (hp.covers l .main b).not.2 (hb l hl)
  case result =>
    obtain ⟨hvalue, hover, hunder⟩ := hresult (by rw [ha, hy, hdefined _ hd]; rfl)
    obtain ⟨hexact, hlarge, hsmall⟩ := hdelivers a y ha hy hd
    rw [htst, hexits.fpac, ← hp.fpacInRam hm, ← hst]
    exact ⟨fun z hz h => hvalue z (hexact z hz h), fun h => hover (hlarge h), fun h0 h => hunder (hsmall h0 h)⟩

end Sys2Proof.Machine

/-- Settles O48: each of the four rounds the exact result once. -/
theorem realArithmetic : Obligations.RealArithmetic :=
  ⟨realOp_of (fun _ _ => rfl) (fun _ _ => rfl) fun a y _ _ _ => fpAdd_delivers a y,
    realOp_of (fun _ _ => rfl) (fun _ _ => rfl) fun a y _ _ _ => fpSub_delivers a y,
    realOp_of (fun _ _ => rfl) (fun _ _ => rfl) fun a y _ _ _ => fpMul_delivers a y,
    realOp_of (fun _ _ => rfl) (fun _ h => by simpa using h) fun _ _ ha hy hd => fpDiv_delivers ha hy hd⟩

end

section
/-! SUPPORT. Conversions between integers and the TMS99110A's numbers; with these the statement on CIR, CER, CRI and CRE
is settled (spec/48_tms99110a_extensions.md R527, R532, R534, R535). -/

open Sys2Proof Sys2Proof.Machine

namespace Sys2Proof.Machine

/-! ### An integer as a number -/

/-- An integer of more than six digits lies past the number of its first six, short of the next. -/
theorem between_sixDigits {n p : Nat} (hlow : 16 ^ p ≤ n) (hhigh : n < 16 ^ (p + 1)) (hmore : moreDigits n p = true) :
    ∃ q, p = 5 + q ∧ sixDigits n p * 16 ^ q < n ∧ n < (sixDigits n p + 1) * 16 ^ q ∧ 16 ^ 6 < n := by
  have hbound := (sixDigits_bounds hlow hhigh).1
  rw [moreDigits, Bool.and_eq_true, decide_eq_true_eq, decide_eq_true_eq] at hmore
  obtain ⟨hp, hr⟩ := hmore
  rw [sixDigits, if_pos hp] at hbound ⊢
  have hdiv := Nat.div_add_mod' n (16 ^ (p - 5))
  have hlt := Nat.mod_lt n (show 0 < 16 ^ (p - 5) by positivity)
  have hq : p - 5 ≠ 0 := fun h0 => by rw [h0, pow_zero, Nat.mod_one] at hr; exact hr rfl
  have h16 : 16 ^ 1 ≤ 16 ^ (p - 5) := Nat.pow_le_pow_right (by norm_num) (by omega)
  refine ⟨p - 5, by omega, by omega, by rw [Nat.add_mul]; omega, ?_⟩
  calc 16 ^ 6 = 16 ^ 5 * 16 ^ 1 := by norm_num
    _ ≤ n / 16 ^ (p - 5) * 16 ^ (p - 5) := Nat.mul_le_mul hbound h16
    _ < n := by omega

/-- An integer of no more digits is the number of its first six. -/
theorem sixDigits_weight {n p E : Nat} (hmore : moreDigits n p = false) (hE : E = 65 + p) :
    sixDigits n p * 16 ^ E = n * 16 ^ 70 := by
  by_cases hp : 5 ≤ p
  · have hr : n % 16 ^ (p - 5) = 0 := by simpa [moreDigits, hp] using hmore
    have hdiv := Nat.div_add_mod' n (16 ^ (p - 5))
    rw [sixDigits, if_pos hp, show E = p - 5 + 70 by omega, pow_add, ← Nat.mul_assoc]
    congr 1
    omega
  · rw [sixDigits, if_neg hp, Nat.mul_assoc, ← pow_add]
    congr 2
    omega

/-- ST0 to ST2 of the number that an integer becomes. -/
def integerBits (v : Int) : List (Nat × Bool) := [(0, decide (v ≠ 0)), (1, decide (0 < v)), (2, decide (v = 0))]

/-- What a number has to do with the integer it stands for (spec/48_tms99110a_extensions.md R527, R535). -/
structure Approximates (z : BitVec 32) (v : Int) : Prop where
  valid : fpValid z = true
  exact : v.natAbs ≤ 2 ^ 24 → fpInt z = v * 16 ^ 70
  near : (fpInt z - v * 16 ^ 70).natAbs < 16 ^ fpExp z
  bits : resultBits z = integerBits v

theorem resultBits_number {z : BitVec 32} {v : Int} (hv : v ≠ 0) (hm : z.msb = decide (v < 0)) (hz : z ≠ 0#32) :
    resultBits z = integerBits v := by
  have hneg : z.toInt < 0 ↔ v < 0 := by
    have := BitVec.msb_eq_toInt (x := z)
    rw [this, decide_eq_decide] at hm
    exact hm
  have hzero : z.toInt ≠ 0 := fun h => hz (BitVec.toInt_inj.1 (h.trans BitVec.toInt_zero.symm))
  have hpos : 0 < z.toInt ↔ 0 < v := by omega
  simp only [resultBits, integerBits, hpos, hzero, hv, ne_eq]

theorem natAbs_sub_lt_of_between {x y z w b : Nat} (hx : x = y ∨ x = y + w) (h1 : y < z) (h2 : z < y + w) (hle : w ≤ b) :
    ((x : Int) - (z : Int)).natAbs < b := by
  omega

/-- The number next to an integer that the rounding chooses. -/
theorem neighbour_near {n p e m : Nat} (hlow : 16 ^ p ≤ n) (hhigh : n < 16 ^ (p + 1)) (hE : 65 + p ≤ e)
    (hvalue : m * 16 ^ e = sixDigits n p * 16 ^ (65 + p) ∨
      (moreDigits n p = true ∧ m * 16 ^ e = (sixDigits n p + 1) * 16 ^ (65 + p))) :
    (n ≤ 2 ^ 24 → m * 16 ^ e = n * 16 ^ 70) ∧
      ((m * 16 ^ e : Nat) - (n * 16 ^ 70 : Nat) : Int).natAbs < 16 ^ e := by
  have hpos : 0 < 16 ^ e := by positivity
  cases hmore : moreDigits n p with
  | false =>
    have hexact : m * 16 ^ e = n * 16 ^ 70 :=
      (hvalue.resolve_right (by simp [hmore])).trans (sixDigits_weight hmore rfl)
    exact ⟨fun _ => hexact, by rw [hexact, sub_self]; exact hpos⟩
  | true =>
    obtain ⟨q, hq, hbelow, habove, hlarge⟩ := between_sixDigits hlow hhigh hmore
    refine ⟨fun h => absurd h (by norm_num at hlarge; omega), ?_⟩
    have hw : 16 ^ (65 + p) = 16 ^ q * 16 ^ 70 := by rw [← pow_add, hq]; congr 1; omega
    have hle : 16 ^ (65 + p) ≤ 16 ^ e := Nat.pow_le_pow_right (by norm_num) hE
    have h1 : sixDigits n p * 16 ^ (65 + p) < n * 16 ^ 70 := by
      rw [hw, ← Nat.mul_assoc]
      exact Nat.mul_lt_mul_of_pos_right hbelow (by positivity)
    have h2 : n * 16 ^ 70 < sixDigits n p * 16 ^ (65 + p) + 16 ^ (65 + p) := by
      rw [← Nat.succ_mul, hw, ← Nat.mul_assoc]
      exact Nat.mul_lt_mul_of_pos_right habove (by positivity)
    rw [Nat.add_mul, Nat.one_mul] at hvalue
    exact natAbs_sub_lt_of_between (hvalue.imp_right fun h => h.2) h1 h2 hle

theorem natAbs_signFactor_mul (b : Bool) (v : Int) : (signFactor b * v).natAbs = v.natAbs := by
  cases b <;> simp [signFactor]

theorem eq_signFactor_mul (v : Int) : v = signFactor (decide (v < 0)) * v.natAbs := by
  unfold signFactor
  by_cases h : v < 0
  · simp only [h, decide_true, if_true]; omega
  · simp only [h, decide_false, Bool.false_eq_true, if_false]; omega

/-- An integer of up to 32 bits becomes a number next to it, and one of up to six digits itself. -/
theorem fpOfInt_approximates {v : Int} (hv : v.natAbs ≤ 2 ^ 31) (away : Bool) :
    ∃ z, fpOfInt v 70 away = .value z ∧ Approximates z v := by
  by_cases h0 : v = 0
  · subst h0
    exact ⟨0#32, rfl, rfl, fun _ => rfl, by decide, rfl⟩
  · obtain ⟨n, hn⟩ : ∃ n, n = v.natAbs := ⟨_, rfl⟩
    have hn0 : n ≠ 0 := by omega
    obtain ⟨p, hp, hlow, hhigh⟩ := hexDigits_spec hexFuel n hn0 (lt_of_le_of_lt (hn ▸ hv) (by unfold hexFuel; norm_num))
    have hp8 : p < 8 := by
      refine (Nat.pow_lt_pow_iff_right (a := 16) (by norm_num)).1 (lt_of_le_of_lt hlow ?_)
      rw [hn]
      exact lt_of_le_of_lt hv (by norm_num)
    obtain ⟨h5, h6⟩ := sixDigits_bounds hlow hhigh
    obtain ⟨e, m, hround, he, hEe, hm5, hm6, hvalue⟩ := fpRound_neighbour (decide (v < 0)) away hn0 hp (k := 70)
      (E := 65 + p) (by push_cast; ring) (by omega) h5 h6
    obtain ⟨hexact, hnear⟩ := neighbour_near hlow hhigh hEe hvalue
    obtain ⟨z, hz⟩ : ∃ z, z = fpPack (decide (v < 0)) e m := ⟨_, rfl⟩
    have hzint : fpInt z = signFactor (decide (v < 0)) * (m * 16 ^ e : Nat) := by
      rw [fpInt_eq_sign, hz, msb_fpPack _ he hm6, fpAbs_fpPack _ he hm6]
    have hvint : v * 16 ^ 70 = signFactor (decide (v < 0)) * (n * 16 ^ 70 : Nat) := by
      conv_lhs => rw [eq_signFactor_mul v]
      rw [hn]; push_cast; ring
    have hz0 : z ≠ 0#32 := fun h => by
      have hmant : fpMant z = m := by rw [hz, fpMant_fpPack _ he hm6]
      rw [h, show fpMant 0#32 = 0 from rfl] at hmant
      omega
    refine ⟨z, by rw [fpOfInt, ← hn, hround, hz], hz ▸ fpValid_fpPack _ he hm6 hm5, fun h24 => ?_, ?_,
      resultBits_number h0 (hz ▸ msb_fpPack _ he hm6) hz0⟩
    · rw [hzint, hvint, hexact (hn ▸ h24)]
    · rw [hzint, hvint, ← Int.mul_sub, natAbs_signFactor_mul, hz, fpExp_fpPack _ he hm6]
      exact hnear

/-! ### A number as an integer -/

/-- The magnitude of a number as an integer, a fraction dropped or rounded away. -/
def fpIntegerPart (x : BitVec 32) (away : Bool) : Nat :=
  if 70 ≤ fpExp x then fpMant x * 16 ^ (fpExp x - 70)
  else if fpMant x % 16 ^ (70 - fpExp x) ≠ 0 ∧ away = true then fpMant x / 16 ^ (70 - fpExp x) + 1
  else fpMant x / 16 ^ (70 - fpExp x)

theorem fpToInt_eq (x : BitVec 32) (away : Bool) : fpToInt x away = signFactor x.msb * fpIntegerPart x away := by
  simp only [fpToInt, fpIntegerPart, signFactor]
  split <;> push_cast <;> ring

theorem fpIntegerPart_spec (x : BitVec 32) (away : Bool) (n : Nat) :
    (fpAbs x = n * 16 ^ 70 → fpIntegerPart x away = n) ∧ (n * 16 ^ 70 ≤ fpAbs x → n ≤ fpIntegerPart x away) := by
  unfold fpIntegerPart fpAbs
  by_cases h : 70 ≤ fpExp x
  · obtain ⟨q, hq⟩ : ∃ q, fpExp x = q + 70 := ⟨fpExp x - 70, by omega⟩
    rw [if_pos h, hq, Nat.add_sub_cancel, pow_add, ← Nat.mul_assoc]
    have hpos : 0 < 16 ^ 70 := by positivity
    exact ⟨fun h => Nat.eq_of_mul_eq_mul_right hpos h, fun h => Nat.le_of_mul_le_mul_right h hpos⟩
  · obtain ⟨d, hd⟩ : ∃ d, 70 = d + fpExp x := ⟨70 - fpExp x, by omega⟩
    have hsub : 70 - fpExp x = d := by omega
    have hpow : 16 ^ 70 = 16 ^ d * 16 ^ fpExp x := by rw [← pow_add, ← hd]
    have hpos : 0 < 16 ^ fpExp x := by positivity
    have hdpos : 0 < 16 ^ d := by positivity
    rw [if_neg h, hsub, hpow, ← Nat.mul_assoc]
    refine ⟨fun h => ?_, fun h => ?_⟩
    · rw [Nat.eq_of_mul_eq_mul_right hpos h, Nat.mul_mod_left, Nat.mul_div_cancel _ hdpos, if_neg (by simp)]
    · have hle := (Nat.le_div_iff_mul_le hdpos).2 (Nat.le_of_mul_le_mul_right h hpos)
      split <;> omega

/-- A number that is an integer becomes that integer. -/
theorem fpToInt_exact {x : BitVec 32} {n : Int} (h : fpInt x = n * 16 ^ 70) (away : Bool) : fpToInt x away = n := by
  have habs : fpAbs x = n.natAbs * 16 ^ 70 := by
    rw [← natAbs_fpInt, h, Int.natAbs_mul, Int.natAbs_pow]
    rfl
  apply Int.eq_of_mul_eq_mul_right (show (16 ^ 70 : Int) ≠ 0 by positivity)
  rw [fpToInt_eq, (fpIntegerPart_spec x away _).1 habs, ← h, fpInt_eq_sign, habs]
  push_cast
  ring

/-- A number of at least an integer's magnitude becomes an integer of at least that. -/
theorem fpToInt_bounds (x : BitVec 32) (away : Bool) (n : Nat) :
    (fpInt x ≤ -(n : Int) * 16 ^ 70 → 0 < n → fpToInt x away ≤ -n) ∧ (n * 16 ^ 70 ≤ fpInt x → 0 < n → n ≤ fpToInt x away) := by
  have hle := (fpIntegerPart_spec x away n).2
  rw [fpToInt_eq, fpInt_eq_sign]
  have hcast : (n : Int) * 16 ^ 70 = (n * 16 ^ 70 : Nat) := by push_cast; rfl
  have hpos : 0 < n → 0 < n * 16 ^ 70 := fun h => Nat.mul_pos h (by positivity)
  rw [Int.neg_mul, hcast]
  generalize n * 16 ^ 70 = m at *
  cases x.msb with
  | false => simp only [signFactor, Bool.false_eq_true, if_false]; omega
  | true => simp only [signFactor, if_true]; omega

theorem fitsSigned_iff (w : Nat) (v : Int) : fitsSigned w v = true ↔ -(2 ^ (w - 1) : Int) ≤ v ∧ v < 2 ^ (w - 1) := by
  simp [fitsSigned]

theorem resultBits_ofInt {w : Nat} (hw : 0 < w) {v : Int} (h : fitsSigned w v = true) :
    resultBits (BitVec.ofInt w v) = integerBits v := by
  obtain ⟨hlow, hhigh⟩ := (fitsSigned_iff w v).1 h
  rw [resultBits, BitVec.toInt_ofInt_eq_self hw hlow hhigh, integerBits]

/-! ### CIR and CER -/

theorem StatusIs.fault {a b c : Word} {v : Int} (h : StatusIs a b (integerBits v ++ [(3, false), (4, false)]))
    (k : StatusIs b c [(3, true), (4, false)]) : StatusIs a c (integerBits v ++ [(3, true), (4, false)]) := by
  intro n hn
  rw [(h.trans k) n hn]
  interval_cases n <;> rfl

/-- An integer delivered as a number, with ST3 set (spec/48_tms99110a_extensions.md R531). -/
theorem deliver_integer {u : State} (hc : u.calm) (hm : u.inMs = false) {v : Int} (hv : v.natAbs ≤ 2 ^ 31) (away : Bool) :
    ∃ x w, deliver (fpOfInt v 70 away) u = .ok ((), x) ∧ setFault true false x = .ok ((), w) ∧ Accumulates u w ∧
      (u.fpacInRam → Approximates w.fpac v) ∧ StatusIs u.st w.st (integerBits v ++ [(3, true), (4, false)]) := by
  obtain ⟨z, hz, happrox⟩ := fpOfInt_approximates hv away
  obtain ⟨x, hx, hax, hvalue, -⟩ := deliver_run hc hm (fpOfInt v 70 away)
  obtain ⟨hfx, hstx⟩ := hvalue z hz
  obtain ⟨w, hw, haw, -, hfw, hstw⟩ := setFault_run true false x
  rw [happrox.bits] at hstx
  exact ⟨x, w, hx, hw, hax.trans hm haw, fun hr => by rw [hfw, hfx hr]; exact happrox, hstx.fault hstw⟩

theorem natAbs_toInt_le {w : Nat} (hw : w ≤ 32) (x : BitVec w) : x.toInt.natAbs ≤ 2 ^ 31 := by
  have hlow := BitVec.le_toInt x
  have hhigh := BitVec.toInt_lt (x := x)
  have hpow : (2 : Int) ^ (w - 1) ≤ 2 ^ 31 := pow_le_pow_right₀ (by norm_num) (by omega)
  omega

theorem exec_cir {s : State} (h : s.romAnswers) (src : Operand) :
    let p := s.operand src 4#16 .sop
    let x := (p.2.wordAt p.1).toInt
    ∃ t u, exec (.cir src) s = .next t ∧ Exits s u t ∧ Accumulates p.2 u ∧
      (p.2.fpacInRam → Approximates u.fpac x) ∧ StatusIs p.2.st u.st (integerBits x ++ [(3, true), (4, false)]) := by
  intro p x
  obtain ⟨hm, -, hc⟩ := id h
  have hp : Routine s p.2 := routine_operand hc hm src _ _
  have hsrc : srcLoc src longStep s = .ok (p.1, p.2) := srcLoc_calm hc (State.derives_main hm src) longStep
  have hread : readLoc p.1 p.2 = .ok (p.2.wordAt p.1, p.2) :=
    readLoc_calm (hp.calm hc) (State.reads_main (State.operand_space hm src _ _))
  obtain ⟨v, u, hdeliver, hfault, hacc, hvalue, hst⟩ := deliver_integer (hp.calm hc) (hp.inMs hm)
    (natAbs_toInt_le (by decide) (p.2.wordAt p.1)) false
  have hrun : ∃ t, exec (.cir src) s = .next t ∧ Exits s u t := by
    refine extension_exits h (hp.trans hacc.toRoutine) ?_
    rw [M.bind_ok hsrc, M.bind_ok hread, M.bind_ok hdeliver, M.bind_ok hfault]
  obtain ⟨t, ht, hexits⟩ := hrun
  exact ⟨t, u, ht, hexits, hacc, hvalue, hst⟩

theorem exec_cer {s : State} (h : s.romAnswers) :
    ∃ t u, exec .cer s = .next t ∧ Exits s u t ∧ Accumulates s u ∧
      (s.fpacInRam → Approximates u.fpac s.fpac.toInt) ∧
      StatusIs s.st u.st (integerBits s.fpac.toInt ++ [(3, true), (4, false)]) := by
  obtain ⟨hm, -, hc⟩ := id h
  obtain ⟨v, u, hdeliver, hfault, hacc, hvalue, hst⟩ := deliver_integer hc hm (natAbs_toInt_le (le_refl 32) s.fpac)
    (Config.fpAway .fromExtended s.fpac 0#32)
  have hrun : ∃ t, exec .cer s = .next t ∧ Exits s u t := by
    refine extension_exits h hacc.toRoutine ?_
    rw [M.bind_ok (readFpac_main hc hm), M.bind_ok hdeliver, M.bind_ok hfault]
  obtain ⟨t, ht, hexits⟩ := hrun
  exact ⟨t, u, ht, hexits, hacc, hvalue, hst⟩

/-! ### CRI and CRE -/

/-- What the conversion of a number to an integer of a width leaves in `u`, with its value where it is one that fits. -/
def ConvertsTo (s u : State) (w : Nat) (v : Int) (value : BitVec w) : Prop :=
  (fitsSigned w v = true → (s.fpacInRam → value = BitVec.ofInt w v) ∧
    StatusIs s.st u.st (integerBits v ++ [(3, false), (4, false)])) ∧
  (fitsSigned w v = false → stBit u.st 3 = true ∧ stBit u.st 4 = true)

theorem exec_cri {s : State} (h : s.romAnswers) : ∃ t u, exec .cri s = .next t ∧ Exits s u t ∧ Accumulates s u ∧
    (fpValid s.fpac = true → ConvertsTo s u 16 (fpToInt s.fpac (Config.fpAway .toInt s.fpac 0#32)) (u.wr 0#4)) := by
  obtain ⟨hm, -, hc⟩ := id h
  obtain ⟨x, hx⟩ : ∃ x, x = s.withDraws (s.draws + 1) := ⟨_, rfl⟩
  have hax : Accumulates s x := hx ▸ (Accumulates.refl s).withDraws _
  have hdraw : drawWord s = .ok (Config.freeWord s.draws, x) := hx ▸ drawWord_apply s
  have hxst : x.st = s.st := by rw [hx]; rfl
  have hxc := hax.calm hc
  have hxm := hax.inMs hm
  by_cases hvalid : fpValid s.fpac = true
  · generalize hv : fpToInt s.fpac (Config.fpAway .toInt s.fpac 0#32) = v
    by_cases hfits : fitsSigned 16 v = true
    · obtain ⟨u, hrun, hau, hf, hst⟩ := storeResult_run hxc hxm
        (longOf (BitVec.ofInt 16 v) (Config.freeWord s.draws)) (BitVec.ofInt 16 v)
      have hexec : ∃ t, exec .cri s = .next t ∧ Exits s u t := by
        refine extension_exits h (hax.toRoutine.trans hau.toRoutine) ?_
        rw [convertToInt, M.bind_ok (readFpac_main hc hm), M.bind_ok hdraw, if_pos hvalid]
        simp only [hv, hfits, if_true]
        have hend := M.bind_ok (f := fun _ => romExit) hrun
        simp only [writeFpac, hiWord_longOf, loWord_longOf, bind_assoc] at hend
        exact hend
      obtain ⟨t, ht, hexits⟩ := hexec
      refine ⟨t, u, ht, hexits, hax.trans hm hau, fun _ => ⟨fun _ => ⟨fun hr => ?_, ?_⟩, fun h => by rw [hfits] at h; nomatch h⟩⟩
      · rw [← hiWord_longOf (u.wr 0#4) (u.wr 1#4), ← State.fpac, hf ((hax.toRoutine.fpacInRam hm).2 hr), hiWord_longOf]
      · rw [hxst, resultBits_ofInt (by decide) hfits] at hst
        exact hst
    · obtain ⟨u, hrun, hau, h3, h4⟩ := drawFault_run hxc hxm true true
      have hexec : ∃ t, exec .cri s = .next t ∧ Exits s u t := by
        refine extension_exits h (hax.toRoutine.trans hau.toRoutine) ?_
        rw [convertToInt, M.bind_ok (readFpac_main hc hm), M.bind_ok hdraw, if_pos hvalid]
        simp only [hv, hfits, if_false, Bool.false_eq_true]
        have hend := M.bind_ok (f := fun _ => romExit) hrun
        simp only [bind_assoc] at hend
        exact hend
      obtain ⟨t, ht, hexits⟩ := hexec
      exact ⟨t, u, ht, hexits, hax.trans hm hau, fun _ => ⟨fun h => absurd h hfits, fun _ => ⟨h3, h4⟩⟩⟩
  · obtain ⟨u, hrun, hau⟩ := deliverAny_run hxc hxm
    have hexec : ∃ t, exec .cri s = .next t ∧ Exits s u t := by
      refine extension_exits h (hax.toRoutine.trans hau.toRoutine) ?_
      rw [convertToInt, M.bind_ok (readFpac_main hc hm), M.bind_ok hdraw, if_neg hvalid, M.bind_ok hrun]
    obtain ⟨t, ht, hexits⟩ := hexec
    exact ⟨t, u, ht, hexits, hax.trans hm hau, fun h => absurd h hvalid⟩

theorem exec_cre {s : State} (h : s.romAnswers) : ∃ t u, exec .cre s = .next t ∧ Exits s u t ∧ Accumulates s u ∧
    (fpValid s.fpac = true → ConvertsTo s u 32 (fpToInt s.fpac (Config.fpAway .toExtended s.fpac 0#32)) u.fpac) := by
  obtain ⟨hm, -, hc⟩ := id h
  by_cases hvalid : fpValid s.fpac = true
  · generalize hv : fpToInt s.fpac (Config.fpAway .toExtended s.fpac 0#32) = v
    by_cases hfits : fitsSigned 32 v = true
    · obtain ⟨u, hrun, hau, hf, hst⟩ := storeResult_run hc hm (BitVec.ofInt 32 v) (BitVec.ofInt 32 v)
      have hexec : ∃ t, exec .cre s = .next t ∧ Exits s u t := by
        refine extension_exits h hau.toRoutine ?_
        rw [M.bind_ok (readFpac_main hc hm), if_pos hvalid]
        simp only [hv, hfits, if_true]
        have hend := M.bind_ok (f := fun _ => romExit) hrun
        simp only [bind_assoc] at hend
        exact hend
      obtain ⟨t, ht, hexits⟩ := hexec
      rw [resultBits_ofInt (by decide) hfits] at hst
      exact ⟨t, u, ht, hexits, hau, fun _ => ⟨fun _ => ⟨hf, hst⟩, fun h => by rw [hfits] at h; nomatch h⟩⟩
    · obtain ⟨u, hrun, hau, h3, h4⟩ := drawFault_run hc hm true true
      have hexec : ∃ t, exec .cre s = .next t ∧ Exits s u t := by
        refine extension_exits h hau.toRoutine ?_
        rw [M.bind_ok (readFpac_main hc hm), if_pos hvalid]
        simp only [hv, hfits, if_false, Bool.false_eq_true]
        have hend := M.bind_ok (f := fun _ => romExit) hrun
        simp only [bind_assoc] at hend
        exact hend
      obtain ⟨t, ht, hexits⟩ := hexec
      exact ⟨t, u, ht, hexits, hau, fun _ => ⟨fun h => absurd h hfits, fun _ => ⟨h3, h4⟩⟩⟩
  · obtain ⟨u, hrun, hau⟩ := deliverAny_run hc hm
    have hexec : ∃ t, exec .cre s = .next t ∧ Exits s u t := by
      refine extension_exits h hau.toRoutine ?_
      rw [M.bind_ok (readFpac_main hc hm), if_neg hvalid, M.bind_ok hrun]
    obtain ⟨t, ht, hexits⟩ := hexec
    exact ⟨t, u, ht, hexits, hau, fun h => absurd h hvalid⟩

/-- What a conversion leaves where the number is an integer that fits, and where its magnitude cannot fit. -/
theorem ConvertsTo.of_number {s u : State} {w : Nat} {away : Bool} {value : BitVec w}
    (h : ConvertsTo s u w (fpToInt s.fpac away) value) :
    (∀ n : Int, fpInt s.fpac = n * 16 ^ 70 → -(2 ^ (w - 1) : Int) ≤ n → n < 2 ^ (w - 1) →
      (s.fpacInRam → value = BitVec.ofInt w n) ∧ StatusIs s.st u.st (integerBits n ++ [(3, false), (4, false)])) ∧
    (fpInt s.fpac ≤ -(2 ^ (w - 1) + 1 : Nat) * 16 ^ 70 ∨ (2 ^ (w - 1) : Nat) * 16 ^ 70 ≤ fpInt s.fpac →
      stBit u.st 3 = true ∧ stBit u.st 4 = true) := by
  refine ⟨fun n hn hlow hhigh => ?_, fun hlarge => h.2 (Bool.eq_false_iff.2 fun hfits => ?_)⟩
  · have hv := fpToInt_exact hn away
    rw [hv] at h
    exact h.1 ((fitsSigned_iff w n).2 ⟨hlow, hhigh⟩)
  · obtain ⟨hlow, hhigh⟩ := (fitsSigned_iff w _).1 hfits
    rcases hlarge with hlarge | hlarge
    · have := (fpToInt_bounds s.fpac away _).1 hlarge (by positivity)
      push_cast at this
      omega
    · have := (fpToInt_bounds s.fpac away _).2 hlarge (by positivity)
      push_cast at this
      omega

end Sys2Proof.Machine

/-- Settles O50: each conversion by what it delivers, and that by the value of the number. -/
theorem realConversions : Obligations.RealConversions := by
  intro src s hrom p x v sign keeps
  obtain ⟨hm, -, hc⟩ := id hrom
  have hp : Routine s p.2 := routine_operand hc hm src _ _
  have hpst : p.2.st = s.st := State.operand_st ..
  have hkeeps {u w t : State} (hu : Routine s u) (hust : u.st = s.st) (hexits : Exits s w t) (hacc : Accumulates u w) :
      keeps u t := by
    obtain ⟨-, hmem, hst, -⟩ := hexits
    refine ⟨fun k h5 h16 => by rw [hst, hacc.status k h5 h16, hust], fun b hb => ?_⟩
    rw [hmem]
    exact hacc.bytes b fun l hl => (hu.covers l .main b).not.2 (hb l hl)
  refine ⟨?cir, ?cer, ?cri, ?cre⟩
  case cir =>
    obtain ⟨t, u, ht, hexits, hacc, hvalue, hst⟩ := exec_cir hrom src
    refine ⟨t, ht, hexits.1.of_pc hacc.pc, hkeeps hp hpst hexits hacc, fun hr => ?_, ?_⟩
    · have happrox := hvalue ((hp.fpacInRam hm).2 hr)
      rw [hexits.fpac]
      have hlow := BitVec.le_toInt (p.2.wordAt p.1)
      have hhigh := BitVec.toInt_lt (x := p.2.wordAt p.1)
      exact ⟨happrox.valid, happrox.exact (show x.natAbs ≤ 2 ^ 24 by norm_num at hlow hhigh ⊢; omega)⟩
    · rw [hexits.2.2.1, ← hpst]
      exact hst
  case cer =>
    obtain ⟨t, u, ht, hexits, hacc, hvalue, hst⟩ := exec_cer hrom
    refine ⟨t, ht, hexits.1.of_pc hacc.pc, hkeeps (.refl s) rfl hexits hacc, fun hr => ?_, hexits.2.2.1 ▸ hst⟩
    have happrox := hvalue hr
    rw [hexits.fpac]
    exact ⟨happrox.valid, happrox.exact, happrox.near⟩
  case cri =>
    obtain ⟨t, u, ht, hexits, hacc, hvalue⟩ := exec_cri hrom
    refine ⟨t, ht, hexits.1.of_pc hacc.pc, hkeeps (.refl s) rfl hexits hacc, fun hv => ?_⟩
    obtain ⟨hexact, hlarge⟩ := (hvalue hv).of_number
    rw [hexits.2.2.1, hexits.2.2.2]
    exact ⟨fun n hn hlow hhigh => hexact n hn hlow (by norm_num; omega), fun h => hlarge h⟩
  case cre =>
    obtain ⟨t, u, ht, hexits, hacc, hvalue⟩ := exec_cre hrom
    refine ⟨t, ht, hexits.1.of_pc hacc.pc, hkeeps (.refl s) rfl hexits hacc, fun hv => ?_⟩
    obtain ⟨hexact, hlarge⟩ := (hvalue hv).of_number
    rw [hexits.2.2.1, hexits.fpac]
    exact ⟨fun n hn hlow hhigh => hexact n hn hlow (by norm_num; omega), fun h => hlarge h⟩

end

section
/-! SUPPORT. The queue of bus events under every instruction: what is done takes events from it and adds none, and
RESET cuts only at one of them (spec/70_reset_and_hazards.md R631). -/

open Sys2Proof Sys2Proof.Machine

namespace Sys2Proof.Machine

/-! ### The calculus -/

/-- From `s` to `t` no event has come to the queue, and no reset has become due. -/
structure Follows (s t : State) : Prop where
  bus : ∀ e ∈ t.bus, e ∈ s.bus
  due : t.resetDue = s.resetDue

theorem Follows.of_eq {s t : State} (hb : t.bus = s.bus) (hr : t.resetDue = s.resetDue) : Follows s t :=
  ⟨fun _ he => hb ▸ he, hr⟩

theorem Follows.trans {s t u : State} (h : Follows s t) (k : Follows t u) : Follows s u :=
  ⟨fun e he => h.bus e (k.bus e he), k.due.trans h.due⟩

/-- The environment presents RESET before some bus cycle to come. -/
def State.ResetQueued (s : State) : Prop := ∃ e ∈ s.bus, e.reset = true

/-- The computation takes events from the queue in order, and RESET cuts it only where one of them presents it. -/
structure Heeds {α : Type} (m : M α) : Prop where
  ends : ∀ s, Ends (Follows s) (fun _ => s.ResetQueued) (m s)

/-- An outcome in which a reset has become due is that of an instruction cut at an event of the queue. -/
def CutByEvent (s : State) (o : Host.Outcome State Fault Refusal) : Prop :=
  ∀ t, s.resetDue = false → o = .next t → t.resetDue = true → s.ResetQueued

theorem Heeds.outcome {m : M Unit} (h : Heeds m) (s : State) : CutByEvent s (Machine.outcome m s) := by
  intro t hs ho ht
  have hm := h.ends s
  rcases outcome_next.1 ho with e | ⟨u, e, rfl⟩ <;> rw [e] at hm
  · exact absurd (hm.due.symm.trans ht) (by simp [hs])
  · exact hm

section
variable {α β : Type}

theorem Heeds.bind {m : M α} {k : α → M β} (h : Heeds m) (hk : ∀ a, Heeds (k a)) : Heeds (m >>= k) := by
  refine ⟨fun s => ?_⟩
  have hm := h.ends s
  rw [M.bind_apply]
  cases hr : m s with
  | ok p =>
    rw [hr] at hm
    have hf : Follows s p.2 := hm
    exact ((hk p.1).ends p.2).mono (fun _ => hf.trans) fun _ ⟨e, he, hreset⟩ => ⟨e, hf.bus e he, hreset⟩
  | error x => cases x with
    | refused r => trivial
    | cut t => rw [hr] at hm; exact hm

theorem Heeds.pure (a : α) : Heeds (Pure.pure a : M α) := ⟨fun _ => .of_eq rfl rfl⟩

theorem Heeds.refuse (r : Refusal) : Heeds (Machine.refuse r : M α) := ⟨fun _ => trivial⟩

theorem Heeds.gets (f : State → α) : Heeds (Machine.gets f) := ⟨fun _ => .of_eq rfl rfl⟩

theorem Heeds.read {f : State → α} {k : α → M β} (h : ∀ a, Heeds (k a)) : Heeds (Machine.gets f >>= k) :=
  (Heeds.gets f).bind h

theorem Heeds.update {f : State → State} (h : ∀ s, Follows s (f s)) : Heeds (Machine.update f) := ⟨h⟩

theorem Heeds.ite {c : Prop} [Decidable c] {m n : M α} (ht : Heeds m) (hf : Heeds n) :
    Heeds (if c then m else n) := by
  split
  · exact ht
  · exact hf

/-- A choice between two first parts of a computation. -/
theorem Heeds.ite_bind {c : Prop} [Decidable c] {m n : M α} {k : α → M β} (ht : Heeds m) (hf : Heeds n)
    (hk : ∀ a, Heeds (k a)) : Heeds (if c then m >>= k else n >>= k) := (ht.bind hk).ite (hf.bind hk)

/-- A first part that is done only in some cases. -/
theorem Heeds.when_bind {c : Prop} [Decidable c] {m : M Unit} {k : Unit → M β} (ht : Heeds m) (hk : Heeds (k ())) :
    Heeds (if c then m >>= k else k ()) := (ht.bind fun _ => hk).ite hk

end

/-! ### Bus cycles and memory -/

theorem follows_masterWrites (l : List MasterWrite) (s : State) : Follows s (l.foldl State.masterWrite s) := by
  induction l generalizing s with
  | nil => exact .of_eq rfl rfl
  | cons w l ih =>
    refine Follows.trans ?_ (ih _)
    simp only [State.masterWrite]
    split <;> exact .of_eq rfl rfl

theorem heeds_busCycle : Heeds busCycle := by
  refine ⟨fun s => ?_⟩
  unfold busCycle
  split
  · exact .of_eq rfl rfl
  · next e rest hb =>
    obtain ⟨hbus, hdue⟩ := follows_masterWrites e.writes (s.withBus rest)
    dsimp only
    split
    · next hreset => exact ⟨e, by simp [hb], hreset⟩
    · split
      · exact ⟨fun x hx => hb ▸ List.mem_cons_of_mem _ (hbus x hx), hdue⟩
      · trivial

theorem heeds_drawWord : Heeds drawWord := .read fun _ => .bind (.update fun _ => .of_eq rfl rfl) fun _ => .pure _

theorem heeds_drawBit : Heeds drawBit := .read fun _ => .bind (.update fun _ => .of_eq rfl rfl) fun _ => .pure _

theorem heeds_deviceAnswer : Heeds deviceAnswer :=
  .read fun l => by
    cases l with
    | nil => exact heeds_drawWord
    | cons w rest => exact .bind (.update fun _ => .of_eq rfl rfl) fun _ => .pure _

theorem heeds_mainAnswer (high : Bool) (code : BusCode) (a : Word) : Heeds (mainAnswer high code a) := by
  refine ⟨fun s => ?_⟩
  unfold mainAnswer
  split
  · exact .of_eq rfl rfl
  · exact .of_eq rfl rfl
  · exact heeds_deviceAnswer.ends s
  · exact heeds_drawWord.ends s

theorem heeds_mainReadAs (high : Bool) (code : BusCode) (a : Word) : Heeds (mainReadAs high code a) :=
  .bind heeds_busCycle fun _ => heeds_mainAnswer _ _ _

theorem heeds_mainRead (code : BusCode) (a : Word) : Heeds (mainRead code a) := .read fun _ => heeds_mainReadAs _ _ _

theorem follows_setMainWord (s : State) (high : Bool) (code : BusCode) (a v : Word) :
    Follows s (s.setMainWord high code a v) := by
  simp only [State.setMainWord]
  split <;> exact .of_eq rfl rfl

theorem follows_setMsWord (s : State) (a v : Word) : Follows s (s.setMsWord a v) := by
  simp only [State.setMsWord]
  split <;> exact .of_eq rfl rfl

theorem heeds_mainWrite (code : BusCode) (a v : Word) : Heeds (mainWrite code a v) :=
  .bind heeds_busCycle fun _ => .update fun s => follows_setMainWord s _ _ _ _

theorem heeds_msRead (a : Word) : Heeds (msRead a) :=
  .bind heeds_busCycle fun _ => ⟨fun s => by
    split
    · trivial
    · trivial
    · exact .of_eq rfl rfl⟩

theorem heeds_msWrite (a v : Word) : Heeds (msWrite a v) :=
  .bind heeds_busCycle fun _ => ⟨fun s => by
    split
    · trivial
    · trivial
    · trivial
    · exact follows_setMsWord s a v⟩

theorem heeds_readLoc (l : Loc) : Heeds (readLoc l) := by
  unfold readLoc
  split
  · exact heeds_mainRead _ _
  · exact heeds_msRead _

theorem heeds_writeLoc (l : Loc) (v : Word) : Heeds (writeLoc l v) := by
  unfold writeLoc
  split
  · exact heeds_mainWrite _ _ _
  · exact heeds_msWrite _ _

theorem heeds_readLong (l : Loc) : Heeds (readLong l) :=
  .bind (heeds_readLoc _) fun _ => .bind (heeds_readLoc _) fun _ => .pure _

/-! ### Registers, the instruction stream and operands -/

theorem heeds_setPc (v : Word) : Heeds (setPc v) := .update fun _ => .of_eq rfl rfl
theorem heeds_setWp (v : Word) : Heeds (setWp v) := .update fun _ => .of_eq rfl rfl
theorem heeds_updateSt (f : Word → Word) : Heeds (updateSt f) := .update fun _ => .of_eq rfl rfl
theorem heeds_withInhibit (i : Inhibit) : Heeds (update fun s => s.withInhibit i) := .update fun _ => .of_eq rfl rfl
theorem heeds_withIdle (b : Bool) : Heeds (update fun s => s.withIdle b) := .update fun _ => .of_eq rfl rfl
theorem heeds_withXTarget (w : Word) : Heeds (update fun s => s.withXTarget (some w)) :=
  .update fun _ => .of_eq rfl rfl
theorem heeds_stCycle (f : Word → Word) : Heeds (stCycle f) := .bind heeds_busCycle fun _ => heeds_updateSt _
theorem heeds_wpCycle (v : Word) : Heeds (wpCycle v) := .bind heeds_busCycle fun _ => heeds_setWp _
theorem heeds_settle (f : Word → Word) : Heeds (settle f) := .bind heeds_busCycle fun _ => heeds_updateSt _
theorem heeds_readReg (r : Nibble) : Heeds (readReg r) := .read fun _ => heeds_readLoc _
theorem heeds_writeReg (r : Nibble) (v : Word) : Heeds (writeReg r v) := .read fun _ => heeds_writeLoc _ _

theorem heeds_fetchWord (code : BusCode) : Heeds (fetchWord code) :=
  .read fun _ => .read fun _ => .bind (heeds_readLoc _) fun _ => .bind (heeds_setPc _) fun _ => .pure _

theorem heeds_immediate : Heeds immediate := heeds_fetchWord _
theorem heeds_discardPrefetch : Heeds discardPrefetch := .update fun _ => .of_eq rfl rfl

theorem heeds_prefetchAt (a : Word) : Heeds (prefetchAt a) :=
  .read fun _ => .bind (heeds_readLoc _) fun _ => .update fun _ => .of_eq rfl rfl

theorem heeds_prefetchNext : Heeds prefetchNext := .read fun _ => heeds_prefetchAt _

theorem heeds_continueAt (a : Word) : Heeds (continueAt a) := .bind (heeds_prefetchAt _) fun _ => heeds_setPc _

theorem heeds_operandLoc (op : Operand) (n : Word) (role : BusCode) : Heeds (operandLoc op n role) := by
  cases op with
  | reg r => exact .gets _
  | ind r => exact .bind (heeds_readReg _) fun _ => .gets _
  | sym => exact .bind (heeds_fetchWord _) fun _ => .gets _
  | idx r => exact .bind (heeds_readReg _) fun _ => .bind (heeds_fetchWord _) fun _ => .gets _
  | inc r => exact .bind (heeds_readReg _) fun _ => .bind (heeds_writeReg _ _) fun _ => .gets _

theorem heeds_srcLoc (op : Operand) (n : Word) : Heeds (srcLoc op n) := heeds_operandLoc _ _ _
theorem heeds_dstLoc (op : Operand) (n : Word) : Heeds (dstLoc op n) := heeds_operandLoc _ _ _

/-- The source word of an instruction and its location. -/
theorem Heeds.source {β : Type} {src : Operand} {n : Word} {k : Loc → Word → M β} (h : ∀ l x, Heeds (k l x)) :
    Heeds (do let l ← srcLoc src n; let x ← readLoc l; k l x) :=
  .bind (heeds_srcLoc _ _) fun _ => .bind (heeds_readLoc _) fun _ => h _ _

/-- The destination word of an instruction and its location. -/
theorem Heeds.destination {β : Type} {dst : Operand} {n : Word} {k : Loc → Word → M β}
    (h : ∀ l x, Heeds (k l x)) :
    Heeds (do let l ← dstLoc dst n; let x ← readLoc l; k l x) :=
  .bind (heeds_dstLoc _ _) fun _ => .bind (heeds_readLoc _) fun _ => h _ _

/-- A result stored after the prefetch, and its flags. -/
theorem heeds_prefetchStore (l : Loc) (v : Word) (f : Word → Word) :
    Heeds (do prefetchNext; writeLoc l v; updateSt f) :=
  .bind heeds_prefetchNext fun _ => .bind (heeds_writeLoc _ _) fun _ => heeds_updateSt _

/-- A result put in a register after the prefetch, and its flags. -/
theorem heeds_prefetchPut (r : Nibble) (v : Word) (f : Word → Word) :
    Heeds (do prefetchNext; writeReg r v; updateSt f) :=
  .bind heeds_prefetchNext fun _ => .bind (heeds_writeReg _ _) fun _ => heeds_updateSt _

/-- Flags that change in the cycle after the prefetch. -/
theorem heeds_prefetchSettle (f : Word → Word) : Heeds (do prefetchNext; settle f) :=
  .bind heeds_prefetchNext fun _ => heeds_settle _

theorem heeds_prefetchWriteReg (r : Nibble) (v : Word) : Heeds (do prefetchNext; writeReg r v) :=
  .bind heeds_prefetchNext fun _ => heeds_writeReg _ _

/-! ### Free values, I/O and privilege -/

theorem heeds_drawLae : Heeds drawLae :=
  .bind heeds_drawBit fun _ => .bind heeds_drawBit fun _ => .bind heeds_drawBit fun _ => heeds_updateSt _

theorem heeds_ioAnswer : Heeds ioAnswer :=
  .bind heeds_busCycle fun _ => .read fun l => by
    cases l with
    | nil => exact heeds_drawWord
    | cons w rest => exact .bind (.update fun _ => .of_eq rfl rfl) fun _ => .pure _

theorem heeds_ioIn1 (ioa : Word) : Heeds (ioIn1 ioa) :=
  .read fun f => by
    cases f with
    | none => exact .bind heeds_ioAnswer fun _ => .pure _
    | some b => exact .bind heeds_busCycle fun _ => .pure _

theorem heeds_ioInByte (ioa : Word) : Heeds (ioInByte ioa) := .bind heeds_ioAnswer fun _ => .pure _

theorem heeds_ioWrite (e : IoWrite) : Heeds (ioWrite e) := .update fun _ => .of_eq rfl rfl

theorem follows_clearFlagAt (s : State) (ioa : Word) : Follows s (s.clearFlagAt ioa) := by
  unfold State.clearFlagAt
  split_ifs <;> exact .of_eq rfl rfl

theorem follows_setFlagsAt (table : List FlagSetEntry) (s : State) (ioa : Word) :
    Follows s (s.setFlagsAt table ioa) := by
  unfold State.setFlagsAt
  induction table generalizing s with
  | nil => exact .of_eq rfl rfl
  | cons e table ih =>
    refine Follows.trans ?_ (ih _)
    dsimp only
    split <;> exact .of_eq rfl rfl

theorem heeds_flagOutput (ioa : Word) (b : Bool) : Heeds (flagOutput ioa b) := by
  refine ⟨fun s => ?_⟩
  unfold flagOutput
  split
  · split
    · split
      · trivial
      · exact .of_eq rfl rfl
    · exact follows_setFlagsAt _ s ioa
  · exact follows_clearFlagAt s ioa

theorem heeds_ioOut1 (ioa : Word) (b : Bool) : Heeds (ioOut1 ioa b) :=
  .read fun _ => .ite (.pure _) <| .ite
    (.bind heeds_busCycle fun _ => .bind heeds_drawWord fun _ => heeds_ioWrite _)
    (.bind heeds_busCycle fun _ => .bind (heeds_flagOutput _ _) fun _ => heeds_ioWrite _)

theorem heeds_ioOutByte (ioa : Word) (v : Byte) : Heeds (ioOutByte ioa v) :=
  .read fun _ => .ite (.pure _) (.bind heeds_busCycle fun _ => heeds_ioWrite _)

theorem heeds_ioOutWord (ioa v : Word) : Heeds (ioOutWord ioa v) :=
  .read fun _ => .ite (.pure _) (.bind heeds_busCycle fun _ => heeds_ioWrite _)

theorem heeds_setPrivop : Heeds setPrivop := .update fun _ => .of_eq rfl rfl

/-- A violation, where there is one. -/
theorem heeds_violation (c : State → Bool) : Heeds (do if ← gets c then setPrivop) :=
  .read fun _ => .ite heeds_setPrivop (.pure _)

theorem heeds_inBits (base : Word) (i n : Nat) : Heeds (inBits base i n) := by
  induction n generalizing i with
  | zero => exact .pure _
  | succ n ih => exact .bind (heeds_ioIn1 _) fun _ => .bind (ih _) fun _ => .pure _

theorem heeds_outBits (v base : Word) (i n : Nat) : Heeds (outBits v base i n) := by
  induction n generalizing i with
  | zero => exact .pure _
  | succ n ih => exact .bind (heeds_violation _) fun _ => .bind (heeds_ioOut1 _ _) fun _ => ih _

theorem heeds_bumpBase (base : Word) (cnt : Nibble) : Heeds (bumpBase base cnt) :=
  .bind heeds_prefetchNext fun _ => .read fun k => by
    cases k with
    | none => exact heeds_busCycle
    | some k => exact heeds_writeReg _ _

theorem heeds_bitAddr (d : Byte) : Heeds (bitAddr d) := .bind (heeds_readReg _) fun _ => .pure _

theorem heeds_external (ioa : Word) {effect : M Unit} (h : Heeds effect) : Heeds (external ioa effect) :=
  .read fun _ => .ite (.bind heeds_setPrivop fun _ => heeds_prefetchNext)
    (.bind (heeds_ioOut1 _ _) fun _ => .bind h fun _ => heeds_prefetchNext)

theorem heeds_inMainOnly {m : M Unit} (h : Heeds m) : Heeds (inMainOnly m) := .read fun _ => .ite (.refuse _) h

/-! ### Contexts -/

theorem heeds_evalAf : Heeds evalAf :=
  .update fun s => by
    split <;> exact .of_eq rfl rfl

theorem heeds_readRegHigh (r : Nibble) : Heeds (readRegHigh r) :=
  .read fun l => by
    split
    · exact heeds_mainReadAs _ _ _
    · exact heeds_msRead _

theorem heeds_readSavedContext : Heeds readSavedContext :=
  .bind (heeds_readRegHigh _) fun _ => .bind (heeds_readRegHigh _) fun _ => .bind (heeds_readRegHigh _) fun _ =>
    .pure _

theorem heeds_contextSwitchSaving (pc vec : Word) (mask : BitVec 4) : Heeds (contextSwitchSaving pc vec mask) :=
  .read fun _ => .read fun _ => .bind heeds_discardPrefetch fun _ => .bind (heeds_stCycle _) fun _ =>
    .bind (heeds_mainRead _ _) fun _ => .bind (heeds_mainRead _ _) fun _ => .bind (heeds_wpCycle _) fun _ =>
    .bind (heeds_writeReg _ _) fun _ => .bind (heeds_writeReg _ _) fun _ => .bind (heeds_writeReg _ _) fun _ =>
    .bind (heeds_updateSt _) fun _ => .bind (.update fun _ => .of_eq rfl rfl) fun _ => heeds_continueAt _

theorem heeds_illopTrap (pc : Word) : Heeds (illopTrap pc) :=
  .bind (.update fun _ => .of_eq rfl rfl) fun _ => heeds_contextSwitchSaving _ _ _

theorem heeds_returnContext : Heeds returnContext :=
  .bind heeds_readSavedContext fun _ => .bind (heeds_stCycle _) fun _ => .bind (heeds_continueAt _) fun _ =>
    heeds_wpCycle _

theorem heeds_macrostoreExit : Heeds macrostoreExit :=
  .bind heeds_readSavedContext fun _ => .bind heeds_busCycle fun _ => .bind (.update fun _ => .of_eq rfl rfl) fun _ =>
    .bind (heeds_updateSt _) fun _ => .bind (heeds_setWp _) fun _ => .bind (heeds_continueAt _) fun _ => heeds_evalAf

theorem heeds_macrostoreExitIllop : Heeds macrostoreExitIllop :=
  .bind (.update fun _ => .of_eq rfl rfl) fun _ => .bind heeds_macrostoreExit fun _ =>
    .bind (.update fun _ => .of_eq rfl rfl) fun _ => .read fun _ => heeds_illopTrap _

/-! ### The MID trap -/

theorem heeds_ldfHardware (w : Word) : Heeds (ldfHardware w) :=
  .update fun s => by
    split
    · exact .of_eq rfl rfl
    · split <;> exact .of_eq rfl rfl

theorem heeds_apAccept (pc : Word) : Heeds (apAccept pc) :=
  .read fun _ => .read fun _ => .bind heeds_discardPrefetch fun _ => .bind (heeds_stCycle _) fun _ =>
    .bind (heeds_mainRead _ _) fun _ => .bind (heeds_wpCycle _) fun _ => .bind (heeds_writeReg _ _) fun _ =>
    .bind (heeds_writeReg _ _) fun _ => .bind (heeds_writeReg _ _) fun _ => .update fun _ => .of_eq rfl rfl

theorem heeds_saveSecondPc (upc : Word) (kind : MidKind) : Heeds (saveSecondPc upc kind) := by
  cases kind with
  | second w1 => exact heeds_msWrite _ _
  | first | xop => exact .pure _

theorem heeds_macrostoreSave (w : Word) (kind : MidKind) (upc : Word) {vector : M Word} (h : Heeds vector) :
    Heeds (macrostoreSave w kind upc vector) :=
  .read fun _ => .read fun _ => .read fun _ => .bind (heeds_msWrite _ _) fun _ =>
    .bind (heeds_saveSecondPc _ _) fun _ => .bind (heeds_msWrite _ _) fun _ => .bind h fun _ =>
    .bind (heeds_msWrite _ _) fun _ => .bind (heeds_msWrite _ _) fun _ => .bind (heeds_msWrite _ _) fun _ =>
    .bind heeds_busCycle fun _ => .bind (heeds_setWp _) fun _ => .bind (.update fun _ => .of_eq rfl rfl) fun _ =>
    .when_bind (heeds_updateSt _) (.bind heeds_discardPrefetch fun _ => .pure _)

theorem heeds_macrostoreEntry (w : Word) (kind : MidKind) (upc : Word) {vector : M Word} (h : Heeds vector) :
    Heeds (macrostoreEntry w kind upc vector) :=
  .bind (heeds_macrostoreSave _ _ _ h) fun _ => heeds_continueAt _

theorem heeds_externalPresent : Heeds externalPresent :=
  .read fun _ => .ite (.pure _) (.bind (heeds_msRead _) fun _ => .pure _)

theorem heeds_romUnimplemented (w : Word) (kind : MidKind) (upc : Word) : Heeds (romUnimplemented w kind upc) := by
  unfold romUnimplemented
  exact .when_bind (.refuse _) <|
    .bind (heeds_macrostoreSave _ _ _ (.pure _)) fun _ => .bind (heeds_setPc _) fun _ =>
    .bind heeds_externalPresent fun _ => .ite (heeds_continueAt _) heeds_macrostoreExitIllop

theorem heeds_raiseMid (w : Word) (kind : MidKind) : Heeds (raiseMid w kind) := by
  unfold raiseMid
  refine .read fun _ => .when_bind (.refuse _) <| .when_bind (heeds_ldfHardware _) <| .read fun _ => .read fun r => ?_
  cases r with
  | baseline => exact heeds_illopTrap _
  | attached => exact heeds_apAccept _
  | rom => exact heeds_romUnimplemented _ _ _
  | macrostore => exact heeds_macrostoreEntry _ _ _ (heeds_msRead _)

/-! ### Frames -/

theorem heeds_jumpIf (cond : Word → Bool) (d : Byte) : Heeds (jumpIf cond d) :=
  .read fun _ => .read fun _ => .ite (heeds_continueAt _) heeds_prefetchNext

theorem heeds_shiftCount (sc : Nibble) : Heeds (shiftCount sc) :=
  .ite (.bind (heeds_readReg _) fun _ => .pure _) (.pure _)

theorem heeds_shiftReg (step : Shift 16 → Shift 16) (fl : Shift 16 → Word → Word) (w : Reg) (sc : Nibble) :
    Heeds (shiftReg step fl w sc) :=
  .bind (heeds_readReg _) fun _ => .bind (heeds_shiftCount _) fun _ => heeds_prefetchPut _ _ _

theorem heeds_testBit (w : Word) (store : Option (Word → Word → Word)) (src : Operand) (bd : Nibble) :
    Heeds (testBit w store src bd) :=
  .ite
    (.source fun _ _ => by
      cases store with
      | some f => exact .bind (heeds_writeLoc _ _) fun _ => heeds_prefetchSettle _
      | none => exact heeds_prefetchSettle _)
    (heeds_raiseMid _ _)

theorem heeds_dualLong (op : BitVec 32 → BitVec 32 → Arith 32) (src dst : Operand) : Heeds (dualLong op src dst) :=
  .source fun _ _ => .bind (heeds_dstLoc _ _) fun _ => .bind (heeds_readLoc _) fun _ => .bind (heeds_readLoc _) fun _ =>
    .bind (heeds_writeLoc _ _) fun _ => .bind (heeds_readLoc _) fun _ => heeds_prefetchStore _ _ _

theorem heeds_longShiftCount (sc : Nibble) : Heeds (longShiftCount sc) :=
  .ite (.bind (heeds_readReg _) fun _ => .pure _) (.pure _)

theorem heeds_shiftLong (step : Shift 32 → Shift 32) (fl : Shift 32 → Word → Word) (src : Operand) (sc : Nibble) :
    Heeds (shiftLong step fl src sc) :=
  .source fun _ _ => .bind (heeds_longShiftCount _) fun _ => .bind (heeds_readLoc _) fun _ =>
    .bind (heeds_writeLoc _ _) fun _ => heeds_prefetchStore _ _ _

theorem heeds_dualWord (res : Word → Word → Word) (fl : Word → Word → Word → Word) (src dst : Operand) :
    Heeds (dualWord res fl src dst) :=
  .source fun _ _ => .destination fun _ _ => heeds_prefetchStore _ _ _

theorem heeds_dualByte (res : Byte → Byte → Byte) (fl : Byte → Byte → Word → Word) (src dst : Operand) :
    Heeds (dualByte res fl src dst) :=
  .source fun _ _ => .destination fun _ _ => heeds_prefetchStore _ _ _

theorem heeds_immediateReg (res : Word → Word → Word) (fl : Word → Word → Word → Word) (w : Reg) :
    Heeds (immediateReg res fl w) :=
  .bind (heeds_readReg _) fun _ => .bind heeds_immediate fun _ => heeds_prefetchPut _ _ _

theorem heeds_modifyWord (res : Word → Word) (fl : Word → Word → Word) (src : Operand) :
    Heeds (modifyWord res fl src) := .source fun _ _ => heeds_prefetchStore _ _ _

theorem heeds_storeWord (v : Word) (src : Operand) : Heeds (storeWord v src) :=
  .bind (heeds_srcLoc _ _) fun _ => .bind heeds_prefetchNext fun _ => heeds_writeLoc _ _

theorem heeds_outputBit (d : Byte) (b : Bool) : Heeds (outputBit d b) :=
  .bind (heeds_bitAddr _) fun _ => .bind (heeds_violation _) fun _ => .bind (heeds_ioOut1 _ _) fun _ =>
    heeds_prefetchNext

theorem heeds_macrostoreJump (cond : State → Bool) (d : Byte) : Heeds (macrostoreJump cond d) :=
  .read fun _ => .ite (.read fun _ => .read fun _ => .ite (heeds_continueAt _) heeds_prefetchNext) (.refuse _)

/-- An instruction that exists inside Macrostore only, and whose word is a MID opcode in main memory. -/
theorem heeds_macrostoreElseMid (w : Word) {body : M Unit} (h : Heeds body) :
    Heeds (do if ← gets State.inMs then body else raiseMid w .first) :=
  .read fun _ => .ite h (heeds_raiseMid _ _)

/-! ### Instructions with a meaning of their own, in main memory -/

section
variable (src dst : Operand) (d w : Reg) (s : State)

theorem execC_cutByEvent : CutByEvent s (execC src dst s) :=
  Heeds.outcome (.source fun _ _ => .destination fun _ _ => heeds_prefetchSettle _) s

theorem execCb_cutByEvent : CutByEvent s (execCb src dst s) :=
  Heeds.outcome (.source fun _ _ => .destination fun _ _ => heeds_prefetchSettle _) s

theorem execMov_cutByEvent : CutByEvent s (execMov src dst s) :=
  Heeds.outcome (.source fun _ _ => .bind (heeds_dstLoc _ _) fun _ => heeds_prefetchStore _ _ _) s

theorem execCoc_cutByEvent : CutByEvent s (execCoc src d s) :=
  Heeds.outcome (.source fun _ _ => .bind (heeds_readReg _) fun _ => heeds_prefetchSettle _) s

theorem execCzc_cutByEvent : CutByEvent s (execCzc src d s) :=
  Heeds.outcome (.source fun _ _ => .bind (heeds_readReg _) fun _ => heeds_prefetchSettle _) s

theorem execXor_cutByEvent : CutByEvent s (execXor src d s) :=
  Heeds.outcome (.source fun _ _ => .bind (heeds_readReg _) fun _ => heeds_prefetchPut _ _ _) s

theorem execMpy_cutByEvent : CutByEvent s (execMpy src d s) :=
  Heeds.outcome (.source fun _ _ => .bind (heeds_readReg _) fun _ => .bind (heeds_writeReg _ _) fun _ =>
    .bind heeds_prefetchNext fun _ => .read fun _ => heeds_writeLoc _ _) s

theorem execDiv_cutByEvent : CutByEvent s (execDiv src d s) :=
  Heeds.outcome (.source fun _ _ => .bind (heeds_readReg _) fun _ => .ite (heeds_prefetchSettle _) <|
    .read fun _ => .bind (heeds_readLoc _) fun _ => .ite (heeds_prefetchSettle _) <|
    .bind (heeds_writeReg _ _) fun _ => heeds_prefetchStore _ _ _) s

theorem execMpys_cutByEvent : CutByEvent s (execMpys src s) :=
  Heeds.outcome (.source fun _ _ => .bind (heeds_readReg _) fun _ => .bind (heeds_writeReg _ _) fun _ =>
    heeds_prefetchPut _ _ _) s

theorem execDivs_cutByEvent : CutByEvent s (execDivs src s) :=
  Heeds.outcome (.source fun _ _ => .bind (heeds_readReg _) fun _ => .bind (heeds_readReg _) fun _ => .ite
    (.bind heeds_prefetchNext fun _ => .bind (heeds_settle _) fun _ => heeds_drawLae)
    (.bind (heeds_writeReg _ _) fun _ => heeds_prefetchPut _ _ _)) s

theorem execAbs_cutByEvent : CutByEvent s (execAbs src s) :=
  Heeds.outcome (.source fun _ _ => .bind (heeds_writeLoc _ _) fun _ => heeds_prefetchSettle _) s

theorem execB_cutByEvent : CutByEvent s (execB src s) :=
  Heeds.outcome (.bind (heeds_srcLoc _ _) fun _ => heeds_continueAt _) s

theorem execBl_cutByEvent : CutByEvent s (execBl src s) :=
  Heeds.outcome (.source fun _ _ => .read fun _ => .bind (heeds_continueAt _) fun _ => heeds_writeReg _ _) s

theorem execBind_cutByEvent : CutByEvent s (execBind src s) :=
  Heeds.outcome (.source fun _ _ => heeds_continueAt _) s

theorem execBlwp_cutByEvent : CutByEvent s (execBlwp src s) :=
  Heeds.outcome (.source fun _ _ => .bind (heeds_readLoc _) fun _ => .read fun _ => .read fun _ => .read fun _ =>
    .bind (heeds_wpCycle _) fun _ => .bind (heeds_writeReg _ _) fun _ => .bind (heeds_writeReg _ _) fun _ =>
    .bind (heeds_writeReg _ _) fun _ => .bind (heeds_withInhibit _) fun _ => heeds_continueAt _) s

theorem heeds_readTarget (l : Loc) : Heeds (readTarget l) :=
  .read fun _ => .ite (.read fun _ => heeds_mainReadAs _ _ _) (heeds_readLoc _)

theorem execX_cutByEvent : CutByEvent s (execX src s) :=
  Heeds.outcome (.bind (heeds_srcLoc _ _) fun _ => .bind (heeds_readTarget _) fun _ => heeds_withXTarget _) s

theorem heeds_xopTrap (n : Nibble) : Heeds (xopTrap src n) :=
  .bind (heeds_srcLoc _ _) fun _ => .read fun _ => .read fun _ => .read fun _ => .bind (heeds_stCycle _) fun _ =>
    .bind (heeds_mainRead _ _) fun _ => .bind (heeds_wpCycle _) fun _ => .bind (heeds_writeReg _ _) fun _ =>
    .bind (heeds_mainRead _ _) fun _ => .bind (heeds_writeReg _ _) fun _ => .bind (heeds_writeReg _ _) fun _ =>
    .bind (heeds_writeReg _ _) fun _ => .bind (heeds_updateSt _) fun _ =>
    .bind (heeds_withInhibit _) fun _ => heeds_continueAt _

theorem execXop_cutByEvent (n : Nibble) : CutByEvent s (execXop src n s) :=
  Heeds.outcome (.read fun _ => .ite (.refuse _) <| .read fun _ => .ite (heeds_raiseMid _ _) (heeds_xopTrap _ _)) s

theorem execLi_cutByEvent : CutByEvent s (execLi w s) :=
  Heeds.outcome (.bind heeds_immediate fun _ => heeds_prefetchPut _ _ _) s

theorem execCi_cutByEvent : CutByEvent s (execCi w s) :=
  Heeds.outcome (.bind (heeds_readReg _) fun _ => .bind heeds_immediate fun _ => heeds_prefetchSettle _) s

theorem execBlsk_cutByEvent : CutByEvent s (execBlsk w s) :=
  Heeds.outcome (.bind (heeds_readReg _) fun _ => .bind (heeds_writeReg _ _) fun _ => .bind heeds_immediate fun _ =>
    .read fun _ => .read fun _ => .bind (heeds_writeLoc _ _) fun _ => heeds_continueAt _) s

theorem execLwpi_cutByEvent : CutByEvent s (execLwpi s) :=
  Heeds.outcome (.bind heeds_immediate fun _ => .bind heeds_prefetchNext fun _ => heeds_wpCycle _) s

theorem execLwp_cutByEvent : CutByEvent s (execLwp w s) :=
  Heeds.outcome (.bind (heeds_readReg _) fun _ => .bind heeds_prefetchNext fun _ => heeds_wpCycle _) s

theorem execLst_cutByEvent : CutByEvent s (execLst w s) :=
  Heeds.outcome (.bind (heeds_readReg _) fun _ => .read fun _ => .bind (heeds_stCycle _) fun _ =>
    heeds_prefetchNext) s

theorem execStst_cutByEvent : CutByEvent s (execStst w s) :=
  Heeds.outcome (.read fun _ => heeds_prefetchWriteReg _ _) s

theorem execStwp_cutByEvent : CutByEvent s (execStwp w s) :=
  Heeds.outcome (.read fun _ => heeds_prefetchWriteReg _ _) s

theorem execLimi_cutByEvent : CutByEvent s (execLimi s) :=
  Heeds.outcome (.bind heeds_immediate fun _ => .bind heeds_busCycle fun _ => .read fun _ =>
    .ite_bind heeds_setPrivop (heeds_updateSt _) fun _ => heeds_prefetchNext) s

theorem execIdle_cutByEvent : CutByEvent s (execIdle s) :=
  Heeds.outcome (.read fun _ => .ite (.refuse _) (heeds_external _ (heeds_withIdle _))) s

theorem heeds_clearErrors : Heeds (update fun s => ((s.withAf false).withIllop false).withPrivop false) :=
  .update fun _ => .of_eq rfl rfl

theorem execRset_cutByEvent : CutByEvent s (execRset s) :=
  Heeds.outcome (heeds_external _ (.read fun _ => .bind (heeds_stCycle _) fun _ => heeds_clearErrors)) s

theorem execTb_cutByEvent (b : Byte) : CutByEvent s (execTb b s) :=
  Heeds.outcome (heeds_inMainOnly (.bind (heeds_bitAddr _) fun _ => .bind (heeds_ioIn1 _) fun _ =>
    .bind heeds_prefetchNext fun _ => .bind (heeds_settle _) fun _ => heeds_violation _)) s

theorem execLdcr_cutByEvent (cnt : Nibble) : CutByEvent s (execLdcr src cnt s) :=
  Heeds.outcome (.source fun _ _ => .bind (heeds_readReg _) fun _ => .ite
    (.ite
      (.bind (heeds_violation _) fun _ => .ite_bind (heeds_ioOutByte _ _) (heeds_ioOutWord _ _) fun _ =>
        .bind (heeds_bumpBase _ _) fun _ => heeds_updateSt _)
      (.refuse _))
    (.bind (heeds_outBits _ _ _ _) fun _ => heeds_prefetchSettle _)) s

theorem execStcr_cutByEvent (cnt : Nibble) : CutByEvent s (execStcr src cnt s) :=
  Heeds.outcome (.bind (heeds_srcLoc _ _) fun _ => .ite_bind (heeds_readLoc _) (.pure _) fun _ =>
    .bind (heeds_readReg _) fun _ => .ite
    (.ite
      (.ite_bind (.bind (heeds_ioInByte _) fun _ => .pure _) heeds_ioAnswer fun _ =>
        .bind (heeds_writeLoc _ _) fun _ => .bind (heeds_bumpBase _ _) fun _ => .bind (heeds_updateSt _) fun _ =>
        heeds_violation _)
      (.refuse _))
    (.bind (heeds_inBits _ _ _) fun _ => .bind heeds_prefetchNext fun _ => .bind (heeds_writeLoc _ _) fun _ =>
      .bind (heeds_updateSt _) fun _ => heeds_violation _)) s

end

/-! ### Instructions inside Macrostore -/

theorem heeds_evalField (t : BitVec 2) (r park : Nibble) (uwp upc : Word) : Heeds (evalField t r park uwp upc) :=
  .ite (.pure _) <| .ite (.bind (heeds_mainRead _ _) fun _ => .pure _) <| .ite
    (.ite (.bind (heeds_mainRead _ _) fun _ => .pure _)
      (.bind (heeds_mainRead _ _) fun _ => .bind (heeds_mainRead _ _) fun _ => .pure _))
    (.bind (heeds_mainRead _ _) fun _ => .bind (heeds_writeReg _ _) fun _ => .pure _)

theorem heeds_evaluateAddress (src : Operand) : Heeds (evaluateAddress src) :=
  .source fun _ _ => .bind heeds_drawWord fun _ => .bind (heeds_writeReg _ _) fun _ => .bind (heeds_readReg _) fun _ =>
    .bind (heeds_readReg _) fun _ => .bind (heeds_evalField _ _ _ _ _) fun _ =>
    .bind (heeds_evalField _ _ _ _ _) fun _ => .bind (heeds_writeReg _ _) fun _ =>
    .bind (heeds_writeReg _ _) fun _ => .bind (heeds_updateSt _) fun _ =>
    .bind (.update fun _ => .of_eq rfl rfl) fun _ => heeds_prefetchWriteReg _ _

/-- The long-distance flags and the inhibit as an exit from Macrostore leaves them. -/
theorem heeds_clearAfterExit (i : Inhibit) : Heeds (update fun s => (s.withLdf 0b111#3).withInhibit i) :=
  .update fun _ => .of_eq rfl rfl

theorem exec_macrostore_cutByEvent {i : Instr} (h : i.context = .macrostore) (s : State) : CutByEvent s (exec i s) := by
  cases i with
  | evad src =>
    exact Heeds.outcome (heeds_macrostoreElseMid _ (.read fun _ => .ite (.refuse _) <|
      .ite (.refuse _) (heeds_evaluateAddress src))) s
  | rtwpExit =>
    exact Heeds.outcome (.read fun _ => .ite (.bind heeds_macrostoreExit fun _ => heeds_clearAfterExit _) (.refuse _)) s
  | rtwpStay =>
    exact Heeds.outcome (heeds_macrostoreElseMid _ (.bind heeds_readSavedContext fun _ => .bind heeds_busCycle fun _ =>
      .bind (heeds_updateSt _) fun _ => .bind (heeds_setWp _) fun _ => heeds_continueAt _)) s
  | rtwpIllop => exact Heeds.outcome (heeds_macrostoreElseMid _ heeds_macrostoreExitIllop) s
  | rtwpQuiet =>
    exact Heeds.outcome (heeds_macrostoreElseMid _ (.bind heeds_macrostoreExit fun _ => heeds_withInhibit _)) s
  | jip d | jnep d => exact (heeds_macrostoreJump _ d).outcome s
  | _ => nomatch h

/-! ### Extension instructions -/

theorem heeds_extension (w extra : Word) {body : M Unit} (h : Heeds body) : Heeds (extension w extra body) :=
  .read fun _ => .ite (.refuse _) <| .read fun _ => .ite h <| .read fun _ => .bind (heeds_setPc _) fun _ =>
    heeds_raiseMid _ _

theorem heeds_scrambleWords (l : List Nat) : Heeds (scrambleWords l) := by
  induction l with
  | nil => exact .pure _
  | cons a l ih => exact .bind heeds_drawWord fun _ => .bind (.update fun _ => .of_eq rfl rfl) fun _ => ih

theorem heeds_scrambleMram : Heeds scrambleMram := by
  unfold scrambleMram
  exact heeds_scrambleWords _

theorem heeds_romExit : Heeds romExit := by
  unfold romExit
  exact .bind heeds_scrambleMram fun _ => .bind heeds_prefetchNext fun _ => .bind heeds_evalAf fun _ =>
    heeds_clearAfterExit _

theorem heeds_longDistance (after : BitVec 3 → BitVec 3) : Heeds (longDistance after) := by
  unfold longDistance
  exact .read fun _ => .ite (.bind heeds_setPrivop fun _ => heeds_romExit) <| .bind heeds_scrambleMram fun _ =>
    .read fun _ => .read fun _ => .when_bind (.update fun _ => .of_eq rfl rfl) <| .bind heeds_prefetchNext fun _ =>
    .update fun _ => .of_eq rfl rfl

theorem heeds_readFpac : Heeds readFpac :=
  .bind (heeds_readReg _) fun _ => .bind (heeds_readReg _) fun _ => .pure _

theorem heeds_writeFpac (v : BitVec 32) : Heeds (writeFpac v) :=
  .bind (heeds_writeReg _ _) fun _ => heeds_writeReg _ _

theorem heeds_drawFpac : Heeds drawFpac :=
  .bind heeds_drawWord fun _ => .bind heeds_drawWord fun _ => heeds_writeFpac _

theorem heeds_setFault (c v : Bool) : Heeds (setFault c v) := heeds_updateSt _

/-- The faults a routine reports before it leaves. -/
theorem heeds_faultExit (c v : Bool) : Heeds (do setFault c v; romExit) :=
  .bind (heeds_setFault _ _) fun _ => heeds_romExit

/-- An accumulator and result bits that are free, but for ST3 and ST4. -/
theorem heeds_drawFault (c v : Bool) : Heeds (do drawFpac; drawLae; setFault c v) :=
  .bind heeds_drawFpac fun _ => .bind heeds_drawLae fun _ => heeds_setFault _ _

theorem heeds_deliver (r : FpResult) : Heeds (deliver r) := by
  cases r with
  | value x => exact .bind (heeds_writeFpac _) fun _ => .bind (heeds_updateSt _) fun _ => heeds_setFault _ _
  | overflow | underflow => exact heeds_drawFault _ _

theorem heeds_deliverAny : Heeds deliverAny :=
  .bind heeds_drawFpac fun _ => .bind heeds_drawLae fun _ => .bind heeds_drawBit fun _ => .bind heeds_drawBit fun _ =>
    heeds_setFault _ _

theorem heeds_realOp (op : BitVec 32 → BitVec 32 → FpResult) (divides : Bool) (src : Operand) :
    Heeds (realOp op divides src) := by
  unfold realOp
  exact .bind (heeds_srcLoc _ _) fun _ => .bind (heeds_readLong _) fun _ => .bind heeds_readFpac fun _ =>
    .ite_bind (heeds_deliver _) heeds_deliverAny fun _ => heeds_romExit

theorem heeds_convertToInt : Heeds convertToInt := by
  unfold convertToInt
  exact .bind heeds_readFpac fun _ => .bind heeds_drawWord fun _ => .ite
    (.ite
      (.bind (heeds_writeReg _ _) fun _ => .bind (heeds_writeReg _ _) fun _ => .bind (heeds_updateSt _) fun _ =>
        heeds_faultExit _ _)
      (.bind heeds_drawFpac fun _ => .bind heeds_drawLae fun _ => heeds_faultExit _ _))
    (.bind heeds_deliverAny fun _ => heeds_romExit)

theorem exec_rom_cutByEvent {i : Instr} (h : i.context = .rom) (s : State) : CutByEvent s (exec i s) := by
  have hx {w extra : Word} {body : M Unit} (h : Heeds body) := (heeds_extension w extra h).outcome s
  cases i with
  | lds | ldd => exact hx (heeds_longDistance _)
  | ar src | sr src | mr src | dr src => exact hx (heeds_realOp _ _ src)
  | cri => exact hx heeds_convertToInt
  | cir src => exact hx (.source fun _ _ => .bind (heeds_deliver _) fun _ => heeds_faultExit _ _)
  | lr src =>
    exact hx (.bind (heeds_srcLoc _ _) fun _ => .bind (heeds_readLong _) fun _ => .bind (heeds_writeFpac _) fun _ =>
      .bind (heeds_updateSt _) fun _ => heeds_romExit)
  | str src =>
    exact hx (.bind (heeds_srcLoc _ _) fun _ => .bind (heeds_readReg _) fun _ => .bind (heeds_writeLoc _ _) fun _ =>
      .bind (heeds_readReg _) fun _ => .bind (heeds_writeLoc _ _) fun _ => .bind (heeds_updateSt _) fun _ =>
      heeds_romExit)
  | negr =>
    exact hx (.bind heeds_readFpac fun _ => .ite
      (.bind (heeds_writeReg _ _) fun _ => .bind (heeds_updateSt _) fun _ => heeds_romExit)
      (.bind heeds_drawFpac fun _ => .bind heeds_drawLae fun _ => heeds_romExit))
  | cre =>
    exact hx (.bind heeds_readFpac fun _ => .ite
      (.ite (.bind (heeds_writeFpac _) fun _ => .bind (heeds_updateSt _) fun _ => heeds_faultExit _ _)
        (.bind heeds_drawFpac fun _ => .bind heeds_drawLae fun _ => heeds_faultExit _ _))
      (.bind heeds_deliverAny fun _ => heeds_romExit))
  | cer => exact hx (.bind heeds_readFpac fun _ => .bind (heeds_deliver _) fun _ => heeds_faultExit _ _)
  | cr src dst =>
    exact hx (.bind (heeds_srcLoc _ _) fun _ => .bind (heeds_readLong _) fun _ => .bind (heeds_dstLoc _ _) fun _ =>
      .bind (heeds_readLong _) fun _ => .ite_bind (heeds_updateSt _) heeds_drawLae fun _ => heeds_faultExit _ _)
  | mm src dst =>
    exact hx (.bind (heeds_srcLoc _ _) fun _ => .bind (heeds_readLong _) fun _ => .bind (heeds_dstLoc _ _) fun _ =>
      .bind (heeds_readLong _) fun _ => .bind (heeds_writeLoc _ _) fun _ => .bind (heeds_writeLoc _ _) fun _ =>
      .bind (heeds_writeLoc _ _) fun _ => .bind (heeds_writeLoc _ _) fun _ => .bind (heeds_updateSt _) fun _ =>
      heeds_faultExit _ _)
  | _ => nomatch h

/-! ### Every instruction -/

theorem exec_main_cutByEvent {i : Instr} (h : i.context = .main) (s : State) : CutByEvent s (exec i s) := by
  cases i with
  | szc p q | s p q | a p q | soc p q => exact (heeds_dualWord _ _ p q).outcome s
  | szcb p q | sb p q | ab p q | movb p q | socb p q => exact (heeds_dualByte _ _ p q).outcome s
  | c p q => exact execC_cutByEvent p q s
  | cb p q => exact execCb_cutByEvent p q s
  | mov p q => exact execMov_cutByEvent p q s
  | coc p d => exact execCoc_cutByEvent p d s
  | czc p d => exact execCzc_cutByEvent p d s
  | xor p d => exact execXor_cutByEvent p d s
  | mpy p d => exact execMpy_cutByEvent p d s
  | div p d => exact execDiv_cutByEvent p d s
  | xop p n => exact execXop_cutByEvent p s n
  | ldcr p n => exact execLdcr_cutByEvent p s n
  | stcr p n => exact execStcr_cutByEvent p s n
  | mpys p => exact execMpys_cutByEvent p s
  | divs p => exact execDivs_cutByEvent p s
  | bind p => exact execBind_cutByEvent p s
  | blwp p => exact execBlwp_cutByEvent p s
  | b p => exact execB_cutByEvent p s
  | x p => exact execX_cutByEvent p s
  | bl p => exact execBl_cutByEvent p s
  | abs p => exact execAbs_cutByEvent p s
  | clr p | seto p => exact (heeds_storeWord _ p).outcome s
  | neg p | inv p | inc p | inct p | dec p | dect p | swpb p => exact (heeds_modifyWord _ _ p).outcome s
  | jmp d | jlt d | jle d | jeq d | jhe d | jgt d | jne d | jnc d | joc d | jno d | jl d | jh d | jop d =>
    exact (heeds_jumpIf _ d).outcome s
  | sbo d | sbz d => exact (heeds_inMainOnly (heeds_outputBit d _)).outcome s
  | tb d => exact execTb_cutByEvent s d
  | sra w n | srl w n | sla w n | src w n => exact (heeds_shiftReg _ _ w n).outcome s
  | ai w | andi w | ori w => exact (heeds_immediateReg _ _ w).outcome s
  | li w => exact execLi_cutByEvent w s
  | ci w => exact execCi_cutByEvent w s
  | blsk w => exact execBlsk_cutByEvent w s
  | lwpi => exact execLwpi_cutByEvent s
  | limi => exact execLimi_cutByEvent s
  | stwp w => exact execStwp_cutByEvent w s
  | stst w => exact execStst_cutByEvent w s
  | lst w => exact execLst_cutByEvent w s
  | lwp w => exact execLwp_cutByEvent w s
  | idle => exact execIdle_cutByEvent s
  | rset => exact execRset_cutByEvent s
  | rtwp => exact (heeds_inMainOnly heeds_returnContext).outcome s
  | ckon | ckof | lrex => exact (heeds_external _ (heeds_stCycle _)).outcome s
  | tmb p n | tcmb p n | tsmb p n => exact (heeds_testBit _ _ p n).outcome s
  | slam p n | sram p n => exact (heeds_shiftLong _ _ p n).outcome s
  | am p q | sm p q => exact (heeds_dualLong _ p q).outcome s
  | _ => nomatch h

theorem exec_cutByEvent (i : Instr) (s : State) : CutByEvent s (exec i s) := by
  cases hc : i.context with
  | main => exact exec_main_cutByEvent hc s
  | macrostore => exact exec_macrostore_cutByEvent hc s
  | rom => exact exec_rom_cutByEvent hc s

end Sys2Proof.Machine
end

section
/-! SUPPORT. A run paced by its bus cycles: through which states it passes where nothing happens on the bus, and so
what stands when the next event stops it (spec/70_reset_and_hazards.md R631, R652, R664). -/

open Sys2Proof Sys2Proof.Machine

namespace Sys2Proof.Machine

/-! ### One cycle with its event -/

theorem served_eq (s : State) (e : BusEvent) : ∃ m, s.served e = s.withMem m := by
  suffices ∀ (l : List MasterWrite) (t : State), ∃ m, l.foldl State.masterWrite t = t.withMem m from this e.writes s
  intro l
  induction l with
  | nil => exact fun t => ⟨t.mem, rfl⟩
  | cons w l ih =>
    intro t
    obtain ⟨m, hm⟩ := ih (t.masterWrite w)
    refine ⟨m, hm.trans ?_⟩
    simp only [State.masterWrite]
    split <;> rfl

/-- What the other masters write depends on the memory and the platform alone. -/
theorem served_comm {f : State → State} (hp : ∀ s, (f s).params = s.params) (hm : ∀ s, (f s).mem = s.mem)
    (hf : ∀ s m, (f s).withMem m = f (s.withMem m)) (s : State) (e : BusEvent) : (f s).served e = f (s.served e) := by
  unfold State.served
  induction e.writes generalizing s with
  | nil => rfl
  | cons w l ih =>
    have hone : (f s).masterWrite w = f (s.masterWrite w) := by
      simp only [State.masterWrite, hp, hm]
      split
      · exact hf _ _
      · rfl
    rw [List.foldl_cons, List.foldl_cons, hone, ih]

theorem served_withBus (s : State) (b : List BusEvent) (e : BusEvent) :
    (s.withBus b).served e = (s.served e).withBus b :=
  served_comm (f := fun t => t.withBus b) (fun _ => rfl) (fun _ => rfl) (fun _ _ => rfl) s e

theorem served_withPrefetch (s : State) (p : Option Word) (e : BusEvent) :
    (s.withPrefetch p).served e = (s.served e).withPrefetch p :=
  served_comm (f := fun t => t.withPrefetch p) (fun _ => rfl) (fun _ => rfl) (fun _ _ => rfl) s e

/-- A word goes to the same place of main memory whatever the queue of the bus and the opcode read ahead are. -/
theorem putWord_withBus {l : Loc} (hl : l.space = .main) (s : State) (b : List BusEvent) (v : Word) :
    (s.withBus b).putWord l v = (s.putWord l v).withBus b := by
  have hp : psel (s.withBus b) l.code = psel s l.code := by cases l.code <;> rfl
  simp only [State.putWord, hl, State.setMainWord, State.withBus_params, hp]
  split <;> rfl

theorem putWord_withPrefetch {l : Loc} (hl : l.space = .main) (s : State) (p : Option Word) (v : Word) :
    (s.withPrefetch p).putWord l v = (s.putWord l v).withPrefetch p := by
  have hp : psel (s.withPrefetch p) l.code = psel s l.code := by cases l.code <;> rfl
  simp only [State.putWord, hl, State.setMainWord, State.withPrefetch_params, hp]
  split <;> rfl

/-- The registers of the processor are not the other masters'. -/
theorem served_fields (s : State) (e : BusEvent) :
    (s.served e).pc = s.pc ∧ (s.served e).st = s.st ∧ (s.served e).inMs = s.inMs ∧
      (s.served e).resetDue = s.resetDue ∧ (s.served e).params = s.params ∧
      ∀ r, (s.served e).regLoc r = s.regLoc r := by
  obtain ⟨m, h⟩ := served_eq s e
  rw [h]
  exact ⟨rfl, rfl, rfl, rfl, rfl, fun _ => rfl⟩

section
variable {s : State} {e : BusEvent} (hr : e.reset = false) (hy : e.ready = true) (b : List BusEvent)
include hr hy

theorem busCycle_served : busCycle (s.withBus (e :: b)) = .ok ((), (s.served e).withBus b) := by
  rw [← served_withBus]
  simp only [busCycle, State.withBus_bus, hr, hy, Bool.false_eq_true, if_false, if_true]
  rfl

theorem mainRead_served (hm : s.memoryOnly) (code : BusCode) (a : Word) :
    mainRead code a (s.withBus (e :: b)) =
      .ok ((s.served e).mainWord (psel (s.served e) code) code a, (s.served e).withBus b) := by
  simp only [mainRead, gets_bind, mainReadAs, M.bind_ok (busCycle_served hr hy b)]
  obtain ⟨m, h⟩ := served_eq s e
  rw [h]
  have hk := State.calm.kind (s := s.withBus []) ⟨rfl, hm⟩
    (physAddr s.params (psel (s.withBus (e :: b)) code) code a.even)
  have hp : psel (s.withBus (e :: b)) code = psel (s.withMem m) code := by cases code <;> rfl
  rw [hp] at hk ⊢
  simp only [mainAnswer, State.withBus_params, State.withMem_params] at hk ⊢
  rcases hk with hk | hk <;> simp only [hk] <;> rfl

theorem readLoc_served (hm : s.memoryOnly) {l : Loc} (hl : l.space = .main) :
    readLoc l (s.withBus (e :: b)) = .ok ((s.served e).wordAt l, (s.served e).withBus b) := by
  simp only [readLoc, hl, State.wordAt]
  exact mainRead_served hr hy b hm _ _

theorem writeLoc_served {l : Loc} (hl : l.space = .main) (v : Word) :
    writeLoc l v (s.withBus (e :: b)) = .ok ((), ((s.served e).putWord l v).withBus b) := by
  rw [← putWord_withBus hl]
  simp only [writeLoc, hl, mainWrite, M.bind_ok (busCycle_served hr hy b), State.putWord, update_apply]

end

/-! ### Paced runs -/

/-- A cycle in which nothing happens on the bus. -/
def BusEvent.quiet : BusEvent := { writes := [], reset := false, ready := true }

/-- From `s` the computation comes to a bus cycle in each of the states `us`, in turn: an event that stops the cycle in
one of them stops the computation there. -/
structure Cycles {α : Type} (m : M α) (s : State) (us : List State) : Prop where
  stop : ∀ (k : Nat) (hk : k < us.length) (e : BusEvent) (rest : List BusEvent) (x : Stop),
    busCycle (us[k].withBus (e :: rest)) = .error x → m (s.withBus (List.replicate k .quiet ++ e :: rest)) = .error x

/-- These are all its cycles, and where nothing happens in them it answers `a` in `t`. -/
structure Paced {α : Type} (m : M α) (s : State) (us : List State) (a : α) (t : State) : Prop
    extends Cycles m s us where
  run : ∀ b, m (s.withBus (List.replicate us.length .quiet ++ b)) = .ok (a, t.withBus b)

section
variable {α β : Type} {m : M α} {k : α → M β} {s t u : State} {us vs : List State} {a : α} {c : β}

/-- A computation that begins with another goes through its cycles first. -/
theorem Cycles.bind (h : Cycles m s us) : Cycles (m >>= k) s us :=
  ⟨fun i hi e rest x hx => by rw [M.bind_apply, h.stop i hi e rest x hx]⟩

/-- After a paced run come the cycles of what follows it. -/
theorem Paced.cycles (h : Paced m s us a t) (hk : Cycles (k a) t vs) : Cycles (m >>= k) s (us ++ vs) := by
  refine ⟨fun i hi e rest x hx => ?_⟩
  by_cases hlt : i < us.length
  · rw [List.getElem_append_left hlt] at hx
    exact h.toCycles.bind.stop i hlt e rest x hx
  · obtain ⟨j, rfl⟩ := Nat.exists_eq_add_of_le (Nat.not_lt.1 hlt)
    rw [List.getElem_append_right (by omega)] at hx
    have hj : j < vs.length := by simpa using hi
    have hrun := h.run (List.replicate j .quiet ++ e :: rest)
    rw [← List.append_assoc, List.replicate_append_replicate] at hrun
    rw [M.bind_ok hrun]
    exact hk.stop j hj e rest x (by simpa using hx)

theorem Paced.bind (h : Paced m s us a t) (hk : Paced (k a) t vs c u) : Paced (m >>= k) s (us ++ vs) c u := by
  refine ⟨h.cycles hk.toCycles, fun b => ?_⟩
  have hrun := h.run (List.replicate vs.length .quiet ++ b)
  rw [← List.append_assoc, List.replicate_append_replicate] at hrun
  rw [List.length_append, M.bind_ok hrun, hk.run]

theorem Paced.pure (a : α) (s : State) : Paced (Pure.pure a : M α) s [] a s := ⟨⟨nofun⟩, fun _ => rfl⟩

theorem Paced.gets {f : State → α} (hf : ∀ b, f (s.withBus b) = f s) : Paced (gets f) s [] (f s) s :=
  ⟨⟨nofun⟩, fun b => by rw [gets_apply, List.length_nil, List.replicate_zero, List.nil_append, hf]⟩

theorem Paced.update {f : State → State} (hf : ∀ b, f (s.withBus b) = (f s).withBus b) :
    Paced (update f) s [] () (f s) :=
  ⟨⟨nofun⟩, fun b => by rw [update_apply, List.length_nil, List.replicate_zero, List.nil_append, hf]⟩

/-- A computation of one bus cycle. -/
theorem Paced.of_cycle (hstop : ∀ e rest x, busCycle (s.withBus (e :: rest)) = .error x →
      m (s.withBus (e :: rest)) = .error x)
    (hrun : ∀ b, m (s.withBus (.quiet :: b)) = .ok (a, t.withBus b)) : Paced m s [s] a t :=
  ⟨⟨fun i hi e rest x hx => by
    obtain rfl : i = 0 := by simpa using hi
    exact hstop e rest x hx⟩, hrun⟩

end

section
variable {s : State} (hm : s.memoryOnly)

theorem busCycle_paced (s : State) : Paced busCycle s [s] () s :=
  .of_cycle (fun _ _ _ => id) fun b => busCycle_served rfl rfl b

include hm

theorem mainRead_paced (code : BusCode) (a : Word) :
    Paced (mainRead code a) s [s] (s.mainWord (psel s code) code a) s :=
  .of_cycle (fun e rest x hx => by simp only [mainRead, mainReadAs, gets_bind]; rw [M.bind_apply, hx])
    fun b => mainRead_served rfl rfl b hm code a

theorem readLoc_paced {l : Loc} (hl : l.space = .main) : Paced (readLoc l) s [s] (s.wordAt l) s := by
  simp only [readLoc, State.wordAt, hl]
  exact mainRead_paced hm _ _

omit hm in
theorem writeLoc_paced {l : Loc} (hl : l.space = .main) (v : Word) :
    Paced (writeLoc l v) s [s] () (s.putWord l v) :=
  .of_cycle (fun e rest x hx => by simp only [writeLoc, hl, mainWrite, M.bind_apply, hx])
    fun b => writeLoc_served rfl rfl b hl v

variable (hi : s.inMs = false)
include hi

theorem readReg_paced (r : Nibble) : Paced (readReg r) s [s] (s.wr r) s :=
  .bind (.gets fun _ => rfl) (readLoc_paced hm (by rw [State.regLoc_main hi]))

omit hm in
theorem writeReg_paced (r : Nibble) (v : Word) : Paced (writeReg r v) s [s] () (s.putWr r v) :=
  .bind (.gets fun _ => rfl) (writeLoc_paced (by rw [State.regLoc_main hi]) v)

theorem fetchWord_paced : Paced (fetchWord .iop) s [s] s.streamWord s.skipWord :=
  have hl : s.streamLoc.space = .main := by simp [State.streamLoc, State.space, hi]
  .bind (.gets fun _ => rfl) <| .bind (.gets fun _ => rfl) <| .bind (readLoc_paced hm hl) <|
    .bind (.update fun _ => rfl) <| .pure _ _

theorem prefetchNext_paced : Paced prefetchNext s [s] () s.latched :=
  have hl : s.opcodeLoc.space = .main := by simp [State.opcodeLoc, State.space, hi]
  .bind (.gets fun _ => rfl) <| .bind (.gets fun _ => rfl) <| .bind (readLoc_paced hm hl) <| .update fun _ => rfl

theorem srcLoc_inc_paced (r : Reg) (n : Word) :
    Paced (srcLoc (.inc r) n) s [s, s] (s.baseLoc r (s.wr r) .sop) (s.putWr r (s.wr r + n)) := by
  have hb : (s.putWr r (s.wr r + n)).baseLoc r (s.wr r) .sop = s.baseLoc r (s.wr r) .sop := by
    simp [State.baseLoc, hi]
  rw [← hb]
  exact .bind (readReg_paced hm hi r) <| .bind (writeReg_paced hi r _) <| .gets fun _ => rfl

end

/-! ### Where RESET and READY stop CLR, XOP and LIMI -/

/-- RESET before one of the cycles of a computation leaves the state of that cycle, cut short. -/
theorem Cycles.cut {m : M Unit} {s : State} {us : List State} {k : Nat} {e : BusEvent} {rest : List BusEvent}
    (hb : s.bus = List.replicate k .quiet ++ e :: rest) (hw : e.writes = []) (hr : e.reset = true)
    (h : Cycles m (s.withBus rest) us) (hbus : ∀ t ∈ us, t.bus = rest) (hk : k < us.length) :
    outcome m s = .next us[k].cutShort := by
  have hcut : busCycle (us[k].withBus (e :: rest)) = .error (.cut us[k]) := by
    have hu : us[k].withBus rest = us[k] := by rw [← hbus _ (List.getElem_mem hk)]; rfl
    simp only [busCycle, State.withBus_bus, hr, hw, if_true, List.foldl_nil]
    exact congrArg (fun t => Except.error (Stop.cut t)) hu
  have hs : m s = .error (.cut us[k]) := by
    have := h.stop k hk e rest _ hcut
    rw [← hb] at this
    exact this
  exact outcome_cut hs

/-- READY that never comes in one of the cycles is refused. -/
theorem Cycles.neverReady {m : M Unit} {s : State} {us : List State} {k : Nat} {e : BusEvent} {rest : List BusEvent}
    (hb : s.bus = List.replicate k .quiet ++ e :: rest) (hr : e.reset = false) (hy : e.ready = false)
    (h : Cycles m s us) (hk : k < us.length) : outcome m s = .refused .neverReady := by
  have hstop : busCycle (us[k].withBus (e :: rest)) = .error (.refused .neverReady) := by
    simp [busCycle, hr, hy]
  have hs := h.stop k hk e rest _ hstop
  rw [← hb] at hs
  have hs : m s = .error (.refused .neverReady) := hs
  rw [outcome, hs]

theorem memoryOnly_putWr {s : State} (hm : s.memoryOnly) (r : Reg) (v : Word) : (s.putWr r v).memoryOnly := by
  unfold State.memoryOnly
  rwa [State.putWr_params]

theorem withIntMask_eq (st w : Word) : withIntMask st (stIntMask w) = (st &&& 0xFFF0#16) ||| (w &&& 0x000F#16) := by
  have hw : (stIntMask w).setWidth 16 = w &&& 0x000F#16 := by
    apply BitVec.eq_of_toNat_eq
    have := Nat.and_two_pow_sub_one_eq_mod w.toNat 4
    simp_all [stIntMask]
    omega
  rw [withIntMask, hw]

section
variable {s : State} (hm : s.memoryOnly) (hi : s.inMs = false)
include hm hi

theorem clr_cycles (r : Reg) :
    let v := s.putWr r (s.wr r + 2#16)
    Cycles (storeWord 0x0000#16 (.inc r)) s [s, s, v, v.latched] := by
  intro v
  have hvi : v.inMs = false := by simpa [v] using hi
  have hl : (s.baseLoc r (s.wr r) .sop).space = .main := by simp [State.baseLoc, hi]
  exact (srcLoc_inc_paced hm hi r wordStep).cycles <|
    (prefetchNext_paced (memoryOnly_putWr hm r _) hvi).cycles (writeLoc_paced hl _).toCycles

theorem xopTrap_cycles (r : Reg) (n : Nibble) :
    let v := s.putWr r (s.wr r + 2#16)
    let c := v.withSt (stSet s.st 8 false)
    Cycles (xopTrap (.inc r) n) s
      [s, s, v, c, c, c.withWp (c.mainWord true .inta (BitVec.ofNat 16 (0x40 + 4 * n.toNat))).even] := by
  intro v c
  have hvm : v.memoryOnly := memoryOnly_putWr hm r _
  have hvi : v.inMs = false := by simpa [v] using hi
  have hv : v.st = s.st := by simp [v]
  have hst : Paced (stCycle fun st => stSet st 8 false) v [v] () c := by
    simp only [c, ← hv]
    exact .bind (busCycle_paced v) (.update fun _ => rfl)
  have hvector := mainRead_paced (s := c) hvm .inta (0x0040#16 + 4#16 * n.setWidth 16)
  rw [psel_high (by simp [c, stBit_stSet]) .inta nofun nofun, xopVector_eq] at hvector
  have hwp (w : Word) : Paced (wpCycle w) c [c] () (c.withWp w.even) :=
    .bind (busCycle_paced c) (.update fun _ => rfl)
  unfold xopTrap
  rw [xopVector_eq]
  refine (srcLoc_inc_paced hm hi r wordStep).cycles <| (Paced.gets fun _ => rfl).cycles <|
    (Paced.gets fun _ => rfl).cycles <| (Paced.gets fun _ => rfl).cycles <| hst.cycles <| hvector.cycles <|
    (hwp _).cycles (writeReg_paced (s := c.withWp _) hvi 11#4 _).toCycles.bind

/-- LIMI in privileged mode, past its check of the mode. -/
theorem limi_cycles (h7 : stBit s.st 7 = false) :
    Cycles (do
        let iop ← immediate
        busCycle
        if ← gets State.userMode then setPrivop
        else updateSt fun st => withIntMask st (stIntMask iop)
        prefetchNext) s
      [s, s.skipWord, s.skipWord.withSt ((s.st &&& 0xFFF0#16) ||| (s.streamWord &&& 0x000F#16))] := by
  have huser : s.skipWord.userMode = false := by simp [State.userMode, h7]
  refine (fetchWord_paced hm hi).cycles <| (busCycle_paced _).cycles <| (Paced.gets fun _ => rfl).cycles (vs := [_]) ?_
  rw [huser, if_neg Bool.false_ne_true, ← withIntMask_eq]
  exact (Paced.update fun _ => rfl).cycles (prefetchNext_paced (s := s.skipWord.withSt _) hm hi).toCycles

/-! ### What MOV sees of other masters -/

theorem prefetchNext_served {e : BusEvent} (hr : e.reset = false) (hy : e.ready = true) (b : List BusEvent) :
    prefetchNext (s.withBus (e :: b)) = .ok ((), (s.served e).latched.withBus b) := by
  have hl : s.opcodeLoc.space = .main := by simp [State.opcodeLoc, State.space, hi]
  have hread : readLoc { space := s.space, addr := s.pc, code := .iaq } (s.withBus (e :: b)) = _ :=
    readLoc_served hr hy b hm hl
  obtain ⟨m, h⟩ := served_eq s e
  rw [h] at hread ⊢
  simp only [prefetchNext, prefetchAt, gets_bind]
  exact M.bind_ok hread

/-- MOV between registers reads its source, reads the next opcode ahead and stores, each in a cycle of its own. -/
theorem mov_run {e0 e1 e2 : BusEvent} (he : ∀ e ∈ [e0, e1, e2], e.reset = false ∧ e.ready = true)
    (rest : List BusEvent) (r q : Reg) :
    let s0 := s.served e0
    let s1 := s0.served e1
    exec (.mov (.reg r) (.reg q)) (s.withBus (e0 :: e1 :: e2 :: rest)) =
      .next (((((s1.served e2).putWr q (s0.wr r)).withPrefetch (some s1.opcodeWord)).withBus rest).withSt
        (setLae (s0.wr r) s.st)) := by
  intro s0 s1
  obtain ⟨h0, h1, h2⟩ : (e0.reset = false ∧ e0.ready = true) ∧ (e1.reset = false ∧ e1.ready = true) ∧
    e2.reset = false ∧ e2.ready = true := by simpa using he
  obtain ⟨-, hst0, hi0, -, hp0, hl0⟩ := served_fields s e0
  obtain ⟨-, hst1, hi1, -, -, hl1⟩ := served_fields s0 e1
  obtain ⟨-, hst2, -, -, -, hl2⟩ := served_fields s1 e2
  have hm0 : s0.memoryOnly := by unfold State.memoryOnly; rwa [hp0]
  have hmain (t : State) (x : Reg) (ht : t.inMs = false) : (t.regLoc x).space = .main := by rw [State.regLoc_main ht]
  have hread : readLoc (s.regLoc r) (s.withBus (e0 :: e1 :: e2 :: rest)) =
      .ok (s0.wr r, s0.withBus (e1 :: e2 :: rest)) := by
    rw [readLoc_served h0.1 h0.2 _ hm (hmain s r hi), ← hl0]
    rfl
  have hpre := prefetchNext_served hm0 (hi0.trans hi) h1.1 h1.2 (e2 :: rest)
  have hwrite : writeLoc (s0.regLoc q) (s0.wr r) (s1.latched.withBus (e2 :: rest)) =
      .ok ((), (((s1.served e2).putWr q (s0.wr r)).withPrefetch (some s1.opcodeWord)).withBus rest) := by
    have hl := hmain s0 q (hi0.trans hi)
    rw [writeLoc_served h2.1 h2.2 rest hl, State.latched, served_withPrefetch, putWord_withPrefetch hl,
      ← hl1, ← hl2]
    rfl
  refine outcome_ok (s := s.withBus _) ?_
  simp only [srcLoc, dstLoc, operandLoc, gets_bind]
  refine (M.bind_ok hread).trans <| (gets_bind _ _ _).trans <| (M.bind_ok hpre).trans <| (M.bind_ok hwrite).trans ?_
  have hst : ((((s1.served e2).putWr q (s0.wr r)).withPrefetch (some s1.opcodeWord)).withBus rest).st = s.st := by
    simp [hst2, s1, hst1, s0, hst0]
  rw [updateSt_apply, hst]

end

end Sys2Proof.Machine

/-- Settles O17: every instruction takes its events from the queue in turn; CLR, XOP and LIMI pass through the states of
their cycles where nothing happens before, and stop in the one where an event stops them; MOV sees in each of its cycles
what other masters have written before it. -/
theorem resetAndMastersActBetweenCycles : Obligations.ResetAndMastersActBetweenCycles := by
  refine ⟨fun i s t => exec_cutByEvent i s t, fun r n s k e rest hi hm hb hw hr => ?cut,
    fun r s k e rest hi hm hk hb hr hy => (clr_cycles hm hi r).neverReady hb hr hy hk,
    fun r q s e0 e1 e2 rest hi hm hb he => ?mov⟩
  case cut =>
    intro u v c l
    refine ⟨fun hk => ?clr, fun hk h11 => ?xop, fun hk h7 => ?limi⟩
    case clr =>
      refine ((clr_cycles (s := u) hm hi r).cut hb hw hr ?_ hk).trans ?_
      · simp [u]
      · interval_cases k <;> rfl
    case xop =>
      rw [exec_xop_trap hi h11]
      refine ((xopTrap_cycles (s := u) hm hi r n).cut hb hw hr ?_ hk).trans ?_
      · simp [u]
      · interval_cases k <;> rfl
    case limi =>
      refine ((limi_cycles (s := u) hm hi h7).cut hb hw hr ?_ hk).trans ?_
      · simp [u]
      · interval_cases k <;> rfl
  case mov =>
    intro s0 s1 s2
    have hrun := mov_run (s := s.withBus rest) hm hi he rest r q
    rw [← hb] at hrun
    obtain ⟨hpc0, -, -, hdue0, -⟩ := served_fields (s.withBus rest) e0
    obtain ⟨hpc1, -, -, hdue1, -⟩ := served_fields s0 e1
    obtain ⟨hpc2, -, -, hdue2, -⟩ := served_fields s1 e2
    refine ⟨_, hrun, rfl, rfl, ?_, rfl, ?_, StatusIs_setLae _ _⟩
    · simp [hpc2, s1, hpc1, s0, hpc0]
    · simp [hdue2, s1, hdue1, s0, hdue0]

end
